-- ==== Sys2Proof/Word.lean ====
section
/-! DEFINITION. The word types of the machine and their plainest arithmetic (00 R3, R6). -/

-- The theorems of this file are checked one after another, so that checking it takes few threads.
set_option Elab.async false

namespace Sys2Proof

/-- A control-thread word: 64 bits (01 R13). -/
abbrev Word := BitVec 64
/-- A micro-thread register: 32 bits (03 R61). -/
abbrev MWord := BitVec 32
/-- A byte of memory. -/
abbrev Byte := BitVec 8
/-- A mask: one bit for each of up to 8,192 micro-threads (02 R27). -/
abbrev Mask := BitVec 8192
/-- A control-thread register number. -/
abbrev XReg := BitVec 5
/-- A micro-thread register number. -/
abbrev VReg := BitVec 6
/-- A logical time of 32 bits; `none` is ANCIENT (15 R307). -/
abbrev LTime := Option (BitVec 32)

end Sys2Proof
end

