-- ==== Sys2Proof/Machine/Float.lean ====
section
/-! DEFINITION. Floating-point values, exactly: formats (03 R56 to R60), decoding, the one rounding function
(03 R71 to R77), the arithmetic built on it (07 R149 to R153) and the special functions (03 R80, 07 R155). -/

namespace Sys2Proof.Machine

/-- A floating-point format: exponent and fraction widths, bias, and whether it has infinities and NaN (03 R56). -/
structure Fmt where
  eb : Nat
  mb : Nat
  bias : Nat
  ieee : Bool
deriving DecidableEq, Repr

/-- The formats of 03 R56. -/
def Fmt.fp32 : Fmt := ⟨8, 23, 127, true⟩
def Fmt.fp16 : Fmt := ⟨5, 10, 15, true⟩
def Fmt.bf16 : Fmt := ⟨8, 7, 127, true⟩
def Fmt.e4 : Fmt := ⟨4, 3, 7, false⟩
def Fmt.e5 : Fmt := ⟨5, 2, 15, false⟩
def Fmt.e2 : Fmt := ⟨2, 1, 1, false⟩

/-- Bits of a format. -/
def Fmt.width (f : Fmt) : Nat := 1 + f.eb + f.mb
/-- The code with the sign bit alone. -/
def Fmt.signBit (f : Fmt) : Nat := 2 ^ (f.eb + f.mb)
/-- The magnitude code of infinity in the formats that have one. -/
def Fmt.infCode (f : Fmt) : Nat := (2 ^ f.eb - 1) * 2 ^ f.mb
/-- The magnitude code of the largest finite value. -/
def Fmt.maxCode (f : Fmt) : Nat := if f.ieee then f.infCode - 1 else 2 ^ (f.eb + f.mb) - 1
/-- The canonical NaN (03 R74): quiet bit, sign clear. -/
def Fmt.nan (f : Fmt) : Nat := f.infCode + 2 ^ (f.mb - 1)
/-- A code with a sign. -/
def Fmt.signed (f : Fmt) (neg : Bool) (c : Nat) : Nat := if neg then f.signBit + c else c

/-- A value: a NaN (signalling or not), an infinity, or ±man × 2^exp. -/
inductive FVal where
  | nan (sig : Bool)
  | inf (neg : Bool)
  | fin (neg : Bool) (man : Nat) (exp : Int)
deriving DecidableEq, Repr

/-- The value of a code (03 R56). -/
def Fmt.decode (f : Fmt) (x : Nat) : FVal :=
  let neg := x / f.signBit % 2 == 1
  let e := x / 2 ^ f.mb % 2 ^ f.eb
  let m := x % 2 ^ f.mb
  if f.ieee && e == 2 ^ f.eb - 1 then
    if m == 0 then .inf neg else .nan (!m.testBit (f.mb - 1))
  else if e == 0 then .fin neg m (1 - (f.bias : Int) - f.mb)
  else .fin neg (2 ^ f.mb + m) ((e : Int) - f.bias - f.mb)

/-- The opposite value. -/
def FVal.neg : FVal → FVal
  | .nan g => .nan g
  | .inf n => .inf (!n)
  | .fin n m e => .fin (!n) m e
/-- A signalling NaN. -/
def FVal.isSig : FVal → Bool
  | .nan g => g
  | _ => false
/-- A NaN of either kind. -/
def FVal.isNan : FVal → Bool
  | .nan _ => true
  | _ => false

/-! ## Flags: NV, DZ, OF, UF, NX in bits 4 to 0 (03 R83) -/

/-- A set of flags. -/
abbrev Flags := BitVec 5
def flNV : Flags := 16
def flDZ : Flags := 8
def flOF : Flags := 4
def flUF : Flags := 2
def flNX : Flags := 1
/-- A flag when a condition holds. -/
def flagIf (b : Bool) (f : Flags) : Flags := if b then f else 0
/-- NV when any operand is a signalling NaN (03 R74). -/
def sigNV (vs : List FVal) : Flags := flagIf (vs.any FVal.isSig) flNV

/-- Rounding mode codes (03 R71). -/
abbrev RMode := BitVec 2
def rne : RMode := 0
def rtz : RMode := 1
def rdn : RMode := 2
def rup : RMode := 3

/-- Whether a magnitude with kept part `k` and a dropped part `rem` of `2^sh` is rounded up. -/
def roundsUp (mode : RMode) (neg : Bool) (k rem sh : Nat) : Bool :=
  if rem = 0 then false
  else match mode.toNat with
  | 0 => decide (2 * rem > 2 ^ sh ∨ (2 * rem = 2 ^ sh ∧ k % 2 = 1))
  | 1 => false
  | 2 => neg
  | _ => !neg

/-- Round man × 2^exp to a multiple of 2^q: the multiple, and whether it is inexact. -/
def roundTo (mode : RMode) (neg : Bool) (man : Nat) (exp q : Int) : Nat × Bool :=
  if q ≤ exp then (man * 2 ^ (exp - q).toNat, false)
  else
    -- a magnitude below half a unit rounds alike wherever it lies below
    let sh := min (q - exp).toNat (man.log2 + 2)
    let k := man / 2 ^ sh
    let rem := man % 2 ^ sh
    (k + (roundsUp mode neg k rem sh).toNat, rem != 0)

/-- Round a finite nonzero or zero magnitude into a format. `sticky` says that the exact value lies strictly
between man and man + 1 (03 R73, R75, R76). Where 16 R328 claims that a split under any VFRM is exact up to (2 - 2^-8) * 2^127 and R75
sends a value above the largest BF16 number to infinity, R75 is followed. DESIGN CHOICE (log 71). -/
def Fmt.roundMag (f : Fmt) (mode : RMode) (neg : Bool) (man : Nat) (exp : Int) (sticky : Bool) : Nat × Flags :=
  let (man, exp) := if sticky then (4 * man + 1, exp - 2) else (man, exp)
  if man = 0 then (f.signed neg 0, 0)
  else
    let e : Int := man.log2 + exp
    let emin : Int := 1 - f.bias
    let q := max e emin - f.mb
    let (r, inexact) := roundTo mode neg man exp q
    let (u, _) := roundTo mode neg man exp (e - f.mb)
    let tiny := decide ((if u = 2 ^ (f.mb + 1) then e + 1 else e) < emin)
    let code := (q + f.mb + f.bias - 1).toNat * 2 ^ f.mb + r
    if f.maxCode < code then
      let big := if f.ieee ∧ (mode = rne ∨ (mode = rdn ∧ neg) ∨ (mode = rup ∧ !neg)) then f.infCode else f.maxCode
      (f.signed neg big, flOF ||| flNX)
    else (f.signed neg code, flagIf inexact flNX ||| flagIf (inexact && tiny) flUF)

/-- Round a value into an IEEE format or BF16: a NaN becomes canonical, a signalling one raises NV (03 R74). -/
def Fmt.round (f : Fmt) (mode : RMode) (v : FVal) : Nat × Flags :=
  match v with
  | .nan g => (f.nan, flagIf g flNV)
  | .inf n => (f.signed n f.infCode, 0)
  | .fin n m e => f.roundMag mode n m e false

/-- Narrow a value into a finite-only format; the last result says that the kv bit is cleared (03 R76). -/
def Fmt.narrow (f : Fmt) (mode : RMode) (v : FVal) : Nat × Flags × Bool :=
  match v with
  | .nan _ => (0, flNV, true)
  | .inf n => (f.signed n f.maxCode, flOF ||| flNX, false)
  | .fin n m e => let (c, fl) := f.roundMag mode n m e false; (c, fl, false)

/-- The invalid operation's result (03 R74). -/
def Fmt.invalid (f : Fmt) : Nat × Flags := (f.nan, flNV)

/-! ## Arithmetic (07 R149) -/

/-- Signed integer of a magnitude at a common exponent. -/
def scaledInt (neg : Bool) (man : Nat) (exp q : Int) : Int :=
  let v : Int := man * 2 ^ (exp - q).toNat
  if neg then -v else v

/-- The exact sum of two values; a zero sum of opposite signs is +0, or −0 under RDN (07 R149). -/
def FVal.add (mode : RMode) (a b : FVal) : FVal × Bool :=
  match a, b with
  | .nan _, _ => (.nan false, false)
  | _, .nan _ => (.nan false, false)
  | .inf x, .inf y => if x = y then (.inf x, false) else (.nan false, true)
  | .inf x, _ => (.inf x, false)
  | _, .inf y => (.inf y, false)
  | .fin x m e, .fin y n g =>
    let q := min e g
    let v := scaledInt x m e q + scaledInt y n g q
    let zeroNeg := if m = 0 ∧ n = 0 ∧ x = y then x else mode == rdn
    (.fin (if v = 0 then zeroNeg else decide (v < 0)) v.natAbs q, false)

/-- The exact product of two values; the flag says that it is 0 × ∞. -/
def FVal.mul (a b : FVal) : FVal × Bool :=
  match a, b with
  | .nan _, _ => (.nan false, false)
  | _, .nan _ => (.nan false, false)
  | .inf x, .inf y => (.inf (x != y), false)
  | .inf x, .fin y n _ => if n = 0 then (.nan false, true) else (.inf (x != y), false)
  | .fin x m _, .inf y => if m = 0 then (.nan false, true) else (.inf (x != y), false)
  | .fin x m e, .fin y n g => (.fin (x != y) (m * n) (e + g), false)

/-- fadd: one rounding of the exact sum. -/
def Fmt.add (f : Fmt) (mode : RMode) (x y : Nat) : Nat × Flags :=
  let a := f.decode x
  let b := f.decode y
  let (v, bad) := FVal.add mode a b
  let (c, fl) := f.round mode v
  (c, fl ||| sigNV [a, b] ||| flagIf bad flNV)
/-- fsub: one rounding of the exact difference. -/
def Fmt.sub (f : Fmt) (mode : RMode) (x y : Nat) : Nat × Flags :=
  let a := f.decode x
  let b := f.decode y
  let (v, bad) := FVal.add mode a b.neg
  let (c, fl) := f.round mode v
  (c, fl ||| sigNV [a, b] ||| flagIf bad flNV)
/-- fmul: one rounding of the exact product. -/
def Fmt.mul (f : Fmt) (mode : RMode) (x y : Nat) : Nat × Flags :=
  let a := f.decode x
  let b := f.decode y
  let (v, bad) := FVal.mul a b
  let (c, fl) := f.round mode v
  (c, fl ||| sigNV [a, b] ||| flagIf bad flNV)
/-- fma: one rounding of ±(a × b) ± c (07 R153). -/
def Fmt.fma (f : Fmt) (mode : RMode) (negProduct negAddend : Bool) (x y z : Nat) : Nat × Flags :=
  let a := f.decode x
  let b := f.decode y
  let c := f.decode z
  let (p, bad1) := FVal.mul a b
  let p := if negProduct then p.neg else p
  let (v, bad2) := FVal.add mode p (if negAddend then c.neg else c)
  let (r, fl) := f.round mode v
  (r, fl ||| sigNV [a, b, c] ||| flagIf (bad1 || bad2) flNV)

/-- Extra bits of a quotient or a root: enough for every format with a sticky bit below. -/
def guardBits : Nat := 128

/-- Round a quotient of magnitudes, p / q × 2^e. -/
def Fmt.ratio (f : Fmt) (mode : RMode) (neg : Bool) (p q : Nat) (e : Int) : Nat × Flags :=
  let n := p * 2 ^ guardBits
  f.roundMag mode neg (n / q) (e - guardBits) (n % q != 0)

/-- fdiv (07 R149). -/
def Fmt.div (f : Fmt) (mode : RMode) (x y : Nat) : Nat × Flags :=
  let a := f.decode x
  let b := f.decode y
  match a, b with
  | .fin s m e, .fin t n g =>
    if n = 0 then
      if m = 0 then f.invalid else (f.signed (s != t) f.infCode, flDZ)
    else if m = 0 then (f.signed (s != t) 0, 0)
    else f.ratio mode (s != t) m n (e - g)
  | .inf _, .inf _ => f.invalid
  | .inf s, .fin t _ _ => (f.signed (s != t) f.infCode, 0)
  | .fin s _ _, .inf t => (f.signed (s != t) 0, 0)
  | _, _ => (f.nan, sigNV [a, b])

/-- Bit by bit, the integer square root. -/
def isqrtFrom (n : Nat) : Nat → Nat → Nat
  | 0, r => r
  | k + 1, r => isqrtFrom n k (if (r + 2 ^ k) * (r + 2 ^ k) ≤ n then r + 2 ^ k else r)
/-- The integer square root of a number. -/
def isqrt (n : Nat) : Nat := isqrtFrom n (n.log2 / 2 + 1) 0

/-- fsqrt (07 R149). -/
def Fmt.sqrt (f : Fmt) (mode : RMode) (x : Nat) : Nat × Flags :=
  match f.decode x with
  | .nan g => (f.nan, flagIf g flNV)
  | .inf neg => if neg then f.invalid else (f.infCode, 0)
  | .fin neg m e =>
    if m = 0 then (f.signed neg 0, 0)
    else if neg then f.invalid
    else
      let (m, e) := if e % 2 = 0 then (m, e) else (2 * m, e - 1)
      let n := m * 2 ^ (2 * guardBits)
      let r := isqrt n
      f.roundMag mode false r (e / 2 - guardBits) (r * r != n)

/-! ## Comparison, sign and class (07 R150 to R152) -/

/-- The order of two values that are no NaN; −0 and +0 are equal. -/
def FVal.lt (a b : FVal) : Bool :=
  match a, b with
  | .inf x, .inf y => x && !y
  | .inf x, _ => x
  | _, .inf y => !y
  | .fin x m e, .fin y n g => let q := min e g; decide (scaledInt x m e q < scaledInt y n g q)
  | _, _ => false
/-- Equality of values. -/
def FVal.eq (a b : FVal) : Bool := !a.isNan && !b.isNan && !a.lt b && !b.lt a
/-- The sign bit of a value that is no NaN. -/
def FVal.sign : FVal → Bool
  | .inf n => n
  | .fin n _ _ => n
  | .nan _ => false

/-- fmin or fmax: minimumNumber, maximumNumber; −0 is less than +0 (07 R150). -/
def Fmt.minmax (f : Fmt) (wantMax : Bool) (x y : Nat) : Nat × Flags :=
  let a := f.decode x
  let b := f.decode y
  let fl := sigNV [a, b]
  let less := a.lt b || (a.eq b && a.sign && !b.sign)
  if a.isNan && b.isNan then (f.nan, fl)
  else if a.isNan then (y, fl)
  else if b.isNan then (x, fl)
  else (if less != wantMax then x else y, fl)

/-- feq, flt, fle (07 R151): the relation and its flags. -/
def Fmt.compare (f : Fmt) (rel : Nat) (x y : Nat) : Bool × Flags :=
  let a := f.decode x
  let b := f.decode y
  let nan := a.isNan || b.isNan
  match rel with
  | 0 => (a.eq b, sigNV [a, b])
  | 1 => (!nan && a.lt b, flagIf nan flNV)
  | _ => (!nan && !b.lt a, flagIf nan flNV)

/-- The magnitude of a with a sign; a NaN gives the canonical NaN (07 R152). -/
def Fmt.withSign (f : Fmt) (x : Nat) (neg : Bool) : Nat :=
  if (f.decode x).isNan then f.nan else f.signed neg (x % f.signBit)
/-- The sign bit of a code. -/
def Fmt.signOf (f : Fmt) (x : Nat) : Bool := x / f.signBit % 2 == 1

/-- fclass: the index of the one bit set (07 R152). -/
def Fmt.classOf (f : Fmt) (x : Nat) : Nat :=
  let neg := f.signOf x
  let sub := x / 2 ^ f.mb % 2 ^ f.eb == 0
  match f.decode x with
  | .nan g => if g then 8 else 9
  | .inf n => if n then 0 else 7
  | .fin _ m _ =>
    if m = 0 then (if neg then 3 else 4)
    else if sub then (if neg then 2 else 5)
    else if neg then 1 else 6

/-! ## Integers (03 R77) -/

/-- Conversion to a two's-complement integer of `n` bits, saturating with NV (03 R77). -/
def toIntBits (mode : RMode) (n : Nat) (v : FVal) : Nat × Flags :=
  let hi : Int := 2 ^ (n - 1) - 1
  let lo : Int := -(2 ^ (n - 1))
  let bits := fun i : Int => (i % 2 ^ n).toNat
  match v with
  | .nan _ => (bits hi, flNV)
  | .inf neg => (bits (if neg then lo else hi), flNV)
  | .fin neg m e =>
    let (k, inexact) := roundTo mode neg m e 0
    let i : Int := if neg then -k else k
    if i < lo then (bits lo, flNV) else if hi < i then (bits hi, flNV) else (bits i, flagIf inexact flNX)

/-- Conversion from an integer: exact, then one rounding. -/
def Fmt.ofInt (f : Fmt) (mode : RMode) (i : Int) : Nat × Flags := f.roundMag mode (decide (i < 0)) i.natAbs 0 false

/-! ## Special functions (03 R80, 07 R154, R155)

Each is evaluated in fixed point with `fpBits` fraction bits, and rounded from the lower end of an interval that holds the
exact value. That the interval never holds a rounding boundary is UNVERIFIED (log 9). -/

/-- Fraction bits of the evaluation. -/
def fpBits : Nat := 256
/-- One, in fixed point. -/
def fpOne : Nat := 2 ^ fpBits
/-- Half the width of the interval around an evaluated value, in units of the last bit. -/
def fpSlack : Nat := 2 ^ 40
/-- The product of two fixed-point numbers. -/
def fpMul (a b : Nat) : Nat := a * b / fpOne

/-- Σ z^(2k+1) / (2k+1) for |z| below 1: the inverse hyperbolic tangent. -/
def atanhSum (z2 : Nat) : Nat → Nat → Nat → Nat
  | 0, _, _ => 0
  | n + 1, k, p => p / (2 * k + 1) + atanhSum z2 n (k + 1) (fpMul p z2)
/-- The natural logarithm of a ratio p / q from 1 to 2. -/
def lnRatio (p q : Nat) : Nat :=
  let z := (p - q) * fpOne / (p + q)
  2 * atanhSum (fpMul z z) 90 0 z
/-- ln 2. -/
def ln2 : Nat := lnRatio 2 1

/-- Σ y^k / (k + 1)!: (e^y − 1) / y, for y from 0 to about 1. -/
def expm1Sum (y : Nat) : Nat → Nat → Nat → Nat
  | 0, _, _ => 0
  | n + 1, k, t => t + expm1Sum y n (k + 1) (fpMul t y / (k + 2))
/-- (e^y − 1) / y. -/
def expm1Over (y : Nat) : Nat := expm1Sum y 70 0 fpOne
/-- 2^f for a fraction f in fixed point. -/
def exp2Frac (f : Nat) : Nat := let y := fpMul f ln2; fpOne + fpMul y (expm1Over y)

/-- π by Machin's formula: the alternating sum of the inverse tangent of 1/n. -/
def atanInv (n2 : Nat) : Nat → Nat → Nat → Int
  | 0, _, _ => 0
  | j + 1, k, p => (if k % 2 = 0 then (p / (2 * k + 1) : Int) else -(p / (2 * k + 1) : Int)) + atanInv n2 j (k + 1) (p / n2)
/-- π in fixed point. -/
def fpPi : Nat := (16 * atanInv 25 64 0 (fpOne / 5) - 4 * atanInv 57121 20 0 (fpOne / 239)).toNat

/-- Alternating Taylor sum: Σ (−1)^k u^k / ((2k + s)!) with first term `t`. -/
def altSum (u s : Nat) : Nat → Nat → Nat → Int
  | 0, _, _ => 0
  | n + 1, k, t =>
    (if k % 2 = 0 then (t : Int) else -(t : Int)) + altSum u s n (k + 1) (fpMul t u / ((2 * k + s + 1) * (2 * k + s + 2)))
/-- sin(πr) / r for a fixed-point r from 0 to 1/4. -/
def sinpiOver (r : Nat) : Nat :=
  let pr := fpMul fpPi r
  fpMul fpPi (altSum (fpMul pr pr) 1 50 0 fpOne).toNat
/-- cos(πr) for a fixed-point r from 0 to 1/4. -/
def cospiOf (r : Nat) : Nat := let pr := fpMul fpPi r; (altSum (fpMul pr pr) 0 50 0 fpOne).toNat

/-- man × 2^exp in fixed point, dropping bits below. -/
def toFixed (man : Nat) (exp : Int) : Nat :=
  let sh := exp + fpBits
  if 0 ≤ sh then man * 2 ^ sh.toNat else man / 2 ^ (-sh).toNat

/-- Round an inexact value that lies above (v − slack) × 2^exp and within twice `slack` of it (RNE; log 9). -/
def Fmt.roundNear (f : Fmt) (neg : Bool) (v slack : Nat) (exp : Int) : Nat × Flags :=
  let (c, fl) := f.roundMag rne neg (v - slack) exp true
  (c, fl ||| flNX)

/-- frcp (07 R155). -/
def Fmt.frcp (f : Fmt) (x : Nat) : Nat × Flags :=
  match f.decode x with
  | .nan g => (f.nan, flagIf g flNV)
  | .inf n => (f.signed n 0, 0)
  | .fin n m e => if m = 0 then (f.signed n f.infCode, flDZ) else f.ratio rne n 1 m (-e)

/-- frsq (07 R155): 1/√(m × 2^e) with e even is √(2^2g / m) × 2^(−e/2 − g). -/
def Fmt.frsq (f : Fmt) (x : Nat) : Nat × Flags :=
  match f.decode x with
  | .nan g => (f.nan, flagIf g flNV)
  | .inf n => if n then f.invalid else (0, 0)
  | .fin n m e =>
    if m = 0 then (f.signed n f.infCode, flDZ)
    else if n then f.invalid
    else
      let (m, e) := if e % 2 = 0 then (m, e) else (2 * m, e - 1)
      let t := 2 ^ (2 * guardBits)
      let r := isqrt (t / m)
      f.roundMag rne false r (-(e / 2) - guardBits) (r * r * m != t)

/-- fexp2 (07 R155). -/
def Fmt.fexp2 (f : Fmt) (x : Nat) : Nat × Flags :=
  match f.decode x with
  | .nan g => (f.nan, flagIf g flNV)
  | .inf n => (if n then 0 else f.infCode, 0)
  | .fin n m e =>
    let one := f.roundMag rne false 1 0 false
    if m = 0 then one
    else if 10 ≤ (m.log2 : Int) + e then
      if n then (0, flUF ||| flNX) else (f.infCode, flOF ||| flNX)
    else if (m.log2 : Int) + e < -64 then (one.1, flNX)
    else
      let v := scaledInt n m (e + fpBits) 0
      let k := v / fpOne
      let r := (v % fpOne).toNat
      if r = 0 then f.roundMag rne false 1 k false
      else f.roundNear false (exp2Frac r) fpSlack (k - fpBits)

/-- flog2 (07 R155). -/
def Fmt.flog2 (f : Fmt) (x : Nat) : Nat × Flags :=
  match f.decode x with
  | .nan g => (f.nan, flagIf g flNV)
  | .inf n => if n then f.invalid else (f.infCode, 0)
  | .fin n m e =>
    if m = 0 then (f.signed true f.infCode, flDZ)
    else if n then f.invalid
    else
      let k : Int := m.log2 + e
      if m = 2 ^ m.log2 then f.ofInt rne k
      else
        let l := lnRatio m (2 ^ m.log2) * fpOne / ln2
        let v : Int := k * fpOne + l
        f.roundNear (decide (v < 0)) v.natAbs fpSlack (-(fpBits : Int))

/-- sin(πr) for an exact r = m × 2^e from 0 to 1/2, with no exact value among them but 0 and 1/2. -/
def Fmt.sinReduced (f : Fmt) (neg : Bool) (m : Nat) (e : Int) : Nat × Flags :=
  -- below 1/4 the sine of πr, above it the cosine of π(1/2 − r)
  if (scaledInt false m (e + 300) 0) * 4 ≤ 2 ^ 300 then
    f.roundNear neg (m * sinpiOver (toFixed m e)) (m * fpSlack) (e - fpBits)
  else f.roundNear neg (cospiOf (fpOne / 2 - toFixed m e)) fpSlack (-(fpBits : Int))

/-- The position of |x| in its period of 2: quarters passed, and the exact rest below 1/2 as r × 2^−300. -/
def piReduce (m : Nat) (e : Int) : Nat × Nat :=
  let v := if 1 ≤ e then 0 else (scaledInt false m (e + 300) 0).toNat % 2 ^ 301
  let v := if 1 ≤ e then 0 else v
  (v / 2 ^ 299, v % 2 ^ 299)

/-- sin(π(q/2 + r)) for a quarter q and a rest r × 2^−300, of a value with sign `neg` when zero. -/
def Fmt.sinQuarter (f : Fmt) (neg : Bool) (q r : Nat) : Nat × Flags :=
  let flip := decide (2 ≤ q % 4)
  if q % 2 = 0 then
    if r = 0 then (f.signed neg 0, 0) else f.sinReduced (neg != flip) r (-300)
  else if r = 0 then ((f.roundMag rne (neg != flip) 1 0 false).1, 0)
  else f.sinReduced (neg != flip) (2 ^ 299 - r) (-300)

/-- fsinpi (07 R155). -/
def Fmt.fsinpi (f : Fmt) (x : Nat) : Nat × Flags :=
  match f.decode x with
  | .nan g => (f.nan, flagIf g flNV)
  | .inf _ => f.invalid
  | .fin n m e =>
    if m = 0 then (f.signed n 0, 0)
    else let (q, r) := piReduce m e; f.sinQuarter n q r

/-- fcospi (07 R155): cos(πx) is sin(π(|x| + 1/2)), and an exact zero is +0. -/
def Fmt.fcospi (f : Fmt) (x : Nat) : Nat × Flags :=
  match f.decode x with
  | .nan g => (f.nan, flagIf g flNV)
  | .inf _ => f.invalid
  | .fin _ m e => let (q, r) := piReduce m e; f.sinQuarter false (q + 1) r

/-- e^−|x| as a fixed-point fraction from 1/2 to 1 or so and a power of two; |x| below 2^10. -/
def expNeg (m : Nat) (e : Int) : Nat × Int :=
  let v : Int := -((toFixed m e * fpOne / ln2 : Nat) : Int)
  (exp2Frac (v % fpOne).toNat, v / fpOne)

/-- ftanh (07 R155): with y = 2|x|, (e^y − 1) / (e^y + 1). -/
def Fmt.ftanh (f : Fmt) (x : Nat) : Nat × Flags :=
  match f.decode x with
  | .nan g => (f.nan, flagIf g flNV)
  | .inf n => ((f.roundMag rne n 1 0 false).1, 0)
  | .fin n m e =>
    if m = 0 then (f.signed n 0, 0)
    else if 8 ≤ (m.log2 : Int) + e then ((f.roundMag rne n 1 0 false).1, flNX)
    else if (m.log2 : Int) + e < -1 then
      let y := toFixed (2 * m) e
      let ex := expm1Over y
      let r := ex * fpOne / (fpMul y ex + 2 * fpOne)
      f.roundNear n (2 * m * r) (2 * m * fpSlack) (e - fpBits)
    else
      let (p, k) := expNeg (2 * m) e
      let t := toFixed p (k - fpBits)
      f.roundNear n ((fpOne - t) * fpOne / (fpOne + t)) fpSlack (-(fpBits : Int))

/-- fsigm (07 R155). -/
def Fmt.fsigm (f : Fmt) (x : Nat) : Nat × Flags :=
  match f.decode x with
  | .nan g => (f.nan, flagIf g flNV)
  | .inf n => (if n then 0 else (f.roundMag rne false 1 0 false).1, 0)
  | .fin n m e =>
    if m = 0 then f.roundMag rne false 1 (-1) false
    else if 8 ≤ (m.log2 : Int) + e then
      if n then (0, flUF ||| flNX) else ((f.roundMag rne false 1 0 false).1, flNX)
    else
      let (p, k) := expNeg m e
      let t := toFixed p (k - fpBits)
      if n then f.roundNear false (p * fpOne / (fpOne + t)) fpSlack (k - fpBits)
      else f.roundNear false (fpOne * fpOne / (fpOne + t)) fpSlack (-(fpBits : Int))

end Sys2Proof.Machine
end

