-- ==== Sys2Proof/Config.lean ====
section
/-! DEFINITION. What the part fixes (01 Skeub at a glance) and the free values: constants without a body for
what the manual leaves open, so that no proof can see their value. -/

namespace Sys2Proof.Config

/-- Enabled cores of the module (01 R10). -/
def cores : Nat := 192
/-- Cores of one compute die (01 R10). -/
def coresPerDie : Nat := 48
/-- Bytes of a core's stash (01 R13). -/
def stashBytes : Nat := 0x20_0000
/-- Bytes of a core's flysheet (01 R13). -/
def flysheetBytes : Nat := 0x180_0000
/-- Bytes of the accumulator window and of the register window (13 R278). -/
def partBytes : Nat := 0x4_0000
/-- Bytes of low-power DDR (13 R277). -/
def ddrBytes : Nat := 0x80_0000_0000
/-- First device-physical address of host memory (13 R277). -/
def hostBase : Nat := 0x100_0000_0000
/-- Base of the core windows and the size of one (01 R10). -/
def windowBase : Nat := 0x80_0000_0000
def windowBytes : Nat := 0x400_0000
/-- First address after the core windows (13 R277). -/
def windowEnd : Nat := 0x83_0000_0000
/-- Basecamp registers and the notify aperture (13 R277). -/
def basecampBase : Nat := 0xC0_0000_0000
def basecampEnd : Nat := 0xC1_0000_0000
/-- The device-physical space has 56 bits (13 R277). -/
def physEnd : Nat := 0x100_0000_0000_0000
/-- Pages that one address space may pin (11 R245). -/
def pinLimit : Nat := 16384
/-- Hardware address-space tags (22 R353). -/
def asidTags : Nat := 4096
/-- Range matcher entries (23 R379). -/
def matcherEntries : Nat := 1024
/-- Bytes of graph snapshot storage (23 R381). -/
def snapshotBytes : Nat := 0x40_0000
/-- The largest save record without live prefixes (23 R372). -/
def saveFixed : Nat := 1586176
/-- Cycles in one microsecond of the 2.5 GHz clock (00 R4, 23 R378). -/
def cyclesPerMicro : Nat := 2500

/-- Free value: whether a word of a block fetched from the block cache after its bytes changed without a
fence.i is the word now in memory (02 R36). Applied to the counter of free values. -/
opaque staleIsNew : Nat → Bool
/-- Free value: whether host memory backs a host physical address (13 R277). DESIGN CHOICE (log 8). -/
opaque hostBacks : Nat → Bool
/-- Free value: the signature by the device identity key over a report, byte by byte (24 R402). DESIGN CHOICE (log 59). -/
opaque identitySign : List Byte → Nat → Byte
/-- Free value: the flash's identity area, the public key of the device and its certificate chain, byte by byte (24 R402).
DESIGN CHOICE (log 59). -/
opaque identityArea : Nat → Byte
/-- Free value: the permissions and the object type of the capabilities to a ring, a status block and record pointers (24 R392).
DESIGN CHOICE (log 69). -/
opaque capPerms : Nat → BitVec 8
opaque capType : Nat → BitVec 8
/-- Free value: the serial identity of the device, byte by byte (24 R402). DESIGN CHOICE (log 59). -/
opaque serial : Nat → Byte
/-- Free value: the fused key hash, byte by byte (24 R401). DESIGN CHOICE (log 59). -/
opaque fusedKeyHash : Nat → Byte
/-- Free value: an element of a contribution that a peer module sends to a collective (10 R228, 15 R323). Applied to
the counter of free values. -/
opaque peerElement : Nat → Nat
/-- Free value: how often an event of 21 R343 that this model does not resolve happened on a core in a cycle: event,
core, cycle. -/
opaque eventCount : Nat → Nat → Nat → Nat
/-- Free value: an address that a save record has no room for (22 R365, R366): stval of a breakpoint restored pending,
the instruction address of a restored carrier word. Applied to the counter of free values. -/
opaque restoredAddr : Nat → BitVec 64
/-- Free value: the guyline that carries a peer member's collective data (10 R231, 25 R408): by member word.
DESIGN CHOICE (log 15). -/
opaque linkOf : Nat → Nat
/-- Free value: the number of this module among the modules that take part in a collective (10 R228). DESIGN CHOICE (log 14). -/
opaque moduleNumber : Nat
/-- Free value: the module power the sensors measure (25 R413). DESIGN CHOICE (log 58). -/
opaque measuredPower : Nat → Nat

end Sys2Proof.Config
end

