-- ==== Sys2Proof/Syntax.lean ====
section
/-! DEFINITION. The instructions and steps of the part: one constructor of `Instr` for each row of
spec/opcode_table.json, and the small types their operands take. Rows without an encoding are steps of
agents other than a fetching thread (95 What each step holds). -/

namespace Sys2Proof

/-- The operations of an atomic (05 R113, 08 R172). -/
inductive AmoOp where
  | swap | add | and | or | xor | min | max | minu | maxu | cas
deriving DecidableEq, Repr

/-- The three vector queues (02 R30). -/
inductive VQueue where
  | load | compute | store
deriving DecidableEq, Repr

/-- What an access does, for translation and for the cause of its fault (22 R352, R354). -/
inductive Access where
  | fetch | load | store
deriving DecidableEq, Repr

/-- How a CSR instruction combines its source with the old value (RISC-V Zicsr, 00 R1). -/
inductive CsrOp where
  | write | set | clear
deriving DecidableEq, Repr

/-- The three flag CSRs (03 R83, R84). -/
inductive FlagCsr where
  | vfflags | vffirsta | vffirstb
deriving DecidableEq, Repr

/-- The target of a register write that has no row of its own (00 R5): a CSR number, or a device-physical
address in the basecamp range with the size of the write. -/
inductive RegTarget where
  | csr (num : BitVec 12)
  | mmio (pa bytes : Nat)
deriving DecidableEq, Repr

/-- RISC-V scalar loads: size as log2 of the bytes, and whether the value is sign-extended. -/
structure LoadKind where
  size : BitVec 2
  signed : Bool
deriving DecidableEq, Repr

/-- RISC-V scalar stores: size as log2 of the bytes. -/
structure StoreKind where
  size : BitVec 2
deriving DecidableEq, Repr

/-- The source of a write that the lantern holds: a PCIe function, or an agent number (24 R398, 15 R316). -/
inductive LanternSource where
  | function (n : Nat)
  | agent (n : Nat)
deriving DecidableEq, Repr

/-- A bind record of the slot table, without CMD and SLOT (23 R382). -/
structure BindRec where
  gangIx : Nat
  gangSize : Nat
  cls : Nat
  commit : Nat
  gangId : Nat
  region : Nat
  asid : Nat
  entry : BitVec 64
  arg : BitVec 64
  jobId : BitVec 64
  grant : Nat
  restore : Bool
  ncommit : Nat
  lives : Nat
  ctx : Nat
  liveb : Nat
  rootPpn : Nat
deriving DecidableEq, Repr

/-- One constructor for each row of the table of operations (05, and the rule each docstring names). The steps
that take nothing stand last, after those that only the environment starts. -/
inductive Instr where
  /-- R127 Micro-thread word: lane-wise wrapping sum of A and B into D. -/
  | add (w : BitVec 2) (d a b : VReg)
  /-- R127 Micro-thread word: lane-wise wrapping difference A minus B into D. -/
  | sub (w : BitVec 2) (d a b : VReg)
  /-- R127 Micro-thread word: bitwise and of A and B into D. -/
  | and (w : BitVec 2) (d a b : VReg)
  /-- R127 Micro-thread word: bitwise or of A and B into D. -/
  | or (w : BitVec 2) (d a b : VReg)
  /-- R127 Micro-thread word: bitwise exclusive or of A and B into D. -/
  | xor (w : BitVec 2) (d a b : VReg)
  /-- R127 Micro-thread word: A and not B into D. -/
  | andn (w : BitVec 2) (d a b : VReg)
  /-- R127 Micro-thread word: lane-wise logical left shift of A by B mod n. -/
  | sll (w : BitVec 2) (d a b : VReg)
  /-- R127 Micro-thread word: lane-wise logical right shift of A by B mod n. -/
  | srl (w : BitVec 2) (d a b : VReg)
  /-- R127 Micro-thread word: lane-wise arithmetic right shift of A by B mod n. -/
  | sra (w : BitVec 2) (d a b : VReg)
  /-- R127 Micro-thread word: signed lesser of A and B. -/
  | min (w : BitVec 2) (d a b : VReg)
  /-- R127 Micro-thread word: signed greater of A and B. -/
  | max (w : BitVec 2) (d a b : VReg)
  /-- R127 Micro-thread word: unsigned lesser of A and B. -/
  | minu (w : BitVec 2) (d a b : VReg)
  /-- R127 Micro-thread word: unsigned greater of A and B. -/
  | maxu (w : BitVec 2) (d a b : VReg)
  /-- R127 Micro-thread word: 1 in each lane where A is signed-less than B, else 0. -/
  | slt (w : BitVec 2) (d a b : VReg)
  /-- R127 Micro-thread word: 1 in each lane where A is unsigned-less than B, else 0. -/
  | sltu (w : BitVec 2) (d a b : VReg)
  /-- R127 Micro-thread word: 1 in each lane where A equals B, else 0. -/
  | seq (w : BitVec 2) (d a b : VReg)
  /-- R127 Micro-thread word: low n bits of the lane product. -/
  | mul (w : BitVec 2) (d a b : VReg)
  /-- R127 Micro-thread word: high half of the signed lane product. -/
  | mulh (w : BitVec 2) (d a b : VReg)
  /-- R127 Micro-thread word: high half of the unsigned lane product. -/
  | mulhu (w : BitVec 2) (d a b : VReg)
  /-- R128 Micro-thread word: signed division towards zero with RISC-V M results for zero and overflow. -/
  | div (w : BitVec 2) (d a b : VReg)
  /-- R128 Micro-thread word: unsigned division; divide by zero gives all ones. -/
  | divu (w : BitVec 2) (d a b : VReg)
  /-- R128 Micro-thread word: signed remainder with RISC-V M special cases. -/
  | rem (w : BitVec 2) (d a b : VReg)
  /-- R128 Micro-thread word: unsigned remainder; divide by zero gives A. -/
  | remu (w : BitVec 2) (d a b : VReg)
  /-- R127 Micro-thread word: count of leading zero bits per lane. -/
  | clz (w : BitVec 2) (d a : VReg)
  /-- R127 Micro-thread word: count of trailing zero bits per lane. -/
  | ctz (w : BitVec 2) (d a : VReg)
  /-- R127 Micro-thread word: count of one bits per lane. -/
  | popc (w : BitVec 2) (d a : VReg)
  /-- R131 Micro-thread word: D takes B if A is nonzero, else C. -/
  | sel (d a b c : VReg)
  /-- R132 Micro-thread word: extracts a bit field of A, zero- or sign-extended, into D. -/
  | bfx (sign : Bool) (d a : VReg) (pos len : BitVec 6)
  /-- R133 Micro-thread word: inserts the low bits of A into a field of D. -/
  | bfi (d a : VReg) (pos len : BitVec 6)
  /-- R134 Micro-thread word: reads register A plus index B into D, fault 2 if beyond NREGS. -/
  | rget (d a b : VReg)
  /-- R134 Micro-thread word: writes A into register D plus index B, fault 2 if beyond NREGS. -/
  | rput (d a b : VReg)
  /-- R136 Micro-thread word: writes the micro-thread index into D. -/
  | mtid (d : VReg)
  /-- R137 Micro-thread word: takes and empties the link slot value into D at block start. -/
  | lnkrd (d : VReg)
  /-- R138 Micro-thread word: copies A into the delivery buffer for delivery at block end. -/
  | lnkwr (a : VReg)
  /-- R129 Micro-thread word: 32-bit sum of A and the sign-extended imm14. -/
  | addi (d a : VReg) (imm : BitVec 14)
  /-- R129 Micro-thread word: A and sign-extended imm14. -/
  | andi (d a : VReg) (imm : BitVec 14)
  /-- R129 Micro-thread word: A or sign-extended imm14. -/
  | ori (d a : VReg) (imm : BitVec 14)
  /-- R129 Micro-thread word: A xor sign-extended imm14. -/
  | xori (d a : VReg) (imm : BitVec 14)
  /-- R129 Micro-thread word: 32-bit logical left shift by an immediate count. -/
  | slli (d a : VReg) (sh : BitVec 5)
  /-- R129 Micro-thread word: 32-bit logical right shift by an immediate count. -/
  | srli (d a : VReg) (sh : BitVec 5)
  /-- R129 Micro-thread word: 32-bit arithmetic right shift by an immediate count. -/
  | srai (d a : VReg) (sh : BitVec 5)
  /-- R130 Micro-thread word: D takes imm20 shifted left by 12. -/
  | lui (d : VReg) (imm : BitVec 20)
  /-- R149 Micro-thread word: floating-point lane sum rounded under VFRM. -/
  | fadd (w : BitVec 2) (d a b : VReg)
  /-- R149 Micro-thread word: floating-point lane difference rounded under VFRM. -/
  | fsub (w : BitVec 2) (d a b : VReg)
  /-- R149 Micro-thread word: floating-point lane product rounded under VFRM. -/
  | fmul (w : BitVec 2) (d a b : VReg)
  /-- R149 Micro-thread word: floating-point lane quotient; division by zero raises DZ. -/
  | fdiv (w : BitVec 2) (d a b : VReg)
  /-- R149 Micro-thread word: floating-point lane square root. -/
  | fsqrt (w : BitVec 2) (d a : VReg)
  /-- R150 Micro-thread word: IEEE minimumNumber per lane. -/
  | fmin (w : BitVec 2) (d a b : VReg)
  /-- R150 Micro-thread word: IEEE maximumNumber per lane. -/
  | fmax (w : BitVec 2) (d a b : VReg)
  /-- R151 Micro-thread word: 1 per lane where A equals B. -/
  | feq (w : BitVec 2) (d a b : VReg)
  /-- R151 Micro-thread word: 1 per lane where A is less than B. -/
  | flt (w : BitVec 2) (d a b : VReg)
  /-- R151 Micro-thread word: 1 per lane where A is at most B. -/
  | fle (w : BitVec 2) (d a b : VReg)
  /-- R152 Micro-thread word: magnitude of A with the sign of B. -/
  | fsgnj (w : BitVec 2) (d a b : VReg)
  /-- R152 Micro-thread word: magnitude of A with the inverted sign of B. -/
  | fsgnjn (w : BitVec 2) (d a b : VReg)
  /-- R152 Micro-thread word: magnitude of A with sign A xor sign B. -/
  | fsgnjx (w : BitVec 2) (d a b : VReg)
  /-- R152 Micro-thread word: 10-bit class mask of each lane of A. -/
  | fclass (w : BitVec 2) (d a : VReg)
  /-- R153 Micro-thread word: fused a*b+c with one rounding. -/
  | fma (w : BitVec 2) (d a b c : VReg)
  /-- R153 Micro-thread word: fused a*b-c with one rounding. -/
  | fms (w : BitVec 2) (d a b c : VReg)
  /-- R153 Micro-thread word: fused -(a*b)+c with one rounding. -/
  | fnma (w : BitVec 2) (d a b c : VReg)
  /-- R154 Micro-thread word: correctly rounded reciprocal via the special-function pipe. -/
  | frcp (bf : Bool) (d a : VReg)
  /-- R154 Micro-thread word: correctly rounded reciprocal square root. -/
  | frsq (bf : Bool) (d a : VReg)
  /-- R154 Micro-thread word: correctly rounded 2^x. -/
  | fexp2 (bf : Bool) (d a : VReg)
  /-- R154 Micro-thread word: correctly rounded log2 x. -/
  | flog2 (bf : Bool) (d a : VReg)
  /-- R154 Micro-thread word: correctly rounded sin(pi x). -/
  | fsinpi (bf : Bool) (d a : VReg)
  /-- R154 Micro-thread word: correctly rounded cos(pi x). -/
  | fcospi (bf : Bool) (d a : VReg)
  /-- R154 Micro-thread word: correctly rounded tanh x. -/
  | ftanh (bf : Bool) (d a : VReg)
  /-- R154 Micro-thread word: correctly rounded logistic sigmoid. -/
  | fsigm (bf : Bool) (d a : VReg)
  /-- R158 Micro-thread word: narrows two wide registers into one narrow register. -/
  | cvtN (w : BitVec 2) (nf : BitVec 3) (d a b : VReg)
  /-- R158 Micro-thread word: widens the selected part of a narrow register, honouring kv. -/
  | cvtW (w : BitVec 2) (part : BitVec 1) (nf : BitVec 3) (d a : VReg)
  /-- R158 Micro-thread word: floating lanes to integer lanes, saturating with NV. -/
  | cvtFi (w : BitVec 2) (d a : VReg)
  /-- R158 Micro-thread word: integer lanes to floating lanes under VFRM. -/
  | cvtIf (w : BitVec 2) (d a : VReg)
  /-- R159 Micro-thread word: scales and rounds eight FP32 registers into E2M1 codes. -/
  | cvtq4 (d a b : VReg)
  /-- R160 Micro-thread word: widens MX elements applying an E8M0 scale and kv. -/
  | mxscale (bf : Bool) (part sf : BitVec 3) (d a b : VReg)
  /-- R162 Micro-thread word: extracts four q-bit PNI elements from a plane group. -/
  | pnix (q : BitVec 6) (d a b : VReg)
  /-- R163 Micro-thread word: packs eight INT8 elements into planes 0 to 3. -/
  | pnit (q : BitVec 6) (d a b : VReg)
  /-- R168 Micro-thread word: virtual-address load with alignment and translation checks. -/
  | ld (size : BitVec 2) (d a : VReg) (off : BitVec 12)
  /-- R168 Micro-thread word: virtual-address store. -/
  | st (size : BitVec 2) (d a : VReg) (off : BitVec 12)
  /-- R168 Micro-thread word: load from the own stash. -/
  | lds (size : BitVec 2) (d a : VReg) (off : BitVec 12)
  /-- R168 Micro-thread word: store to the own stash. -/
  | sts (size : BitVec 2) (d a : VReg) (off : BitVec 12)
  /-- R172 Micro-thread word: atomic read-modify-write at a virtual address's home. -/
  | amo (size : BitVec 2) (op : BitVec 4) (ord : BitVec 2) (scope : BitVec 3) (d a : VReg)
  /-- R172 Micro-thread word: atomic read-modify-write on the own stash. -/
  | amos (size : BitVec 2) (op : BitVec 4) (ord : BitVec 2) (scope : BitVec 3) (d a : VReg)
  /-- R174 Micro-thread word: orders PRED accesses before SUCC accesses at a scope. -/
  | mfence (scope : BitVec 3) (pred succ : BitVec 2)
  /-- R177 Micro-thread word: converts a framed position to the frame of tag B. -/
  | pxf (sat : Bool) (d a b : VReg)
  /-- R178 Micro-thread word: adds a framed displacement to a framed position. -/
  | padd (sat x : Bool) (d a b : VReg)
  /-- R178 Micro-thread word: subtracts two framed positions to a displacement. -/
  | psub (sat x : Bool) (d a b : VReg)
  /-- R179 Micro-thread word: forwards a position through up to 8 split records. -/
  | pretag (sat : Bool) (d a : VReg)
  /-- R177 Micro-thread word: converts a framed displacement to the frame of tag B. -/
  | prot (sat : Bool) (d a b : VReg)
  /-- R180 Micro-thread word: writes a status word for a tag's record. -/
  | pchk (d a : VReg)
  /-- R142 Micro-thread word: continues the chain at a PC-relative block. -/
  | mfetch (imm : BitVec 20)
  /-- R142 Micro-thread word: continues the chain at the block addressed by a register pair. -/
  | mfetchr (a : VReg)
  /-- R143 Micro-thread word: stops the micro-thread with fault 12 and a code. -/
  | mtrap (code : BitVec 8)
  /-- R118 64-bit CT instruction carrying one micro-thread word to active elements, with mask, density and lane modifier. -/
  | vectorCarrier (mask : BitVec 4) (dt : Bool) (lane : BitVec 2) (word : MWord)
  /-- R187 Drains, then sets MTCFG, zeroes state, resets kv, VL and links, returns VLMAX. -/
  | mtconf (rd rs1 : XReg)
  /-- R188 Sets VL to min of request, VLMAX and grant. -/
  | setvl (rd rs1 : XReg)
  /-- R191 Delivers a value to micro-thread 0's link slot. -/
  | vlnkput (rs1 : XReg)
  /-- R191 Takes the oldest value of the link-out FIFO. -/
  | vlnkget (rd : XReg)
  /-- R189 Fetches a block header and places the block in active micro-threads' queues. -/
  | vfetch (mask : BitVec 4) (rs1 : XReg)
  /-- R192 Reads one element of a vector register into an x register. -/
  | vget (v : VReg) (rs1 rd : XReg)
  /-- R192 Writes an x register into one element of a vector register. -/
  | vput (v : VReg) (rs1 rx : XReg)
  /-- R194 Compares two vector registers element-wise into a mask. -/
  | kcmp (cond : BitVec 5) (kd : BitVec 4) (a b : VReg)
  /-- R195 Combines two masks by a truth table. -/
  | klog (tt kd ka kb : BitVec 4)
  /-- R196 Sets mask bits before the first set bit. -/
  | ksbf (kd ka : BitVec 4)
  /-- R196 Sets mask bits up to and including the first set bit. -/
  | ksif (kd ka : BitVec 4)
  /-- R196 Sets only the first set bit. -/
  | ksof (kd ka : BitVec 4)
  /-- R196 Counts set mask bits in [0, VL). -/
  | kpop (rd : XReg) (ka : BitVec 4)
  /-- R196 Returns the index of the first set mask bit, or -1. -/
  | kfirst (rd : XReg) (ka : BitVec 4)
  /-- R197 Reads a 64-bit word of a mask. -/
  | kget (rd : XReg) (k : BitVec 4) (rs1 : XReg)
  /-- R197 Writes a 64-bit word of a mask. -/
  | kput (k : BitVec 4) (rs1 rs2 : XReg)
  /-- R199 Unit-stride vector load, element-precise. -/
  | vld (mask : BitVec 4) (v : VReg) (size : BitVec 2) (rs1 : XReg)
  /-- R199 Strided vector load, element-precise. -/
  | vlds (mask : BitVec 4) (v : VReg) (size : BitVec 2) (rs1 xs : XReg)
  /-- R199 Unit-stride vector store, element-precise. -/
  | vst (mask : BitVec 4) (v : VReg) (size : BitVec 2) (rs1 : XReg)
  /-- R199 Strided vector store, element-precise. -/
  | vsts (mask : BitVec 4) (v : VReg) (size : BitVec 2) (rs1 xs : XReg)
  /-- R199 Indexed vector load. -/
  | vldx (mask : BitVec 4) (v : VReg) (size : BitVec 2) (rs1 : XReg) (vi : BitVec 4)
  /-- R199 Indexed vector store. -/
  | vstx (mask : BitVec 4) (v : VReg) (size : BitVec 2) (rs1 : XReg) (vi : BitVec 4)
  /-- R202 Fault-first vector load that lowers VL at a later failing element. -/
  | vldff (mask : BitVec 4) (v : VReg) (size : BitVec 2) (rs1 xs : XReg)
  /-- R203 Loads MX elements and block scales, clearing kv under scale 255. -/
  | vldmx (mask : BitVec 4) (v : VReg) (wide : Bool) (rs1 xc : XReg)
  /-- R203 Stores MX elements and scales, writing 255 for blocks with kv clear. -/
  | vstmx (mask : BitVec 4) (v : VReg) (wide : Bool) (rs1 xc : XReg)
  /-- R204 Vector atomic per element with scope-miss reporting in km. -/
  | vamo (mask : BitVec 4) (v : VReg) (op : BitVec 4) (scope : BitVec 3) (x : BitVec 5)
  /-- R207 Appends active elements to a work vector, advancing its tail atomically. -/
  | vappend (mask : BitVec 4) (v : VReg) (rs1 rd : XReg)
  /-- R206 Claims a range from a work counter atomically and sets VL. -/
  | vclaim (rd rs1 rs2 : XReg)
  /-- R208 SC load at module scope. -/
  | ldsc (dbl : Bool) (rd rs1 : XReg)
  /-- R208 SC store at module scope. -/
  | stsc (dbl : Bool) (rs2 rs1 : XReg)
  /-- R226 Issues a copy command between two tiles. -/
  | xcopy (acq rel : Bool) (scope : BitVec 3) (rd rs1 rs2 : XReg)
  /-- R227 Issues a copy fused with the following matrix word as one command. -/
  | xcopyM (acq rel : Bool) (scope : BitVec 3) (rd rs1 rs2 : XReg) (mword : MWord)
  /-- R226 Issues a fill of a destination tile with a pattern. -/
  | xfill (acq rel : Bool) (scope : BitVec 3) (rd rs1 rs2 : XReg)
  /-- R226 Issues a row gather through an index tile. -/
  | xgather (acq rel : Bool) (scope : BitVec 3) (rd rs1 rs2 : XReg)
  /-- R226 Issues a row scatter through an index tile. -/
  | xscatter (acq rel : Bool) (scope : BitVec 3) (rd rs1 rs2 : XReg)
  /-- R229 Issues a reduce collective over a member group. -/
  | xcollReduce (acq rel : Bool) (scope : BitVec 3) (rd rs1 rs2 : XReg)
  /-- R229 Issues a broadcast collective. -/
  | xcollBroadcast (acq rel : Bool) (scope : BitVec 3) (rd rs1 rs2 : XReg)
  /-- R229 Issues an all-gather collective. -/
  | xcollAllgather (acq rel : Bool) (scope : BitVec 3) (rd rs1 rs2 : XReg)
  /-- R234 Resumes a faulted engine command from its progress point. -/
  | xresume (rd rs1 : XReg)
  /-- R234 Withdraws a queued, faulted or waiting command. -/
  | xcancel (rd rs1 : XReg)
  /-- R219 Issues a matrix multiply-accumulate into an accumulator tile. -/
  | mma (fmt : BitVec 4) (asrc : BitVec 2) (t rs1 rs2 : XReg)
  /-- R219 Issues a sliding-window matrix multiply-accumulate from the stash. -/
  | mmas (fmt : BitVec 4) (t rs1 rs2 : XReg)
  /-- R223 Issues a drain of a tile to stash, register window or tile. -/
  | mdrain (fmt : BitVec 4) (dkind : BitVec 2) (t rs1 rs2 : XReg)
  /-- R222 Issues zeroing of an accumulator tile. -/
  | mzero (t : XReg)
  /-- R222 Issues loading of a tile from the stash. -/
  | mload (t rs1 rs2 : XReg)
  /-- R244 Registers a tile descriptor, returning a handle or status. -/
  | tnew (rd rs1 : XReg)
  /-- R246 Retires a tile handle after draining commands, tenure and leases. -/
  | tfree (rd rs1 : XReg)
  /-- R247 Splits a tile into two children and forwards the parent. -/
  | tsplit (rd rs1 rs2 : XReg)
  /-- R248 Acquires read lease or write tenure on a tile. -/
  | tacq (rd rs1 rs2 : XReg)
  /-- R249 Releases write tenure on a tile at module scope. -/
  | trel (rd rs1 : XReg)
  /-- R250 Reads the directory's view of a tile table entry. -/
  | tinfo (rd rs1 rs2 : XReg)
  /-- R251 Creates a frame record from a template. -/
  | fnew (rd rs1 : XReg)
  /-- R251 Replaces ROT, TRANS and EXTENT of a live frame. -/
  | fset (rd rs1 rs2 : XReg)
  /-- R251 Splits a frame into two successors. -/
  | fsplit (rd rs1 rs2 : XReg)
  /-- R251 Deletes a frame record and advances its generation. -/
  | fdel (rd rs1 : XReg)
  /-- R253 Orders CT, vector-queue and engine accesses at a scope. -/
  | ofence (pred succ : BitVec 4) (scope : BitVec 3)
  /-- R256 Sleeps until a word equals a value, or timeout. -/
  | waitaEq (rd rs1 rs2 rs3 : XReg)
  /-- R256 Sleeps until a word differs from a value, or timeout. -/
  | waitaNe (rd rs1 rs2 rs3 : XReg)
  /-- R256 Sleeps until a word is unsigned at least a value, or timeout. -/
  | waitaGeu (rd rs1 rs2 rs3 : XReg)
  /-- R256 Sleeps until a word is unsigned below a value, or timeout. -/
  | waitaLtu (rd rs1 rs2 rs3 : XReg)
  /-- R257 Release store of a word that wakes sleepers within its scope. -/
  | notify (scope : BitVec 3) (rs1 rs2 : XReg)
  /-- R258 Sets COUNT of a local barrier and clears ARRIVED. -/
  | barinit (rs1 rs2 : XReg)
  /-- R258 Releases and arrives at a named barrier, completing the phase at COUNT. -/
  | bararv (rs1 : XReg)
  /-- R258 Waits for the barrier phase to complete, then acquires. -/
  | barwait (rs1 : XReg)
  /-- R259 Advances LTIME towards a target within bounds. -/
  | ltsync (rd rs1 : XReg)
  /-- R259 Waits, releases at system scope, reports exit status and unbinds the core. -/
  | jexit (rs1 : XReg)
  /-- R259 Writes a trace mark record while capture is active. -/
  | tmark (rs1 : XReg)
  /-- R255 Base FENCE mapped onto an OFENCE at module or system scope. -/
  | fence (fm pred succ : BitVec 4)
  /-- R353 Performs earlier stores and removes matching unpinned translations module-wide. -/
  | sfenceVma (rs1 rs2 : XReg)
  /-- R418 Load-reserved of a 64-byte block recording its wts. -/
  | lr (dbl aq rl : Bool) (rd rs1 : XReg)
  /-- R418 Store-conditional that succeeds only if the entry is unwritten since the LR. -/
  | sc (dbl aq rl : Bool) (rd rs1 rs2 : XReg)
  /-- R255 RISC-V AMO with ordering mapped by aq and rl bits. -/
  | riscvAmo (op : AmoOp) (dbl aq rl : Bool) (rd rs1 rs2 : XReg)
  /-- R5 Write to a CSR or memory-mapped register that has no row of its own, by its access codes. -/
  | registerWrite (target : RegTarget) (rd : XReg) (value : Word)
  /-- R26 CSR write of MTCFG performing MTCONF and returning the old value. -/
  | mtcfgWrite (rd : XReg) (value : Word)
  /-- R28 CSR write of VL clamped to VLMAX and grant. -/
  | vlWrite (rd : XReg) (value : Word)
  /-- R185 CSR write of VSPACE, raising cause 2 for reserved or privileged spaces. -/
  | vspaceWrite (rd : XReg) (value : Word)
  /-- R85 Read or write of VFFLAGS, VFFIRSTA or VFFIRSTB after earlier flag updates. -/
  | flagCsrAccess (which : FlagCsr) (op : CsrOp) (rd : XReg) (src : Option Word)
  /-- R353 Write of satp that ignores non-Sv57 modes and takes a hardware ASID tag. -/
  | satpWrite (rd : XReg) (value : Word)
  /-- R263 Write of PANICMARK recording a value and acting as a capture event. -/
  | panicmarkWrite (rd : XReg) (value : Word)
  /-- R362 Write of READY while pre-emption is pending, letting the stop land. -/
  | savectlReady (rd : XReg) (value : Word)
  /-- R342 PERFSEL op 0: selects a counter and a view. -/
  | perfselSelect (rd : XReg) (idx : BitVec 4) (arg : BitVec 56)
  /-- R342 PERFSEL op 1: programs a counter's event and INTEN. -/
  | perfselProgram (rd : XReg) (idx : BitVec 4) (arg : BitVec 56)
  /-- R342 PERFSEL op 2: sets a counter value. -/
  | perfselWriteValue (rd : XReg) (idx : BitVec 4) (arg : BitVec 56)
  /-- R342 PERFSEL op 3: sets a counter threshold. -/
  | perfselSetThreshold (rd : XReg) (idx : BitVec 4) (arg : BitVec 56)
  /-- R342 PERFSEL op 4: clears OV and TX of a counter. -/
  | perfselClearFlags (rd : XReg) (idx : BitVec 4) (arg : BitVec 56)
  /-- R342 PERFSEL op 5: sets or removes the trace buffer and resets TRACEPOS. -/
  | perfselSetTraceBuffer (rd : XReg) (idx : BitVec 4) (arg : BitVec 56)
  /-- R342 PERFSEL op 6: sets the sample period. -/
  | perfselSetSamplePeriod (rd : XReg) (idx : BitVec 4) (arg : BitVec 56)
  /-- R342 PERFSEL op 7: sets the PC or block breakpoint address. -/
  | perfselSetBreakpoint (rd : XReg) (idx : BitVec 4) (arg : BitVec 56)
  /-- R342 PERFSEL op 8: clears a breakpoint. -/
  | perfselClearBreakpoint (rd : XReg) (idx : BitVec 4) (arg : BitVec 56)
  /-- R356 MTFINFO op 0: selects a micro-thread's fault record word. -/
  | mtfinfoSelect (rd : XReg) (word : BitVec 2) (rsv : BitVec 45) (mt : BitVec 13)
  /-- R358 MTFINFO op 1: resumes a FAULTED micro-thread at its faulting word. -/
  | mtfinfoResume (rd : XReg) (word : BitVec 2) (rsv : BitVec 45) (mt : BitVec 13)
  /-- R358 MTFINFO op 2: resumes a FAULTED micro-thread after its faulting word. -/
  | mtfinfoSkip (rd : XReg) (word : BitVec 2) (rsv : BitVec 45) (mt : BitVec 13)
  /-- R358 MTFINFO op 3: clears a FAULTED micro-thread to STOPPED. -/
  | mtfinfoClear (rd : XReg) (word : BitVec 2) (rsv : BitVec 45) (mt : BitVec 13)
  /-- R356 MTFINFO op 4: selects the lowest faulted micro-thread at or above an index. -/
  | mtfinfoSelectLowest (rd : XReg) (word : BitVec 2) (rsv : BitVec 45) (mt : BitVec 13)
  /-- R396 Function command registering a queue from a registration record. -/
  | regqueue (fn : Nat) (arg : Word)
  /-- R399 Function command starting a queue-level reset. -/
  | resetqueue (fn : Nat) (arg : Word)
  /-- R399 After every die and guyline acknowledges, cancels jobs and sets STATE RESET. -/
  | queueResetComplete (queue : Nat)
  /-- R402 Function command writing a signed attestation report. -/
  | attest (fn : Nat) (arg : Word)
  /-- R396 Function 0 command confining a virtual function to a region subtree. -/
  | assign (fn : Nat) (arg : Word)
  /-- R396 Function 0 command replacing the region table. -/
  | regiontab (fn : Nat) (arg : Word)
  /-- R401 Write of FWLOAD verifying a staged firmware image and writing it to flash. -/
  | fwloadWrite (value : Word)
  /-- R398 Write of the reset key to MRESET, resetting the module. -/
  | mresetWrite (value : Word)
  /-- R413 Write of the power cap, rounded and bounded. -/
  | pwrcapWrite (value : Word)
  /-- R413 Write of the health-log base and size, resetting HLOGPOS. -/
  | hlogWrite (value : Word)
  /-- R397 Aperture slot write delivering a queue TAIL, with overrun checks. -/
  | queueDoorbell (fn slot bytes : Nat) (value : Word)
  /-- R397 Aperture region doorbell making Sheepdog reread a region control block. -/
  | regionDoorbell (fn bytes : Nat) (value : Word)
  /-- R378 A region's budget period begins and USED is set to 0. -/
  | periodStart (root : Nat)
  /-- R385 The oldest candidate waiting AGE[c] becomes its class's anchored gang. -/
  | gangAnchor (root cls : Nat)
  /-- R385 An anchored gang unplaced after WINDOW[c] forces unmaps of equal and lower classes. -/
  | anchorWindowExpiry (root cls : Nat)
  /-- R389 A trigger crossing appends a management task record to its task queue. -/
  | mgmtTaskRelease (task : Nat)
  /-- R383 Bind record write moving a FREE slot to BINDING. -/
  | slotCmdBind (core : Nat) (rec : BindRec)
  /-- R383 Clear write moving a BINDING slot to FREE. -/
  | slotCmdClear (core : Nat)
  /-- R383 Unmap write moving a RUNNING slot to UNMAPPING and raising interrupt 16. -/
  | slotCmdUnmap (core : Nat)
  /-- R383 When NCOMMIT matching slots are BINDING, all become RUNNING together. -/
  | gangStart (gang commit : Nat)
  /-- R363 GRACE cycles after PENDING, the stop is forced. -/
  | preemptForcedStop (core : Nat)
  /-- R363 The stop lands at an instruction boundary and the save begins. -/
  | preemptStop (core : Nat)
  /-- R363 The save engine finishes the save record and the slot becomes FREE. -/
  | saveComplete (core : Nat)
  /-- R31 A queue entry distributes once its targets have room. -/
  | vqDistribute (q : VQueue)
  /-- R31 A queue entry retires after taking effect in every element. -/
  | vqRetire (q : VQueue)
  /-- R38 A stopped micro-thread takes its queue head and fetches and checks the block. -/
  | mtTakeItem (m : Nat)
  /-- R53 A waiting block starts once its registers are full and its link slot is filled. -/
  | blockStart (m : Nat)
  /-- R41 A LINK-PENDING value is delivered when the target slot or FIFO has room. -/
  | linkDeliver (m : Nat)
  /-- R170 Load data returns and the micro-thread becomes ready. -/
  | mtDataReturn (m : Nat)
  /-- R352 A translation walk ends, filling the TLB or faulting the requesters. -/
  | pageWalkComplete (va : Word) (kind : Access)
  /-- R214 An engine or matrix command starts once its ordering waits end. -/
  | engineCommandStart (seq : Nat)
  /-- R212 A command's last write lands, its notify is written and XSEQ rises. -/
  | engineCommandComplete (seq : Nat)
  /-- R232 A command stops at its progress point and writes a fault record. -/
  | engineFault (seq : Nat)
  /-- R230 A member's contribution arrives complete and is applied to the destination. -/
  | collectiveContribution (seq member : Nat)
  /-- R309 A read request at an entry's home extends rts and replies with data or renewal. -/
  | homeReadRequest (agent asid pa : Nat)
  /-- R310 A write or atomic at the home takes tenure and a new wts. -/
  | homeWriteRequest (agent asid pa bytes : Nat) (data : Word)
  /-- R311 The holder of write tenure writes back its versions and gives up tenure. -/
  | recall (asid pa : Nat)
  /-- R317 A queued forward at a home is served in age order. -/
  | forwardServed (asid pa : Nat)
  /-- R319 An unanswered recall after 2^22 cycles declares the agent dead. -/
  | recallTimeout (agent : Nat)
  /-- R279 An access arrives at a target core's window part and is performed or faults. -/
  | windowAccess (core pa bytes : Nat) (write : Bool) (data : Word)
  /-- R320 A slice visits entries and clamps old timestamps to ANCIENT. -/
  | sliceClampSweep (die : Nat)
  /-- R344 A counter wraps to 0 and sets OV, with an overflow record. -/
  | counterWrap (idx : Nat)
  /-- R344 A counter reaches its threshold and sets TX, with a threshold record. -/
  | counterThreshold (idx : Nat)
  /-- R346 A PC or block breakpoint stops issue and leads to cause 3. -/
  | breakpointFire (block : Bool) (m : Nat)
  /-- R409 Basecamp retires a failing core, unmaps its gang and re-runs or fails the job. -/
  | coreRetire (core : Nat)
  /-- R409 A spare core is mapped under the retired number within 5 ms. -/
  | spareMapped (core : Nat)
  /-- R411 Self-test of a core whose agent died ends, returning it to FREE or retiring it. -/
  | coreSelfTestEnd (core : Nat) (pass : Bool)
  /-- R398 The lantern holds a write arriving for a gated target and ungates it. -/
  | lanternCatch (source : LanternSource) (pa bytes : Nat) (data : Word)
  /-- R404 Basecamp stops every core, writes the dump, enters FATAL and raises MSI-X 0. -/
  | fatalError (reason : Nat)
  /-- R309 A control-thread RISC-V load reads under its lease or sends a request to the entry's home, with routing to a covering tile. -/
  | ctScalarLoad (kind : LoadKind) (rd rs1 : XReg) (off : BitVec 12)
  /-- R310 A control-thread RISC-V store takes write tenure and a new wts and jumps LTIME, with routing to a covering tile. -/
  | ctScalarStore (kind : StoreKind) (rs2 rs1 : XReg) (off : BitVec 12)
  /-- R368 The save engine finishes loading a save record, and the CT starts at the saved PC with pending events re-raised. -/
  | restoreComplete (core : Nat)
  /-- R412 A message with an old incarnation is discarded and counted. -/
  | staleMessage (agent incarnation : Nat)
  /-- R322 Host read through CXL.mem recalling tenure and returning the current version. -/
  | hostCxlRead (pa bytes : Nat)
  /-- R322 Host write through CXL.mem taking a new wts at the home. -/
  | hostCxlWrite (pa bytes : Nat) (data : BitVec 512)
  /-- R407 Periodic scrub reads and corrects each SRAM granule. -/
  | sramScrub (granule : Nat)
  /-- R406 Daily patrol scrub of the low-power DDR. -/
  | ddrPatrolScrub (granule : Nat)
  /-- R408 A guyline exhausts its replays and goes down. -/
  | guylineDown (link : Nat)
  /-- R408 Once a second basecamp retrains a downed guyline. -/
  | guylineRetrain (link : Nat)
  /-- R398 A die with no bound slot for 1 ms is clock-gated. -/
  | dieClockGate (die : Nat)
  /-- R398 A clock-gated die is power-gated after 100 ms more. -/
  | diePowerGate (die : Nat)
  /-- R416 A die reaches 95 C and a warning record is written. -/
  | thermalWarning (die temp : Nat)
  /-- R416 A die reaches 105 C and its cores are held without issue. -/
  | thermalHold (die temp : Nat)
  /-- R416 A held die falls to 100 C and its cores are released. -/
  | thermalRelease (die temp : Nat)
  /-- R416 A die held for 10 s becomes fatal. -/
  | thermalHoldLimit (die : Nat)
  /-- R416 Inlet or flow out of limits for 1 s writes a health record. -/
  | coolantOutOfLimits (inlet flow : Nat)
  /-- R398 Basecamp gates an idle management core, or core 0 when Sheepdog has no pending event. -/
  | managementCoreGate (mcore : Nat)
  /-- R401 Loss of module power, which loses the dump and can leave the flash slot without a valid image. -/
  | powerLoss (flashWrite : Bool)
  /-- R406 A stored granule or transfer suffers a correctable or uncorrectable error of itself. -/
  | storageError (granule : Nat) (uncorrectable : Bool)
  /-- R190 Waits for all queues and micro-threads to stop; traps cause 24 if kf set. -/
  | vsync
  /-- R259 Waits for earlier work, releases, and marks the core triggered. -/
  | jtrig
  /-- R36 Instruction fence that also makes written blocks visible to block fetch. -/
  | fenceI
  /-- R419 Waits at supervisor level for an enabled interrupt, held event or forced stop. -/
  | wfi
  /-- R401 Module reset: state cleared and the boot ROM verifies and starts the firmware. -/
  | moduleReset
  /-- R21 A new power cap takes effect within 1 ms, with a health record. -/
  | capApplied
  /-- R386 One decision pass: acceptance, reports, budgets, anchoring and placement. -/
  | sheepdogPass
  /-- R350 A pending trap or interrupt is taken at a CT instruction boundary by priority. -/
  | trapTaken
  /-- R33 A waiting CT instruction's condition is met and it completes. -/
  | ctWaitComplete
  /-- R256 A wake event makes a sleeping WAITA reload its word. -/
  | waitaWake
  /-- R256 A WAITA timeout expires and returns with bit 63 set. -/
  | waitaTimeout
  /-- R308 Every LTTICK period cycles, LTIME advances by one. -/
  | ltimeSelfIncrement
  /-- R321 A core whose LTIME moved 2^29 ticks drops all its leases. -/
  | leaseDrop
  /-- R321 Basecamp sends module time to every core and lagging cores catch up. -/
  | moduleTimeBroadcast
  /-- R345 Each sample period a sample record is written. -/
  | perfSample
  /-- R398 After ungating, the lantern replays held writes in arrival order. -/
  | lanternReplay
  /-- R404 A Sheepdog pass not completed for 10 ms is fatal. -/
  | sheepdogWatchdog
  /-- R404 1 ms after a fatal error, cores still running are taken out of service. -/
  | fatalCoreTimeout
  /-- R347 Return from a supervisor trap to sepc, after which an interrupted vector instruction resumes at VRESUME. -/
  | sret
deriving DecidableEq, Repr

end Sys2Proof
end

