-- ==== Sys2Proof/WellFormed.lean ====
section
/-! DEFINITION. Which instructions are well formed: the legality rules of 05 R107 to R122 that need no
machine state, and the ranges of the numbers that a step of another agent names. -/

namespace Sys2Proof.WF

/-- A span that starts at a register number which is a multiple of `n` (05 R109). -/
def aligned (n : Nat) (r : VReg) : Bool := r.toNat % n == 0
/-- Under W = 11 every named register is even (05 R108, R109). -/
def widthAligned (w : BitVec 2) (rs : List VReg) : Bool := w != 3 || rs.all (aligned 2)
/-- Under SIZE 11 the data register is even (08 R167, 05 R120). -/
def sizeAligned (size : BitVec 2) (r : VReg) : Bool := size != 3 || aligned 2 r
/-- The legal pairs (W, NFMT) of cvt.n and cvt.w (05 R112). -/
def cvtPair (w : BitVec 2) (nf : BitVec 3) : Bool :=
  [(0, 0), (0, 1), (0, 5), (1, 2), (1, 3), (1, 6), (2, 2), (2, 3)].contains (w.toNat, nf.toNat)
/-- The number of parts of mxscale, by source format and target (05 R112). -/
def mxParts (bf : Bool) (sf : BitVec 3) : Nat :=
  match sf.toNat, bf with
  | 0, true => 2 | 1, true => 2 | 0, false => 4 | 1, false => 4
  | 2, true => 4 | 2, false => 8 | _, _ => 0
/-- PART lies below the number of parts; a source format above 2 has none (05 R112). -/
def mxPart (bf : Bool) (part sf : BitVec 3) : Bool := decide (part.toNat < mxParts bf sf)
/-- Registers that the operand D of an atomic spans (05 R113). -/
def atomicSpan (size : BitVec 2) (op : BitVec 4) : Nat :=
  (if size == 3 then 2 else 1) * (if op == 9 then 2 else 1)
/-- SIZE, OP, SCOPE and the alignment of D of an atomic (05 R113). -/
def atomicOk (size : BitVec 2) (op : BitVec 4) (scope : BitVec 3) (d : VReg) : Bool :=
  decide (2 ≤ size.toNat ∧ op.toNat ≤ 9 ∧ 1 ≤ scope.toNat ∧ scope.toNat ≤ 4) &&
    aligned (atomicSpan size op) d
/-- A mask that is read: codes 0 to 10 (05 R116). -/
def maskRead (k : BitVec 4) : Bool := decide (k.toNat ≤ 10)
/-- A mask that is written: kf is refused (09 R184). -/
def maskWrite (k : BitVec 4) : Bool := decide (k.toNat ≤ 9)
/-- CSRs whose writes have rows of their own: VL, MTCFG, VSPACE, the flag CSRs, satp, PANICMARK, PERFSEL, MTFINFO. -/
def ownRow : List Nat := [0x800, 0x802, 0x803, 0x805, 0x807, 0x808, 0x180, 0x5C8, 0x5C7, 0x5C1]
/-- A register whose writes have no row of their own (00 R5). -/
def plainTarget (t : RegTarget) : Bool :=
  match t with
  | .csr n => !ownRow.contains n.toNat
  | .mmio pa n => decide (Config.basecampBase ≤ pa ∧ pa + n ≤ Config.basecampEnd)
/-- The condition codes of kcmp (05 R119). -/
def condOk (c : BitVec 5) : Bool := [0, 1, 2, 3, 4, 5, 8, 9, 10].contains c.toNat

end Sys2Proof.WF

namespace Sys2Proof
open WF

/-- The instruction is legal, whatever the state (05 R109, R123). The number of registers (02 R29), the
space (05 R120) and the privilege are checked by its meaning. -/
def Instr.wellFormed (i : Instr) : Bool :=
  match i with
  | .add w d a b => widthAligned w [d, a, b]
  | .sub w d a b => widthAligned w [d, a, b]
  | .and w d a b => widthAligned w [d, a, b]
  | .or w d a b => widthAligned w [d, a, b]
  | .xor w d a b => widthAligned w [d, a, b]
  | .andn w d a b => widthAligned w [d, a, b]
  | .sll w d a b => widthAligned w [d, a, b]
  | .srl w d a b => widthAligned w [d, a, b]
  | .sra w d a b => widthAligned w [d, a, b]
  | .min w d a b => widthAligned w [d, a, b]
  | .max w d a b => widthAligned w [d, a, b]
  | .minu w d a b => widthAligned w [d, a, b]
  | .maxu w d a b => widthAligned w [d, a, b]
  | .slt w d a b => widthAligned w [d, a, b]
  | .sltu w d a b => widthAligned w [d, a, b]
  | .seq w d a b => widthAligned w [d, a, b]
  | .mul w d a b => widthAligned w [d, a, b]
  | .mulh w d a b => widthAligned w [d, a, b]
  | .mulhu w d a b => widthAligned w [d, a, b]
  | .div w d a b => widthAligned w [d, a, b]
  | .divu w d a b => widthAligned w [d, a, b]
  | .rem w d a b => widthAligned w [d, a, b]
  | .remu w d a b => widthAligned w [d, a, b]
  | .clz w d a => widthAligned w [d, a]
  | .ctz w d a => widthAligned w [d, a]
  | .popc w d a => widthAligned w [d, a]
  | .sel _ _ _ _ => true
  | .bfx _ _ _ pos len => decide (pos.toNat < 32 ∧ len.toNat < 32)
  | .bfi _ _ pos len => decide (pos.toNat < 32 ∧ len.toNat < 32)
  | .rget _ _ _ => true
  | .rput _ _ _ => true
  | .mtid _ => true
  | .lnkrd _ => true
  | .lnkwr _ => true
  | .addi _ _ _ => true
  | .andi _ _ _ => true
  | .ori _ _ _ => true
  | .xori _ _ _ => true
  | .slli _ _ _ => true
  | .srli _ _ _ => true
  | .srai _ _ _ => true
  | .lui _ _ => true
  | .fadd w _ _ _ => decide (w ≠ 3)
  | .fsub w _ _ _ => decide (w ≠ 3)
  | .fmul w _ _ _ => decide (w ≠ 3)
  | .fdiv w _ _ _ => decide (w ≠ 3)
  | .fsqrt w _ _ => decide (w ≠ 3)
  | .fmin w _ _ _ => decide (w ≠ 3)
  | .fmax w _ _ _ => decide (w ≠ 3)
  | .feq w _ _ _ => decide (w ≠ 3)
  | .flt w _ _ _ => decide (w ≠ 3)
  | .fle w _ _ _ => decide (w ≠ 3)
  | .fsgnj w _ _ _ => decide (w ≠ 3)
  | .fsgnjn w _ _ _ => decide (w ≠ 3)
  | .fsgnjx w _ _ _ => decide (w ≠ 3)
  | .fclass w _ _ => decide (w ≠ 3)
  | .fma w _ _ _ _ => decide (w ≠ 3)
  | .fms w _ _ _ _ => decide (w ≠ 3)
  | .fnma w _ _ _ _ => decide (w ≠ 3)
  | .frcp _ _ _ => true
  | .frsq _ _ _ => true
  | .fexp2 _ _ _ => true
  | .flog2 _ _ _ => true
  | .fsinpi _ _ _ => true
  | .fcospi _ _ _ => true
  | .ftanh _ _ _ => true
  | .fsigm _ _ _ => true
  | .cvtN w nf _ _ _ => cvtPair w nf
  | .cvtW w _ nf _ _ => cvtPair w nf
  | .cvtFi w _ _ => decide (w ≠ 3)
  | .cvtIf w _ _ => decide (w ≠ 3)
  | .cvtq4 _ a _ => aligned 8 a
  | .mxscale bf part sf _ _ _ => mxPart bf part sf
  | .pnix q _ _ _ => decide (2 ≤ q.toNat ∧ q.toNat ≤ 8)
  | .pnit q _ _ _ => decide (2 ≤ q.toNat ∧ q.toNat ≤ 8)
  | .ld size d a _ => aligned 2 a && sizeAligned size d
  | .st size d a _ => aligned 2 a && sizeAligned size d
  | .lds size d _ _ => sizeAligned size d
  | .sts size d _ _ => sizeAligned size d
  | .amo size op _ scope d a => atomicOk size op scope d && aligned 2 a
  | .amos size op _ scope d _ => atomicOk size op scope d
  | .mfence scope pred succ => decide (scope.toNat ≤ 4 ∧ pred ≠ 0 ∧ succ ≠ 0)
  | .pxf _ d a _ => aligned 4 d && aligned 4 a
  | .padd _ _ d a b => aligned 4 d && aligned 4 a && aligned 4 b
  | .psub _ _ d a b => aligned 4 d && aligned 4 a && aligned 4 b
  | .pretag _ d a => aligned 4 d && aligned 4 a
  | .prot _ d a _ => aligned 4 d && aligned 4 a
  | .pchk _ _ => true
  | .mfetch _ => true
  | .mfetchr a => aligned 2 a
  | .mtrap _ => true
  | .vectorCarrier mask _ _ _ => maskRead mask
  | .mtconf _ _ => true
  | .setvl _ _ => true
  | .vlnkput _ => true
  | .vlnkget _ => true
  | .vfetch mask _ => maskRead mask
  | .vget _ _ _ => true
  | .vput _ _ _ => true
  | .kcmp cond kd _ _ => condOk cond && maskWrite kd
  | .klog _ kd ka kb => maskWrite kd && maskRead ka && maskRead kb
  | .ksbf kd ka => maskWrite kd && maskRead ka
  | .ksif kd ka => maskWrite kd && maskRead ka
  | .ksof kd ka => maskWrite kd && maskRead ka
  | .kpop _ ka => maskRead ka
  | .kfirst _ ka => maskRead ka
  | .kget _ k _ => maskRead k
  | .kput k _ _ => maskWrite k
  | .vld mask v size _ => maskRead mask && sizeAligned size v
  | .vlds mask v size _ xs => maskRead mask && sizeAligned size v && decide (xs ≠ 0)
  | .vst mask v size _ => maskRead mask && sizeAligned size v
  | .vsts mask v size _ xs => maskRead mask && sizeAligned size v && decide (xs ≠ 0)
  | .vldx mask v size _ _ => maskRead mask && sizeAligned size v
  | .vstx mask v size _ _ => maskRead mask && sizeAligned size v
  | .vldff mask v size _ _ => maskRead mask && sizeAligned size v
  | .vldmx mask v _ _ _ => maskRead mask && aligned 2 v
  | .vstmx mask v _ _ _ => maskRead mask && aligned 2 v
  | .vamo mask v op scope _ => maskRead mask && decide (op.toNat ≤ 9 ∧ 1 ≤ scope.toNat ∧ scope.toNat ≤ 4) && (op != 9 || aligned 2 v)
  | .vappend mask _ _ _ => maskRead mask
  | .vclaim _ _ _ => true
  | .ldsc _ _ _ => true
  | .stsc _ _ _ => true
  | .xcopy _ _ scope _ _ _ => decide (scope.toNat ≤ 4)
  | .xcopyM _ _ scope _ _ _ _ => decide (scope.toNat ≤ 4)
  | .xfill _ _ scope _ _ _ => decide (scope.toNat ≤ 4)
  | .xgather _ _ scope _ _ _ => decide (scope.toNat ≤ 4)
  | .xscatter _ _ scope _ _ _ => decide (scope.toNat ≤ 4)
  | .xcollReduce _ _ scope _ _ _ => decide (scope.toNat ≤ 4)
  | .xcollBroadcast _ _ scope _ _ _ => decide (scope.toNat ≤ 4)
  | .xcollAllgather _ _ scope _ _ _ => decide (scope.toNat ≤ 4)
  | .xresume _ _ => true
  | .xcancel _ _ => true
  | .mma fmt asrc _ _ _ => decide (fmt.toNat ≤ 12 ∧ asrc ≠ 3)
  | .mmas fmt _ _ _ => decide (fmt.toNat ≤ 12)
  | .mdrain fmt dkind _ _ _ => [0, 1, 2, 3, 5, 14, 15].contains fmt.toNat && decide (dkind ≠ 3)
  | .mzero _ => true
  | .mload _ _ _ => true
  | .tnew _ _ => true
  | .tfree _ _ => true
  | .tsplit _ _ _ => true
  | .tacq _ _ _ => true
  | .trel _ _ => true
  | .tinfo _ _ _ => true
  | .fnew _ _ => true
  | .fset _ _ _ => true
  | .fsplit _ _ _ => true
  | .fdel _ _ => true
  | .ofence pred succ scope => decide (pred ≠ 0 ∧ succ ≠ 0 ∧ scope.toNat ≤ 4)
  | .waitaEq _ _ _ _ => true
  | .waitaNe _ _ _ _ => true
  | .waitaGeu _ _ _ _ => true
  | .waitaLtu _ _ _ _ => true
  | .notify scope _ _ => decide (1 ≤ scope.toNat ∧ scope.toNat ≤ 4)
  | .barinit _ _ => true
  | .bararv _ => true
  | .barwait _ => true
  | .ltsync _ _ => true
  | .jexit _ => true
  | .tmark _ => true
  | .fence _ _ _ => true
  | .sfenceVma _ _ => true
  | .lr _ _ _ _ _ => true
  | .sc _ _ _ _ _ _ => true
  | .riscvAmo op _ _ _ _ _ _ => decide (op ≠ .cas)
  | .registerWrite t _ _ => plainTarget t
  | .mtcfgWrite _ _ => true
  | .vlWrite _ _ => true
  | .vspaceWrite _ _ => true
  | .flagCsrAccess _ _ _ _ => true
  | .satpWrite _ _ => true
  | .panicmarkWrite _ _ => true
  | .savectlReady _ _ => true
  | .perfselSelect _ _ _ => true
  | .perfselProgram _ _ _ => true
  | .perfselWriteValue _ _ _ => true
  | .perfselSetThreshold _ _ _ => true
  | .perfselClearFlags _ _ _ => true
  | .perfselSetTraceBuffer _ _ _ => true
  | .perfselSetSamplePeriod _ _ _ => true
  | .perfselSetBreakpoint _ _ _ => true
  | .perfselClearBreakpoint _ _ _ => true
  | .mtfinfoSelect _ _ _ _ => true
  | .mtfinfoResume _ _ _ _ => true
  | .mtfinfoSkip _ _ _ _ => true
  | .mtfinfoClear _ _ _ _ => true
  | .mtfinfoSelectLowest _ _ _ _ => true
  | .regqueue fn _ => decide (fn ≤ 256)
  | .resetqueue fn _ => decide (fn ≤ 256)
  | .queueResetComplete _ => true
  | .attest fn _ => decide (fn ≤ 256)
  | .assign fn _ => decide (fn ≤ 256)
  | .regiontab fn _ => decide (fn ≤ 256)
  | .fwloadWrite _ => true
  | .mresetWrite _ => true
  | .pwrcapWrite _ => true
  | .hlogWrite _ => true
  | .queueDoorbell _ _ _ _ => true
  | .regionDoorbell _ _ _ => true
  | .periodStart _ => true
  | .gangAnchor _ _ => true
  | .anchorWindowExpiry _ _ => true
  | .mgmtTaskRelease _ => true
  | .slotCmdBind core _ => decide (core < Config.cores)
  | .slotCmdClear core => decide (core < Config.cores)
  | .slotCmdUnmap core => decide (core < Config.cores)
  | .gangStart _ _ => true
  | .preemptForcedStop core => decide (core < Config.cores)
  | .preemptStop core => decide (core < Config.cores)
  | .saveComplete core => decide (core < Config.cores)
  | .vqDistribute _ => true
  | .vqRetire _ => true
  | .mtTakeItem m => decide (m < 8192)
  | .blockStart m => decide (m < 8192)
  | .linkDeliver m => decide (m < 8192)
  | .mtDataReturn m => decide (m < 8192)
  | .pageWalkComplete _ _ => true
  | .engineCommandStart _ => true
  | .engineCommandComplete _ => true
  | .engineFault _ => true
  | .collectiveContribution _ _ => true
  | .homeReadRequest agent _ _ => decide (agent < 568)
  | .homeWriteRequest agent _ _ _ _ => decide (agent < 568)
  | .recall _ _ => true
  | .forwardServed _ _ => true
  | .recallTimeout _ => true
  | .windowAccess core _ _ _ _ => decide (core < Config.cores)
  | .sliceClampSweep die => decide (die < 4)
  | .counterWrap idx => decide (idx < 12)
  | .counterThreshold idx => decide (idx < 12)
  | .breakpointFire _ _ => true
  | .coreRetire core => decide (core < Config.cores)
  | .spareMapped core => decide (core < Config.cores)
  | .coreSelfTestEnd core _ => decide (core < Config.cores)
  | .lanternCatch _ _ _ _ => true
  | .fatalError reason => decide (1 ≤ reason ∧ reason ≤ 3)
  | .ctScalarLoad kind _ _ _ => kind.signed || decide (kind.size ≠ 3)
  | .ctScalarStore _ _ _ _ => true
  | .restoreComplete core => decide (core < Config.cores)
  | .staleMessage _ _ => true
  | .hostCxlRead _ _ => true
  | .hostCxlWrite _ _ _ => true
  | .sramScrub _ => true
  | .ddrPatrolScrub _ => true
  | .guylineDown link => decide (link < 24)
  | .guylineRetrain link => decide (link < 24)
  | .dieClockGate die => decide (die < 4)
  | .diePowerGate die => decide (die < 4)
  | .thermalWarning die _ => decide (die < 4)
  | .thermalHold die _ => decide (die < 4)
  | .thermalRelease die _ => decide (die < 4)
  | .thermalHoldLimit die => decide (die < 4)
  | .coolantOutOfLimits _ _ => true
  | .managementCoreGate mcore => decide (mcore < 4)
  | .powerLoss _ => true
  | .storageError _ _ => true
  | .vsync => true
  | .jtrig => true
  | .fenceI => true
  | .wfi => true
  | .moduleReset => true
  | .capApplied => true
  | .sheepdogPass => true
  | .trapTaken => true
  | .ctWaitComplete => true
  | .waitaWake => true
  | .waitaTimeout => true
  | .ltimeSelfIncrement => true
  | .leaseDrop => true
  | .moduleTimeBroadcast => true
  | .perfSample => true
  | .lanternReplay => true
  | .sheepdogWatchdog => true
  | .fatalCoreTimeout => true
  | .sret => true

end Sys2Proof
end

