-- ==== Sys2Proof/Decode.lean ====
section
/-! DEFINITION. Decoding of both instruction streams (05 Instruction formats and the opcode map): micro-thread
words, control-thread words and carriers; every pattern that R107 to R122 do not define decodes to nothing
(05 R123). The encoder of the same tables, and the table's own reading of a word, follow. -/

namespace Sys2Proof

/-- Bits [lo + n - 1 : lo] of a word. -/
abbrev bits (w : BitVec 32) (lo n : Nat) : BitVec n := w.extractLsb' lo n

/-- Keep a candidate whose unused fields are zero and that is legal (05 R109). -/
def legalIf (unusedZero : Bool) (i : Instr) : Option Instr :=
  if unusedZero && i.wellFormed then some i else none

/-- Major 0x01 by func6 (05 R111). -/
def decodeInt (f : Nat) (w : BitVec 2) (d a b : VReg) : Option Instr :=
  match f with
  | 0 => legalIf true (.add w d a b)
  | 1 => legalIf true (.sub w d a b)
  | 2 => legalIf true (.and w d a b)
  | 3 => legalIf true (.or w d a b)
  | 4 => legalIf true (.xor w d a b)
  | 5 => legalIf true (.andn w d a b)
  | 6 => legalIf true (.sll w d a b)
  | 7 => legalIf true (.srl w d a b)
  | 8 => legalIf true (.sra w d a b)
  | 9 => legalIf true (.min w d a b)
  | 10 => legalIf true (.max w d a b)
  | 11 => legalIf true (.minu w d a b)
  | 12 => legalIf true (.maxu w d a b)
  | 13 => legalIf true (.slt w d a b)
  | 14 => legalIf true (.sltu w d a b)
  | 15 => legalIf true (.seq w d a b)
  | 16 => legalIf true (.mul w d a b)
  | 17 => legalIf true (.mulh w d a b)
  | 18 => legalIf true (.mulhu w d a b)
  | 19 => legalIf true (.div w d a b)
  | 20 => legalIf true (.divu w d a b)
  | 21 => legalIf true (.rem w d a b)
  | 22 => legalIf true (.remu w d a b)
  | 23 => legalIf (b == 0) (.clz w d a)
  | 24 => legalIf (b == 0) (.ctz w d a)
  | 25 => legalIf (b == 0) (.popc w d a)
  | _ => none

/-- Major 0x18 by func6 (05 R111). -/
def decodeFp (f : Nat) (w : BitVec 2) (d a b : VReg) : Option Instr :=
  match f with
  | 0 => legalIf true (.fadd w d a b)
  | 1 => legalIf true (.fsub w d a b)
  | 2 => legalIf true (.fmul w d a b)
  | 3 => legalIf true (.fdiv w d a b)
  | 4 => legalIf (b == 0) (.fsqrt w d a)
  | 5 => legalIf true (.fmin w d a b)
  | 6 => legalIf true (.fmax w d a b)
  | 7 => legalIf true (.feq w d a b)
  | 8 => legalIf true (.flt w d a b)
  | 9 => legalIf true (.fle w d a b)
  | 10 => legalIf true (.fsgnj w d a b)
  | 11 => legalIf true (.fsgnjn w d a b)
  | 12 => legalIf true (.fsgnjx w d a b)
  | 13 => legalIf (b == 0) (.fclass w d a)
  | _ => none

/-- Major 0x1C by func6 (05 R111). -/
def decodeSfu (f : Nat) (w : BitVec 2) (d a b : VReg) : Option Instr :=
  let z := b == 0 && w.toNat < 2
  match f with
  | 0 => legalIf z (.frcp (w == 1) d a)
  | 1 => legalIf z (.frsq (w == 1) d a)
  | 2 => legalIf z (.fexp2 (w == 1) d a)
  | 3 => legalIf z (.flog2 (w == 1) d a)
  | 4 => legalIf z (.fsinpi (w == 1) d a)
  | 5 => legalIf z (.fcospi (w == 1) d a)
  | 6 => legalIf z (.ftanh (w == 1) d a)
  | 7 => legalIf z (.fsigm (w == 1) d a)
  | _ => none

/-- Major 0x1D by FORM (05 R112): C is FORM, PART, NFMT. -/
def decodeCvt (c : BitVec 6) (w : BitVec 2) (d a b : VReg) : Option Instr :=
  let part := c.extractLsb' 3 1
  let nf := c.extractLsb' 0 3
  match (c.extractLsb' 4 2).toNat with
  | 0 => legalIf (part == 0) (.cvtN w nf d a b)
  | 1 => legalIf (b == 0) (.cvtW w part nf d a)
  | 2 => legalIf (part == 0 && nf == 0 && b == 0) (.cvtFi w d a)
  | _ => legalIf (part == 0 && nf == 0 && b == 0) (.cvtIf w d a)

/-- A micro-thread word (05 R107 to R115). -/
def decodeMt (x : BitVec 32) : Option Instr :=
  let d := bits x 6 6
  let a := bits x 12 6
  let b := bits x 18 6
  let c := bits x 24 6
  let w := bits x 30 2
  let imm14 := bits x 18 14
  let imm12 := bits x 18 12
  let shZero := bits x 23 9 == 0
  let sh := bits x 18 5
  let sat := c.getLsbD 1
  match (bits x 0 6).toNat with
  | 0x01 => decodeInt c.toNat w d a b
  | 0x02 => legalIf (w == 0) (.sel d a b c)
  | 0x03 => legalIf (w.toNat < 2) (.bfx (w == 1) d a b c)
  | 0x04 => legalIf (w == 0) (.bfi d a b c)
  | 0x05 => legalIf (w == 0 && c == 0) (.rget d a b)
  | 0x06 => legalIf (w == 0 && c == 0) (.rput d a b)
  | 0x07 =>
    match c.toNat with
    | 0 => legalIf (w == 0 && a == 0 && b == 0) (.mtid d)
    | 1 => legalIf (w == 0 && a == 0 && b == 0) (.lnkrd d)
    | 2 => legalIf (w == 0 && d == 0 && b == 0) (.lnkwr a)
    | _ => none
  | 0x10 => legalIf true (.addi d a imm14)
  | 0x11 => legalIf true (.andi d a imm14)
  | 0x12 => legalIf true (.ori d a imm14)
  | 0x13 => legalIf true (.xori d a imm14)
  | 0x14 => legalIf shZero (.slli d a sh)
  | 0x15 => legalIf shZero (.srli d a sh)
  | 0x16 => legalIf shZero (.srai d a sh)
  | 0x17 => legalIf true (.lui d (bits x 12 20))
  | 0x18 => decodeFp c.toNat w d a b
  | 0x19 => legalIf true (.fma w d a b c)
  | 0x1A => legalIf true (.fms w d a b c)
  | 0x1B => legalIf true (.fnma w d a b c)
  | 0x1C => decodeSfu c.toNat w d a b
  | 0x1D => decodeCvt c w d a b
  | 0x1E => legalIf (w == 0 && c == 0) (.cvtq4 d a b)
  | 0x1F => legalIf (w.toNat < 2) (.mxscale (w == 1) (c.extractLsb' 3 3) (c.extractLsb' 0 3) d a b)
  | 0x20 => legalIf (w == 0) (.pnix c d a b)
  | 0x21 => legalIf (w == 0) (.pnit c d a b)
  | 0x28 => legalIf true (.ld w d a imm12)
  | 0x29 => legalIf true (.st w d a imm12)
  | 0x2A => legalIf true (.lds w d a imm12)
  | 0x2B => legalIf true (.sts w d a imm12)
  | 0x2C => legalIf (bits x 18 3 == 0) (.amo w (bits x 26 4) (bits x 24 2) (bits x 21 3) d a)
  | 0x2D => legalIf (bits x 18 3 == 0) (.amos w (bits x 26 4) (bits x 24 2) (bits x 21 3) d a)
  | 0x2E =>
    legalIf (w == 0 && bits x 24 1 == 0 && bits x 18 4 == 0 && a == 0 && d == 0)
      (.mfence (bits x 27 3) (bits x 25 2) (bits x 22 2))
  | 0x30 => legalIf (w == 0 && c.extractLsb' 2 4 == 0 && !c.getLsbD 0) (.pxf sat d a b)
  | 0x31 => legalIf (w == 0 && c.extractLsb' 2 4 == 0) (.padd sat (c.getLsbD 0) d a b)
  | 0x32 => legalIf (w == 0 && c.extractLsb' 2 4 == 0) (.psub sat (c.getLsbD 0) d a b)
  | 0x33 => legalIf (w == 0 && c.extractLsb' 2 4 == 0 && !c.getLsbD 0 && b == 0) (.pretag sat d a)
  | 0x34 => legalIf (w == 0 && c.extractLsb' 2 4 == 0 && !c.getLsbD 0) (.prot sat d a b)
  | 0x35 => legalIf (w == 0 && c == 0 && b == 0) (.pchk d a)
  | 0x38 => legalIf (d == 0) (.mfetch (bits x 12 20))
  | 0x39 => legalIf (w == 0 && d == 0 && b == 0 && c == 0) (.mfetchr a)
  | 0x3A => legalIf (bits x 26 6 == 0 && a == 0 && d == 0) (.mtrap (bits x 18 8))
  | _ => none

/-- Words that never stand in a carrier (02 R37, 05 R118). -/
def Instr.chainControl : Instr → Bool
  | .mfetch _ => true
  | .mfetchr _ => true
  | .lnkrd _ => true
  | .lnkwr _ => true
  | _ => false

/-- Words whose A field takes no cross-lane modifier (05 R110, column Mod). -/
def Instr.noModifier : Instr → Bool
  | .rget _ _ _ => true
  | .mtid _ => true
  | .lui _ _ => true
  | .cvtq4 _ _ _ => true
  | .mfence _ _ _ => true
  | .mtrap _ => true
  | _ => false

/-- The word of a carrier is legal there (05 R118): it decodes, it is no chain-control word, and it takes a
lane modifier when one is given. -/
def carrierWordOk (lane : BitVec 2) (word : MWord) : Bool :=
  match decodeMt word with
  | some i => !i.chainControl && (lane == 0 || !i.noModifier)
  | none => false

/-- A carrier from its two parcels (05 R118). -/
def decodeCarrier (lo hi : BitVec 32) : Option Instr :=
  legalIf (bits lo 14 18 == 0 && carrierWordOk (bits lo 12 2) hi)
    (.vectorCarrier (bits lo 7 4) (lo.getLsbD 11) (bits lo 12 2) hi)

/-- custom-0 (05 R119). -/
def decodeCustom0 (x : BitVec 32) : Option Instr :=
  let rd := bits x 7 5
  let rs1 := bits x 15 5
  let f7 := (bits x 25 7).toNat
  let kd := bits x 16 4
  let ka := bits x 20 4
  match (bits x 12 3).toNat with
  | 0 =>
    let r2 := bits x 20 5 == 0
    match f7 with
    | 0 => legalIf r2 (.mtconf rd rs1)
    | 1 => legalIf r2 (.setvl rd rs1)
    | 2 => legalIf (r2 && rs1 == 0 && rd == 0) .vsync
    | 3 => legalIf (r2 && rd == 0) (.vlnkput rs1)
    | 4 => legalIf (r2 && rs1 == 0) (.vlnkget rd)
    | 5 => legalIf (!x.getLsbD 24 && rd == 0) (.vfetch ka rs1)
    | _ => none
  | 1 =>
    match (bits x 26 6).toNat with
    | 0 => legalIf true (.vget (bits x 20 6) rs1 rd)
    | 1 => legalIf true (.vput (bits x 20 6) rs1 rd)
    | _ => none
  | 2 => legalIf (!x.getLsbD 15) (.kcmp (bits x 7 5) kd (bits x 20 6) (bits x 26 6))
  | 3 => legalIf (!x.getLsbD 15 && rd == 0) (.klog (bits x 28 4) kd ka (bits x 24 4))
  | 4 =>
    let z := bits x 24 3 == 0 && !x.getLsbD 15
    match (bits x 27 5).toNat with
    | 0 => legalIf (z && rd == 0) (.ksbf kd ka)
    | 1 => legalIf (z && rd == 0) (.ksif kd ka)
    | 2 => legalIf (z && rd == 0) (.ksof kd ka)
    | 3 => legalIf (z && kd == 0) (.kpop rd ka)
    | 4 => legalIf (z && kd == 0) (.kfirst rd ka)
    | _ => none
  | 5 =>
    let k := bits x 28 4
    let z := bits x 25 2 == 0
    if x.getLsbD 27 then legalIf (z && rd == 0) (.kput k rs1 (bits x 20 5))
    else legalIf (z && bits x 20 5 == 0) (.kget rd k rs1)
  | _ => none

/-- custom-1 (05 R120). -/
def decodeCustom1 (x : BitVec 32) : Option Instr :=
  let mask := bits x 28 4
  let v := bits x 22 6
  let sz := bits x 20 2
  let rs1 := bits x 15 5
  let xf := bits x 7 5
  match (bits x 12 3).toNat with
  | 0 => if xf == 0 then legalIf true (.vld mask v sz rs1) else legalIf true (.vlds mask v sz rs1 xf)
  | 1 => if xf == 0 then legalIf true (.vst mask v sz rs1) else legalIf true (.vsts mask v sz rs1 xf)
  | 2 =>
    if x.getLsbD 11 then legalIf true (.vstx mask v sz rs1 (bits x 7 4))
    else legalIf true (.vldx mask v sz rs1 (bits x 7 4))
  | 3 => legalIf true (.vldff mask v sz rs1 xf)
  | 4 =>
    if x.getLsbD 21 then legalIf true (.vstmx mask v (x.getLsbD 20) rs1 xf)
    else legalIf true (.vldmx mask v (x.getLsbD 20) rs1 xf)
  | 5 => legalIf true (.vamo mask v (bits x 18 4) (bits x 15 3) xf)
  | 6 =>
    match sz.toNat with
    | 0 => legalIf true (.vappend mask v rs1 xf)
    | 1 => legalIf (bits x 27 5 == 0) (.vclaim xf rs1 (bits x 22 5))
    | 2 => legalIf (bits x 28 4 == 0 && bits x 22 5 == 0) (.ldsc (x.getLsbD 27) xf rs1)
    | _ => legalIf (bits x 28 4 == 0 && xf == 0) (.stsc (x.getLsbD 27) (bits x 22 5) rs1)
  | _ => none

/-- custom-2 (05 R121), all but xcopy.m, which takes the following word too. -/
def decodeCustom2 (x : BitVec 32) : Option Instr :=
  let rd := bits x 7 5
  let rs1 := bits x 15 5
  let rs2 := bits x 20 5
  let acq := x.getLsbD 31
  let rel := x.getLsbD 30
  let sc := bits x 27 3
  let noFlags := bits x 27 5 == 0
  match (bits x 12 3).toNat, (bits x 25 2).toNat with
  | 0, 0 => legalIf true (.xcopy acq rel sc rd rs1 rs2)
  | 0, 2 => legalIf true (.xfill acq rel sc rd rs1 rs2)
  | 1, 0 => legalIf true (.xgather acq rel sc rd rs1 rs2)
  | 1, 1 => legalIf true (.xscatter acq rel sc rd rs1 rs2)
  | 2, 0 => legalIf true (.xcollReduce acq rel sc rd rs1 rs2)
  | 2, 1 => legalIf true (.xcollBroadcast acq rel sc rd rs1 rs2)
  | 2, 2 => legalIf true (.xcollAllgather acq rel sc rd rs1 rs2)
  | 3, 0 => legalIf (noFlags && rs2 == 0) (.xresume rd rs1)
  | 3, 1 => legalIf (noFlags && rs2 == 0) (.xcancel rd rs1)
  | 4, _ =>
    if x.getLsbD 25 then legalIf (bits x 26 2 == 0) (.mmas (bits x 28 4) rd rs1 rs2)
    else legalIf true (.mma (bits x 28 4) (bits x 26 2) rd rs1 rs2)
  | 5, _ => legalIf (!x.getLsbD 25) (.mdrain (bits x 28 4) (bits x 26 2) rd rs1 rs2)
  | 6, 0 => legalIf (bits x 27 5 == 0 && rs1 == 0 && rs2 == 0) (.mzero rd)
  | 6, 1 => legalIf (bits x 27 5 == 0) (.mload rd rs1 rs2)
  | _, _ => none

/-- A word that is an mma or an mmas (05 R121). -/
def isMatrixWord (x : BitVec 32) : Bool :=
  match (if bits x 0 7 == 0x5B then decodeCustom2 x else none) with
  | some (.mma _ _ _ _ _) => true
  | some (.mmas _ _ _ _) => true
  | _ => false

/-- xcopy.m with the word that follows it (05 R121). -/
def decodeXcopyM (lo hi : BitVec 32) : Option Instr :=
  legalIf (isMatrixWord hi)
    (.xcopyM (lo.getLsbD 31) (lo.getLsbD 30) (bits lo 27 3) (bits lo 7 5) (bits lo 15 5) (bits lo 20 5) hi)

/-- A word of custom-2 whose funct3 and funct2 name xcopy.m (05 R121). -/
def isXcopyM (x : BitVec 32) : Bool :=
  bits x 0 7 == 0x5B && bits x 12 3 == 0 && bits x 25 2 == 1

/-- custom-3 (05 R122). -/
def decodeCustom3 (x : BitVec 32) : Option Instr :=
  let rd := bits x 7 5
  let rs1 := bits x 15 5
  let rs2 := bits x 20 5
  let f7 := (bits x 25 7).toNat
  match (bits x 12 3).toNat with
  | 0 =>
    match f7 with
    | 0 => legalIf (rs2 == 0) (.tnew rd rs1)
    | 1 => legalIf (rs2 == 0) (.tfree rd rs1)
    | 2 => legalIf true (.tsplit rd rs1 rs2)
    | 3 => legalIf true (.tacq rd rs1 rs2)
    | 4 => legalIf (rs2 == 0) (.trel rd rs1)
    | 5 => legalIf true (.tinfo rd rs1 rs2)
    | _ => none
  | 1 =>
    match f7 with
    | 0 => legalIf (rs2 == 0) (.fnew rd rs1)
    | 1 => legalIf true (.fset rd rs1 rs2)
    | 2 => legalIf true (.fsplit rd rs1 rs2)
    | 3 => legalIf (rs2 == 0) (.fdel rd rs1)
    | _ => none
  | 2 => legalIf (bits x 15 6 == 0 && rd == 0) (.ofence (bits x 28 4) (bits x 24 4) (bits x 21 3))
  | 3 =>
    let rs3 := bits x 27 5
    match (bits x 25 2).toNat with
    | 0 => legalIf true (.waitaEq rd rs1 rs2 rs3)
    | 1 => legalIf true (.waitaNe rd rs1 rs2 rs3)
    | 2 => legalIf true (.waitaGeu rd rs1 rs2 rs3)
    | _ => legalIf true (.waitaLtu rd rs1 rs2 rs3)
  | 4 => legalIf (bits x 28 4 == 0 && rd == 0) (.notify (bits x 25 3) rs1 rs2)
  | 5 =>
    match f7 with
    | 0 => legalIf (rd == 0) (.barinit rs1 rs2)
    | 1 => legalIf (rd == 0 && rs2 == 0) (.bararv rs1)
    | 2 => legalIf (rd == 0 && rs2 == 0) (.barwait rs1)
    | _ => none
  | 6 =>
    match f7 with
    | 0 => legalIf (rs2 == 0) (.ltsync rd rs1)
    | 1 => legalIf (rs2 == 0 && rs1 == 0 && rd == 0) .jtrig
    | 2 => legalIf (rs2 == 0 && rd == 0) (.jexit rs1)
    | 3 => legalIf (rs2 == 0 && rd == 0) (.tmark rs1)
    | _ => none
  | _ => none

/-- The RISC-V instructions that have a row of their own (11 R255, R418, 22 R347, R353, R419, 15 R309, R310),
in the encodings of the ratified specifications (00 R1). -/
def decodeRv (x : BitVec 32) : Option Instr :=
  let rd := bits x 7 5
  let f3 := bits x 12 3
  let rs1 := bits x 15 5
  let rs2 := bits x 20 5
  let aq := x.getLsbD 26
  let rl := x.getLsbD 25
  let dbl := f3 == 3
  match (bits x 0 7).toNat with
  | 0x03 =>
    if f3 == 7 then none
    else legalIf true (.ctScalarLoad ⟨bits x 12 2, !x.getLsbD 14⟩ rd rs1 (bits x 20 12))
  | 0x23 =>
    if x.getLsbD 14 then none
    else legalIf true (.ctScalarStore ⟨bits x 12 2⟩ rs2 rs1 (bits x 25 7 ++ rd))
  | 0x0F =>
    match f3.toNat with
    | 0 => legalIf true (.fence (bits x 28 4) (bits x 24 4) (bits x 20 4))
    | 1 => legalIf true .fenceI
    | _ => none
  | 0x2F =>
    if f3 == 2 || f3 == 3 then
      match (bits x 27 5).toNat with
      | 0x02 => legalIf (rs2 == 0) (.lr dbl aq rl rd rs1)
      | 0x03 => legalIf true (.sc dbl aq rl rd rs1 rs2)
      | 0x01 => legalIf true (.riscvAmo .swap dbl aq rl rd rs1 rs2)
      | 0x00 => legalIf true (.riscvAmo .add dbl aq rl rd rs1 rs2)
      | 0x04 => legalIf true (.riscvAmo .xor dbl aq rl rd rs1 rs2)
      | 0x0C => legalIf true (.riscvAmo .and dbl aq rl rd rs1 rs2)
      | 0x08 => legalIf true (.riscvAmo .or dbl aq rl rd rs1 rs2)
      | 0x10 => legalIf true (.riscvAmo .min dbl aq rl rd rs1 rs2)
      | 0x14 => legalIf true (.riscvAmo .max dbl aq rl rd rs1 rs2)
      | 0x18 => legalIf true (.riscvAmo .minu dbl aq rl rd rs1 rs2)
      | 0x1C => legalIf true (.riscvAmo .maxu dbl aq rl rd rs1 rs2)
      | _ => none
    else none
  | 0x73 =>
    if x == 0x10500073 then some .wfi
    else if x == 0x10200073 then some .sret
    else if f3 == 0 && bits x 25 7 == 0x09 && rd == 0 then some (.sfenceVma rs1 rs2)
    else none
  | _ => none

/-- A control-thread word of one of the four custom opcodes (05 R119 to R122). -/
def decodeCustom (x : BitVec 32) : Option Instr :=
  match (bits x 0 7).toNat with
  | 0x0B => decodeCustom0 x
  | 0x2B => decodeCustom1 x
  | 0x5B => decodeCustom2 x
  | 0x7B => decodeCustom3 x
  | _ => none

/-- The control thread's decoder, from the word at the pc and the word after it (05 R118 to R123). RISC-V
instructions without a row decode to nothing here; Machine/BaseIsa.lean decodes them. -/
def decodeCt (lo hi : BitVec 32) : Option Instr :=
  if bits lo 0 7 == 0x3F then decodeCarrier lo hi
  else if isXcopyM lo then decodeXcopyM lo hi
  else (decodeCustom lo).or (decodeRv lo)

/-- Bytes that a control-thread instruction occupies (05 R118, R121). -/
def Instr.size : Instr → Nat
  | .vectorCarrier _ _ _ _ => 8
  | .xcopyM _ _ _ _ _ _ _ => 8
  | _ => 4

/-! ## The encoder -/

/-- The register layout: W, C, B, A, D, MAJOR (05 R107). -/
def encReg (w : BitVec 2) (c b a d major : BitVec 6) : BitVec 32 := w ++ c ++ b ++ a ++ d ++ major
/-- The immediate layout (05 R107). -/
def encImm (imm : BitVec 14) (a d major : BitVec 6) : BitVec 32 := imm ++ a ++ d ++ major
/-- The upper layout (05 R107). -/
def encUpper (imm : BitVec 20) (d major : BitVec 6) : BitVec 32 := imm ++ d ++ major
/-- The memory layout (05 R107). -/
def encMem (size : BitVec 2) (imm : BitVec 12) (a d major : BitVec 6) : BitVec 32 := size ++ imm ++ a ++ d ++ major
/-- The atomic layout (05 R107). -/
def encAtomic (size : BitVec 2) (op : BitVec 4) (ord : BitVec 2) (scope : BitVec 3) (a d major : BitVec 6) : BitVec 32 :=
  size ++ op ++ ord ++ scope ++ (0 : BitVec 3) ++ a ++ d ++ major
/-- One bit. -/
def bit1 (b : Bool) : BitVec 1 := BitVec.ofBool b
/-- The R-type layout of RISC-V: funct7, rs2, rs1, funct3, rd, opcode. -/
def encR (f7 : BitVec 7) (rs2 rs1 : XReg) (f3 : BitVec 3) (rd : XReg) (op : BitVec 7) : BitVec 32 :=
  f7 ++ rs2 ++ rs1 ++ f3 ++ rd ++ op
/-- The custom-1 layout (05 R120). -/
def encVec (mask : BitVec 4) (v : VReg) (sz : BitVec 2) (rs1 : XReg) (f3 : BitVec 3) (x : BitVec 5) : BitVec 32 :=
  mask ++ v ++ sz ++ rs1 ++ f3 ++ x ++ (0x2B : BitVec 7)
/-- The engine layout of custom-2 (05 R121). -/
def encEng (acq rel : Bool) (scope : BitVec 3) (f2 : BitVec 2) (rs2 rs1 : XReg) (f3 : BitVec 3) (rd : XReg) : BitVec 32 :=
  bit1 acq ++ bit1 rel ++ scope ++ f2 ++ rs2 ++ rs1 ++ f3 ++ rd ++ (0x5B : BitVec 7)
/-- The funct5 of a RISC-V atomic; cas has none. -/
def AmoOp.funct5 : AmoOp → BitVec 5
  | .swap => 0x01 | .add => 0x00 | .xor => 0x04 | .and => 0x0C | .or => 0x08
  | .min => 0x10 | .max => 0x14 | .minu => 0x18 | .maxu => 0x1C | .cas => 0x1F
/-- The atomic operation of a code of OP (05 R113). -/
def AmoOp.ofCode (c : BitVec 4) : AmoOp :=
  match c.toNat with
  | 0 => .swap | 1 => .add | 2 => .and | 3 => .or | 4 => .xor | 5 => .min | 6 => .max | 7 => .minu | 8 => .maxu | _ => .cas
/-- The RISC-V AMO layout. -/
def encAmo (f5 : BitVec 5) (aq rl dbl : Bool) (rs2 rs1 rd : XReg) : BitVec 32 :=
  f5 ++ bit1 aq ++ bit1 rl ++ rs2 ++ rs1 ++ (if dbl then (3 : BitVec 3) else 2) ++ rd ++ (0x2F : BitVec 7)

/-- The carrier's first word (05 R118): LANE, DT, mask, opcode. -/
def encCarrier (lane : BitVec 2) (dt : BitVec 1) (mask : BitVec 4) : BitVec 32 := (0 : BitVec 18) ++ lane ++ dt ++ mask ++ (0x3F : BitVec 7)
/-- The layout of vget, vput and kcmp (05 R119): six high bits, a register, rs1 or its bits, funct3, rd or its bits. -/
def encElem (hi : BitVec 6) (v : VReg) (mid : BitVec 5) (f3 : BitVec 3) (rd : BitVec 5) : BitVec 32 :=
  hi ++ v ++ mid ++ f3 ++ rd ++ (0x0B : BitVec 7)
/-- The layout of the mask instructions (05 R119): a code of four bits, three more, two masks, funct3, rd. -/
def encMask (top k2 ka kd : BitVec 4) (z : BitVec 1) (f3 : BitVec 3) (rd : BitVec 5) : BitVec 32 :=
  top ++ k2 ++ ka ++ kd ++ z ++ f3 ++ rd ++ (0x0B : BitVec 7)
/-- The layout of the prefix forms and counts (05 R119): funct5, three zeros, ka, kd, funct3, rd. -/
def encPre (f5 : BitVec 5) (ka kd : BitVec 4) (f3 : BitVec 3) (rd : BitVec 5) : BitVec 32 :=
  f5 ++ (0 : BitVec 3) ++ ka ++ kd ++ (0 : BitVec 1) ++ f3 ++ rd ++ (0x0B : BitVec 7)
/-- The layout of kget and kput (05 R119): the mask, the direction, rs2, rs1, rd. -/
def encKword (k : BitVec 4) (dir : BitVec 3) (rs2 rs1 : XReg) (rd : BitVec 5) : BitVec 32 :=
  k ++ dir ++ rs2 ++ rs1 ++ (5 : BitVec 3) ++ rd ++ (0x0B : BitVec 7)
/-- The layout of vamo (05 R120). -/
def encVamo (mask : BitVec 4) (v : VReg) (op : BitVec 4) (scope : BitVec 3) (x : BitVec 5) : BitVec 32 :=
  mask ++ v ++ op ++ scope ++ (5 : BitVec 3) ++ x ++ (0x2B : BitVec 7)
/-- The layout of vclaim, ldsc and stsc (05 R120): four zeros, the size bit, rs2, the form, rs1, rd. -/
def encScalar (z : BitVec 4) (dbl : BitVec 1) (rs2 : XReg) (f2 : BitVec 2) (rs1 rd : XReg) : BitVec 32 :=
  z ++ dbl ++ rs2 ++ f2 ++ rs1 ++ (6 : BitVec 3) ++ rd ++ (0x2B : BitVec 7)
/-- The layout of ofence (05 R122). -/
def encOfence (pred succ : BitVec 4) (scope : BitVec 3) : BitVec 32 :=
  pred ++ succ ++ scope ++ (0 : BitVec 6) ++ (2 : BitVec 3) ++ (0 : BitVec 5) ++ (0x7B : BitVec 7)
/-- The layout of WAITA (05 R122). -/
def encWaita (rs3 : XReg) (cond : BitVec 2) (rs2 rs1 rd : XReg) : BitVec 32 :=
  rs3 ++ cond ++ rs2 ++ rs1 ++ (3 : BitVec 3) ++ rd ++ (0x7B : BitVec 7)
/-- The layout of fence. -/
def encFence (fm pred succ : BitVec 4) : BitVec 32 := fm ++ pred ++ succ ++ (0 : BitVec 13) ++ (0x0F : BitVec 7)
/-- The I-type layout of a scalar load. -/
def encLoad (off : BitVec 12) (rs1 : XReg) (f3 : BitVec 3) (rd : XReg) : BitVec 32 := off ++ rs1 ++ f3 ++ rd ++ (0x03 : BitVec 7)

/-- The words of an instruction, in memory order; a step of another agent and a CSR command, whose words
depend on register values, have none. -/
def encode (i : Instr) : List (BitVec 32) :=
  match i with
  | .add w d a b => [encReg w 0 b a d 0x01]
  | .sub w d a b => [encReg w 1 b a d 0x01]
  | .and w d a b => [encReg w 2 b a d 0x01]
  | .or w d a b => [encReg w 3 b a d 0x01]
  | .xor w d a b => [encReg w 4 b a d 0x01]
  | .andn w d a b => [encReg w 5 b a d 0x01]
  | .sll w d a b => [encReg w 6 b a d 0x01]
  | .srl w d a b => [encReg w 7 b a d 0x01]
  | .sra w d a b => [encReg w 8 b a d 0x01]
  | .min w d a b => [encReg w 9 b a d 0x01]
  | .max w d a b => [encReg w 10 b a d 0x01]
  | .minu w d a b => [encReg w 11 b a d 0x01]
  | .maxu w d a b => [encReg w 12 b a d 0x01]
  | .slt w d a b => [encReg w 13 b a d 0x01]
  | .sltu w d a b => [encReg w 14 b a d 0x01]
  | .seq w d a b => [encReg w 15 b a d 0x01]
  | .mul w d a b => [encReg w 16 b a d 0x01]
  | .mulh w d a b => [encReg w 17 b a d 0x01]
  | .mulhu w d a b => [encReg w 18 b a d 0x01]
  | .div w d a b => [encReg w 19 b a d 0x01]
  | .divu w d a b => [encReg w 20 b a d 0x01]
  | .rem w d a b => [encReg w 21 b a d 0x01]
  | .remu w d a b => [encReg w 22 b a d 0x01]
  | .clz w d a => [encReg w 23 0 a d 0x01]
  | .ctz w d a => [encReg w 24 0 a d 0x01]
  | .popc w d a => [encReg w 25 0 a d 0x01]
  | .sel d a b c => [encReg 0 c b a d 0x02]
  | .bfx sign d a pos len => [encReg (if sign then 1 else 0) len pos a d 0x03]
  | .bfi d a pos len => [encReg 0 len pos a d 0x04]
  | .rget d a b => [encReg 0 0 b a d 0x05]
  | .rput d a b => [encReg 0 0 b a d 0x06]
  | .mtid d => [encReg 0 0 0 0 d 0x07]
  | .lnkrd d => [encReg 0 1 0 0 d 0x07]
  | .lnkwr a => [encReg 0 2 0 a 0 0x07]
  | .addi d a imm => [encImm imm a d 0x10]
  | .andi d a imm => [encImm imm a d 0x11]
  | .ori d a imm => [encImm imm a d 0x12]
  | .xori d a imm => [encImm imm a d 0x13]
  | .slli d a sh => [encImm ((0 : BitVec 9) ++ sh) a d 0x14]
  | .srli d a sh => [encImm ((0 : BitVec 9) ++ sh) a d 0x15]
  | .srai d a sh => [encImm ((0 : BitVec 9) ++ sh) a d 0x16]
  | .lui d imm => [encUpper imm d 0x17]
  | .fadd w d a b => [encReg w 0 b a d 0x18]
  | .fsub w d a b => [encReg w 1 b a d 0x18]
  | .fmul w d a b => [encReg w 2 b a d 0x18]
  | .fdiv w d a b => [encReg w 3 b a d 0x18]
  | .fsqrt w d a => [encReg w 4 0 a d 0x18]
  | .fmin w d a b => [encReg w 5 b a d 0x18]
  | .fmax w d a b => [encReg w 6 b a d 0x18]
  | .feq w d a b => [encReg w 7 b a d 0x18]
  | .flt w d a b => [encReg w 8 b a d 0x18]
  | .fle w d a b => [encReg w 9 b a d 0x18]
  | .fsgnj w d a b => [encReg w 10 b a d 0x18]
  | .fsgnjn w d a b => [encReg w 11 b a d 0x18]
  | .fsgnjx w d a b => [encReg w 12 b a d 0x18]
  | .fclass w d a => [encReg w 13 0 a d 0x18]
  | .fma w d a b c => [encReg w c b a d 0x19]
  | .fms w d a b c => [encReg w c b a d 0x1A]
  | .fnma w d a b c => [encReg w c b a d 0x1B]
  | .frcp bf d a => [encReg (if bf then 1 else 0) 0 0 a d 0x1C]
  | .frsq bf d a => [encReg (if bf then 1 else 0) 1 0 a d 0x1C]
  | .fexp2 bf d a => [encReg (if bf then 1 else 0) 2 0 a d 0x1C]
  | .flog2 bf d a => [encReg (if bf then 1 else 0) 3 0 a d 0x1C]
  | .fsinpi bf d a => [encReg (if bf then 1 else 0) 4 0 a d 0x1C]
  | .fcospi bf d a => [encReg (if bf then 1 else 0) 5 0 a d 0x1C]
  | .ftanh bf d a => [encReg (if bf then 1 else 0) 6 0 a d 0x1C]
  | .fsigm bf d a => [encReg (if bf then 1 else 0) 7 0 a d 0x1C]
  | .cvtN w nf d a b => [encReg w ((0 : BitVec 3) ++ nf) b a d 0x1D]
  | .cvtW w part nf d a => [encReg w ((1 : BitVec 2) ++ part ++ nf) 0 a d 0x1D]
  | .cvtFi w d a => [encReg w 0x20 0 a d 0x1D]
  | .cvtIf w d a => [encReg w 0x30 0 a d 0x1D]
  | .cvtq4 d a b => [encReg 0 0 b a d 0x1E]
  | .mxscale bf part sf d a b => [encReg (if bf then 1 else 0) (part ++ sf) b a d 0x1F]
  | .pnix q d a b => [encReg 0 q b a d 0x20]
  | .pnit q d a b => [encReg 0 q b a d 0x21]
  | .ld size d a off => [encMem size off a d 0x28]
  | .st size d a off => [encMem size off a d 0x29]
  | .lds size d a off => [encMem size off a d 0x2A]
  | .sts size d a off => [encMem size off a d 0x2B]
  | .amo size op ord scope d a => [encAtomic size op ord scope a d 0x2C]
  | .amos size op ord scope d a => [encAtomic size op ord scope a d 0x2D]
  | .mfence scope pred succ => [encReg 0 (scope ++ pred ++ (0 : BitVec 1)) (succ ++ (0 : BitVec 4)) 0 0 0x2E]
  | .pxf sat d a b => [encReg 0 ((0 : BitVec 4) ++ bit1 sat ++ (0 : BitVec 1)) b a d 0x30]
  | .padd sat x d a b => [encReg 0 ((0 : BitVec 4) ++ bit1 sat ++ bit1 x) b a d 0x31]
  | .psub sat x d a b => [encReg 0 ((0 : BitVec 4) ++ bit1 sat ++ bit1 x) b a d 0x32]
  | .pretag sat d a => [encReg 0 ((0 : BitVec 4) ++ bit1 sat ++ (0 : BitVec 1)) 0 a d 0x33]
  | .prot sat d a b => [encReg 0 ((0 : BitVec 4) ++ bit1 sat ++ (0 : BitVec 1)) b a d 0x34]
  | .pchk d a => [encReg 0 0 0 a d 0x35]
  | .mfetch imm => [encUpper imm 0 0x38]
  | .mfetchr a => [encReg 0 0 0 a 0 0x39]
  | .mtrap code => [encImm ((0 : BitVec 6) ++ code) 0 0 0x3A]
  | .vectorCarrier mask dt lane word => [encCarrier lane (bit1 dt) mask, word]
  | .mtconf rd rs1 => [encR 0 0 rs1 0 rd 0x0B]
  | .setvl rd rs1 => [encR 1 0 rs1 0 rd 0x0B]
  | .vlnkput rs1 => [encR 3 0 rs1 0 0 0x0B]
  | .vlnkget rd => [encR 4 0 0 0 rd 0x0B]
  | .vfetch mask rs1 => [encR 5 ((0 : BitVec 1) ++ mask) rs1 0 0 0x0B]
  | .vget v rs1 rd => [encElem 0 v rs1 1 rd]
  | .vput v rs1 rx => [encElem 1 v rs1 1 rx]
  | .kcmp cond kd a b => [encElem b a (kd ++ (0 : BitVec 1)) 2 cond]
  | .klog tt kd ka kb => [encMask tt kb ka kd 0 3 0]
  | .ksbf kd ka => [encPre 0 ka kd 4 0]
  | .ksif kd ka => [encPre 1 ka kd 4 0]
  | .ksof kd ka => [encPre 2 ka kd 4 0]
  | .kpop rd ka => [encPre 3 ka 0 4 rd]
  | .kfirst rd ka => [encPre 4 ka 0 4 rd]
  | .kget rd k rs1 => [encKword k 0 0 rs1 rd]
  | .kput k rs1 rs2 => [encKword k 4 rs2 rs1 0]
  | .vld mask v size rs1 => [encVec mask v size rs1 0 0]
  | .vlds mask v size rs1 xs => [encVec mask v size rs1 0 xs]
  | .vst mask v size rs1 => [encVec mask v size rs1 1 0]
  | .vsts mask v size rs1 xs => [encVec mask v size rs1 1 xs]
  | .vldx mask v size rs1 vi => [encVec mask v size rs1 2 ((0 : BitVec 1) ++ vi)]
  | .vstx mask v size rs1 vi => [encVec mask v size rs1 2 ((1 : BitVec 1) ++ vi)]
  | .vldff mask v size rs1 xs => [encVec mask v size rs1 3 xs]
  | .vldmx mask v wide rs1 xc => [encVec mask v (bit1 false ++ bit1 wide) rs1 4 xc]
  | .vstmx mask v wide rs1 xc => [encVec mask v (bit1 true ++ bit1 wide) rs1 4 xc]
  | .vamo mask v op scope x => [encVamo mask v op scope x]
  | .vappend mask v rs1 rd => [encVec mask v 0 rs1 6 rd]
  | .vclaim rd rs1 rs2 => [encScalar 0 0 rs2 1 rs1 rd]
  | .ldsc dbl rd rs1 => [encScalar 0 (bit1 dbl) 0 2 rs1 rd]
  | .stsc dbl rs2 rs1 => [encScalar 0 (bit1 dbl) rs2 3 rs1 0]
  | .xcopy acq rel scope rd rs1 rs2 => [encEng acq rel scope 0 rs2 rs1 0 rd]
  | .xcopyM acq rel scope rd rs1 rs2 mword => [encEng acq rel scope 1 rs2 rs1 0 rd, mword]
  | .xfill acq rel scope rd rs1 rs2 => [encEng acq rel scope 2 rs2 rs1 0 rd]
  | .xgather acq rel scope rd rs1 rs2 => [encEng acq rel scope 0 rs2 rs1 1 rd]
  | .xscatter acq rel scope rd rs1 rs2 => [encEng acq rel scope 1 rs2 rs1 1 rd]
  | .xcollReduce acq rel scope rd rs1 rs2 => [encEng acq rel scope 0 rs2 rs1 2 rd]
  | .xcollBroadcast acq rel scope rd rs1 rs2 => [encEng acq rel scope 1 rs2 rs1 2 rd]
  | .xcollAllgather acq rel scope rd rs1 rs2 => [encEng acq rel scope 2 rs2 rs1 2 rd]
  | .xresume rd rs1 => [encEng false false 0 0 0 rs1 3 rd]
  | .xcancel rd rs1 => [encEng false false 0 1 0 rs1 3 rd]
  | .mma fmt asrc t rs1 rs2 => [encR (fmt ++ asrc ++ (0 : BitVec 1)) rs2 rs1 4 t 0x5B]
  | .mmas fmt t rs1 rs2 => [encR (fmt ++ (1 : BitVec 3)) rs2 rs1 4 t 0x5B]
  | .mdrain fmt dkind t rs1 rs2 => [encR (fmt ++ dkind ++ (0 : BitVec 1)) rs2 rs1 5 t 0x5B]
  | .mzero t => [encR 0 0 0 6 t 0x5B]
  | .mload t rs1 rs2 => [encR 1 rs2 rs1 6 t 0x5B]
  | .tnew rd rs1 => [encR 0 0 rs1 0 rd 0x7B]
  | .tfree rd rs1 => [encR 1 0 rs1 0 rd 0x7B]
  | .tsplit rd rs1 rs2 => [encR 2 rs2 rs1 0 rd 0x7B]
  | .tacq rd rs1 rs2 => [encR 3 rs2 rs1 0 rd 0x7B]
  | .trel rd rs1 => [encR 4 0 rs1 0 rd 0x7B]
  | .tinfo rd rs1 rs2 => [encR 5 rs2 rs1 0 rd 0x7B]
  | .fnew rd rs1 => [encR 0 0 rs1 1 rd 0x7B]
  | .fset rd rs1 rs2 => [encR 1 rs2 rs1 1 rd 0x7B]
  | .fsplit rd rs1 rs2 => [encR 2 rs2 rs1 1 rd 0x7B]
  | .fdel rd rs1 => [encR 3 0 rs1 1 rd 0x7B]
  | .ofence pred succ scope => [encOfence pred succ scope]
  | .waitaEq rd rs1 rs2 rs3 => [encWaita rs3 0 rs2 rs1 rd]
  | .waitaNe rd rs1 rs2 rs3 => [encWaita rs3 1 rs2 rs1 rd]
  | .waitaGeu rd rs1 rs2 rs3 => [encWaita rs3 2 rs2 rs1 rd]
  | .waitaLtu rd rs1 rs2 rs3 => [encWaita rs3 3 rs2 rs1 rd]
  | .notify scope rs1 rs2 => [encR ((0 : BitVec 4) ++ scope) rs2 rs1 4 0 0x7B]
  | .barinit rs1 rs2 => [encR 0 rs2 rs1 5 0 0x7B]
  | .bararv rs1 => [encR 1 0 rs1 5 0 0x7B]
  | .barwait rs1 => [encR 2 0 rs1 5 0 0x7B]
  | .ltsync rd rs1 => [encR 0 0 rs1 6 rd 0x7B]
  | .jexit rs1 => [encR 2 0 rs1 6 0 0x7B]
  | .tmark rs1 => [encR 3 0 rs1 6 0 0x7B]
  | .fence fm pred succ => [encFence fm pred succ]
  | .sfenceVma rs1 rs2 => [encR 9 rs2 rs1 0 0 0x73]
  | .lr dbl aq rl rd rs1 => [encAmo 2 aq rl dbl 0 rs1 rd]
  | .sc dbl aq rl rd rs1 rs2 => [encAmo 3 aq rl dbl rs2 rs1 rd]
  | .riscvAmo op dbl aq rl rd rs1 rs2 => [encAmo op.funct5 aq rl dbl rs2 rs1 rd]
  | .registerWrite _ _ _ => []
  | .mtcfgWrite _ _ => []
  | .vlWrite _ _ => []
  | .vspaceWrite _ _ => []
  | .flagCsrAccess _ _ _ _ => []
  | .satpWrite _ _ => []
  | .panicmarkWrite _ _ => []
  | .savectlReady _ _ => []
  | .perfselSelect _ _ _ => []
  | .perfselProgram _ _ _ => []
  | .perfselWriteValue _ _ _ => []
  | .perfselSetThreshold _ _ _ => []
  | .perfselClearFlags _ _ _ => []
  | .perfselSetTraceBuffer _ _ _ => []
  | .perfselSetSamplePeriod _ _ _ => []
  | .perfselSetBreakpoint _ _ _ => []
  | .perfselClearBreakpoint _ _ _ => []
  | .mtfinfoSelect _ _ _ _ => []
  | .mtfinfoResume _ _ _ _ => []
  | .mtfinfoSkip _ _ _ _ => []
  | .mtfinfoClear _ _ _ _ => []
  | .mtfinfoSelectLowest _ _ _ _ => []
  | .regqueue _ _ => []
  | .resetqueue _ _ => []
  | .queueResetComplete _ => []
  | .attest _ _ => []
  | .assign _ _ => []
  | .regiontab _ _ => []
  | .fwloadWrite _ => []
  | .mresetWrite _ => []
  | .pwrcapWrite _ => []
  | .hlogWrite _ => []
  | .queueDoorbell _ _ _ _ => []
  | .regionDoorbell _ _ _ => []
  | .periodStart _ => []
  | .gangAnchor _ _ => []
  | .anchorWindowExpiry _ _ => []
  | .mgmtTaskRelease _ => []
  | .slotCmdBind _ _ => []
  | .slotCmdClear _ => []
  | .slotCmdUnmap _ => []
  | .gangStart _ _ => []
  | .preemptForcedStop _ => []
  | .preemptStop _ => []
  | .saveComplete _ => []
  | .vqDistribute _ => []
  | .vqRetire _ => []
  | .mtTakeItem _ => []
  | .blockStart _ => []
  | .linkDeliver _ => []
  | .mtDataReturn _ => []
  | .pageWalkComplete _ _ => []
  | .engineCommandStart _ => []
  | .engineCommandComplete _ => []
  | .engineFault _ => []
  | .collectiveContribution _ _ => []
  | .homeReadRequest _ _ _ => []
  | .homeWriteRequest _ _ _ _ _ => []
  | .recall _ _ => []
  | .forwardServed _ _ => []
  | .recallTimeout _ => []
  | .windowAccess _ _ _ _ _ => []
  | .sliceClampSweep _ => []
  | .counterWrap _ => []
  | .counterThreshold _ => []
  | .breakpointFire _ _ => []
  | .coreRetire _ => []
  | .spareMapped _ => []
  | .coreSelfTestEnd _ _ => []
  | .lanternCatch _ _ _ _ => []
  | .fatalError _ => []
  | .ctScalarLoad kind rd rs1 off => [encLoad off rs1 (bit1 (!kind.signed) ++ kind.size) rd]
  | .ctScalarStore kind rs2 rs1 off => [encR (off.extractLsb' 5 7) rs2 rs1 ((0 : BitVec 1) ++ kind.size) (off.extractLsb' 0 5) 0x23]
  | .restoreComplete _ => []
  | .staleMessage _ _ => []
  | .hostCxlRead _ _ => []
  | .hostCxlWrite _ _ _ => []
  | .sramScrub _ => []
  | .ddrPatrolScrub _ => []
  | .guylineDown _ => []
  | .guylineRetrain _ => []
  | .dieClockGate _ => []
  | .diePowerGate _ => []
  | .thermalWarning _ _ => []
  | .thermalHold _ _ => []
  | .thermalRelease _ _ => []
  | .thermalHoldLimit _ => []
  | .coolantOutOfLimits _ _ => []
  | .managementCoreGate _ => []
  | .powerLoss _ => []
  | .storageError _ _ => []
  | .vsync => [encR 2 0 0 0 0 0x0B]
  | .jtrig => [encR 1 0 0 6 0 0x7B]
  | .fenceI => [0x0000100F]
  | .wfi => [0x10500073]
  | .moduleReset => []
  | .capApplied => []
  | .sheepdogPass => []
  | .trapTaken => []
  | .ctWaitComplete => []
  | .waitaWake => []
  | .waitaTimeout => []
  | .ltimeSelfIncrement => []
  | .leaseDrop => []
  | .moduleTimeBroadcast => []
  | .perfSample => []
  | .lanternReplay => []
  | .sheepdogWatchdog => []
  | .fatalCoreTimeout => []
  | .sret => [0x10200073]

/-- A word of the table, its bits numbered with bit 0 the least significant of the first word. The streams of
the control thread and of the micro-threads share numbers, so a word that both define is read as the control
thread's custom instruction, then as a micro-thread word, then as a RISC-V instruction. -/
def decodeTableWord (nbits w : Nat) : Option Instr :=
  let lo := BitVec.ofNat 32 w
  let hi := BitVec.ofNat 32 (w >>> 32)
  if nbits > 64 then none
  else if bits lo 0 7 == 0x3F then decodeCarrier lo hi
  else if isXcopyM lo then decodeXcopyM lo hi
  else ((decodeCustom lo).or (decodeMt lo)).or (decodeRv lo)


/-- An instruction of the micro-thread stream (05 R107). -/
def Instr.isMtWord : Instr → Bool
  | .add _ _ _ _ => true
  | .sub _ _ _ _ => true
  | .and _ _ _ _ => true
  | .or _ _ _ _ => true
  | .xor _ _ _ _ => true
  | .andn _ _ _ _ => true
  | .sll _ _ _ _ => true
  | .srl _ _ _ _ => true
  | .sra _ _ _ _ => true
  | .min _ _ _ _ => true
  | .max _ _ _ _ => true
  | .minu _ _ _ _ => true
  | .maxu _ _ _ _ => true
  | .slt _ _ _ _ => true
  | .sltu _ _ _ _ => true
  | .seq _ _ _ _ => true
  | .mul _ _ _ _ => true
  | .mulh _ _ _ _ => true
  | .mulhu _ _ _ _ => true
  | .div _ _ _ _ => true
  | .divu _ _ _ _ => true
  | .rem _ _ _ _ => true
  | .remu _ _ _ _ => true
  | .clz _ _ _ => true
  | .ctz _ _ _ => true
  | .popc _ _ _ => true
  | .sel _ _ _ _ => true
  | .bfx _ _ _ _ _ => true
  | .bfi _ _ _ _ => true
  | .rget _ _ _ => true
  | .rput _ _ _ => true
  | .mtid _ => true
  | .lnkrd _ => true
  | .lnkwr _ => true
  | .addi _ _ _ => true
  | .andi _ _ _ => true
  | .ori _ _ _ => true
  | .xori _ _ _ => true
  | .slli _ _ _ => true
  | .srli _ _ _ => true
  | .srai _ _ _ => true
  | .lui _ _ => true
  | .fadd _ _ _ _ => true
  | .fsub _ _ _ _ => true
  | .fmul _ _ _ _ => true
  | .fdiv _ _ _ _ => true
  | .fsqrt _ _ _ => true
  | .fmin _ _ _ _ => true
  | .fmax _ _ _ _ => true
  | .feq _ _ _ _ => true
  | .flt _ _ _ _ => true
  | .fle _ _ _ _ => true
  | .fsgnj _ _ _ _ => true
  | .fsgnjn _ _ _ _ => true
  | .fsgnjx _ _ _ _ => true
  | .fclass _ _ _ => true
  | .fma _ _ _ _ _ => true
  | .fms _ _ _ _ _ => true
  | .fnma _ _ _ _ _ => true
  | .frcp _ _ _ => true
  | .frsq _ _ _ => true
  | .fexp2 _ _ _ => true
  | .flog2 _ _ _ => true
  | .fsinpi _ _ _ => true
  | .fcospi _ _ _ => true
  | .ftanh _ _ _ => true
  | .fsigm _ _ _ => true
  | .cvtN _ _ _ _ _ => true
  | .cvtW _ _ _ _ _ => true
  | .cvtFi _ _ _ => true
  | .cvtIf _ _ _ => true
  | .cvtq4 _ _ _ => true
  | .mxscale _ _ _ _ _ _ => true
  | .pnix _ _ _ _ => true
  | .pnit _ _ _ _ => true
  | .ld _ _ _ _ => true
  | .st _ _ _ _ => true
  | .lds _ _ _ _ => true
  | .sts _ _ _ _ => true
  | .amo _ _ _ _ _ _ => true
  | .amos _ _ _ _ _ _ => true
  | .mfence _ _ _ => true
  | .pxf _ _ _ _ => true
  | .padd _ _ _ _ _ => true
  | .psub _ _ _ _ _ => true
  | .pretag _ _ _ => true
  | .prot _ _ _ _ => true
  | .pchk _ _ => true
  | .mfetch _ => true
  | .mfetchr _ => true
  | .mtrap _ => true
  | _ => false

end Sys2Proof
end

