-- ==== Sys2Proof/Machine/Store.lean ====
section
/-! DEFINITION. Sparse stores: lists of (key, value) in one canonical form, keys strictly rising and no entry
equal to what an unlisted key reads as. Memory, stash, flysheet, register storage, accumulators and every table
keyed by a number are such lists, so equal contents are equal data. -/

namespace Sys2Proof.Machine

/-- A sparse table from numbers to values. -/
abbrev Table (α : Type) := List (Nat × α)
/-- A sparse store of words that read as zero where nothing is listed (02 R25). -/
abbrev Store (w : Nat) := Table (BitVec w)
/-- Memory: bytes by device-physical address (Host.Cell). An unlisted byte reads as zero, DESIGN CHOICE (log 3). -/
abbrev Memory := List Host.Cell

/-- The value at a key, or `d` where none is listed. -/
def Table.get {α : Type} (d : α) : Table α → Nat → α
  | [], _ => d
  | (k, v) :: t, a => if a = k then v else Table.get d t a

/-- A table without a key. -/
def Table.erase {α : Type} : Table α → Nat → Table α
  | [], _ => []
  | (k, v) :: t, a => if a = k then Table.erase t a else (k, v) :: Table.erase t a

/-- Put a value at a key, keeping the keys rising, and list nothing that equals `d`. -/
def Table.set {α : Type} [DecidableEq α] (d : α) : Table α → Nat → α → Table α
  | [], a, v => if v = d then [] else [(a, v)]
  | (k, w) :: t, a, v =>
    if k < a then (k, w) :: Table.set d t a v
    else if v = d then Table.erase ((k, w) :: t) a
    else (a, v) :: Table.erase ((k, w) :: t) a

/-- Every key lies above `b`, keys rise strictly, and nothing equals `d`. -/
def Table.wfFrom {α : Type} [DecidableEq α] (d : α) : Option Nat → Table α → Bool
  | _, [] => true
  | b, (k, v) :: t => (match b with | none => true | some b => decide (b < k)) && decide (v ≠ d) && Table.wfFrom d (some k) t

/-- The canonical form of a table. -/
def Table.wf {α : Type} [DecidableEq α] (d : α) (t : Table α) : Bool := Table.wfFrom d none t

/-- The value at a key of a store. -/
def Store.get {w : Nat} (s : Store w) (a : Nat) : BitVec w := Table.get 0 s a
/-- Write a value at a key of a store. -/
def Store.set {w : Nat} (s : Store w) (a : Nat) (v : BitVec w) : Store w := Table.set 0 s a v

/-- Read one byte of memory. -/
def Memory.get (m : Memory) (a : Nat) : Byte := Table.get (0 : Byte) m a
/-- Write one byte of memory. -/
def Memory.set (m : Memory) (a : Nat) (v : Byte) : Memory := Table.set (0 : Byte) m a v
/-- The canonical form of memory. -/
def Memory.wf (m : Memory) : Bool := Table.wf (0 : Byte) m

/-- Read `n` bytes little-endian (00 R3) as a number. -/
def Memory.readLE (m : Memory) (a : Nat) : Nat → Nat
  | 0 => 0
  | n + 1 => (Memory.get m a).toNat + 256 * Memory.readLE m (a + 1) n
/-- Write the low `n` bytes of a number little-endian (00 R3). -/
def Memory.writeLE (m : Memory) (a : Nat) : Nat → Nat → Memory
  | 0, _ => m
  | n + 1, v => Memory.writeLE (Memory.set m a (BitVec.ofNat 8 v)) (a + 1) n (v / 256)

end Sys2Proof.Machine
end

