-- ==== Sys2Proof/Machine/State.lean ====
section
/-! DEFINITION. The state of the module as plain data: the core that runs now, the other cores, memory, the
tile directory, dispatch, Sheepdog, basecamp, and the turns to come. Rules are cited at each field. -/

namespace Sys2Proof.Machine

/-! ## Micro-threads -/

/-- The states of a micro-thread (02 R53); SUSPENDED exists in a save record alone. -/
inductive MtPhase where
  | stopped | waitEmpty | waitLink | ready | linkPending | faulted
deriving DecidableEq, Repr

/-- An item of a micro-thread's queue (02 R37), with the entry that placed it. -/
inductive MtItem where
  /-- run the block at `addr` -/
  | block (entry : Nat) (addr : Word) (vfrm : BitVec 2)
  /-- run this single word of the carrier at `pc`, with the A span that a lane modifier captured (09 R193) -/
  | word (entry : Nat) (pc : Word) (w : MWord) (vfrm : BitVec 2) (span : Option (List MWord))
deriving DecidableEq, Repr

/-- The fault record of a micro-thread (22 R357). -/
structure MtFault where
  code : Nat
  mcode : BitVec 8
  block : Word
  wordIx : Nat
  addr : Word
  carrier : Bool
  inReg : Bool
  dropped : Nat
deriving DecidableEq, Repr

/-- One micro-thread (02 R37 to R42, R53). `origin` is the address of the instruction that started its chain (21 R346), `waits`
the slots of its lane that have passed since it became ready (R42). -/
structure Mt where
  phase : MtPhase
  queue : List MtItem
  blk : Word
  words : List MWord
  ix : Nat
  carrier : Bool
  span : Option (List MWord)
  vfrm : BitVec 2
  age : Nat
  entry : Nat
  link : Option MWord
  slot : Option MWord
  origin : Word
  waits : Nat
  fault : Option MtFault
  dataWait : Bool
deriving DecidableEq, Repr

/-- A stopped micro-thread with an empty queue and an empty slot (02 R23). -/
def Mt.idle : Mt :=
  { phase := .stopped, queue := [], blk := 0, words := [], ix := 0, carrier := false, span := none, vfrm := 0,
    age := 0, entry := 0, link := none, slot := none, origin := 0, waits := 0, fault := none, dataWait := false }

/-! ## Vector queues -/

/-- An element of a vector memory entry that passed its checks at issue (02 R48): its micro-thread, its address
in its space, and the device-physical address of its bytes. -/
structure Elem where
  m : Nat
  va : Word
  pa : Nat
deriving DecidableEq, Repr

/-- An element of an MX entry (09 R203): its bytes, its block's scale byte, whether it makes the scale's access,
the active micro-threads of its block, and whether it makes the scale's access alone, its own check having failed after. -/
structure MxElem where
  e : Elem
  sc : Elem
  first : Bool
  group : List Nat
  only : Bool
deriving DecidableEq, Repr

/-- What a vector-queue entry does (02 R30). -/
inductive VOp where
  | fetch (addr : Word)
  | carrier (word : MWord) (lane : BitVec 2)
  | kcmp (cond : BitVec 5) (kd : BitVec 4) (a b : VReg)
  | klog (tt kd ka kb : BitVec 4)
  | kpre (form : Nat) (kd ka : BitVec 4)
  | kpop (rd : XReg) (ka : BitVec 4)
  | kfirst (rd : XReg) (ka : BitVec 4)
  | kget (rd : XReg) (k : BitVec 4) (index : Nat)
  | kput (k : BitVec 4) (value : Word) (index : Nat)
  | vget (v : VReg) (index : Nat) (rd : XReg)
  | vput (v : VReg) (index : Nat) (value : MWord)
  | linkPut (value : MWord)
  | linkGet (rd : XReg)
  | load (v : VReg) (size : BitVec 2) (elems : List Elem)
  | store (v : VReg) (size : BitVec 2) (elems : List Elem)
  | loadMx (v : VReg) (elems : List MxElem)
  | storeMx (v : VReg) (elems : List MxElem)
  | amo (v : VReg) (op : BitVec 4) (scope : BitVec 3) (elems : List Elem)
  | append (v : VReg) (elems : List Elem) (rd : XReg)
  /-- the update of a micro-thread that the kernel resumed (03 R85); it takes no room in a queue -/
  | kernelResume (m : Nat)
deriving DecidableEq, Repr

/-- The lowest element that raised each flag: NV, DZ, OF, UF, NX (03 R84, R85). -/
structure FlagIx where
  nv : Option Nat
  dz : Option Nat
  ov : Option Nat
  uf : Option Nat
  nx : Option Nat
deriving DecidableEq, Repr

/-- No flag raised. -/
def FlagIx.none : FlagIx := { nv := .none, dz := .none, ov := .none, uf := .none, nx := .none }

/-- A vector-queue entry (02 R31): its number in issue order, its queue, what VL, VSPACE, mask select and VFRM
were at issue, the address of its instruction, whether its flags merge (03 R85), whether it has distributed, the
last engine command issued before it, its density bit (02 R43), its scalar result, and the flags raised so far. -/
structure Entry where
  id : Nat
  q : VQueue
  op : VOp
  vl : Nat
  space : BitVec 4
  mask : BitVec 4
  vfrm : BitVec 2
  pc : Word
  resumed : Bool
  distributed : Bool
  after : Nat
  dt : Bool
  value : Word
  flags : FlagIx
deriving DecidableEq, Repr

/-! ## Engine commands -/

/-- A tile descriptor (11 R240). -/
structure TileDesc where
  base : Word
  space : Nat
  esize : Nat
  rank : Nat
  aliased : Bool
  readonly : Bool
  ext : List Nat
  stride : List Int
deriving DecidableEq, Repr

/-- A tile as a command holds it from its handle check on (11 R246): handle, descriptor, address space, tile table,
index. -/
structure TileRef where
  handle : BitVec 32
  desc : TileDesc
  asid : Nat
  table : Word
  index : Nat
deriving DecidableEq, Repr

/-- What a command is (10 R210). -/
inductive CmdKind where
  | copy | copyMatrix | fill | gather | scatter | reduce | broadcast | allgather | mma | mmas | mzero | mload | mdrain
deriving DecidableEq, Repr

/-- Where a command stands (10 R212, R232, R235): a SUSPENDED one is to run again from its progress point. A command
that has completed is no longer held. -/
inductive CmdPhase where
  | queued | running | faulted | suspended
deriving DecidableEq, Repr

/-- The registers and accumulator tiles of a core that a command makes empty (02 R44, 10 R225). -/
structure Mark where
  core : Nat
  regs : BitVec 64
  tiles : BitVec 32
deriving DecidableEq, Repr

/-- An engine command (10 R210 to R214, R232): its number, its words and register values, its flags and recorded
XNOTIFY, where it stands, the tiles it holds, the last vector-queue entry number issued before it, the registers and
tiles that it makes empty, the own tiles that its copy reads or writes, whether its copy writes own storage, the
registers it reads as A, a collective's members with their statuses, whether its own contribution is staged, or its
failure (10 R231), and the stamp that its notify word took before its payload was all performed (15 R325). -/
structure Cmd where
  seq : Nat
  kind : CmdKind
  insn : Word
  acq : Bool
  rel : Bool
  scope : BitVec 3
  rs1 : Word
  rs2 : Word
  mrs1 : Word
  mrs2 : Word
  notify : Word
  phase : CmdPhase
  matrixPart : Bool
  progress : Nat
  code : Nat
  addr : Word
  recorded : Bool
  trapTaken : Bool
  src : Option TileRef
  dst : Option TileRef
  idx : Option TileRef
  matTile : Option TileRef
  afterEntry : Nat
  marks : List Mark
  tiles : BitVec 32
  own : Bool
  aRegs : BitVec 64
  members : List Nat
  status : List (Option Nat)
  staged : Bool
  failed : Bool
  stamp : Option (BitVec 32)
deriving DecidableEq, Repr

/-! ## Tenure, leases, tiles -/

/-- A tenure entry: a tile's or a 64-byte block's (13 R285, 15 R309, R310). `home` is the wts of the last version written back (15
R311). `version` counts the wts that the entry has taken: it tells versions apart whose wts the clamp of R320 has made ANCIENT. -/
structure Tenure where
  wts : LTime
  rts : LTime
  holder : Option Nat
  home : LTime
  version : Nat
deriving DecidableEq, Repr

/-- An entry that no agent has touched (13 R285). -/
def Tenure.untouched : Tenure := { wts := none, rts := none, holder := none, home := none, version := 0 }

/-- Which tenure entry a block's access uses (13 R285, R286). -/
inductive TKey where
  | block
  | tile (ten : Nat)
deriving DecidableEq, Repr

/-- A core's lease on a tile entry (15 R309): the version it is on, and its end. -/
structure Lease where
  version : Nat
  last : LTime
deriving DecidableEq, Repr

/-- No lease. -/
def Lease.none : Lease := { version := 0, last := .none }

/-- An agent of a core whose plain accesses stand in no order of their own (14 R293, R298): the control thread, a
micro-thread, or an element of a vector-queue entry. -/
inductive Reader where
  | ct
  | mt (m : Nat)
  | elem (entry k : Nat)
deriving DecidableEq, Repr

/-- Where an access lies: `n` bytes at an address or offset of a space (09 R185), and at a device-physical address. -/
structure Spot where
  space : Nat
  addr : Nat
  pa : Nat
  n : Nat
deriving DecidableEq, Repr

/-- What holds a value on its way from a load to an address (14 R297, R302): a register of the control thread, register `r` of
micro-thread `m`, or the A span that entry `entry` captured for micro-thread `m` (09 R193). -/
inductive Holder where
  | x (r : Nat)
  | v (r m : Nat)
  | span (entry m : Nat)
deriving DecidableEq, Repr

/-- A plain load performed before its turn in program order (14 R298): whose, where, the value that is now fixed, and what holds
a value that a load performed since has returned: an address from there comes after that load (R297) (log 11). -/
structure Early where
  reader : Reader
  spot : Spot
  value : Nat
  after : List Holder
deriving DecidableEq, Repr

/-- What an access that is left does when it is performed: a store; a load or an atomic of the control thread, whose value goes to
`rd`; an atomic of a micro-thread, whose old value goes to register or pair `d`. -/
inductive LateOp where
  | store (value : Nat)
  | load (rd : XReg) (size : BitVec 2) (signed : Bool)
  | amo (op : AmoOp) (s1 s2 : Nat) (rd : XReg)
  | amoMt (op : AmoOp) (s1 s2 : Nat) (d : VReg)
deriving DecidableEq, Repr

/-- A plain access whose word or instruction is past and that is still to be performed (14 R298): whose, where, and what it does
(log 11). -/
structure Late where
  who : Reader
  spot : Spot
  op : LateOp
deriving DecidableEq, Repr

/-- A link entry of the frame-chain cache (12 R267): a frame record, its place, its version, the end of the lease. -/
structure ChainEntry where
  asid : Nat
  index : Nat
  pa : Nat
  data : Nat
  wts : LTime
  lease : LTime
deriving DecidableEq, Repr

/-- A core's copy of a 64-byte block (15 R309): the data, its version, the end of the lease on it where its entry is
the block's own, and whether the home lacks it. -/
structure Copy where
  key : TKey
  data : BitVec 512
  wts : LTime
  version : Nat
  lease : LTime
  dirty : Bool
deriving DecidableEq, Repr

/-- A page whose translation a tile pins (11 R245): virtual base, bytes, physical base, and whether a read and a
write through a handle have checked its page-table entry since the last sfence.vma (22 R355). -/
structure Pin where
  va : Nat
  bytes : Nat
  pa : Nat
  readSeen : Bool
  writeSeen : Bool
deriving DecidableEq, Repr

/-- States of a directory entry that is not FREE (11 R243). -/
inductive TileState where
  | live | forward | draining
deriving DecidableEq, Repr

/-- The directory's working state of a tile-table entry (11 R243): `ten` is its tenure entry, `waitFrom` the LTIME at
which its TFREE began to wait, `freer` the job and gang index of that TFREE; `home` is the device-physical address of
the block that homes its tenure entry (13 R285, R289), and `path` the children that splits have taken to it (13 R290).
`table` is the base of its tile table: cores whose TILEBASE values differ use different tables. -/
structure TileEntry where
  asid : Nat
  table : Word
  index : Nat
  state : TileState
  gen : Nat
  group : BitVec 32
  child0 : BitVec 32
  child1 : BitVec 32
  splitDim : Nat
  splitAt : Nat
  lo : Nat
  hi : Nat
  desc : TileDesc
  ten : Nat
  pins : List Pin
  waitFrom : BitVec 32
  freer : Option (Word × BitVec 8)
  home : Nat
  path : List Bool
deriving DecidableEq, Repr

/-- Who of a core waits for an access: its control thread, a micro-thread, a vector queue, an engine command, an access that was left,
its save or restore. -/
inductive Waiter where
  | ct
  | mt (m : Nat)
  | queue (q : VQueue)
  | cmd (seq : Nat)
  | left
  | saving
deriving DecidableEq, Repr

/-- A place in a queue at a home: a core and who of it. -/
structure Seat where
  core : Nat
  who : Waiter
deriving DecidableEq, Repr

/-- A request queued at a home (15 R317): the agent's number, the request's age (R316), the agent's incarnation when it
sent it, the cycle since which the home waits for the holder (R319). One of an access that a core makes itself holds the place of
its `seat` until that has its turn, at the entry `key`. -/
structure Forward where
  seat : Option Seat
  key : Option TKey
  agent : Nat
  age : BitVec 32
  incarnation : Nat
  since : Nat
  asid : Nat
  pa : Nat
  write : Bool
  bytes : Nat
  data : BitVec 512
deriving DecidableEq, Repr

/-- A member's contribution to a collective, staged in its die's tile cache (10 R230): the member's word, what it took
part in, its elements or `none` when its command failed (R231), and the cores that have taken it. -/
structure Contribution where
  member : Nat
  kind : CmdKind
  op : Nat
  members : List Nat
  data : Option (List Nat)
  taken : List Nat
deriving DecidableEq, Repr

/-- The tile directory of the four slices (13 R285, 15 R315). `incarnation` is the directory's number for each agent, `senders` the
one that the agent's messages carry (15 R319). `kept` holds FORWARD entries that have been freed while a command
still reaches its tile through them (11 R239, R246). -/
structure Directory where
  blocks : Table Tenure
  tiles : Table Tenure
  entries : List TileEntry
  kept : List TileEntry
  nextTen : Nat
  forwards : List Forward
  incarnation : Table Nat
  senders : Table Nat
  staleSeen : List (Nat × Nat)
  staged : List Contribution
deriving DecidableEq, Repr

/-! ## A core -/

/-- Why the control thread is waiting at the instruction at its pc (02 R33), and what completes it. DEDUCED (log 13). -/
inductive Wait where
  | instr (i : Instr)
  | wfi
  | elemTrap (cause : Nat) (tval : Word) (vresume : Nat) (entry : Nat) (src : BitVec 2)
  /-- a WAITA that has read its word at `pa` at LTIME `readAt`, and whether a write or a NOTIFY has woken it (11 R256) -/
  | sleep (i : Instr) (pa : Nat) (readAt : BitVec 32) (woken : Bool)
deriving DecidableEq, Repr

/-- The RISC-V control-thread state (22 R347, 02 R23). A reservation (11 R418) holds a block of DDR with its entry and
version, or a block of a stash; `pendingX` holds the scalar results that entries still owe, by entry, and those of its own accesses
that are left, under 0; `waitaStart` is the cycle
at which the WAITA at the pc began; `early` holds loads performed ahead of their instructions (14 R298). -/
structure Ct where
  x : Store 64
  pc : Word
  user : Bool
  sie : Word
  sip : Word
  stvec : Word
  sscratch : Word
  sepc : Word
  scause : Word
  stval : Word
  sstatus : Word
  satp : Word
  scounteren : Word
  senvcfg : Word
  reservation : Option (Nat × TKey × Nat)
  windowReservation : Option Nat
  early : List Early
  wait : Option Wait
  pendingX : List (Nat × XReg)
  waitaStart : Option Nat
deriving DecidableEq, Repr

/-- The Osnex CSRs that hold plain values (11 R260). -/
structure Csrs where
  vl : Nat
  nregs : BitVec 2
  vqdepth : BitVec 5
  vspace : BitVec 4
  vresume : Nat
  vfflags : BitVec 5
  vfrm : BitVec 2
  vffirsta : BitVec 42
  vffirstb : BitVec 28
  fepol : Word
  ltlease : BitVec 12
  xnotify : Word
  jobarg : Word
  jobid : Word
  gangix : BitVec 8
  gangsize : BitVec 8
  xseq : Nat
  xissued : Nat
  mtfi : Bool
  xfault : Word
  lttick : Nat
  tilebase : Word
  framebase : Word
  panicmark : Word
  tsrc : BitVec 2
  grace : Nat
  mtSel : Nat
  mtWord : BitVec 2
  mtNone : Bool
deriving DecidableEq, Repr

/-- A performance counter (21 R342, R343). `prior` is the cycle of the last reprogramming with the event and threshold that
still hold in that cycle, `wrapped` the cycle of the last wrap (R344). -/
structure Counter where
  event : Nat
  inten : Bool
  value : Nat
  threshold : Nat
  ov : Bool
  tx : Bool
  prior : Option (Nat × Nat × Nat)
  wrapped : Option Nat
deriving DecidableEq, Repr

/-- A counter at module reset (21 R343). -/
def Counter.zero : Counter :=
  { event := 0, inten := false, value := 0, threshold := 0, ov := false, tx := false, prior := none, wrapped := none }

/-- Counters, trace and breakpoints of a core (21 R341 to R346). -/
structure Perf where
  counters : Table Counter
  idx : Nat
  view : Nat
  traceBase : Nat
  traceLog : Nat
  tracePos : Nat
  period : Nat
  sampledAt : Nat
  pcBreak : Option Word
  blockBreak : Option Word
  breakPending : Option (Word × Word)
deriving DecidableEq, Repr

/-- A named barrier (11 R258). `done` is the time that each phase, by its number, recorded when it last completed. -/
structure Barrier where
  count : BitVec 16
  arrived : BitVec 16
  phase : BitVec 8
  high : LTime
  done : Table (BitVec 32)
  arvPhase : Option (BitVec 8)
deriving DecidableEq, Repr

/-- A barrier before any bind. -/
def Barrier.zero : Barrier := { count := 0, arrived := 0, phase := 0, high := none, done := [], arvPhase := none }

/-- A TLB entry (22 R352): a page of `bytes` bytes, its physical base and its permissions as loaded. -/
structure TlbEntry where
  asid : Nat
  va : Nat
  bytes : Nat
  pa : Nat
  flags : BitVec 8
deriving DecidableEq, Repr

/-- A block held by the block cache (02 R36). -/
structure CachedBlock where
  asid : Nat
  addr : Word
  words : List MWord
deriving DecidableEq, Repr

/-- A window write held at a core while its MTCONF waits (09 R187). -/
structure HeldPart where
  regs : Bool
  off : Nat
  bytes : Nat
  value : Nat
  stamp : BitVec 32
deriving DecidableEq, Repr

/-- A slot that a carrier's element group takes on a lane in which its element is not active (02 R43): its age, the element, and the
slots of the lane that have passed since it came. -/
structure IdleSlot where
  age : Nat
  m : Nat
  waits : Nat
deriving DecidableEq, Repr

/-- The vector side of a core (02). `early` holds loads of micro-threads and elements performed ahead of their turn,
`late` plain accesses of the core not performed yet (14 R298). -/
structure Vec where
  regs : Store 32
  acc : Store 32
  stash : Store 8
  fly : Store 8
  stamps : Store 33
  masks : Table Mask
  regDirty : BitVec 64
  tileDirty : BitVec 32
  high : Nat
  mts : Table Mt
  fifo : List MWord
  queue : List Entry
  nextEntry : Nat
  cmds : List Cmd
  blocks : List CachedBlock
  held : List HeldPart
  barriers : Table Barrier
  early : List Early
  late : List Late
  idle : List IdleSlot
  pipe : List Nat
deriving DecidableEq, Repr

/-- Where a core stands for dispatch and pre-emption (13 R281, 22 R363). -/
inductive CorePhase where
  | unbound | running | saving | restoring | offline
deriving DecidableEq, Repr

/-- One core: its number and phase, the control thread, the CSRs and the vector side; its logical time and its copies and
leases; `dropAt`, where the last drop of leases was, and the module time received last (15 R321); the cycle of its last
self-increment; its TLB, the pages of its miss queue, the oldest first, and the micro-threads that wait for a page or for room there (22 R352), its frame-chain cache, the latest used
first (12 R267); how often each event of 21 R343 has happened since its counters counted it, whether the control thread is
stalled on the data of its own load (21 R341); profiling; the job's grant and address space and the one before (02 R24); since when a
pre-emption is pending, whether its stop is forced, its notice taken, READY written (22 R362, R363); the micro-thread
that runs; whether it counts as triggered. -/
structure Core where
  no : Nat
  phase : CorePhase
  ct : Ct
  csr : Csrs
  vec : Vec
  ltime : BitVec 32
  copies : Table (Option Copy)
  leases : Table Lease
  dropAt : BitVec 32
  moduleTime : BitVec 32
  tickAt : Nat
  tlb : List TlbEntry
  misses : List Nat
  missed : List (Nat × Nat)
  chain : List ChainEntry
  events : Table Nat
  awaiting : Bool
  perf : Perf
  grant : Nat
  asid : Option Nat
  prevAsid : Option Nat
  pendingSince : Option Nat
  stopForced : Bool
  noticeTaken : Bool
  ready : Bool
  curMt : Nat
  triggered : Bool
deriving DecidableEq, Repr

/-- The CSRs at reset; each value is the manual's or DESIGN CHOICE zero (log 2). -/
def Csrs.reset : Csrs :=
  { vl := 0, nregs := 3, vqdepth := 31, vspace := 0, vresume := 0, vfflags := 0, vfrm := 0, vffirsta := 0,
    vffirstb := 0, fepol := 0, ltlease := 64, xnotify := 0, jobarg := 0, jobid := 0, gangix := 0, gangsize := 0,
    xseq := 0, xissued := 0, mtfi := false, xfault := 0, lttick := 1024, tilebase := 0, framebase := 0,
    panicmark := 0, tsrc := 0, grace := 16384, mtSel := 0, mtWord := 0, mtNone := false }

/-- The control thread at reset: satp Bare (22 R353), every other register zero, DESIGN CHOICE (log 2). -/
def Ct.reset : Ct :=
  { x := [], pc := 0, user := true, sie := 0, sip := 0, stvec := 0, sscratch := 0, sepc := 0, scause := 0,
    stval := 0, sstatus := 0, satp := 0, scounteren := 0, senvcfg := 0, reservation := none,
    windowReservation := none, early := [], wait := none, pendingX := [], waitaStart := none }

/-- The vector side at reset: zeroed (02 R24), kv all ones as after zeroing by a bind (02 R23). -/
def Vec.reset : Vec :=
  { regs := [], acc := [], stash := [], fly := [], stamps := [], masks := [(8, BitVec.allOnes 8192)],
    regDirty := 0, tileDirty := 0, high := 0, mts := [], fifo := [], queue := [],
    nextEntry := 1, cmds := [], blocks := [], held := [], barriers := [], early := [], late := [], idle := [], pipe := [] }

/-- Profiling state at module reset (21 R341, R343). -/
def Perf.reset : Perf :=
  { counters := [], idx := 0, view := 0, traceBase := 0, traceLog := 0, tracePos := 0, period := 0, sampledAt := 0,
    pcBreak := none, blockBreak := none, breakPending := none }

/-- Core `n` at module reset (02 R24, 11 R262). -/
def Core.reset (n : Nat) : Core :=
  { no := n, phase := .unbound, ct := .reset, csr := .reset, vec := .reset, ltime := 0, copies := [], leases := [], dropAt := 0,
    moduleTime := 0, tickAt := 0, tlb := [], misses := [], missed := [], chain := [], events := [], awaiting := false, perf := .reset, grant := 0, asid := none, prevAsid := none,
    pendingSince := none, stopForced := false, noticeTaken := false, ready := false, curMt := 0,
    triggered := false }

/-! ## Dispatch and Sheepdog -/

/-- States of a slot (23 R382). -/
inductive SlotState where
  | free | binding | running | unmapping | offline
deriving DecidableEq, Repr

/-- A slot of the slot table (23 R382, R383), and the class that it was reclaimed for and is held for (R384). -/
structure Slot where
  state : SlotState
  bind : Option BindRec
  heldFor : Option Nat
deriving DecidableEq, Repr

/-- A free slot. -/
def Slot.free : Slot := { state := .free, bind := none, heldFor := none }

/-- The barriers of an exited gang member, held by dispatch until the job retires (23 R383). -/
structure HeldBarriers where
  gang : Nat
  ix : Nat
  bars : Table Barrier
deriving DecidableEq, Repr

/-- What a pre-empted core still has that the save record of 22 R364 to R366 has no room for, by its context: entries that could
not come to an end, the scalar results they owe, an element's trap that waits for them, which entries its micro-threads' items and
chains belong to, its barriers, a pending breakpoint's address, and its commands: what they cover on other cores stays empty (02
R44). The model's own (log 60). -/
structure Parked where
  ctx : Nat
  queue : List Entry
  owed : List (Nat × XReg)
  wait : Option Wait
  mts : Table Mt
  barriers : Table Barrier
  breakAt : Option Word
  cmds : List Cmd
deriving DecidableEq, Repr

/-- Nothing parked. -/
def Parked.nothing (ctx : Nat) : Parked :=
  { ctx := ctx, queue := [], owed := [], wait := none, mts := [], barriers := [], breakAt := none, cmds := [] }

/-- The dispatch hardware (23 R383), what it holds of saved jobs, and the address spaces that hold a hardware tag, the most
recently bound first (22 R353). -/
structure Dispatch where
  slots : Table Slot
  held : List HeldBarriers
  ignored : Nat
  parked : List Parked
  tags : List Nat
deriving DecidableEq, Repr

/-- A job record as Sheepdog reads it (23 R370). -/
structure JobRec where
  entry : Word
  arg : Word
  compAddr : Word
  compVal : BitVec 32
  grant : Nat
  gang : Nat
  early : Bool
  restartable : Bool
  bypass : Bool
  graph : Bool
  region : Nat
  liveb : Nat
  lives : Nat
  reads : List Word
  writes : List Word
deriving DecidableEq, Repr

/-- Job states (02 R55). -/
inductive JobState where
  | waiting | ready | running | triggered | preempted | retired
deriving DecidableEq, Repr

/-- A capability of the management complex (24 R392): base, length (R396 allows 2^48, which 48 bits do not hold: DESIGN CHOICE, log 69), permissions, object
type, validity tag. -/
structure Capability where
  base : Word
  length : Nat
  perms : BitVec 8
  otype : BitVec 8
  tag : Bool
deriving DecidableEq, Repr

/-- An accepted job (23 R372, R386), with the capability to its record. `node` is its place in a graph replay, `parent` that replay's job; `deps` are the
dependences that are not met yet, `needs` all of them (23 R379); `outgrown` says that the last resize left it no room (R391). -/
structure Job where
  uid : Nat
  queue : Nat
  index : Nat
  node : Option Nat
  parent : Option Nat
  jr : JobRec
  record : Capability
  state : JobState
  deps : List Nat
  needs : List Nat
  fullDep : Bool
  holds : Bool
  status : Nat
  exits : List (Nat × BitVec 32)
  trigs : List Nat
  gang : Nat
  commit : Nat
  members : List (Nat × Nat)
  saved : List Nat
  since : Nat
  started : Bool
  everTriggered : Bool
  outgrown : Bool
deriving DecidableEq, Repr

/-- Queue states (23 R375). -/
inductive QState where
  | active | error | resetting | reset
deriving DecidableEq, Repr

/-- A registered queue (23 R374, R375, 24 R396), with the capabilities to its ring, its status block, its record pointers and
its context region (24 R392). -/
structure Queue where
  gq : Nat
  fn : Nat
  localq : Nat
  ringCap : Capability
  statusCap : Capability
  recordCap : Capability
  ctxCap : Capability
  ctxStride : Nat
  logSize : Nat
  task : Bool
  asid : Nat
  root : Nat
  rootPpn : Nat
  head : Nat
  done : Nat
  tail : Nat
  state : QState
  errCode : Nat
  errIdx : Nat
  errAddr : Word
deriving DecidableEq, Repr

/-- Where a queue's ring, its status block and its context region lie, and the bounds of its record pointers. -/
def Queue.ring (q : Queue) : Nat := q.ringCap.base.toNat
def Queue.statusAddr (q : Queue) : Nat := q.statusCap.base.toNat
def Queue.ctxBase (q : Queue) : Nat := q.ctxCap.base.toNat
def Queue.capBase (q : Queue) : Word := q.recordCap.base
def Queue.capLen (q : Queue) : Nat := q.recordCap.length

/-- A region control block as last read (23 R376); `used` counts core-cycles. Its periods run from the cycle `phase`, the
present one from `started` (R378). -/
structure Region where
  parent : Nat
  level : Nat
  cls : Nat
  fdomain : Nat
  budget : Nat
  period : Nat
  maxCores : Nat
  used : Nat
  cores : BitVec 192
  res : List Nat
  age : List Nat
  window : List Nat
  channels : Nat
  addr : Nat
  phase : Option Nat
  started : Option Nat
  blocked : Bool
deriving DecidableEq, Repr

/-- A report to Sheepdog (23 R386). -/
inductive Report where
  | exited (core gang ix : Nat) (status : BitVec 32) (supervisor : Bool)
  | triggered (gang ix : Nat)
  | saved (core gang ix : Nat) (lost : Bool)
  | failed (gang : Nat) (status : Nat)
  | lostCore (gang : Nat)
deriving DecidableEq, Repr

/-- An anchored gang (23 R385): partition root, class, job, when. -/
structure Anchor where
  root : Nat
  cls : Nat
  job : Nat
  anchoredAt : Nat
deriving DecidableEq, Repr

/-- What releases a management task (23 R389): a core counter's threshold; a queue whose candidate has waited longer than a
number of microseconds; a die above its warning point; withheld cycles above a share, in hundredths of all core-cycles. -/
inductive Trigger where
  | counter (core index : Nat)
  | starvation (queue micros : Nat)
  | thermal (die : Nat)
  | withheld (share : Nat)
deriving DecidableEq, Repr

/-- A management task (23 R389): its queue, its record, its trigger and whether that stood above its point when it was last
looked at, the index of its last release, the crossings coalesced, whether a crossing is to release it, and whether a release waits. -/
structure MgmtTask where
  queue : Nat
  record : Nat
  trigger : Trigger
  above : Bool
  last : Option Nat
  coalesced : Nat
  crossed : Bool
  pending : Bool
deriving DecidableEq, Repr

/-- Sheepdog's state (23 R386); `workSince` is the cycle since which a pass is due (24 R404). -/
structure Sheepdog where
  queues : List Queue
  jobs : List Job
  regions : Table (Option Region)
  doorbells : List Nat
  reports : List Report
  nextUid : Nat
  nextGang : Nat
  nextCommit : Nat
  rr : Table Nat
  anchors : List Anchor
  tasks : List MgmtTask
  lastPass : Nat
  workSince : Option Nat
deriving DecidableEq, Repr

/-! ## Basecamp -/

/-- FWSTATE.STATE (24 R398). -/
inductive FwState where
  | rom | verifying | running | recovery | fatal
deriving DecidableEq, Repr

/-- Registers of a function page (24 R395), with the operand of the command that runs. -/
structure FnPage where
  farg : Word
  arg : Word
  busy : Bool
  lastOp : BitVec 8
  result : BitVec 8
  resetting : Option Nat
  ignored : Nat
deriving DecidableEq, Repr

/-- A function page at reset (24 R395). -/
def FnPage.zero : FnPage := { farg := 0, arg := 0, busy := false, lastOp := 0, result := 0, resetting := none, ignored := 0 }

/-- Gating and heat of a die (24 R398, 25 R416), and its translation cache, the latest used first (22 R352). -/
structure Die where
  idleSince : Option Nat
  clockGated : Bool
  powerGated : Bool
  temp : Nat
  warn : Bool
  heldSince : Option Nat
  cache : List TlbEntry
deriving DecidableEq, Repr

/-- A die at reset. -/
def Die.zero : Die := { idleSince := none, clockGated := false, powerGated := false, temp := 0, warn := false, heldSince := none, cache := [] }

/-- A write that the lantern holds (24 R398). -/
structure HeldWrite where
  source : LanternSource
  pa : Nat
  bytes : Nat
  data : Word
deriving DecidableEq, Repr

/-- Basecamp registers and the module's own state (24, 25). `fatalAt` is the cycle of a fatal error and its REASON;
`retired` says which core numbers were retired; `soft` are granules with a correctable error that nothing has met yet
(25 R407), `corrected` the cores and cycles of corrected errors within the last hour (R409). -/
structure Basecamp where
  cycle : Nat
  powered : Bool
  fw : FwState
  reason : BitVec 8
  svn : Nat
  fusedSvn : Nat
  flash : List Byte
  running : List Byte
  dumpAddr : Word
  capctl : Word
  cap : Nat
  capPending : Bool
  flow : Nat
  inlet : Nat
  hlog : Word
  hlogPos : Nat
  ceCount : Nat
  ueCount : Nat
  staleMsg : Nat
  withheld : Nat
  pages : Table FnPage
  assigned : Table Nat
  regionTab : Option Nat
  regionLog : Nat
  aperture : Table Word
  ignored : Nat
  dies : Table Die
  mgmtGated : BitVec 4
  lantern : List HeldWrite
  linksDown : BitVec 24
  linkRetry : Table Nat
  msix : List (Nat × Nat)
  sparesUsed : Table Nat
  lost : List Nat
  soft : List Nat
  met : List Nat
  corrected : List (Nat × Nat)
  fatalAt : Option (Nat × Nat)
  retired : Table Nat
  selfTest : List Nat
deriving DecidableEq, Repr

/-- Basecamp at module reset; the boot ROM has not yet run (24 R398: STATE 0 ROM). -/
def Basecamp.reset : Basecamp :=
  { cycle := 0, powered := true, fw := .rom, reason := 0, svn := 0, fusedSvn := 0, flash := [], running := [],
    dumpAddr := 0, capctl := 0, cap := 1800, capPending := false, flow := 0, inlet := 0,
    hlog := 0, hlogPos := 0, ceCount := 0, ueCount := 0, staleMsg := 0, withheld := 0, pages := [], assigned := [],
    regionTab := none, regionLog := 0, aperture := [], ignored := 0, dies := [], mgmtGated := 0, lantern := [],
    linksDown := 0, linkRetry := [], msix := [], sparesUsed := [], lost := [], soft := [], met := [], corrected := [], fatalAt := none, retired := [],
    selfTest := [] }

/-! ## The machine -/

/-- Which agent moves next. An agenda of turns stands for every order that the manual leaves open (log 4). -/
inductive Turn where
  /-- the control thread of the core in focus -/
  | ct
  /-- micro-thread `m` of the core in focus runs its next word -/
  | mt (m : Nat)
  /-- the lane of element `m` spends a slot on a carrier's group whose element there is not active (02 R43) -/
  | slot (m : Nat)
  /-- a step of another agent -/
  | event (i : Instr)
  /-- another core comes into focus -/
  | focus (n : Nat)
  /-- a vector queue's entry performs at most `n` elements, or an engine command at most `n` elements or rows: the event
  row, cut short (log 12, log 39) -/
  | part (i : Instr) (n : Nat)
  /-- time passes, in cycles -/
  | elapse (n : Nat)
  /-- time passes, in cycles in which the power cap withholds issue from these cores (01 R21) -/
  | withhold (cores : BitVec 192) (n : Nat)
  /-- a load of the control thread at `va` is performed ahead of its instruction -/
  | earlyCt (va : Word) (n : Nat)
  /-- a load of micro-thread `m` at `va` (or at an offset of its own stash) is performed ahead of its word -/
  | earlyMt (m : Nat) (stash : Bool) (va : Word) (n : Nat)
  /-- element `k` of a vector load that has not distributed is performed ahead of the others -/
  | earlyElem (entry k : Nat)
  /-- the control thread moves; a plain access that it makes is performed later -/
  | lateCt
  /-- micro-thread `m` moves; a plain store or atomic that it makes is performed later -/
  | lateMt (m : Nat)
  /-- a store entry of the vector queue distributes; its elements are performed later -/
  | lateStores
  /-- the accesses left to be performed are performed -/
  | drain
  /-- the access that stands at place `k` among those left is performed -/
  | perform (k : Nat)
  /-- command `seq` writes its notify word before its payload is all performed (15 R325) -/
  | notifyEarly (seq : Nat)
  /-- a page whose translation the TLB lacks enters the miss queue of the core in focus (22 R352) -/
  | miss (va : Word)
  /-- a correctable error arises in a granule (25 R407) -/
  | softError (granule : Nat)
  /-- a guyline corrects a flit (25 R408) -/
  | flitFixed
  /-- basecamp retrains a guyline (25 R408) -/
  | retrain (link : Nat)
  /-- the kernel registers a management task: its queue, its record, its trigger (23 R389) -/
  | task (queue record : Nat) (t : Trigger)
  /-- the host writes `n` bytes at an offset of a function's memory BAR (24 R394) -/
  | bar (fn off n : Nat) (v : Word)
deriving DecidableEq, Repr

/-- The module. `posted` holds writes that have come to basecamp and act before anything else moves, the first first
(24 R394); `agent` is the agent number of an access that is not the core's own (15 R316); `stalled` is set by an access that cannot be
served yet, so that its agent has not moved (15 R317, 22 R352), `missed` is the page whose miss is to wait, `asks` is the request of it that is to wait, `seat` who has the
turn;
while `defers` is set plain accesses are left to be performed later (14 R298). -/
structure State where
  core : Core
  others : Table Core
  mem : Memory
  host : Memory
  dir : Directory
  disp : Dispatch
  sheep : Sheepdog
  base : Basecamp
  posted : List Instr
  agent : Option Nat
  stalled : Bool
  missed : Option Nat
  asks : Option Forward
  seat : Option Seat
  defers : Bool
  agenda : List Turn
  fresh : Nat
deriving DecidableEq, Repr

/-- Why a step stops. -/
inductive Fault where
  /-- Raised by `step` when the agenda brings a core number into focus that the module does not have (01 R10).
  Safe: no core of that number exists to run. -/
  | noSuchCore
deriving DecidableEq, Repr

/-- Why a step has no meaning. -/
inductive Refusal where
  /-- Raised by `exec` for a constructor that has no meaning yet. Safe. -/
  | notModelled (mnemonic : String)
  /-- Raised by `step` for a turn whose instruction is not well formed, or is a word of a fetched stream, so
  that no agent of the module makes it. Safe. -/
  | badTurn
deriving DecidableEq, Repr

/-- The machine right after module reset: cores unbound, core 0 in focus, memory with nothing listed. -/
def State.reset : State :=
  { core := .reset 0, others := [], mem := [], host := [],
    dir := { blocks := [], tiles := [], entries := [], kept := [], nextTen := 1, forwards := [], incarnation := [], senders := [], staleSeen := [], staged := [] },
    disp := { slots := [], held := [], ignored := 0, parked := [], tags := [] },
    sheep := { queues := [], jobs := [], regions := [], doorbells := [], reports := [], nextUid := 1, nextGang := 1,
               nextCommit := 1, rr := [], anchors := [], tasks := [], lastPass := 0, workSince := none },
    base := .reset, posted := [], agent := none, stalled := false, missed := none, asks := none, seat := none, defers := false, agenda := [], fresh := 0 }

end Sys2Proof.Machine
end

