-- ==== Sys2Proof/Machine/Ops.lean ====
section
/-! DEFINITION. Named operations over registers, logical time, the device-physical map and coherent memory,
translation, and taking and leaving a trap. The meanings are written over these. -/

namespace Sys2Proof.Machine

/-! ## Cores -/

/-- The core with number `n`. -/
def State.coreAt (s : State) (n : Nat) : Core := if n = s.core.no then s.core else Table.get (Core.reset n) s.others n

/-- Replace the core with number `n`. -/
def State.setCoreAt (s : State) (n : Nat) (c : Core) : State :=
  if n = s.core.no then { s with core := c } else { s with others := Table.set (Core.reset n) s.others n c }

/-- Change the core with number `n`. -/
def State.onCore (s : State) (n : Nat) (f : Core → Core) : State := s.setCoreAt n (f (s.coreAt n))

/-- Bring core `n` into focus. -/
def State.focusOn (s : State) (n : Nat) : State :=
  if n = s.core.no then s
  else
    { s with core := Table.get (Core.reset n) s.others n,
             others := Table.set (Core.reset s.core.no) (Table.set (Core.reset n) s.others n (Core.reset n)) s.core.no s.core }

/-- Do something as core `n`, and come back. -/
def State.asCore (s : State) (n : Nat) (f : State → State) : State := (f (s.focusOn n)).focusOn s.core.no
/-- The core whose tenures and state an agent number stands for (15 R316). -/
def agentCore (agent : Nat) : Option Nat :=
  if agent < 192 then some agent else if 256 ≤ agent ∧ agent < 448 then some (agent - 256) else none

/-- Every core that is not as at reset, the one in focus first. -/
def State.coresListed (s : State) : List Core := s.core :: s.others.map (·.2)

/-- The compute die of a core (01 R10). -/
def dieOf (n : Nat) : Nat := n / Config.coresPerDie

/-! ## Control-thread registers -/

/-- Read a control-thread register; x0 reads 0. -/
def Ct.getX (c : Ct) (r : XReg) : Word := if r = 0 then 0 else Store.get c.x r.toNat
/-- Write a control-thread register; a write to x0 is discarded. -/
def Ct.setX (c : Ct) (r : XReg) (v : Word) : Ct := if r = 0 then c else { c with x := Store.set c.x r.toNat v }

/-- Read a register of the core in focus. -/
def State.getX (s : State) (r : XReg) : Word := s.core.ct.getX r
/-- Change the control thread of the core in focus. -/
def State.onCt (s : State) (f : Ct → Ct) : State := { s with core := { s.core with ct := f s.core.ct } }
/-- Change the CSRs of the core in focus. -/
def State.onCsr (s : State) (f : Csrs → Csrs) : State := { s with core := { s.core with csr := f s.core.csr } }
/-- Change the vector side of the core in focus. -/
def State.onVec (s : State) (f : Vec → Vec) : State := { s with core := { s.core with vec := f s.core.vec } }
/-- Write a register of the core in focus. -/
def State.setX (s : State) (r : XReg) (v : Word) : State := s.onCt fun c => c.setX r v
/-- Event `e` of 21 R343 has happened `n` times on a core. -/
def Core.note (c : Core) (e n : Nat) : Core := { c with events := Table.set 0 c.events e (Table.get 0 c.events e + n) }
/-- Event `e` has happened once on the core in focus. -/
def State.note (s : State) (e : Nat) : State := { s with core := s.core.note e 1 }
/-- Move the pc past an instruction of `n` bytes, which waits for nothing any more. -/
def State.pastInstr (s : State) (n : Nat) : State :=
  s.onCt fun c => { c with pc := c.pc + BitVec.ofNat 64 n, wait := none, waitaStart := none }
/-- An instruction of `n` bytes retires (21 R343) and the pc moves past it. -/
def State.advance (s : State) (n : Nat) : State := (s.note 2).pastInstr n
/-- Write a result and move past a 4-byte instruction. -/
def State.result (s : State) (r : XReg) (v : Word) : State := (s.setX r v).advance 4
/-- The instruction at the pc has not issued; the control thread waits at it (02 R33). -/
def State.waitAt (s : State) (w : Wait) : State := s.onCt fun c => { c with wait := some w }

/-! ## The vector array -/

/-- Registers per micro-thread (02 R26). -/
def nregsOf (c : BitVec 2) : Nat := 8 * 2 ^ c.toNat
/-- VLMAX for an NREGS code (02 R27). -/
def vlmaxOf (c : BitVec 2) : Nat := 65536 / nregsOf c
/-- NREGS of the core in focus. -/
def State.nregs (s : State) : Nat := nregsOf s.core.csr.nregs
/-- VLMAX of the core in focus (02 R27). -/
def State.vlmax (s : State) : Nat := vlmaxOf s.core.csr.nregs

/-- The parts of a core window. -/
inductive Part where
  | stash | fly | acc | regs | control
deriving DecidableEq, Repr

/-- The key of the stamp of a window word: its 8-byte word among all the window's words (15 R324). -/
def stampKey (p : Part) (w : Nat) : Nat :=
  (match p with | .stash => 0 | .fly => 0x100_0000 | .acc => 0x300_0000 | .regs => 0x304_0000 | .control => 0x308_0000) / 8 + w / 8
/-- The stamp of a word written now: the core's LTIME, and that there is one (15 R324). -/
def Core.stampNow (c : Core) : BitVec 33 := (1 : BitVec 1) ++ c.ltime

/-- Where register `r` of micro-thread `m` is kept: its word of the register part (13 R278). -/
def regSlot (nregs : BitVec 2) (r m : Nat) : Nat := r * vlmaxOf nregs + m

/-- Register `r` of micro-thread `m` (00 R6: V[r][m]). -/
def Core.vreg (c : Core) (r m : Nat) : MWord := Store.get c.vec.regs (regSlot c.csr.nregs r m)
/-- Write register `r` of micro-thread `m`: its dirty bit is set (02 R45), the high-water mark rises (R46), the word is
stamped (15 R324). -/
def Core.setVreg (c : Core) (r m : Nat) (v : MWord) : Core :=
  { c with vec := { c.vec with regs := Store.set c.vec.regs (regSlot c.csr.nregs r m) v,
                               regDirty := c.vec.regDirty ||| BitVec.twoPow 64 r,
                               high := max c.vec.high (m + 1),
                               stamps := Store.set c.vec.stamps (stampKey .regs (4 * regSlot c.csr.nregs r m)) c.stampNow } }

/-- Register `r` of micro-thread `m` of the core in focus. -/
def State.vreg (s : State) (r m : Nat) : MWord := s.core.vreg r m
/-- Write register `r` of micro-thread `m` of the core in focus. -/
def State.setVreg (s : State) (r m : Nat) (v : MWord) : State := { s with core := s.core.setVreg r m v }

/-- A mask by its code; k0 is all ones in every use (05 R116). -/
def Vec.maskOf (v : Vec) (k : BitVec 4) : Mask := if k = 0 then BitVec.allOnes 8192 else Table.get 0 v.masks k.toNat
/-- Write a mask by its code; a write to k0 is ignored (05 R116). -/
def Vec.setMask (v : Vec) (k : BitVec 4) (x : Mask) : Vec := if k = 0 then v else { v with masks := Table.set 0 v.masks k.toNat x }
/-- The codes of kv, km and kf (05 R116). -/
def kvCode : BitVec 4 := 8
def kmCode : BitVec 4 := 9
def kfCode : BitVec 4 := 10
/-- Set or clear one bit of a mask. -/
def setBit (x : Mask) (m : Nat) (b : Bool) : Mask :=
  if b then x ||| BitVec.twoPow 8192 m else x &&& ~~~ BitVec.twoPow 8192 m
/-- A mask of the core in focus. -/
def State.mask (s : State) (k : BitVec 4) : Mask := s.core.vec.maskOf k
/-- Any fault is recorded in kf (02 R50). -/
def State.kfAny (s : State) : Bool := s.mask kfCode != 0

/-- Micro-thread `m`. -/
def Vec.mt (v : Vec) (m : Nat) : Mt := Table.get Mt.idle v.mts m
/-- Replace micro-thread `m`. -/
def Vec.setMt (v : Vec) (m : Nat) (t : Mt) : Vec := { v with mts := Table.set Mt.idle v.mts m t }
/-- Micro-thread `m` of the core in focus. -/
def State.mt (s : State) (m : Nat) : Mt := s.core.vec.mt m
/-- Change micro-thread `m` of the core in focus. -/
def State.onMt (s : State) (m : Nat) (f : Mt → Mt) : State := s.onVec fun v => v.setMt m (f (v.mt m))

/-- Accumulator element (i, j) of tile t, in storage (13 R278). -/
def accSlot (t i j : Nat) : Nat := t * 2048 + i * 64 + j
/-- Read an accumulator element. -/
def Core.accGet (c : Core) (t i j : Nat) : MWord := Store.get c.vec.acc (accSlot t i j)
/-- Write an accumulator element: its tile's dirty bit is set (02 R45), the word is stamped (15 R324). -/
def Core.accSet (c : Core) (t i j : Nat) (v : MWord) : Core :=
  { c with vec := { c.vec with acc := Store.set c.vec.acc (accSlot t i j) v, tileDirty := c.vec.tileDirty ||| BitVec.twoPow 32 t,
                               stamps := Store.set c.vec.stamps (stampKey .acc (4 * accSlot t i j)) c.stampNow } }

/-! ## Logical time (15 R307) -/

/-- `a` is before `b` in serial order; ANCIENT is before every logical time. -/
def ltBefore : LTime → LTime → Bool
  | none, none => false
  | none, some _ => true
  | some _, none => false
  | some a, some b => let d := (b - a).toNat; decide (1 ≤ d ∧ d < 0x8000_0000)
/-- The later of two logical times. -/
def ltMax (a b : LTime) : LTime := if ltBefore a b then b else a
/-- `a` at or after `b`. -/
def ltGe (a b : LTime) : Bool := !ltBefore a b
/-- A time some ticks later; ANCIENT plus anything is ANCIENT. -/
def ltAdd (a : LTime) (n : Nat) : LTime := a.map fun t => t + BitVec.ofNat 32 n
/-- LTIME after an event at time `t` (15 R308). -/
def raise (l : BitVec 32) (t : LTime) : BitVec 32 := (ltMax (some l) t).getD l
/-- A core without any lease, chain-cache entries included (15 R321). -/
def Core.withoutLeases (c : Core) : Core :=
  { c with leases := [], chain := [], copies := c.copies.map fun (n, x) => (n, x.map fun x => { x with lease := none }), dropAt := c.ltime }
/-- LTIME moves on by `n` ticks: a core that has moved 2^29 ticks since it last dropped its leases drops them (15 R321). -/
def Core.later (c : Core) (n : Nat) : Core :=
  let moved := (c.ltime - c.dropAt).toNat + n
  let c := { c with ltime := c.ltime + BitVec.ofNat 32 n }
  if 0x2000_0000 ≤ moved then c.withoutLeases else c
/-- LTIME after an event at time `t`. -/
def Core.raiseTo (c : Core) (t : LTime) : Core := c.later (raise c.ltime t - c.ltime).toNat
/-- Raise the LTIME of the core in focus. -/
def State.raiseTime (s : State) (t : LTime) : State := { s with core := s.core.raiseTo t }
/-- The read-lease length of a core (11 R261). -/
def Core.lease (c : Core) : Nat := c.csr.ltlease.toNat

/-- The latest of some logical times, in serial order. -/
def latest : List (BitVec 32) → Option (BitVec 32)
  | [] => none
  | t :: ts => some (ts.foldl (fun t u => raise t (some u)) t)
/-- The LTIMEs of a die's enabled cores (15 R320); a core that is not listed stands as at reset. -/
def State.dieTimes (s : State) (die : Nat) : List (BitVec 32) :=
  let l := s.coresListed.filter fun c => dieOf c.no == die
  (l.filter fun c => c.phase != .offline).map (·.ltime) ++ (if l.length < Config.coresPerDie then [0] else [])
/-- The die time: the latest LTIME of the die's enabled cores (15 R320). That of a die with no enabled core, on which the rule is silent, is
0: DESIGN CHOICE (log 71). -/
def State.dieTime (s : State) (die : Nat) : BitVec 32 := (latest (s.dieTimes die)).getD 0
/-- The module time: the latest of the four die times (15 R321), of dies that have an enabled core; with none in the module, 0 (log
71). -/
def State.moduleTimeNow (s : State) : BitVec 32 := (latest ([0, 1, 2, 3].filterMap fun d => latest (s.dieTimes d))).getD 0
/-- A timestamp 2^30 ticks or more before the die time becomes ANCIENT (15 R320). -/
def clampTo (now : BitVec 32) : LTime → LTime
  | none => none
  | some t => let d := (now - t).toNat; if 0x4000_0000 ≤ d ∧ d < 0x8000_0000 then none else some t
/-- The clamp of one entry. -/
def Tenure.clamp (t : Tenure) (now : BitVec 32) : Tenure :=
  { t with wts := clampTo now t.wts, rts := clampTo now t.rts, home := clampTo now t.home }

/-! ## The device-physical map (13 R277, R278) -/

/-- What a device-physical address reaches. -/
inductive Place where
  | ddr
  | window (core : Nat) (part : Part) (off : Nat)
  | basecamp
  | host
  | nowhere
deriving DecidableEq, Repr

/-- The part of a window at an offset, with the offset in the part (13 R278). -/
def partAt (off : Nat) : Option (Part × Nat) :=
  if off < 0x20_0000 then some (.stash, off)
  else if 0x100_0000 ≤ off ∧ off < 0x280_0000 then some (.fly, off - 0x100_0000)
  else if 0x300_0000 ≤ off ∧ off < 0x304_0000 then some (.acc, off - 0x300_0000)
  else if 0x304_0000 ≤ off ∧ off < 0x308_0000 then some (.regs, off - 0x304_0000)
  else if 0x308_0000 ≤ off ∧ off < 0x308_1000 then some (.control, off - 0x308_0000)
  else none

/-- The place of a device-physical address. -/
def placeOf (pa : Nat) : Place :=
  if pa < Config.ddrBytes then .ddr
  else if pa < Config.windowEnd then
    match partAt ((pa - Config.windowBase) % Config.windowBytes) with
    | some (p, o) => .window ((pa - Config.windowBase) / Config.windowBytes) p o
    | none => .nowhere
  else if Config.basecampBase ≤ pa ∧ pa < Config.basecampEnd then .basecamp
  else if Config.hostBase ≤ pa ∧ pa < Config.physEnd then
    if Config.hostBacks (pa - Config.hostBase) then .host else .nowhere
  else .nowhere

/-- Flysheet storage is kept in the B-row view; this is the B-row offset of a column-layout offset (13 R282). -/
def flyOfColumn (w : Nat) : Nat := (w % 393216 / 48) * 3072 + (w / 393216) * 48 + w % 48

/-- The column-layout offset of a B-row view offset (13 R282). -/
def flyToColumn (a : Nat) : Nat := (a % 3072 / 48) * 393216 + (a / 3072) * 48 + a % 48

/-- The device-physical address of an offset of a part of a core's window (13 R278). -/
def windowAddr (core : Nat) (p : Part) (off : Nat) : Nat :=
  Config.windowBase + core * Config.windowBytes + off +
    (match p with | .stash => 0 | .fly => 0x100_0000 | .acc => 0x300_0000 | .regs => 0x304_0000 | .control => 0x308_0000)

/-- One byte of a window part of a core. -/
def Core.partByte (c : Core) (p : Part) (w : Nat) : Byte :=
  match p with
  | .stash => Store.get c.vec.stash w
  | .fly => Store.get c.vec.fly (flyOfColumn w)
  | .acc => (Store.get c.vec.acc (w / 4)).extractLsb' (8 * (w % 4)) 8
  | .regs => (Store.get c.vec.regs (w / 4)).extractLsb' (8 * (w % 4)) 8
  | .control => 0

/-- Put a byte into a 32-bit word. -/
def putByte (x : MWord) (k : Nat) (v : Byte) : MWord :=
  (x &&& ~~~ ((0xFF : MWord) <<< (8 * k))) ||| (v.setWidth 32 <<< (8 * k))

/-- Write one byte of a window part; dirty bits and the high-water mark follow as for a lane (13 R279). -/
def Core.setPartByte (c : Core) (p : Part) (w : Nat) (v : Byte) : Core :=
  match p with
  | .stash => { c with vec := { c.vec with stash := Store.set c.vec.stash w v } }
  | .fly => { c with vec := { c.vec with fly := Store.set c.vec.fly (flyOfColumn w) v } }
  | .acc =>
    { c with vec := { c.vec with acc := Store.set c.vec.acc (w / 4) (putByte (Store.get c.vec.acc (w / 4)) (w % 4) v),
                                 tileDirty := c.vec.tileDirty ||| BitVec.twoPow 32 (w / 8192) } }
  | .regs =>
    let m := w / 4 % vlmaxOf c.csr.nregs
    let r := w / 4 / vlmaxOf c.csr.nregs
    { c with vec := { c.vec with regs := Store.set c.vec.regs (w / 4) (putByte (Store.get c.vec.regs (w / 4)) (w % 4) v),
                                 regDirty := c.vec.regDirty ||| BitVec.twoPow 64 r,
                                 high := max c.vec.high (m + 1) } }
  | .control => c

/-- `n` bytes of a part, little-endian. -/
def Core.partRead (c : Core) (p : Part) (w : Nat) : Nat → Nat
  | 0 => 0
  | n + 1 => (c.partByte p w).toNat + 256 * Core.partRead c p (w + 1) n

/-- Write `n` bytes of a part, little-endian. -/
def Core.partWrite (c : Core) (p : Part) (w : Nat) : Nat → Nat → Core
  | 0, _ => c
  | n + 1, v => Core.partWrite (c.setPartByte p w (BitVec.ofNat 8 v)) p (w + 1) n (v / 256)

/-- The stamp of a window word. -/
def Core.stamp (c : Core) (p : Part) (w : Nat) : LTime :=
  let x := Store.get c.vec.stamps (stampKey p w)
  if x.getLsbD 32 then some (x.setWidth 32) else none
/-- Stamp `n` words of a part from the one at an offset. -/
def stampWords (p : Part) (w : Nat) (x : BitVec 33) : Nat → Store 33 → Store 33
  | 0, st => st
  | n + 1, st => stampWords p (w + 8) x n (Store.set st (stampKey p w) x)
/-- Stamp the words of a write of `n` bytes. -/
def Core.stampWrite (c : Core) (p : Part) (w n : Nat) (t : BitVec 32) : Core :=
  let words := if n = 0 then 0 else (w + n - 1) / 8 + 1 - w / 8
  { c with vec := { c.vec with stamps := stampWords p w ((1 : BitVec 1) ++ t) words c.vec.stamps } }

/-- The state that the control page shows: CPSTATUS.STATE (13 R281). -/
def CorePhase.code : CorePhase → Nat
  | .unbound => 0 | .running => 1 | .saving => 2 | .restoring => 2 | .offline => 3
/-- A word of the control page (13 R281). -/
def Core.controlWord (c : Core) (k : Nat) : Word :=
  if c.phase = .offline then (if k = 0 then 3 else 0)
  else match k with
  | 0 =>
    (BitVec.ofNat 16 ((if c.phase = .unbound then none else c.asid).getD 0)) ++ (if c.phase = .unbound then 0 else c.csr.gangix)
      ++ (0 : BitVec 37) ++ bit1 (c.vec.maskOf kfCode != 0) ++ BitVec.ofNat 2 c.phase.code
  | 1 => c.ltime.setWidth 64
  | 2 => BitVec.ofNat 64 c.csr.xseq
  | 3 => if c.phase = .unbound then 0 else c.csr.jobid
  | 4 => (0 : BitVec 51) ++ c.csr.vqdepth ++ (0 : BitVec 6) ++ c.csr.nregs
  | _ => 0

/-! ## Lost data (22 R360) -/

/-- Some granule of `n` bytes at `pa` is uncorrectable. -/
def State.lostAt (s : State) (pa n : Nat) : Bool :=
  s.base.lost.any fun g => decide (pa / 8 ≤ g ∧ g ≤ (pa + n - 1) / 8)
/-- A granule lies in `n` bytes at `pa`, in part or whole. -/
def granuleIn (pa n g : Nat) : Bool := decide (pa / 8 ≤ g ∧ g ≤ (pa + n - 1) / 8)
/-- A write that covers a whole granule repairs it (22 R360); any write gives a granule with a correctable error fresh check bits (25
R407). -/
def State.repair (s : State) (pa n : Nat) : State :=
  let keep := fun (g : Nat) => !decide (pa ≤ 8 * g ∧ 8 * g + 8 ≤ pa + n)
  { s with base := { s.base with lost := s.base.lost.filter keep, soft := s.base.soft.filter fun g => !granuleIn pa n g } }
/-- A read of `n` bytes at `pa` meets granules with a correctable error: they are corrected with the end of the turn (25 R406). -/
def State.meet (s : State) (pa n : Nat) : State :=
  if s.base.soft = [] then s
  else
    let base := { s.base with soft := s.base.soft.filter fun g => !granuleIn pa n g,
                              met := s.base.met ++ s.base.soft.filter (granuleIn pa n) }
    { s with base := base }
/-- The same of several ranges. -/
def State.meetAll (s : State) (l : List (Nat × Nat)) : State := l.foldl (fun s x => s.meet x.1 x.2) s

/-! ## Coherent memory (15 R309 to R311, 13 R285 to R288) -/

/-- The block of an address. -/
def blockOf (pa : Nat) : Nat := pa / 64
/-- The die whose slice homes a block (13 R285). -/
def homeDie (pa : Nat) : Nat := pa / 4096 % 4

/-- Child 0 of a split comes before child 1, with all that splits make of either. -/
def pathBefore : List Bool → List Bool → Bool
  | false :: _, true :: _ => true
  | x :: xs, y :: ys => x == y && pathBefore xs ys
  | _, _ => false
/-- Of entries that share a block, child 0 of a split, and what splits make of it (13 R290). -/
def firstByPath (l : List TileEntry) : Option TileEntry :=
  l.foldl (fun r e => match r with | some x => if pathBefore e.path x.path then some e else r | none => some e) none
/-- The tile entry that covers a virtual address of an address space, if a live or draining tile does (13 R286). -/
def State.covering (s : State) (asid va : Nat) : Option TileEntry :=
  firstByPath (s.dir.entries.filter fun e =>
    e.asid == asid && e.desc.space == 0 && e.state != .forward && decide (e.lo / 64 ≤ va / 64 ∧ va / 64 ≤ e.hi / 64))

/-- The tenure entry of a key. -/
def State.tenure (s : State) (k : TKey) (pa : Nat) : Tenure :=
  match k with
  | .block => Table.get Tenure.untouched s.dir.blocks (blockOf pa)
  | .tile t => Table.get Tenure.untouched s.dir.tiles t
/-- Replace the tenure entry of a key. -/
def State.setTenure (s : State) (k : TKey) (pa : Nat) (t : Tenure) : State :=
  match k with
  | .block => { s with dir := { s.dir with blocks := Table.set Tenure.untouched s.dir.blocks (blockOf pa) t } }
  | .tile i => { s with dir := { s.dir with tiles := Table.set Tenure.untouched s.dir.tiles i t } }

/-- The die that homes an entry: a tile's is that of its first member's first block (13 R285, R289). -/
def State.entryDie (s : State) (k : TKey) (pa : Nat) : Nat :=
  match k with
  | .block => homeDie pa
  | .tile t =>
    match s.dir.entries.find? fun e => e.ten == t && e.desc.space == 0 with
    | some e => homeDie e.home
    | none => homeDie pa

/-- The 64 bytes of a block in memory. -/
def State.blockData (s : State) (b : Nat) : BitVec 512 := BitVec.ofNat 512 (Memory.readLE s.mem (64 * b) 64)
/-- Write 64 bytes back to memory. -/
def State.writeBlock (s : State) (b : Nat) (d : BitVec 512) : State := { s with mem := Memory.writeLE s.mem (64 * b) 64 d.toNat }

/-- `n` bytes at an address from the data of its block. -/
def blockBytes (d : BitVec 512) (pa n : Nat) : Nat := d.toNat / 2 ^ (8 * (pa % 64)) % 2 ^ (8 * n)
/-- A block's data with `n` bytes replaced. -/
def blockPut (d : BitVec 512) (pa n v : Nat) : BitVec 512 :=
  let sh := 8 * (pa % 64)
  let keep := d &&& ~~~ (BitVec.ofNat 512 ((2 ^ (8 * n) - 1) * 2 ^ sh))
  keep ||| BitVec.ofNat 512 (v % 2 ^ (8 * n) * 2 ^ sh)

/-- A core's copy of a block. -/
def Core.copy (c : Core) (b : Nat) : Option Copy := Table.get none c.copies b
/-- Replace a core's copy of a block. -/
def Core.setCopy (c : Core) (b : Nat) (x : Option Copy) : Core := { c with copies := Table.set none c.copies b x }

/-- The dirty copies of a core that belong to an entry. -/
def Core.dirtyOf (c : Core) (k : TKey) (b : Nat) : List (Nat × Copy) :=
  c.copies.filterMap fun (n, x) =>
    match x with
    | some x => if x.dirty && x.key == k && (k != .block || n == b) then some (n, x) else none
    | none => none

/-- Write back every version of an entry that core `h` holds and the home lacks (15 R311). -/
def State.writeBackEntry (s : State) (h : Nat) (k : TKey) (pa : Nat) : State :=
  let c := s.coreAt h
  let t := s.tenure k pa
  let ds := c.dirtyOf k (blockOf pa)
  let s := ds.foldl (fun s (b, x) => s.writeBlock b x.data) s
  let c := ds.foldl (fun c (b, x) => c.setCopy b (some { x with dirty := false })) c
  (s.setCoreAt h c).setTenure k pa { t with home := t.wts }

/-- The end of the lease under which a core holds a copy (15 R309): leases are kept per entry. -/
def Core.leaseEnd (c : Core) (x : Copy) : LTime :=
  match x.key with
  | .block => x.lease
  | .tile t => let l := Table.get Lease.none c.leases t; if l.version = x.version then l.last else none
/-- A WAITA that sleeps on a block wakes (11 R256). -/
def Core.wakeOn (c : Core) (b : Nat) : Core :=
  match c.ct.wait with
  | some (.sleep i pa t _) => if pa / 64 = b then { c with ct := { c.ct with wait := some (.sleep i pa t true) } } else c
  | _ => c
/-- Change the copies of an entry. -/
def Core.mapCopies (c : Core) (k : TKey) (b : Nat) (f : Copy → Option Copy) : Core :=
  { c with copies := c.copies.foldl (fun t (n, x) =>
      match x with
      | some x => if x.key == k && (k != .block || n == b) then Table.set none t n (f x) else t
      | none => t) c.copies }
/-- Take a lease on an entry's version. -/
def Core.setLease (c : Core) (k : TKey) (version : Nat) (rts : LTime) : Core :=
  match k with
  | .block => c
  | .tile t => { c with leases := Table.set Lease.none c.leases t ⟨version, rts⟩ }

/-- Clamp an entry before its timestamps are compared (15 R320). -/
def State.clampEntry (s : State) (k : TKey) (pa : Nat) : State :=
  s.setTenure k pa ((s.tenure k pa).clamp (s.dieTime (s.entryDie k pa)))

/-- A write tenure ends: the holder writes back and keeps a lease until rts, as if it had read the version at its own LTIME (15 R311).
DEDUCED (log 43). -/
def State.giveBack (s : State) (k : TKey) (pa : Nat) : State :=
  match (s.tenure k pa).holder with
  | none => s
  | some h =>
    let s := (s.clampEntry k pa).writeBackEntry h k pa
    let t := s.tenure k pa
    let rts := ltMax t.rts (some (s.coreAt h).ltime)
    let s := s.setTenure k pa { t with holder := none, rts := rts }
    s.onCore h fun c => (c.mapCopies k (blockOf pa) fun x => some { x with lease := rts, wts := t.wts, version := t.version }).setLease k t.version rts

/-- A recall: the holder answers it (21 R343), and the tenure ends. -/
def State.recallEntry (s : State) (k : TKey) (pa : Nat) : State :=
  match (s.tenure k pa).holder with
  | none => s
  | some h => (s.giveBack k pa).onCore h fun c => c.note 14 1
/-- A recall unless core `c` itself holds the tenure. -/
def State.recallFrom (s : State) (c : Nat) (k : TKey) (pa : Nat) : State :=
  if (s.tenure k pa).holder = some c then s else s.recallEntry k pa

/-- A version of the block that the core in focus has written under another entry is written back before the core's next
access to the block, so that no agent of the core reads an older one (14 R296, R300); the two entries know nothing of
each other otherwise (13 R288). DEDUCED (log 65). -/
def State.settle (s : State) (k : TKey) (pa : Nat) : State :=
  match s.core.copy (blockOf pa) with
  | some x => if x.dirty && x.key != k then s.writeBackEntry s.core.no x.key pa else s
  | none => s

/-- The address-space identifier of the core in focus: satp [59:44] (22 R353). -/
def State.asidNow (s : State) : Nat := (s.core.ct.satp.extractLsb' 44 16).toNat
/-- `f` is served before a request of an agent: the older, and of two of one age the lower agent number (15 R317). -/
def Forward.precedes (f : Forward) (agent : Nat) (age : BitVec 32) : Bool :=
  ltBefore (some f.age) (some age) || (f.age == age && decide (f.agent ≤ agent))
/-- The entry of a device-physical address as an address space sees it: the tile that covers it, if one does (13 R286,
R288). -/
def State.keyOfPa (s : State) (asid pa : Nat) : TKey :=
  let covers := fun (e : TileEntry) =>
    e.asid == asid && e.desc.space == 0 && e.state != .forward &&
      e.pins.any fun p => decide (p.pa ≤ pa ∧ pa < p.pa + p.bytes) &&
        decide (e.lo / 64 ≤ (p.va + (pa - p.pa)) / 64 ∧ (p.va + (pa - p.pa)) / 64 ≤ e.hi / 64)
  match firstByPath (s.dir.entries.filter covers) with
  | some e => .tile e.ten
  | none => .block
/-- A forward is queued at an entry. -/
def State.atEntry (s : State) (f : Forward) (k : TKey) (pa : Nat) : Bool :=
  f.key.getD (s.keyOfPa f.asid f.pa) == k && (k != .block || blockOf f.pa == blockOf pa)
/-- Who holds a place still waits: its core has the job, and it has something to do. -/
def State.waits (s : State) (f : Forward) : Bool :=
  match f.seat with
  | none => true
  | some x =>
    let c := s.coreAt x.core
    match x.who with
    | .ct => c.phase == .running
    | .mt m => let t := c.vec.mt m; (c.phase == .running || c.phase == .saving) && (t.phase != .stopped || t.queue != [])
    | .queue q => c.vec.queue.any fun e => e.q == q && !e.distributed
    | .cmd seq => c.phase == .running && c.vec.cmds.any fun y => y.seq == seq
    | .left => c.vec.late != []
    | .saving => c.phase == .saving || c.phase == .restoring
/-- The incarnation of an agent, and the one that its messages carry (15 R319). -/
def State.incarnationOf (s : State) (agent : Nat) : Nat := Table.get 0 s.dir.incarnation agent
def State.senderOf (s : State) (agent : Nat) : Nat := Table.get 0 s.dir.senders agent
/-- The requests of one entry that come before one of an agent of an age: of those queued before it, and of those after. -/
def State.goesFirst (s : State) (k : TKey) (pa agent : Nat) (age : BitVec 32) (before after : List Forward) : Bool :=
  let here := fun (g : Forward) => s.atEntry g k pa && s.waits g && g.precedes agent age
  before.any here || after.any fun g => here g && !(g.age == age && g.agent == agent)
/-- A request of an agent at an entry waits for the queued requests that come before it (15 R317): the agent has not moved. What
has waited already keeps its age and its place; a message of an old incarnation is not taken (R319). -/
def State.queueUp (s : State) (k : TKey) (pa agent : Nat) (age : BitVec 32) : State :=
  let other := fun (g : Forward) => s.seat.isNone || g.seat != s.seat
  let before := s.dir.forwards.takeWhile other
  let rest := s.dir.forwards.dropWhile other
  let age := match rest.head? with | some g => g.age | none => age
  if s.senderOf agent ≠ s.incarnationOf agent ∨ s.goesFirst k pa agent age before rest.tail then
    { s with stalled := true,
             asks := s.asks.or (some { seat := s.seat, key := some k, agent := agent, age := age, incarnation := s.senderOf agent,
                                       since := s.base.cycle, asid := s.asidNow, pa := pa, write := false, bytes := 0, data := 0 }) }
  else s

/-- The agent number of an access by the core in focus, or by an engine for it (15 R316). -/
def State.requester (s : State) : Nat := s.agent.getD s.core.no
/-- What an agent other than the core itself does. -/
def State.asAgent (s : State) (n : Nat) (f : State → State) : State := { f { s with agent := some n } with agent := s.agent }
/-- An access of the core in focus, or of an engine for it, takes its place at an entry's home; its age is the core's LTIME, that of an
agent without logical time, or of data inbound on a guyline, the home die's time (15 R316). -/
def State.takePlace (s : State) (k : TKey) (pa : Nat) : State :=
  s.queueUp k pa s.requester (if 520 ≤ s.requester then s.dieTime (homeDie pa) else s.core.ltime)

/-- A lease for the core in focus at an entry's home (15 R309 step 2): its end is the new rts. -/
def State.takeLease (s : State) (k : TKey) (pa : Nat) : LTime × State :=
  let s := ((s.takePlace k pa).clampEntry k pa).recallFrom s.core.no k pa
  let t := s.tenure k pa
  let rts := ltMax t.rts (ltAdd (ltMax t.wts (some s.core.ltime)) s.core.lease)
  let s := s.setTenure k pa { t with rts := rts }
  (rts, { s with core := s.core.setLease k t.version rts }.raiseTime t.wts)

/-- A read by the core in focus (15 R309): under its copy, or at the entry's home. -/
def State.cohRead (s : State) (k : TKey) (pa n : Nat) : Nat × State :=
  let b := blockOf pa
  let s := s.settle k pa
  let held := (s.tenure k pa).holder = some s.core.no
  let hit := match s.core.copy b with
    | some x => if x.key = k ∧ (held ∨ ltGe (s.core.leaseEnd x) (some s.core.ltime)) then some x else none
    | none => none
  match hit with
  | some x => (blockBytes x.data pa n, s)
  | none =>
    let (rts, s) := if held then ((s.tenure k pa).rts, s) else s.takeLease k pa
    let renewal := match s.core.copy b with | some x => x.key == k && x.version == (s.tenure k pa).version | none => false
    let s := if held then s else s.note (if renewal then 12 else 13)
    let d := s.blockData b
    let x : Copy := { key := k, data := d, wts := (s.tenure k pa).wts, version := (s.tenure k pa).version, lease := rts, dirty := false }
    (blockBytes d pa n, { s with core := s.core.setCopy b (some x) })

/-- Take the write of the core in focus at the home: the new wts, after every lease (15 R310). Copies of an older
version are of no use under a tenure that begins. -/
def State.takeWrite (s : State) (k : TKey) (pa : Nat) (keep : Bool) : State :=
  let me := s.core.no
  let s := s.settle k pa
  let s := if (s.tenure k pa).holder = some me then s else s.takePlace k pa
  let s := (s.clampEntry k pa).recallFrom me k pa
  let t := s.tenure k pa
  let held := t.holder = some me
  let s := if held then s
    else { s with core := s.core.mapCopies k (blockOf pa) fun x => if x.version = t.version then some x else none }
  let w := ltMax (some s.core.ltime) (ltAdd t.rts 1)
  let s := s.setTenure k pa
    { wts := w, rts := w, holder := if held ∨ keep then some me else none, home := if held ∨ keep then t.home else w,
      version := t.version + 1 }
  s.raiseTime w

/-- The data of a block as its writer sees it, with the tenure taken. -/
def State.currentData (s : State) (k : TKey) (b : Nat) : BitVec 512 :=
  match s.core.copy b with
  | some x => if x.key = k ∧ x.dirty then x.data else s.blockData b
  | none => s.blockData b
/-- Link entries of records that lie in a block are dropped (12 R267, 14 R300). -/
def Core.dropChain (c : Core) (b : Nat) : Core :=
  { c with chain := c.chain.filter fun e => decide (b < e.pa / 64 ∨ (e.pa + 127) / 64 < b) }
/-- The new data of a block becomes the version of a write that has been taken: the core's own copy holds it, without
a lease; the home holds it unless the core keeps the tenure (15 R310). A WAITA of the core on the block wakes. -/
def State.putBlock (s : State) (k : TKey) (pa : Nat) (d : BitVec 512) : State :=
  let b := blockOf pa
  let t := s.tenure k pa
  let held := t.holder = some s.core.no
  let s := if held then s else s.writeBlock b d
  { s with core := ((s.core.setCopy b (some { key := k, data := d, wts := t.wts, version := t.version, lease := none, dirty := held })).wakeOn b).dropChain b }

/-- A write by the core in focus (15 R310): it keeps the tenure of a block entry; a routed write to a tile
entry is given up unless the core holds the tile's tenure (13 R287). -/
def State.cohWrite (s : State) (k : TKey) (pa n v : Nat) (keep : Bool) : State :=
  let s := s.takeWrite k pa keep
  (s.putBlock k pa (blockPut (s.currentData k (blockOf pa)) pa n v)).repair pa n
/-- A write at the home whose tenure is not kept (11 R243, R251). -/
def State.writeHome (s : State) (k : TKey) (pa n v : Nat) : State := (s.cohWrite k pa n v false).giveBack k pa
/-- A write through to a block's own entry (11 R243). -/
def State.writeThrough (s : State) (pa n v : Nat) : State := s.writeHome .block pa n v

/-- The latest version of `n` bytes, whoever holds it, with no effect (for fetches, log 5). -/
def State.peek (s : State) (pa n : Nat) : Nat :=
  let held := s.coresListed.findSome? fun c =>
    match c.copy (blockOf pa) with
    | some x => if x.dirty then some (blockBytes x.data pa n) else none
    | none => none
  held.getD (Memory.readLE s.mem pa n)

/-- A read at the home that takes no lease (11 R251). A version held under another entry is not seen (13 R288). -/
def State.homeReadBy (s : State) (k : TKey) (pa n : Nat) : Nat × State :=
  let b := blockOf pa
  let s := (((s.meet pa n).settle k pa).takePlace k pa).recallFrom s.core.no k pa
  match s.core.copy b with
  | some x => if x.dirty && x.key == k then (blockBytes x.data pa n, s) else (Memory.readLE s.mem pa n, s)
  | none => (Memory.readLE s.mem pa n, s)
/-- A read of a block's own entry by page walkers and checks of table entries (22 R352, 11 R244). -/
def State.homeRead (s : State) (pa n : Nat) : Nat × State :=
  if 520 ≤ s.requester then
    -- an agent without logical time (23 R420)
    let s := ((s.meet pa n).takePlace .block pa).recallEntry .block pa
    (Memory.readLE s.mem pa n, s)
  else s.homeReadBy .block pa n

/-- A release at .di or wider writes back everything its core wrote (15 R311). -/
def State.writeBackAll (s : State) : State :=
  let ds := s.core.copies.filterMap fun (n, x) => match x with
    | some x => if x.dirty then some (n, x) else none
    | none => none
  ds.foldl (fun s (b, x) => s.writeBackEntry s.core.no x.key (64 * b)) s

/-! ## Translation (22 R352, R353) -/

/-- Why an access does not reach its bytes. -/
inductive AccErr where
  | page | access | lost
deriving DecidableEq, Repr

/-- The permissions an access is made with. -/
structure AccMode where
  user : Bool
  sum : Bool
  mxr : Bool
deriving DecidableEq, Repr

/-- sstatus bits (RISC-V privileged architecture, 22 R347). -/
def sieBit : Nat := 1
def spieBit : Nat := 5
def sppBit : Nat := 8
def sumBit : Nat := 18
def mxrBit : Nat := 19

/-- The mode of the control thread now. -/
def State.ctMode (s : State) : AccMode :=
  { user := s.core.ct.user, sum := s.core.ct.sstatus.getLsbD sumBit, mxr := s.core.ct.sstatus.getLsbD mxrBit }
/-- User level, whatever the control thread's privilege (08 R169, 02 R37). -/
def State.userMode (s : State) : AccMode := { s.ctMode with user := true }
/-- Supervisor permission (08 R175). -/
def State.superMode (s : State) : AccMode := { s.ctMode with user := false }

/-- Bits [63:57] equal bit 56 (08 R169). -/
def canonical (va : Word) : Bool := va.extractLsb' 57 7 == (if va.getLsbD 56 then 0x7F else 0)

/-- PTE flags: V R W X U G A D in bits 0 to 7. -/
def pteV : Nat := 0
def pteR : Nat := 1
def pteW : Nat := 2
def pteX : Nat := 3
def pteU : Nat := 4
def pteA : Nat := 6
def pteD : Nat := 7

/-- The flags of a leaf permit the access (RISC-V, 08 R169). -/
def permits (f : BitVec 8) (kind : Access) (md : AccMode) : Bool :=
  let u := f.getLsbD pteU
  let lvl := if md.user then u else (!u || (md.sum && kind != .fetch))
  let op := match kind with
    | .fetch => f.getLsbD pteX
    | .load => f.getLsbD pteR || (md.mxr && f.getLsbD pteX)
    | .store => f.getLsbD pteW
  lvl && op

/-- What a walk finds: a leaf with its address, value and level. -/
inductive Walk where
  | leaf (pteAddr pte level : Nat)
  | bad (e : AccErr)
deriving DecidableEq, Repr

/-- The walk from level `lvl` of the table at `base` (22 R352; RISC-V Sv57). Page tables lie in low-power DDR. -/
def State.walkFrom (s : State) (va : Word) : Nat → Nat → Walk × State
  | lvl, base =>
    match lvl with
    | 0 => (.bad .page, s)
    | lvl + 1 =>
      let a := base + (va.toNat / 2 ^ (12 + 9 * lvl) % 512) * 8
      if Config.ddrBytes ≤ a then (.bad .access, s)
      else if s.lostAt a 8 then (.bad .lost, s)
      else
        let (pte, s) := s.homeRead a 8
        let v := pte.testBit pteV
        let r := pte.testBit pteR
        let w := pte.testBit pteW
        let x := pte.testBit pteX
        let ppn := pte / 2 ^ 10 % 2 ^ 44
        if !v || (!r && w) || pte / 2 ^ 54 != 0 then (.bad .page, s)
        else if r || x then
          if ppn % 2 ^ (9 * lvl) ≠ 0 then (.bad .page, s) else (.leaf a pte lvl, s)
        else if pte.testBit pteU || pte.testBit pteA || pte.testBit pteD then (.bad .page, s)
        else State.walkFrom s va lvl (ppn * 4096)

/-- The five-level walk of satp's table. -/
def State.walk (s : State) (va : Word) : Walk × State := s.walkFrom va 5 ((s.core.ct.satp.extractLsb' 0 44).toNat * 4096)

/-- The TLB has 2,048 entries (22 R352). Which one a full TLB gives up no rule says: the least recently used. DESIGN CHOICE (log
71). -/
def State.tlbPut (s : State) (e : TlbEntry) : State :=
  { s with core := { s.core with tlb := (e :: s.core.tlb.filter fun x => x != e).take 2048 } }

/-- A TLB entry serves an access when it covers the address, permits it, and has D set for a store. -/
def TlbEntry.serves (e : TlbEntry) (asid va : Nat) (kind : Access) (md : AccMode) : Bool :=
  e.asid == asid && decide (e.va ≤ va ∧ va < e.va + e.bytes) && permits e.flags kind md &&
    (kind != .store || e.flags.getLsbD pteD)

/-- Walk to the leaf of a virtual address and check its permissions: its address, value and level. A page check
that fails is `page`; a walk that leaves DDR is `access` (22 R352). -/
def State.leafOf (s : State) (va : Word) (kind : Access) (md : AccMode) : Except AccErr (Nat × Nat × Nat) × State :=
  if !canonical va then (.error .page, s)
  else match s.walk va with
    | (.bad e, s) => (.error e, s)
    | (.leaf pa pte lvl, s) => if permits (BitVec.ofNat 8 pte) kind md then (.ok (pa, pte, lvl), s) else (.error .page, s)
/-- The flags of a leaf after an access: A is set, and D on a store (22 R353). -/
def leafFlags (pte : Nat) (write : Bool) : BitVec 8 :=
  BitVec.ofNat 8 pte ||| BitVec.twoPow 8 pteA ||| (if write then BitVec.twoPow 8 pteD else 0)
/-- Set the A bit of a leaf, and D on a store (22 R353). -/
def State.markLeaf (s : State) (pa pte : Nat) (write : Bool) : State :=
  let f := leafFlags pte write
  if f = BitVec.ofNat 8 pte then s else s.cohWrite .block pa 8 (pte / 256 * 256 + f.toNat) true
/-- The translation that a leaf gives to the page of an address. -/
def leafEntry (asid a pte lvl : Nat) (f : BitVec 8) : TlbEntry :=
  let size := 4096 * 512 ^ lvl
  { asid := asid, va := a / size * size, bytes := size, pa := pte / 2 ^ 10 % 2 ^ 44 * 4096, flags := f }

/-- The translation cache of a die (22 R352). -/
def State.dieCache (s : State) (d : Nat) : List TlbEntry := (Table.get Die.zero s.base.dies d).cache
/-- The translation cache of the die of the core in focus has 32,768 entries (22 R352); a full one gives up the least recently used.
DESIGN CHOICE (log 71). -/
def State.diePut (s : State) (e : TlbEntry) : State :=
  let d := dieOf s.core.no
  let x := Table.get Die.zero s.base.dies d
  { s with base := { s.base with
      dies := Table.set Die.zero s.base.dies d { x with cache := (e :: x.cache.filter fun y => y != e).take 32768 } } }
/-- An access that misses the TLB waits while its page is queued already, or the queue is full (22 R352): its agent has not
moved, and the page is kept for the micro-thread that it was of. A page that enters the queue alone is served at once, unless a turn of the agenda has queued it. -/
def State.missQueue (s : State) (va : Nat) : State :=
  if s.core.misses.contains (va / 4096) || decide (256 ≤ s.core.misses.length) then
    { s with stalled := true, missed := some (va / 4096) }
  else s

/-- Translate a virtual address for an access through the TLB, the die's translation cache or by a walk (22 R352). -/
def State.translate (s : State) (va : Word) (kind : Access) (md : AccMode) : Except AccErr Nat × State :=
  let a := va.toNat
  match if canonical va then s.core.tlb.find? fun e => e.serves s.asidNow a kind md else none with
  | some e => (.ok (e.pa + (a - e.va)), s.tlbPut e)
  | none =>
    let s := (s.missQueue a).note 9
    match if canonical va then (s.dieCache (dieOf s.core.no)).find? fun e => e.serves s.asidNow a kind md else none with
    | some e => (.ok (e.pa + (a - e.va)), (s.diePut e).tlbPut e)
    | none =>
      match s.leafOf va kind md with
      | (.error e, s) => (.error e, s)
      | (.ok (pa, pte, lvl), s) =>
        let write := kind == .store
        let e := leafEntry s.asidNow a pte lvl (leafFlags pte write)
        (.ok (e.pa + (a - e.va)), ((s.markLeaf pa pte write).diePut e).tlbPut e)

/-! ## Accesses by the core in focus -/

/-- The entry that an access by virtual address uses (13 R286), and by device-physical address (13 R288). -/
def State.keyFor (s : State) (va : Option Nat) : TKey :=
  match va with
  | some v => match s.covering s.asidNow v with
    | some e => .tile e.ten
    | none => .block
  | none => .block

/-- A window part accepts an access (13 R280). -/
def Core.accepts (c : Core) (p : Part) (write : Bool) : Bool :=
  match c.phase, p with
  | .offline, .control => !write
  | .offline, _ => false
  | _, .control => !write
  | _, .stash => true
  | _, .fly => true
  | .running, _ => true
  | _, _ => false

/-- The bytes exist for this access (13 R277, R280): check 3 of 09 R200. -/
def State.reaches (s : State) (pa : Nat) (write : Bool) : Bool :=
  match placeOf pa with
  | .nowhere => false
  | .window n p _ => (s.coreAt n).accepts p write
  | _ => true

/-- Every one of `n` bytes exists for an access: a span of low-power DDR does. -/
def State.spanReaches (s : State) (pa n : Nat) (write : Bool) : Bool :=
  n != 0 && (decide (pa + n ≤ Config.ddrBytes) || (List.range n).all fun k => s.reaches (pa + k) write)

/-- A basecamp address's register, as a write event: what a write there does is the step of basecamp that the
event names (24 R394 to R398, 25 R413). A write of part of a register is a write of that part: DESIGN CHOICE (log 33), on
which 00 R5 is silent. -/
def basecampEvent (pa n : Nat) (v : Word) : Instr :=
  let o := pa - Config.basecampBase
  if o = 0x010 ∧ n = 8 then .fwloadWrite v
  else if o = 0x018 ∧ n = 8 then .mresetWrite v
  else if o = 0x030 ∧ n = 8 then .pwrcapWrite v
  else if o = 0x040 ∧ n = 8 then .hlogWrite v
  else if 0x100_0000 ≤ o ∧ o < 0x100_0000 + 0x1000 * 257 then
    let f := (o - 0x100_0000) / 0x1000
    if o % 0x1000 = 0xFF8 then .regionDoorbell f n v
    else if o % 8 = 0 then .queueDoorbell f (o % 0x1000 / 8) n v
    else .queueDoorbell f 511 0 v
  else .registerWrite (.mmio pa n) 0 v

/-- A word of a function page (24 R395). -/
def FnPage.word (f : FnPage) (off : Nat) : Word :=
  match off with
  | 0x008 => f.farg
  | 0x010 => bit1 f.busy ++ (0 : BitVec 47) ++ f.lastOp ++ f.result
  | _ => 0

/-- FWSTATE.STATE code (24 R398). -/
def FwState.code : FwState → BitVec 4
  | .rom => 0 | .verifying => 1 | .running => 2 | .recovery => 3 | .fatal => 4

/-- THERM (25 R413). -/
def Basecamp.therm (b : Basecamp) : Word :=
  let d := fun i => Table.get Die.zero b.dies i
  let warn := (bit1 (d 3).warn ++ bit1 (d 2).warn ++ bit1 (d 1).warn ++ bit1 (d 0).warn : BitVec 4)
  let hot := (bit1 (d 3).heldSince.isSome ++ bit1 (d 2).heldSince.isSome ++ bit1 (d 1).heldSince.isSome ++ bit1 (d 0).heldSince.isSome : BitVec 4)
  (0 : BitVec 8) ++ warn ++ hot ++ BitVec.ofNat 8 b.flow ++ BitVec.ofNat 8 b.inlet
    ++ BitVec.ofNat 8 (d 3).temp ++ BitVec.ofNat 8 (d 2).temp ++ BitVec.ofNat 8 (d 1).temp ++ BitVec.ofNat 8 (d 0).temp

/-- The 8-byte word of basecamp at an 8-byte offset (24 R395, R397, R398, 25 R413). Other addresses read 0. -/
def Basecamp.word (b : Basecamp) (o : Nat) : Word :=
  if o < 0x1000 then
    match o with
    | 0x008 => BitVec.ofNat 32 b.svn ++ (0 : BitVec 16) ++ b.reason ++ (0 : BitVec 4) ++ b.fw.code
    | 0x020 => b.dumpAddr
    | 0x028 => b.capctl
    | 0x030 => (0 : BitVec 32) ++ BitVec.ofNat 16 (if b.cycle = 0 then 0 else Config.measuredPower b.cycle) ++ BitVec.ofNat 16 b.cap
    | 0x038 => b.therm
    | 0x040 => b.hlog
    | 0x048 => BitVec.ofNat 64 b.hlogPos
    | 0x050 => BitVec.ofNat 64 b.ceCount
    | 0x058 => BitVec.ofNat 64 b.ueCount
    | 0x060 => BitVec.ofNat 64 b.staleMsg
    | 0x068 => BitVec.ofNat 64 b.withheld
    | _ => 0
  else if 0x10_0000 ≤ o ∧ o < 0x10_0000 + 0x1000 * 257 then
    (Table.get FnPage.zero b.pages ((o - 0x10_0000) / 0x1000)).word (o % 0x1000)
  else if 0x100_0000 ≤ o ∧ o < 0x100_0000 + 0x1000 * 257 then Table.get 0 b.aperture ((o - 0x100_0000) / 8)
  else 0

/-- An access of an agent whose writes the lantern holds waits until they are replayed (24 R398): the agent has not moved. -/
def State.behindLantern (s : State) : State :=
  if s.base.lantern.any fun h => h.source == .agent s.requester then { s with stalled := true } else s
/-- What a read of `n` bytes at a place without tenure returns. -/
def State.placeRead (s : State) (pa n : Nat) : Nat :=
  match placeOf pa with
  | .window c .control off => (Core.controlWord (s.coreAt c) (off / 8)).toNat / 2 ^ (8 * (off % 8)) % 2 ^ (8 * n)
  | .window c p off => (s.coreAt c).partRead p off n
  | .basecamp => (s.base.word (pa / 8 * 8 - Config.basecampBase)).toNat / 2 ^ (8 * (pa % 8)) % 2 ^ (8 * n)
  | .host => Memory.readLE s.host (pa - Config.hostBase) n
  | _ => 0
/-- A read of `n` bytes by the core in focus at a place it reaches. -/
def State.physRead (s : State) (k : TKey) (pa n : Nat) : Nat × State :=
  let s := s.behindLantern.meet pa n
  match placeOf pa with
  | .ddr => s.cohRead k pa n
  | _ => (s.placeRead pa n, s)

/-- The control thread waits at an MTCONF, or at a CSR write of MTCFG, whose step 1 has begun (09 R187). -/
def Core.mtconfWaits (c : Core) : Bool :=
  match c.ct.wait with
  | some (.instr (.mtconf _ _)) => true
  | some (.instr (.mtcfgWrite _ _)) => true
  | _ => false

/-- Bytes written into a part, stamped (13 R279, 15 R324). -/
def Core.landWrite (c : Core) (p : Part) (off n v : Nat) (t : BitVec 32) : Core :=
  (c.partWrite p off n v).stampWrite p off n t
/-- An LR reservation on a block of a stash is lost (11 R418). -/
def Core.loseReservation (c : Core) (b : Nat) : Core :=
  if c.ct.windowReservation = some b then { c with ct := { c.ct with windowReservation := none } } else c
/-- Every core's LR reservation on a block of a stash is lost. -/
def State.loseReservations (s : State) (b : Nat) : State :=
  { s with core := s.core.loseReservation b, others := s.others.map fun (n, c) => (n, c.loseReservation b) }

/-- A write of `n` bytes lands in a part of core `c`'s window, stamped (13 R279, 15 R324). A register or accumulator write
from another agent is held while the target's MTCONF waits (09 R187). A WAITA of the target core on a stash block wakes (11 R256). -/
def State.landPart (s : State) (c : Nat) (p : Part) (off n v : Nat) (t : BitVec 32) (other : Bool) : State :=
  let b := windowAddr c p off / 64
  let s := if p = .stash then (s.onCore c fun c => c.wakeOn b).loseReservations b else s
  s.onCore c fun c =>
    if other ∧ (p = .regs ∨ p = .acc) ∧ c.mtconfWaits then
      { c with vec := { c.vec with held := c.vec.held ++ [⟨p == .regs, off, n, v, t⟩] } }
    else c.landWrite p off n v t
/-- A write into a part of core `c`'s window by the core in focus, stamped with its LTIME. A WAITA of the writing core on the
block wakes (11 R256). -/
def State.windowWrite (s : State) (c : Nat) (p : Part) (off n v : Nat) : State :=
  let woken := { s with core := s.core.wakeOn (windowAddr c p off / 64) }
  woken.landPart c p off n v s.core.ltime (c != s.core.no)

/-- Held writes land in arrival order (09 R187). -/
def Core.landHeld (c : Core) : Core :=
  c.vec.held.foldl (fun c h => c.landWrite (if h.regs then .regs else .acc) h.off h.bytes h.value h.stamp)
    { c with vec := { c.vec with held := [] } }
/-- Held writes of the core in focus land. -/
def State.landHeld (s : State) : State := if s.core.vec.held = [] then s else { s with core := s.core.landHeld }

/-- A write of `n` bytes has come to basecamp: it acts before anything else moves, after those that came before it; one to
the notify aperture of a gated management core is the lantern's (24 R394, R398). -/
def State.postWrite (s : State) (source : LanternSource) (pa n v : Nat) : State :=
  let v := BitVec.ofNat 64 (v % 2 ^ (8 * n))
  { s with posted := s.posted ++
      [if s.base.mgmtGated.getLsbD 0 ∧ 0x100_0000 ≤ pa - Config.basecampBase then .lanternCatch source pa n v
       else basecampEvent pa n v] }

/-- The die that a write arrives at. -/
def dieAt (pa : Nat) : Option Nat :=
  match placeOf pa with | .window c _ _ => some (dieOf c) | .ddr => some (homeDie pa) | _ => none
/-- A write that arrives for a gated die ungates it (24 R398): the lantern's hold and its replay, in one step. -/
def State.ungateFor (s : State) (pa : Nat) : State :=
  match dieAt pa with
  | some d =>
    let x := Table.get Die.zero s.base.dies d
    if x.clockGated || x.powerGated then
      { s with base := { s.base with dies := Table.set Die.zero s.base.dies d { x with clockGated := false, powerGated := false } } }
    else s
  | none => s
/-- A write of `n` bytes by the core in focus at a place it reaches. -/
def State.physWrite (s : State) (k : TKey) (pa n v : Nat) (keep : Bool) : State :=
  let s := s.behindLantern.ungateFor pa
  let woken := { s with core := s.core.wakeOn (pa / 64) }
  match placeOf pa with
  | .ddr => s.cohWrite k pa n v keep
  | .window _ .control _ => s
  | .window c p off => (s.windowWrite c p off n v).repair pa n
  | .basecamp => woken.postWrite (.agent s.requester) pa n v
  | .host => { woken with host := Memory.writeLE s.host (pa - Config.hostBase) n v }
  | .nowhere => s

/-! ## Accesses of agents without logical time: the management cores and the host (15 R316, R322; 23 R420) -/

/-- The number of such an agent: the management core that runs Sheepdog, unless another is named. DESIGN CHOICE (log 34). -/
def State.outsider (s : State) : Nat := s.agent.getD 520
/-- A read by such an agent, in its place at the home, with the home die's time as its age. It recalls the block's write tenure and
takes no lease. -/
def State.outsideRead (s : State) (pa n : Nat) : Nat × State :=
  let s := s.meet pa n
  match placeOf pa with
  | .ddr =>
    let s := (s.queueUp .block pa s.outsider (s.dieTime (homeDie pa))).recallEntry .block pa
    (Memory.readLE s.mem pa n, s)
  | _ => (s.placeRead pa n, s)
/-- A write of bytes in one block by such an agent: wts := max(die time, rts + 1) and rts := wts at the home; into a window, with
the die's time for its stamp. -/
def State.outsideWrite (s : State) (pa n v : Nat) : State :=
  let s := s.ungateFor pa
  match placeOf pa with
  | .ddr =>
    let now := s.dieTime (homeDie pa)
    let s := ((s.queueUp .block pa s.outsider now).clampEntry .block pa).recallEntry .block pa
    let t := s.tenure .block pa
    let w := ltMax (some now) (ltAdd t.rts 1)
    let s := s.setTenure .block pa { t with wts := w, rts := w, home := w, version := t.version + 1 }
    ({ s with mem := Memory.writeLE s.mem pa n v }).repair pa n
  | .window c p off =>
    if (s.coreAt c).accepts p true then (s.landPart c p off n v (s.dieTime (dieOf c)) true).repair pa n else s
  | .basecamp => s.postWrite (.agent s.outsider) pa n v
  | .host => { s with host := Memory.writeLE s.host (pa - Config.hostBase) n v }
  | .nowhere => s

/-- An acquire at a window word raises LTIME to its stamp (15 R324). -/
def State.acquireAt (s : State) (pa : Nat) : State :=
  match placeOf pa with
  | .window c p off => s.raiseTime ((s.coreAt c).stamp p off)
  | _ => s

/-- An acquire at each of some window words. -/
def State.acquireWords (s : State) (pa : Nat) : Nat → State
  | 0 => s
  | n + 1 => State.acquireWords (s.acquireAt pa) (pa + 8) n
/-- Whether a core keeps the tenure of a write by address: a block entry, yes; a tile entry, no (15 R310). -/
def TKey.keeps : TKey → Bool
  | .block => true
  | .tile _ => false

/-- Translate and check an access by virtual address: the physical address, or why not. -/
def State.checkVirt (s : State) (va : Word) (n : Nat) (kind : Access) (md : AccMode) : Except AccErr Nat × State :=
  match s.translate va kind md with
  | (.error e, s) => (.error e, s)
  | (.ok pa, s) =>
    if !s.reaches pa (kind = .store) then (.error .access, s)
    else if kind ≠ .store ∧ s.lostAt pa n then (.error .lost, s)
    else (.ok pa, s)

/-- Where an access would go, with no leaf marked and nothing cached (11 R237, R251, R418). -/
def State.placeBare (s : State) (va : Word) (kind : Access) (md : AccMode) : Except AccErr Nat × State :=
  match if canonical va then s.core.tlb.find? fun e => e.serves s.asidNow va.toNat kind md else none with
  | some e => (.ok (e.pa + (va.toNat - e.va)), s)
  | none =>
    match s.leafOf va kind md with
    | (.error e, s) => (.error e, s)
    | (.ok (_, pte, lvl), s) =>
      let e := leafEntry s.asidNow va.toNat pte lvl 0
      (.ok (e.pa + (va.toNat - e.va)), s)
/-- The checks of a read that changes nothing. -/
def State.checkBare (s : State) (va : Word) (n : Nat) (md : AccMode) : Except AccErr Nat × State :=
  match s.placeBare va .load md with
  | (.error e, s) => (.error e, s)
  | (.ok pa, s) => if !s.reaches pa false then (.error .access, s) else if s.lostAt pa n then (.error .lost, s) else (.ok pa, s)

/-- Load `n` bytes by virtual address. -/
def State.loadVirt (s : State) (va : Word) (n : Nat) (md : AccMode) : Except AccErr Nat × State :=
  match s.checkVirt va n .load md with
  | (.error e, s) => (.error e, s)
  | (.ok pa, s) => let (v, s) := s.physRead (s.keyFor (some va.toNat)) pa n; (.ok v, s)

/-- Store `n` bytes by virtual address. -/
def State.storeVirt (s : State) (va : Word) (n v : Nat) (md : AccMode) : Except AccErr Unit × State :=
  match s.checkVirt va n .store md with
  | (.error e, s) => (.error e, s)
  | (.ok pa, s) =>
    let k := s.keyFor (some va.toNat)
    (.ok (), s.physWrite k pa n v k.keeps)

/-! ## Atomics -/

/-- The result of an atomic on `n`-byte values (08 R172). -/
def amoResult (op : AmoOp) (n old s1 s2 : Nat) : Nat :=
  let w := 8 * n
  let sg := fun x : Nat => (BitVec.ofNat w x).toInt
  match op with
  | .swap => s1
  | .add => (old + s1) % 2 ^ w
  | .and => old &&& s1
  | .or => old ||| s1
  | .xor => old ^^^ s1
  | .min => if sg old ≤ sg s1 then old else s1
  | .max => if sg s1 ≤ sg old then old else s1
  | .minu => if old ≤ s1 then old else s1
  | .maxu => if s1 ≤ old then old else s1
  | .cas => if old = s1 then s2 else old

/-- Read and replace `n` bytes indivisibly at their home; the old value. It is a write for tenure and time
whatever the new value is; in a window, `none` writes nothing: the word's stamp, reservations and sleepers stay as they are.
DESIGN CHOICE (log 66): 08 R172 says both that a failing cas writes nothing and that it is a write for logical time. -/
def State.rmwAt (s : State) (k : TKey) (pa n : Nat) (f : Nat → Option Nat) : Nat × State :=
  let s := (s.behindLantern.ungateFor pa).meet pa n
  match placeOf pa with
  | .ddr =>
    let s := s.takeWrite k pa k.keeps
    let d := s.currentData k (blockOf pa)
    let old := blockBytes d pa n
    (old, s.putBlock k pa (blockPut d pa n ((f old).getD old)))
  | .window c p off =>
    let old := (s.coreAt c).partRead p off n
    (old, match f old with | some v => s.windowWrite c p off n v | none => s)
  | .host =>
    let a := pa - Config.hostBase
    let old := Memory.readLE s.host a n
    (old, { s with core := s.core.wakeOn (pa / 64), host := Memory.writeLE s.host a n ((f old).getD old) })
  | _ => (0, s)

/-- Perform an atomic at the bytes' home; the old value. A failing cas writes nothing (08 R172). -/
def State.amoAt (s : State) (k : TKey) (pa n : Nat) (op : AmoOp) (s1 s2 : Nat) : Nat × State :=
  s.rmwAt k pa n fun old => if op = .cas ∧ old ≠ s1 then none else some (amoResult op n old s1 s2)

/-- Where atomics are performed: DDR and the stash part of a window (13 R277, R279); host memory for the
control thread's and vector atomics only. -/
def atomicPlace (pa : Nat) (hostToo : Bool) : Bool :=
  match placeOf pa with
  | .ddr => true
  | .window _ .stash _ => true
  | .host => hostToo
  | _ => false

/-! ## Plain accesses of one agent (14 R293 to R298, R301; log 11) -/

/-- Two stretches of bytes share a byte. -/
def overlaps (a n b m : Nat) : Bool := decide (a < b + m ∧ b < a + n)
/-- One agent: the elements of one entry are one (14 R293). -/
def Reader.sameAgent (a b : Reader) : Bool :=
  match a, b with
  | .ct, .ct => true
  | .mt m, .mt n => m == n
  | .elem e _, .elem f _ => e == f
  | _, _ => false
/-- A micro-thread, whose accesses are checked against no other agent's (14 R301). -/
def Reader.isMt (a : Reader) : Bool := match a with | .mt _ => true | _ => false
/-- An access of `b` at `y` waits for an earlier one of `a` at `x`: bytes of one agent (14 R296); between the control thread and
entries, the same bytes of one space, by address or offset (R301). -/
def mustFollow (a : Reader) (x : Spot) (b : Reader) (y : Spot) : Bool :=
  if a.sameAgent b then overlaps x.pa x.n y.pa y.n
  else !a.isMt && !b.isMt && x.space == y.space && overlaps x.addr x.n y.addr y.n
/-- The bytes of an access by virtual address. -/
def virtSpot (va : Word) (pa n : Nat) : Spot := { space := 0, addr := va.toNat, pa := pa, n := n }
/-- The entry that an access at a spot uses (13 R286, R288). -/
def State.spotKey (s : State) (x : Spot) : TKey := s.keyFor (if x.space = 0 then some x.addr else none)

/-- A store. -/
def LateOp.isStore (o : LateOp) : Bool := match o with | .store _ => true | _ => false
/-- Perform a store that was left. -/
def State.performStore (s : State) (l : Late) : State :=
  match l.op with
  | .store v => let k := s.spotKey l.spot; s.physWrite k l.spot.pa l.spot.n v k.keeps
  | _ => s
/-- The stores that satisfy `p` and were left are performed, in the order of their words. A load or an atomic that satisfies it is
waited for: the agent whose turn it is has not moved. -/
def State.drainBy (s : State) (p : Late → Bool) : State :=
  if !s.core.vec.late.any p then s
  else
    let now := s.core.vec.late.filter fun l => p l && l.op.isStore
    let rest := s.core.vec.late.filter fun l => !(p l && l.op.isStore)
    let t := now.foldl State.performStore { s with core := { s.core with vec := { s.core.vec with late := rest } } }
    if rest.any p then { t with stalled := true } else t
/-- All that the core left. -/
def State.drain (s : State) : State := s.drainBy fun _ => true
/-- An access that was left is the control thread's. -/
def Late.ofCt (l : Late) : Bool := l.who == .ct
/-- It is micro-thread `m`'s. -/
def Late.ofMt (m : Nat) (l : Late) : Bool := l.who == .mt m
/-- It is an element's of an entry issued before `id`. -/
def Late.ofElem (id : Nat) (l : Late) : Bool := match l.who with | .elem e _ => decide (e < id) | _ => false
/-- Accesses that one of `who` must come after are performed. -/
def State.drainFor (s : State) (who : Reader) (x : Spot) : State := s.drainBy fun l => mustFollow l.who l.spot who x

/-- The loads performed early of the list that holds those of `who`. -/
def State.earlies (s : State) (who : Reader) : List Early := match who with | .ct => s.core.ct.early | _ => s.core.vec.early
/-- Change that list. -/
def State.onEarlies (s : State) (who : Reader) (f : List Early → List Early) : State :=
  match who with
  | .ct => s.onCt fun c => { c with early := f c.early }
  | _ => s.onVec fun v => { v with early := f v.early }
/-- An early load is that of `who` at a spot whose address comes from what `base` holds: none of it holds a later load's value
(14 R297). No address but one from registers serves (`none`). -/
def Early.serves (e : Early) (who : Reader) (base : Option (List Holder)) (x : Spot) : Bool :=
  e.reader == who && e.spot == x && match base with | some l => l.all fun h => !e.after.contains h | none => false
/-- The value of a load of `who` that has been performed early. -/
def State.earlyValue (s : State) (who : Reader) (base : Option (List Holder)) (x : Spot) : Option Nat :=
  ((s.earlies who).find? fun e => e.serves who base x).map fun e => e.value
/-- Some holders hold what a load performed after this one returned; x0 holds nothing. -/
def Early.taint (dst : List Holder) (e : Early) : Early :=
  { e with after := e.after.filter (fun h => !dst.contains h) ++ dst.filter fun h => h != .x 0 }
/-- They hold nothing of the kind. -/
def Early.clear (dst : List Holder) (e : Early) : Early := { e with after := e.after.filter fun h => !dst.contains h }
/-- A load has put its value into holders: it came after every early load, or, being one of them itself, after those before it. -/
def spread (used : Early → Bool) (dst : List Holder) (l : List Early) : List Early :=
  (l.takeWhile fun e => !used e).map (·.taint dst) ++ (l.dropWhile fun e => !used e).map (·.clear dst)
/-- A value has been computed into holders from others, or from a load performed now (14 R297, R302). -/
def carry (loads : Bool) (src dst : List Holder) (l : List Early) : List Early :=
  l.map fun e => if loads || src.any fun h => e.after.contains h then e.taint dst else e.clear dst
/-- Early loads that must come after an access of `who` at a spot count no more: it was theirs, or they may not be older (14
R296, R301). -/
def State.forgetEarly (s : State) (who : Reader) (x : Spot) : State :=
  let keep := fun (e : Early) => !mustFollow who x e.reader e.spot
  { s with core := { s.core with ct := { s.core.ct with early := s.core.ct.early.filter keep },
                                 vec := { s.core.vec with early := s.core.vec.early.filter keep } } }
/-- A plain load of `who` at a spot, at an address from `base`, into holders: performed now, or it has been already. -/
def State.plainRead (s : State) (who : Reader) (base : Option (List Holder)) (k : TKey) (x : Spot) (dst : List Holder) : Nat × State :=
  let s := s.drainFor who x
  let put := fun (s : State) => (s.onEarlies who (spread (fun e => e.serves who base x) dst)).forgetEarly who x
  match s.earlyValue who base x with
  | some v => (v, put s)
  | none => let (v, s) := s.physRead k x.pa x.n; (v, put s)
/-- Where a plain access may be performed out of its place: DDR, host memory, a stash, another core's flysheet, which take stores
whatever becomes of the core (13 R280). DESIGN CHOICE (log 11). -/
def State.mayLeave (s : State) (pa : Nat) : Bool :=
  match placeOf pa with
  | .ddr => true
  | .host => true
  | .window _ .stash _ => true
  | .window c .fly _ => c != s.core.no
  | _ => false
/-- An access is left to be performed later. -/
def State.leave (s : State) (who : Reader) (x : Spot) (o : LateOp) : State :=
  s.onVec fun v => { v with late := v.late ++ [{ who := who, spot := x, op := o }] }
/-- A plain store by `who`: performed now, or left where the turn says so. -/
def State.plainWrite (s : State) (who : Reader) (k : TKey) (x : Spot) (v : Nat) (keep : Bool) : State :=
  let s := (s.drainFor who x).forgetEarly who x
  if s.defers && s.mayLeave x.pa then s.leave who x (.store v) else s.physWrite k x.pa x.n v keep
/-- What an acquire, a release or another access that is not plain, of `who` at a spot, comes after (14 R296, R301). -/
def State.inTurn (s : State) (who : Reader) (x : Spot) : State := (s.drainFor who x).forgetEarly who x
/-- A release at a scope (0 .th to 4 .sy) comes after every earlier access of its agent (14 R295), for agents within the scope
(15 R314); .th and .co write nothing back. -/
def State.releaseBy (s : State) (p : Late → Bool) (scope : Nat) : State :=
  if 2 ≤ scope then (s.drainBy p).writeBackAll else if scope = 1 then s.drainBy p else s
/-- A release of the control thread: what entries and micro-threads left is not its own (11 R239, 14 R302). -/
def State.release (s : State) (scope : Nat) : State := s.releaseBy Late.ofCt scope
/-- Translate and check a load of `who`: its own earlier stores to the bytes are performed before these are looked at (14 R296; 22
R360). -/
def State.checkOwn (s : State) (who : Reader) (va : Word) (n : Nat) (md : AccMode) : Except AccErr Nat × State :=
  match s.translate va .load md with
  | (.error e, s) => (.error e, s)
  | (.ok pa, s) =>
    if !s.reaches pa false then (.error .access, s)
    else
      let s := s.drainFor who (virtSpot va pa n)
      if s.lostAt pa n then (.error .lost, s) else (.ok pa, s)
/-- Load `n` bytes by virtual address: a plain load of `who`. -/
def State.loadPlain (s : State) (who : Reader) (base : Option (List Holder)) (va : Word) (n : Nat) (md : AccMode) (dst : List Holder) :
    Except AccErr Nat × State :=
  match s.checkOwn who va n md with
  | (.error e, s) => (.error e, s)
  | (.ok pa, s) => let (v, s) := s.plainRead who base (s.keyFor (some va.toNat)) (virtSpot va pa n) dst; (.ok v, s)
/-- Store `n` bytes by virtual address: a plain store of `who`. -/
def State.storePlain (s : State) (who : Reader) (va : Word) (n v : Nat) (md : AccMode) : Except AccErr Unit × State :=
  match s.checkVirt va n .store md with
  | (.error e, s) => (.error e, s)
  | (.ok pa, s) =>
    let k := s.keyFor (some va.toNat)
    (.ok (), s.plainWrite who k (virtSpot va pa n) v k.keeps)
/-- No load of the control thread has been performed early past this point: an acquire, or more (14 R295). -/
def State.acquired (s : State) : State := s.onCt fun c => { c with early := [] }
/-- The same for micro-thread `m`. -/
def State.acquiredMt (s : State) (m : Nat) : State := s.onVec fun v => { v with early := v.early.filter fun e => e.reader != .mt m }
/-- The same for the entries and micro-threads of the core (14 R305). -/
def State.acquiredVec (s : State) : State := s.onVec fun v => { v with early := [] }
/-- The same for every agent of the core (14 R304). -/
def State.acquiredAll (s : State) : State := s.acquired.acquiredVec

/-! ## Accesses that were left, performed alone -/

/-- A loaded value as rd holds it. -/
def rvExtend (size : BitVec 2) (signed : Bool) (v : Nat) : Word :=
  match size.toNat, signed with
  | 0, true => (BitVec.ofNat 8 v).signExtend 64
  | 1, true => (BitVec.ofNat 16 v).signExtend 64
  | 2, true => (BitVec.ofNat 32 v).signExtend 64
  | _, _ => BitVec.ofNat 64 v
/-- The control thread gets the value of an access that was left. -/
def State.owedResult (s : State) (rd : XReg) (v : Word) : State :=
  (s.onEarlies .ct (carry true [] [.x rd.toNat])).onCt fun c =>
    { c.setX rd v with pendingX := c.pendingX.filter fun p => !(p.1 == 0 && p.2 == rd) }
/-- Micro-thread `m` gets the old value of an atomic that was left. -/
def State.owedWord (s : State) (who : Reader) (d n v : Nat) : State :=
  match who with
  | .mt m =>
    let s := s.onEarlies who (carry true [] ([.v d m] ++ if n = 8 then [.v (d + 1) m] else []))
    let s := s.setVreg d m (BitVec.ofNat 32 v)
    if n = 8 then s.setVreg (d + 1) m (BitVec.ofNat 32 (v / 2 ^ 32)) else s
  | _ => s
/-- Perform an access that was left. -/
def State.performLate (s : State) (l : Late) : State :=
  let k := s.spotKey l.spot
  let x := l.spot
  match l.op with
  | .store _ => s.performStore l
  | .load rd size signed => let (v, s) := s.physRead k x.pa x.n; s.owedResult rd (rvExtend size signed v)
  | .amo op s1 s2 rd => let (v, s) := s.amoAt k x.pa x.n op s1 s2; s.owedResult rd (rvExtend (if x.n = 8 then 3 else 2) true v)
  | .amoMt op s1 s2 d => let (v, s) := s.amoAt k x.pa x.n op s1 s2; s.owedWord l.who d.toNat x.n v
/-- Every access that the core left is performed. -/
def State.performAll (s : State) : State :=
  s.core.vec.late.foldl State.performLate (s.onVec fun v => { v with late := [] })
/-- The access at place `k` among those left is performed; no two of them stand in an order. -/
def State.performNth (s : State) (k : Nat) : State :=
  match s.core.vec.late[k]? with
  | some l => State.performLate (s.onVec fun v => { v with late := v.late.eraseIdx k }) l
  | none => s

/-! ## Taking and leaving a trap (22 R347, R350; 24 R403) -/

/-- CAPCTL actions: 1 start, 2 freeze (24 R403). -/
def captureAct (cap : Word) (act : BitVec 2) : Word :=
  if cap.getLsbD 1 then cap
  else if act = 1 then cap ||| 1
  else if act = 2 then (cap &&& ~~~ 1) ||| 2
  else cap
/-- The capture event of a trap entry (24 R403). -/
def State.captureTrap (s : State) (interrupt : Bool) (cause : Nat) : State :=
  let c := s.base.capctl
  let hit := c.extractLsb' 40 8 == bit1 interrupt ++ BitVec.ofNat 7 cause &&
    (c.extractLsb' 40 8 != 8 || c.extractLsb' 24 16 == (s.getX 17).extractLsb' 0 16)
  if hit then { s with base := { s.base with capctl := captureAct c (c.extractLsb' 14 2) } } else s

/-- Replace one bit of a word. -/
def putBit (w : Word) (i : Nat) (b : Bool) : Word := if b then w ||| BitVec.twoPow 64 i else w &&& ~~~ BitVec.twoPow 64 i

/-- Take a trap: sepc, scause, stval and sstatus are written, the level becomes supervisor, the pc goes to
stvec (22 R347; RISC-V). The reservation is cleared (11 R418); writes that an MTCONF held land (09 R187). -/
def State.takeTrap (s : State) (interrupt : Bool) (cause : Nat) (epc tval : Word) : State :=
  (s.landHeld.captureTrap interrupt cause).onCt fun c =>
    let st := putBit (putBit (putBit c.sstatus spieBit (c.sstatus.getLsbD sieBit)) sieBit false) sppBit (!c.user)
    let base := c.stvec &&& ~~~ 3
    { c with sepc := epc &&& ~~~ 1,
             scause := (if interrupt then BitVec.twoPow 64 63 else 0) ||| BitVec.ofNat 64 cause,
             stval := tval, sstatus := st, user := false,
             pc := if interrupt ∧ c.stvec.getLsbD 0 then base + BitVec.ofNat 64 (4 * cause) else base,
             reservation := none, windowReservation := none, wait := none, waitaStart := none }

/-- A synchronous exception at the instruction at the pc. -/
def State.trap (s : State) (cause : Nat) (tval : Word) : State := s.takeTrap false cause s.core.ct.pc tval

/-- Return from a trap (22 R347; RISC-V): the level of SPP, SIE from SPIE, the pc from sepc. -/
def State.leaveTrap (s : State) : State :=
  s.onCt fun c =>
    let st := putBit (putBit (putBit c.sstatus sieBit (c.sstatus.getLsbD spieBit)) spieBit true) sppBit false
    { c with sstatus := st, user := !c.sstatus.getLsbD sppBit, pc := c.sepc, wait := none, waitaStart := none }

/-- The bits of an instruction as stval holds them for cause 2 (05 R124): the 64 of a carrier, the first word of an xcopy.m pair,
the 32 or 16 of any other. -/
def instrBits (i : Instr) : Word :=
  match i, encode i with
  | .vectorCarrier _ _ _ _, [x, y] => y ++ x
  | _, x :: _ => x.setWidth 64
  | _, [] => 0

/-- Cause 2 at an instruction (05 R123, R124). DEDUCED (log 31). -/
def State.illegal (s : State) (i : Instr) : State := s.trap 2 (instrBits i)

/-- The cause of an access error, by what the access was (22 R354, R360, 13 R277). -/
def accCause (e : AccErr) (kind : Access) : Nat :=
  match e, kind with
  | .page, .fetch => 12 | .page, .load => 13 | .page, .store => 15
  | .access, .fetch => 1 | .access, .load => 5 | .access, .store => 7
  | .lost, _ => 31
/-- An uncorrectable error has been found or consumed: UECOUNT saturates (25 R413). -/
def State.countUe (s : State) : State := { s with base := { s.base with ueCount := min (s.base.ueCount + 1) (2 ^ 64 - 1) } }
/-- The trap of an access error; lost data records its source (22 R362) and counts. -/
def State.accTrap (s : State) (e : AccErr) (kind : Access) (tval : Word) (src : BitVec 2) : State :=
  let s := if e = .lost then s.countUe.onCsr fun c => { c with tsrc := src } else s
  s.trap (accCause e kind) tval

end Sys2Proof.Machine
end

