-- ==== Sys2Proof/Machine/Operands.lean ====
section
/-! DEFINITION. Operand forms. For micro-thread words: the spans of registers that a word names, reading A
through a captured lane modifier, writing D, the end of a word and a fault, block fetch and its checks. For the
control thread: the x registers that an instruction names. -/

namespace Sys2Proof.Machine

/-! ## Register spans (05 R108 to R113) -/

/-- The `n` registers from `r`. -/
def span (r : VReg) (n : Nat) : List Nat := (List.range n).map (r.toNat + ·)

/-- The registers of a word: read, written, and named without being either (05 R109, R110). -/
structure MtRegs where
  reads : List Nat
  writes : List Nat
  named : List Nat
deriving DecidableEq, Repr

/-- A word that reads A and B and writes D, in spans of `n` registers. -/
def regs3 (n : Nat) (d a b : VReg) : MtRegs := ⟨span a n ++ span b n, span d n, []⟩
/-- A word that reads A and writes D, in spans of `n` registers. -/
def regs2 (n : Nat) (d a : VReg) : MtRegs := ⟨span a n, span d n, []⟩
/-- Registers of an integer operand under a width class (05 R108). -/
def widthSpan (w : BitVec 2) : Nat := if w = 3 then 2 else 1
/-- Registers of a data operand under SIZE (05 R107). -/
def sizeSpan (size : BitVec 2) : Nat := if size = 3 then 2 else 1

/-- The registers that a micro-thread word names (05 R110). -/
def mtRegsOf (i : Instr) : MtRegs :=
  match i with
  | .add w d a b => regs3 (widthSpan w) d a b
  | .sub w d a b => regs3 (widthSpan w) d a b
  | .and w d a b => regs3 (widthSpan w) d a b
  | .or w d a b => regs3 (widthSpan w) d a b
  | .xor w d a b => regs3 (widthSpan w) d a b
  | .andn w d a b => regs3 (widthSpan w) d a b
  | .sll w d a b => regs3 (widthSpan w) d a b
  | .srl w d a b => regs3 (widthSpan w) d a b
  | .sra w d a b => regs3 (widthSpan w) d a b
  | .min w d a b => regs3 (widthSpan w) d a b
  | .max w d a b => regs3 (widthSpan w) d a b
  | .minu w d a b => regs3 (widthSpan w) d a b
  | .maxu w d a b => regs3 (widthSpan w) d a b
  | .slt w d a b => regs3 (widthSpan w) d a b
  | .sltu w d a b => regs3 (widthSpan w) d a b
  | .seq w d a b => regs3 (widthSpan w) d a b
  | .mul w d a b => regs3 (widthSpan w) d a b
  | .mulh w d a b => regs3 (widthSpan w) d a b
  | .mulhu w d a b => regs3 (widthSpan w) d a b
  | .div w d a b => regs3 (widthSpan w) d a b
  | .divu w d a b => regs3 (widthSpan w) d a b
  | .rem w d a b => regs3 (widthSpan w) d a b
  | .remu w d a b => regs3 (widthSpan w) d a b
  | .clz w d a => regs2 (widthSpan w) d a
  | .ctz w d a => regs2 (widthSpan w) d a
  | .popc w d a => regs2 (widthSpan w) d a
  | .sel d a b c => ⟨span a 1 ++ span b 1 ++ span c 1, span d 1, []⟩
  | .bfx _ d a _ _ => regs2 1 d a
  | .bfi d a _ _ => ⟨span a 1 ++ span d 1, span d 1, []⟩
  | .rget d a b => ⟨span b 1, span d 1, span a 1⟩
  | .rput d a b => ⟨span a 1 ++ span b 1, [], span d 1⟩
  | .mtid d => ⟨[], span d 1, []⟩
  | .lnkrd d => ⟨[], span d 1, []⟩
  | .lnkwr a => ⟨span a 1, [], []⟩
  | .addi d a _ => regs2 1 d a
  | .andi d a _ => regs2 1 d a
  | .ori d a _ => regs2 1 d a
  | .xori d a _ => regs2 1 d a
  | .slli d a _ => regs2 1 d a
  | .srli d a _ => regs2 1 d a
  | .srai d a _ => regs2 1 d a
  | .lui d _ => ⟨[], span d 1, []⟩
  | .fadd _ d a b => regs3 1 d a b
  | .fsub _ d a b => regs3 1 d a b
  | .fmul _ d a b => regs3 1 d a b
  | .fdiv _ d a b => regs3 1 d a b
  | .fsqrt _ d a => regs2 1 d a
  | .fmin _ d a b => regs3 1 d a b
  | .fmax _ d a b => regs3 1 d a b
  | .feq _ d a b => regs3 1 d a b
  | .flt _ d a b => regs3 1 d a b
  | .fle _ d a b => regs3 1 d a b
  | .fsgnj _ d a b => regs3 1 d a b
  | .fsgnjn _ d a b => regs3 1 d a b
  | .fsgnjx _ d a b => regs3 1 d a b
  | .fclass _ d a => regs2 1 d a
  | .fma _ d a b c => ⟨span a 1 ++ span b 1 ++ span c 1, span d 1, []⟩
  | .fms _ d a b c => ⟨span a 1 ++ span b 1 ++ span c 1, span d 1, []⟩
  | .fnma _ d a b c => ⟨span a 1 ++ span b 1 ++ span c 1, span d 1, []⟩
  | .frcp _ d a => regs2 1 d a
  | .frsq _ d a => regs2 1 d a
  | .fexp2 _ d a => regs2 1 d a
  | .flog2 _ d a => regs2 1 d a
  | .fsinpi _ d a => regs2 1 d a
  | .fcospi _ d a => regs2 1 d a
  | .ftanh _ d a => regs2 1 d a
  | .fsigm _ d a => regs2 1 d a
  | .cvtN _ _ d a b => regs3 1 d a b
  | .cvtW _ _ _ d a => regs2 1 d a
  | .cvtFi _ d a => regs2 1 d a
  | .cvtIf _ d a => regs2 1 d a
  | .cvtq4 d a b => ⟨span a 8 ++ span b 1, span d 1, []⟩
  | .mxscale _ _ _ d a b => regs3 1 d a b
  | .pnix _ d a b => regs3 1 d a b
  | .pnit _ d a b => regs3 1 d a b
  | .ld size d a _ => ⟨span a 2, span d (sizeSpan size), []⟩
  | .st size d a _ => ⟨span a 2 ++ span d (sizeSpan size), [], []⟩
  | .lds size d a _ => ⟨span a 1, span d (sizeSpan size), []⟩
  | .sts size d a _ => ⟨span a 1 ++ span d (sizeSpan size), [], []⟩
  | .amo size op _ _ d a => ⟨span a 2 ++ span d (WF.atomicSpan size op), span d (sizeSpan size), []⟩
  | .amos size op _ _ d a => ⟨span a 1 ++ span d (WF.atomicSpan size op), span d (sizeSpan size), []⟩
  | .pxf _ d a b => ⟨span a 4 ++ span b 1, span d 4, []⟩
  | .padd _ _ d a b => ⟨span a 4 ++ span b 4, span d 4, []⟩
  | .psub _ _ d a b => ⟨span a 4 ++ span b 4, span d 4, []⟩
  | .pretag _ d a => ⟨span a 4, span d 4, []⟩
  | .prot _ d a b => ⟨span a 4 ++ span b 1, span d 4, []⟩
  | .pchk d a => regs2 1 d a
  | .mfetchr a => ⟨span a 2, [], []⟩
  | _ => ⟨[], [], []⟩

/-- Every register that a word names. -/
def MtRegs.all (r : MtRegs) : List Nat := r.reads ++ r.writes ++ r.named
/-- The registers that a word of the stream names; an illegal word names none (05 R109). -/
def namesOf (w : MWord) : List Nat := match decodeMt w with | some i => (mtRegsOf i).all | none => []

/-- The number of registers of the A span, which a lane modifier replaces as a whole (09 R193, 08 R182). -/
def spanAOf (i : Instr) : Nat :=
  match i with
  | .ld _ _ _ _ => 2
  | .st _ _ _ _ => 2
  | .amo _ _ _ _ _ _ => 2
  | .pxf _ _ _ _ => 4
  | .padd _ _ _ _ _ => 4
  | .psub _ _ _ _ _ => 4
  | .pretag _ _ _ => 4
  | .prot _ _ _ _ => 4
  | .add w _ _ _ => widthSpan w
  | .sub w _ _ _ => widthSpan w
  | .and w _ _ _ => widthSpan w
  | .or w _ _ _ => widthSpan w
  | .xor w _ _ _ => widthSpan w
  | .andn w _ _ _ => widthSpan w
  | .sll w _ _ _ => widthSpan w
  | .srl w _ _ _ => widthSpan w
  | .sra w _ _ _ => widthSpan w
  | .min w _ _ _ => widthSpan w
  | .max w _ _ _ => widthSpan w
  | .minu w _ _ _ => widthSpan w
  | .maxu w _ _ _ => widthSpan w
  | .slt w _ _ _ => widthSpan w
  | .sltu w _ _ _ => widthSpan w
  | .seq w _ _ _ => widthSpan w
  | .mul w _ _ _ => widthSpan w
  | .mulh w _ _ _ => widthSpan w
  | .mulhu w _ _ _ => widthSpan w
  | .div w _ _ _ => widthSpan w
  | .divu w _ _ _ => widthSpan w
  | .rem w _ _ _ => widthSpan w
  | .remu w _ _ _ => widthSpan w
  | .clz w _ _ => widthSpan w
  | .ctz w _ _ => widthSpan w
  | .popc w _ _ => widthSpan w
  | _ => 1

/-- The word's A field, where it is a register. -/
def fieldA (w : MWord) : VReg := bits w 12 6

/-- A frame word (02 R34: major opcodes 0x30 to 0x35). -/
def isFrameWord (w : MWord) : Bool := let m := (bits w 0 6).toNat; decide (0x30 ≤ m ∧ m ≤ 0x35)
/-- lnkrd. -/
def isLnkrd (w : MWord) : Bool := match decodeMt w with | some (.lnkrd _) => true | _ => false
/-- lnkwr. -/
def isLnkwr (w : MWord) : Bool := match decodeMt w with | some (.lnkwr _) => true | _ => false
/-- mfetch or mfetchr. -/
def isMfetch (w : MWord) : Bool :=
  match decodeMt w with | some (.mfetch _) => true | some (.mfetchr _) => true | _ => false

/-- Words that can raise a flag: the entries of 07 that name flags, frame words under .sat (03 R85, 08 R166).
DEDUCED (log 40). -/
def canFlag (i : Instr) : Bool :=
  match i with
  | .fadd _ _ _ _ => true
  | .fsub _ _ _ _ => true
  | .fmul _ _ _ _ => true
  | .fdiv _ _ _ _ => true
  | .fsqrt _ _ _ => true
  | .fmin _ _ _ _ => true
  | .fmax _ _ _ _ => true
  | .feq _ _ _ _ => true
  | .flt _ _ _ _ => true
  | .fle _ _ _ _ => true
  | .fma _ _ _ _ _ => true
  | .fms _ _ _ _ _ => true
  | .fnma _ _ _ _ _ => true
  | .frcp _ _ _ => true
  | .frsq _ _ _ => true
  | .fexp2 _ _ _ => true
  | .flog2 _ _ _ => true
  | .fsinpi _ _ _ => true
  | .fcospi _ _ _ => true
  | .ftanh _ _ _ => true
  | .fsigm _ _ _ => true
  | .cvtN _ _ _ _ _ => true
  | .cvtW _ _ _ _ _ => true
  | .cvtFi _ _ _ => true
  | .cvtIf _ _ _ => true
  | .cvtq4 _ _ _ => true
  | .mxscale _ _ _ _ _ _ => true
  | .pxf sat _ _ _ => sat
  | .padd sat _ _ _ _ => sat
  | .psub sat _ _ _ _ => sat
  | .pretag sat _ _ => sat
  | .prot sat _ _ _ => sat
  | _ => false

/-! ## Reading and writing registers of the micro-thread that runs -/

/-- The micro-thread that runs. -/
def State.me (s : State) : Mt := s.mt s.core.curMt
/-- Register `r` of the micro-thread that runs. -/
def State.reg (s : State) (r : Nat) : MWord := s.vreg r s.core.curMt
/-- Register `k` of the A span: the captured one under a lane modifier (09 R193), else register A + k. -/
def State.regA (s : State) (a : VReg) (k : Nat) : MWord :=
  match s.me.span with
  | some l => l.getD k 0
  | none => s.reg (a.toNat + k)
/-- A 64-bit value in an even register and the next (06 R126). -/
def State.pair (s : State) (r : Nat) : Word := s.reg (r + 1) ++ s.reg r
/-- The pair A. -/
def State.pairA (s : State) (a : VReg) : Word := s.regA a 1 ++ s.regA a 0
/-- Write register `r` of the micro-thread that runs. -/
def State.setReg (s : State) (r : Nat) (v : MWord) : State := s.setVreg r s.core.curMt v
/-- Write a pair, low word first. -/
def State.setPair (s : State) (r : Nat) (v : Word) : State := (s.setReg r (v.extractLsb' 0 32)).setReg (r + 1) (v.extractLsb' 32 32)

/-- An operand under a width class: one register, zero-extended, or a pair (06 R126). -/
def State.opndA (s : State) (w : BitVec 2) (a : VReg) : Word := if w = 3 then s.pairA a else (s.regA a 0).setWidth 64
/-- The operand B, or C, under a width class. -/
def State.opnd (s : State) (w : BitVec 2) (b : VReg) : Word := if w = 3 then s.pair b.toNat else (s.reg b.toNat).setWidth 64
/-- Write D under a width class. -/
def State.setD (s : State) (w : BitVec 2) (d : VReg) (v : Word) : State :=
  if w = 3 then s.setPair d.toNat v else s.setReg d.toNat (v.setWidth 32)

/-! ## Empty registers and tiles (02 R44) -/

/-- What commands with numbers up to `upto` make empty on the core in focus, and what commands of other cores that have started,
those of saved jobs among them, make empty there (10 R225). DEDUCED (log 44). -/
def State.marksHere (s : State) (upto : Nat) : List Mark :=
  let own := (s.core.vec.cmds.filter fun c => decide (c.seq ≤ upto)).flatMap (·.marks)
  let begun := fun (l : List Cmd) => (l.filter fun c => c.phase != .queued).flatMap (·.marks)
  let far := (s.others.flatMap fun (_, x) => begun x.vec.cmds) ++ s.disp.parked.flatMap fun p => begun p.cmds
  (own ++ far).filter fun m => m.core == s.core.no
/-- The registers that are empty for work issued when `after` commands had been issued: a later command does not hold
back what was issued before it. -/
def State.regEmptyAt (s : State) (after : Nat) : BitVec 64 := (s.marksHere after).foldl (fun b m => b ||| m.regs) 0
/-- The tiles that are empty for such work. -/
def State.tileEmptyAt (s : State) (after : Nat) : BitVec 32 := (s.marksHere after).foldl (fun b m => b ||| m.tiles) 0
/-- The registers that are empty now. -/
def State.regEmpty (s : State) : BitVec 64 := s.regEmptyAt s.core.csr.xissued
/-- The tiles that are empty now. -/
def State.tileEmpty (s : State) : BitVec 32 := s.tileEmptyAt s.core.csr.xissued
/-- The registers that are empty for the chain that a micro-thread runs. -/
def State.emptyFor (s : State) (t : Mt) : BitVec 64 :=
  s.regEmptyAt (match s.core.vec.queue.find? fun e => e.id == t.entry with | some e => e.after | none => s.core.csr.xissued)

/-! ## The end of a word -/

/-- A micro-thread that has come to the end of its chain (02 R38); its queue and slot stay. -/
def Mt.stop (t : Mt) : Mt := { Mt.idle with queue := t.queue, slot := t.slot }

/-- No register that a word of the list names is empty (02 R44). -/
def namesFull (empty : BitVec 64) (ws : List MWord) : Bool := ws.all fun w => (namesOf w).all fun r => !empty.getLsbD r

/-- The state in which a micro-thread enters its current words (02 R41, R44, R53). -/
def Mt.enter (t : Mt) (empty : BitVec 64) : Mt :=
  match t.words with
  | [] => t.stop
  | w :: ws =>
    { t with phase :=
        if !namesFull empty (w :: ws) then .waitEmpty
        else if !t.carrier && t.ix == 0 && isLnkrd w && t.slot.isNone then .waitLink
        else .ready }

/-- A word has ended: on to the next; at the end of its block deliver, or stop (02 R38, R41). -/
def Mt.next (t : Mt) : Mt :=
  if t.ix + 1 < t.words.length then { t with ix := t.ix + 1 }
  else if t.link.isSome then { t with words := [], ix := 0, phase := .linkPending }
  else t.stop

/-- The word that the micro-thread ran has ended. -/
def State.wordDone (s : State) : State := s.onMt s.core.curMt Mt.next

/-- Record the flags of a word with its entry, with the micro-thread's index (03 R85). -/
def lowIx (old : Option Nat) (m : Nat) (raised : Bool) : Option Nat :=
  if raised then some (match old with | some x => min x m | none => m) else old
/-- Raise flags at index `m` in an entry's record. -/
def FlagIx.raise (f : FlagIx) (m : Nat) (fl : Flags) : FlagIx :=
  { nv := lowIx f.nv m (fl.getLsbD 4), dz := lowIx f.dz m (fl.getLsbD 3), ov := lowIx f.ov m (fl.getLsbD 2),
    uf := lowIx f.uf m (fl.getLsbD 1), nx := lowIx f.nx m (fl.getLsbD 0) }
/-- Change the entry with a number. -/
def State.onEntry (s : State) (id : Nat) (f : Entry → Entry) : State :=
  s.onVec fun v => { v with queue := v.queue.map fun e => if e.id = id then f e else e }
/-- Raise flags at element `m` of an entry. -/
def State.raiseAt (s : State) (id m : Nat) (fl : Flags) : State :=
  if fl = 0 then s else s.onEntry id fun e => { e with flags := e.flags.raise m fl }
/-- Raise the flags of a word of the micro-thread that runs. -/
def State.raiseFlags (s : State) (fl : Flags) : State := s.raiseAt s.me.entry s.core.curMt fl

/-- The micro-thread that runs faults: no effect of the word, a record, its kf bit, its queue dropped (02 R50,
22 R357). -/
def State.mtFaultAt (s : State) (code : Nat) (mcode : BitVec 8) (block : Word) (ix : Nat) (addr : Word) (inReg : Bool) : State :=
  let m := s.core.curMt
  ((if code = 14 then s.countUe else s).note 16).onVec fun v =>
    let t := v.mt m
    let v := v.setMt m
      { t with phase := .faulted, queue := [], dataWait := false, ix := ix, blk := block,
               fault := some { code := code, mcode := mcode, block := block, wordIx := ix, addr := addr,
                               carrier := t.carrier, inReg := inReg, dropped := t.queue.length } }
    { v with masks := Table.set 0 v.masks kfCode.toNat (setBit (v.maskOf kfCode) m true) }

/-- A fault of the word that runs. -/
def State.mtFault (s : State) (code : Nat) (addr : Word) : State := s.mtFaultAt code 0 s.me.blk s.me.ix addr false

/-- The fault code of an access error: 4 load page, 5 store page, 6 access, 14 data lost (02 R51). -/
def accFault (e : AccErr) (kind : Access) : Nat :=
  match e, kind with
  | .page, .store => 5 | .page, _ => 4 | .access, _ => 6 | .lost, _ => 14

/-! ## Data lost in register storage and in the stash (22 R360) -/

/-- The window part of a core's own space (09 R185). -/
def spacePart (space : BitVec 4) : Part := match space.toNat with | 1 => .stash | 2 => .fly | 3 => .acc | _ => .regs
/-- The device-physical address of an offset of a core's own space 1 to 4; space 2 is the B-row view (13 R282).
DEDUCED (log 37). -/
def spaceAddr (core : Nat) (space : BitVec 4) (off : Nat) : Nat :=
  windowAddr core (spacePart space) (if space = 2 then flyToColumn off else off)
/-- `n` bytes of a part of the core in focus hold an uncorrectable granule. -/
def State.partLost (s : State) (p : Part) (off n : Nat) : Bool := s.lostAt (windowAddr s.core.no p off) n
/-- Storage that is zeroed holds no bad granule any more (02 R24): registers and accumulators, and stash and flysheet unless they are
kept. -/
def State.clearLost (s : State) (n : Nat) (keep : Bool) : State :=
  let left := fun (g : Nat) =>
    match placeOf (8 * g) with
    | .window c p _ => !(c == n && (p == .regs || p == .acc || (!keep && (p == .stash || p == .fly))))
    | _ => true
  { s with base := { s.base with lost := s.base.lost.filter left, soft := s.base.soft.filter left } }
/-- Where a register of a micro-thread lies in the core's window. -/
def State.regPlace (s : State) (r m : Nat) : Nat := windowAddr s.core.no .regs (4 * regSlot s.core.csr.nregs r m)
/-- Registers of micro-threads have been read, and others written: correctable granules of the one are met, of the other rewritten (25
R406, R407). -/
def State.touched (s : State) (reads writes : List (Nat × Nat)) : State :=
  if s.base.soft = [] then s
  else
    let s := s.meetAll (reads.map fun (r, m) => (s.regPlace r m, 4))
    writes.foldl (fun s (r, m) => s.repair (s.regPlace r m) 4) s
/-- The first register of a list whose storage for micro-thread `m` is uncorrectable. -/
def State.lostReg (s : State) (m : Nat) (rs : List Nat) : Option Nat :=
  if s.base.lost = [] then none else rs.find? fun r => s.partLost .regs (4 * regSlot s.core.csr.nregs r m) 4

/-- The registers of its own micro-thread that a word reads now: under a lane modifier the A span was read at
distribution (09 R193). -/
def State.readsNow (s : State) (i : Instr) : List Nat :=
  if s.me.span.isSome then (mtRegsOf i).reads.drop (spanAOf i) else (mtRegsOf i).reads
/-- The first source register of a word that is lost: a captured one, which is then empty, names register A. -/
def State.lostSource (s : State) (i : Instr) : Option Nat :=
  if s.me.span = some [] then (mtRegsOf i).reads.head? else s.lostReg s.core.curMt (s.readsNow i)
/-- Run a word: a lost source register faults with code 14 (22 R360), else its effect. -/
def State.word (s : State) (i : Instr) (f : State → State) : Host.Outcome State Fault Refusal :=
  match s.lostSource i with
  | some r => .next (s.mtFaultAt 14 0 s.me.blk s.me.ix (BitVec.ofNat 64 r) true)
  | none => .next (f s)

/-! ## Block fetch (02 R34 to R38) -/

/-- The checks of a block (02 R35). -/
def blockOk (nregs : Nat) (hdr : MWord) (ws : List MWord) : Bool :=
  let hi := (bits hdr 4 6).toNat
  let fu := hdr.getLsbD 11
  let lk := hdr.getLsbD 10
  bits hdr 16 16 == 0xB10C && bits hdr 12 4 == 0 && decide (hi < nregs) &&
    ws.all (fun w => (namesOf w).all fun r => decide (r ≤ hi)) &&
    (fu || ws.all fun w => !isFrameWord w) &&
    (lk || ws.all fun w => !isLnkrd w && !isLnkwr w) &&
    ws.tail.all (fun w => !isLnkrd w) && decide ((ws.filter isLnkwr).length ≤ 1) &&
    ws.dropLast.all fun w => !isMfetch w

/-- Bytes as a fetch sees them, at a place that it reaches (log 5). -/
def State.fetchRead (s : State) (pa n : Nat) : Nat :=
  match placeOf pa with
  | .ddr => s.peek pa n
  | _ => (s.physRead .block pa n).1

/-- The instruction bits at the pc, as stval of cause 2 holds them (05 R124); 0 where they cannot be fetched. -/
def State.insnHere (s : State) : Word :=
  let half := fun (a : Word) => match s.checkVirt a 2 .fetch s.ctMode with
    | (.ok pa, _) => s.fetchRead pa 2
    | (.error _, _) => 0
  BitVec.ofNat 64 (half s.core.ct.pc + 2 ^ 16 * half (s.core.ct.pc + 2))
/-- Cause 2 at an instruction that is not its row's own encoding: a CSR instruction. -/
def State.illegalHere (s : State) : State := s.trap 2 s.insnHere

/-- Fetch one word with execute permission at user level (02 R38). -/
def State.fetchMWord (s : State) (va : Word) : Except AccErr MWord × State :=
  match s.checkVirt va 4 .fetch s.userMode with
  | (.error e, s) => (.error e, s)
  | (.ok pa, s) => (.ok (BitVec.ofNat 32 (s.fetchRead pa 4)), s.meet pa 4)

/-- Fetch `n` words in ascending order. -/
def State.fetchMWords (s : State) (va : Word) : Nat → Except AccErr (List MWord) × State
  | 0 => (.ok [], s)
  | n + 1 =>
    match s.fetchMWord va with
    | (.error e, s) => (.error e, s)
    | (.ok w, s) =>
      match State.fetchMWords s (va + 4) n with
      | (.error e, s) => (.error e, s)
      | (.ok ws, s) => (.ok (w :: ws), s)

/-- Of a block held by the block cache, each word is the old one or the one in memory now, free word by word
(02 R36). DEDUCED (log 7). -/
def staleWords : Nat → List MWord → List MWord → List MWord × Nat
  | f, [], _ => ([], f)
  | f, now :: ns, old =>
    let o := old.headD now
    let w := if o = now then now else if Config.staleIsNew f then now else o
    let (ws, f) := staleWords (if o = now then f else f + 1) ns old.tail
    (w :: ws, f)

/-- How a block fetch ends. -/
inductive BlockFetch where
  | block (words : List MWord)
  | bad
  | failed (e : AccErr)
deriving DecidableEq, Repr

/-- Fetch and check the block at an address: header, then words (02 R35, R36, R38). The words returned begin
with the first after the header. A bad magic or reserved field is found before the words are fetched, every other failed
check after. DESIGN CHOICE (log 67). -/
def State.fetchBlock (s : State) (va : Word) : BlockFetch × State :=
  match s.fetchMWord va with
  | (.error e, s) => (.failed e, s)
  | (.ok h, s) =>
    let held := s.core.vec.blocks.find? fun b => b.asid == s.asidNow && b.addr == va
    let s := if held.isNone then s.note 10 else s
    let old := (held.map (·.words)).getD []
    let (hs, f) := staleWords s.fresh [h] old
    let h := hs.headD h
    let s := { s with fresh := f }
    if bits h 16 16 ≠ 0xB10C ∨ bits h 12 4 ≠ 0 then (.bad, s)
    else
      match s.fetchMWords (va + 4) ((bits h 0 4).toNat + 1) with
      | (.error e, s) => (.failed e, s)
      | (.ok ws, s) =>
        let (ws, f) := staleWords s.fresh ws old.tail
        let s := { s with fresh := f }
        let b : CachedBlock := { asid := s.asidNow, addr := va, words := h :: ws }
        if blockOk s.nregs h ws then
          (.block ws, s.onVec fun v =>
            { v with blocks := (b :: v.blocks.filter fun x => !(x.asid == b.asid && x.addr == b.addr)).take 1024 })
        else (.bad, s)

/-- Continue the chain of the micro-thread that runs at a block (02 R38, 06 R142). The record of a failed fetch has the
target's address in ADDR, whatever word or page of the target failed. DESIGN CHOICE (log 67). -/
def State.chainTo (s : State) (target : Word) : State :=
  if target.extractLsb' 0 2 ≠ 0 then s.mtFault 3 target
  else
    match s.fetchBlock target with
    | (.failed .lost, s) => (s.onMt s.core.curMt fun t => { t with words := [] }).mtFaultAt 14 0 target 0 target false
    | (.failed e, s) => s.mtFault (accFault e .fetch) target
    | (.bad, s) => s.mtFaultAt 13 0 target 0 0 false
    | (.block ws, s) =>
      s.onMt s.core.curMt fun t =>
        let t := { t with blk := target, words := ws, ix := 0 }
        if t.link.isSome then { t with phase := .linkPending } else t.enter (s.emptyFor t)

/-- Take the item at the head of the queue of micro-thread `m` (02 R38): VFETCH's block, whose failed fetch
names the block with word index 0, or a single word. -/
def State.takeItem (s : State) (m : Nat) : State :=
  let s := { s with core := { s.core with curMt := m } }
  let origin := fun (id : Nat) => match s.core.vec.queue.find? fun e => e.id == id with | some e => e.pc | none => s.core.ct.pc
  match (s.mt m).queue with
  | [] => s
  | .word e pc w fr sp :: q =>
    s.onMt m fun t =>
      let t := { t with queue := q, blk := pc, words := [w], ix := 0, carrier := true, span := sp, vfrm := fr,
                        age := e, entry := e, origin := pc }
      t.enter (s.emptyFor t)
  | .block e a fr :: q =>
    let s := s.onMt m fun t =>
      { t with queue := q, blk := a, words := [], ix := 0, carrier := false, span := none, vfrm := fr, age := e, entry := e,
                              origin := origin e }
    if a.extractLsb' 0 2 ≠ 0 then s.mtFaultAt 3 0 a 0 a false
    else
      match s.fetchBlock a with
      | (.failed x, s) => s.mtFaultAt (accFault x .fetch) 0 a 0 a false
      | (.bad, s) => s.mtFaultAt 13 0 a 0 0 false
      | (.block ws, s) => s.onMt m fun t => Mt.enter { t with words := ws } (s.emptyFor t)

end Sys2Proof.Machine
end

