-- ==== Sys2Proof/Machine/Tiles.lean ====
section
/-! DEFINITION. Tile descriptors, handles, the tile directory and its table, and accesses through a handle
(11 R240 to R249, 13 R285 to R291, 22 R355). -/

namespace Sys2Proof.Machine

/-! ## Handles and descriptors (11 R240 to R242) -/

/-- The index of a handle. -/
def handleIndex (h : BitVec 32) : Nat := (h.extractLsb' 0 20).toNat
/-- The generation of a handle. -/
def handleGen (h : BitVec 32) : Nat := (h.extractLsb' 20 12).toNat
/-- A handle. -/
def mkHandle (gen index : Nat) : BitVec 32 := BitVec.ofNat 12 gen ++ BitVec.ofNat 20 index

/-- `n` bits of a number from a byte offset. -/
def fieldAt (x off n : Nat) : Nat := x / 2 ^ (8 * off) % 2 ^ n

/-- A descriptor from its 64 bytes (11 R240). -/
def TileDesc.ofBytes (x : Nat) : TileDesc :=
  { base := BitVec.ofNat 64 x, space := fieldAt x 8 8, esize := fieldAt x 9 8, rank := fieldAt x 0x0A 8,
    aliased := x.testBit (8 * 0x0B), readonly := x.testBit (8 * 0x0B + 1),
    ext := (List.range 4).map fun d => fieldAt x (0x10 + 4 * d) 32,
    stride := (List.range 4).map fun d => (BitVec.ofNat 64 (fieldAt x (0x20 + 8 * d) 64)).toInt }
/-- The 64 bytes of a descriptor. -/
def TileDesc.toBytes (t : TileDesc) : Nat :=
  t.base.toNat + 2 ^ 64 * t.space + 2 ^ 72 * t.esize + 2 ^ 80 * t.rank + 2 ^ 88 * (t.aliased.toNat + 2 * t.readonly.toNat)
    + ((List.range 4).map fun d => t.ext.getD d 0 % 2 ^ 32 * 2 ^ (8 * (0x10 + 4 * d))).sum
    + ((List.range 4).map fun d => (BitVec.ofInt 64 (t.stride.getD d 0)).toNat * 2 ^ (8 * (0x20 + 8 * d))).sum

/-- An extent; dimensions from RANK on have 1. -/
def TileDesc.extent (t : TileDesc) (d : Nat) : Nat := t.ext.getD d 1
/-- A stride. -/
def TileDesc.strideOf (t : TileDesc) (d : Nat) : Int := t.stride.getD d 0
/-- The number of elements. -/
def TileDesc.count (t : TileDesc) : Nat := t.extent 0 * t.extent 1 * t.extent 2 * t.extent 3
/-- Bytes of an element. -/
def TileDesc.bytes (t : TileDesc) : Nat := 2 ^ t.esize
/-- The address of the element at four indices. -/
def TileDesc.at (t : TileDesc) (i j k l : Nat) : Int :=
  t.base.toNat + t.strideOf 0 * i + t.strideOf 1 * j + t.strideOf 2 * k + t.strideOf 3 * l
/-- The address of element `e`, dimension 0 innermost (10 R225). -/
def TileDesc.addr (t : TileDesc) (e : Nat) : Int :=
  let a := t.extent 0
  let b := t.extent 1
  let c := t.extent 2
  t.at (e % a) (e / a % b) (e / (a * b) % c) (e / (a * b * c))
/-- The reach of a dimension: its stride times its last index. -/
def TileDesc.reach (t : TileDesc) (d : Nat) : Int := t.strideOf d * ((t.extent d : Int) - 1)
/-- The lowest element byte (11 R242). -/
def TileDesc.lo (t : TileDesc) : Int := t.base.toNat + ((List.range 4).map fun d => min 0 (t.reach d)).sum
/-- The highest element byte (11 R242). -/
def TileDesc.hi (t : TileDesc) : Int := t.base.toNat + ((List.range 4).map fun d => max 0 (t.reach d)).sum + t.bytes - 1

/-- Bytes of a core's own space (09 R200). -/
def ownBytes (space : Nat) : Nat :=
  match space with | 1 => Config.stashBytes | 2 => Config.flysheetBytes | _ => Config.partBytes
/-- The span lies within its space (11 R240): canonical under Sv57, or within a core's own space. -/
def TileDesc.spanOk (t : TileDesc) : Bool :=
  match t.space with
  | 0 => decide ((0 ≤ t.lo ∧ t.hi < 2 ^ 56) ∨ (2 ^ 64 - 2 ^ 56 ≤ t.lo ∧ t.hi < 2 ^ 64))
  | 5 => true
  | n => decide (0 ≤ t.lo ∧ t.hi < ownBytes n)
/-- A descriptor's bytes are well formed at a privilege (11 R240). -/
def descOk (x : Nat) (user : Bool) : Bool :=
  let t := TileDesc.ofBytes x
  decide (t.space ≤ 5) && decide (t.esize ≤ 3) && decide (1 ≤ t.rank ∧ t.rank ≤ 4) && fieldAt x 0x0B 8 / 4 == 0 &&
    fieldAt x 0x0C 32 == 0 &&
    (List.range 4).all (fun d =>
      if d < t.rank then decide (1 ≤ t.extent d) && decide (t.strideOf d % t.bytes = 0) else t.extent d == 1 && t.strideOf d == 0) &&
    t.base.toNat % t.bytes == 0 && t.spanOk && !(t.space == 5 && user)

/-! ## The directory and the table (11 R241, R243) -/

/-- Entries of the tile table (11 R263). -/
def Csrs.tileCount (c : Csrs) : Nat :=
  let n := (c.tilebase.extractLsb' 0 5).toNat
  if n = 0 then 0 else 2 ^ min n 20
/-- The virtual address of an entry of the table. -/
def State.tileAddr (s : State) (i : Nat) : Word := (s.core.csr.tilebase &&& ~~~ 0xFFF) + BitVec.ofNat 64 (128 * i)
/-- The tile table of the core in focus (11 R243, R263: BASE is TILEBASE [63:12]). -/
def State.tableNow (s : State) : Word := s.core.csr.tilebase &&& ~~~ 0xFFF
/-- The directory's entry of an index of a table. -/
def State.entryIn (s : State) (asid : Nat) (table : Word) (i : Nat) : Option TileEntry :=
  s.dir.entries.find? fun e => e.asid == asid && e.table == table && e.index == i
/-- The directory's entry of an index, as the core in focus names it. -/
def State.entryAt (s : State) (asid i : Nat) : Option TileEntry := s.entryIn asid s.tableNow i
/-- Two entries are one entry of one table. -/
def TileEntry.same (e x : TileEntry) : Bool := e.asid == x.asid && e.table == x.table && e.index == x.index
/-- The list of entries with one put in its place: address spaces rise, then indices, then tables. -/
def putEntry (e : TileEntry) : List TileEntry → List TileEntry
  | [] => [e]
  | x :: xs =>
    if e.same x then e :: xs
    else if e.asid < x.asid ∨ (e.asid = x.asid ∧ (e.index < x.index ∨ (e.index = x.index ∧ e.table.toNat < x.table.toNat))) then e :: x :: xs
    else x :: putEntry e xs
/-- Put an entry into the directory. -/
def State.setEntry (s : State) (e : TileEntry) : State := { s with dir := { s.dir with entries := putEntry e s.dir.entries } }
/-- Take an entry out of the directory: it is FREE. -/
def State.dropEntry (s : State) (e : TileEntry) : State :=
  { s with dir := { s.dir with entries := s.dir.entries.filter fun x => !e.same x } }
/-- The entry that a handle names, when the handle is current (11 R241). -/
def State.current (s : State) (h : BitVec 32) : Option TileEntry :=
  let i := handleIndex h
  if i = 0 ∨ s.core.csr.tileCount ≤ i then none
  else match s.entryAt s.asidNow i with
  | some e =>
    match e.state with
    | .live => if handleGen h = e.gen then some e else none
    | .forward => if handleGen h = (e.gen + 4095) % 4096 then some e else none
    | .draining => none
  | none => none

/-- STATE codes of a table entry (11 R243). -/
def TileState.code : TileState → Nat | .live => 1 | .forward => 2 | .draining => 3
/-- The 128 bytes of an entry as written through to the table (11 R243). -/
def TileEntry.toBytes (e : TileEntry) (free : Bool) : Nat :=
  let hi := (if free then 0 else e.state.code) + e.gen * 2 ^ 16 + e.group.toNat * 2 ^ 32 + e.child0.toNat * 2 ^ 64
    + e.child1.toNat * 2 ^ 96 + e.splitDim * 2 ^ 128 + e.splitAt * 2 ^ 160 + e.lo * 2 ^ 192 + e.hi * 2 ^ 256
  e.desc.toBytes + 2 ^ 512 * hi
/-- Write an entry through to the table (11 R243) at a device-physical address; a table that does not lie in DDR is written
where it lies (13 R283). -/
def State.throughTo (s : State) (pa : Nat) (e : TileEntry) (free : Bool) : State :=
  let v := e.toBytes free
  if placeOf pa = .ddr then (s.writeThrough pa 64 v).writeThrough (pa + 64) 64 (v / 2 ^ 512)
  else (s.physWrite .block pa 64 v false).physWrite .block (pa + 64) 64 (v / 2 ^ 512) false
/-- The place of an index's table entry for a write-through, or why it cannot be written. DEDUCED (log 25). -/
def State.tablePlace (s : State) (i : Nat) : Except AccErr Nat × State := s.checkVirt (s.tileAddr i) 64 .store s.superMode

/-- Search for FREE entries from an index upwards: up to `want` of them with the GEN that memory holds; the check writes nothing (11
R237). -/
def State.freeEntries (s : State) : Nat → Nat → Nat → Except (AccErr × Word) (List (Nat × Nat)) × State
  | 0, _, _ => (.ok [], s)
  | fuel + 1, i, want =>
    if want = 0 ∨ s.core.csr.tileCount ≤ i then (.ok [], s)
    else if (s.entryAt s.asidNow i).isSome then State.freeEntries s fuel (i + 1) want
    else
      let a := s.tileAddr i
      match s.checkBare a 128 s.superMode with
      | (.error e, s) => (.error (e, a), s)
      | (.ok pa, s) =>
        let s := s.inTurn .ct (virtSpot (a + 64) (pa + 64) 4)
        let (x, s) := if placeOf pa = .ddr then s.homeRead (pa + 64) 4 else s.physRead .block (pa + 64) 4
        if x % 256 ≠ 0 then State.freeEntries s fuel (i + 1) want
        else match State.freeEntries s fuel (i + 1) (want - 1) with
          | (.error e, s) => (.error e, s)
          | (.ok l, s) => (.ok ((i, x / 2 ^ 16 % 2 ^ 12) :: l), s)
/-- The lowest FREE entries of the table (11 R243, R244). -/
def State.findFree (s : State) (want : Nat) : Except (AccErr × Word) (List (Nat × Nat)) × State :=
  s.freeEntries s.core.csr.tileCount 1 want

/-! ## Accesses through a handle (10 R225, 11 R245, R247, 22 R355) -/

/-- An address lies in an entry's span. -/
def TileEntry.spans (e : TileEntry) (a : Nat) : Bool := decide (e.lo ≤ a ∧ a ≤ e.hi)
/-- The entry that a handle of a command or of a FORWARD entry leads to: its generation is the entry's own, or that before a
split (11 R241). It may drain (R246), or be a freed FORWARD entry that a command keeps (R239). -/
def State.entryOf (s : State) (asid : Nat) (table : Word) (h : BitVec 32) : Option TileEntry :=
  (s.dir.entries ++ s.dir.kept).find? fun e =>
    e.asid == asid && e.table == table && e.index == handleIndex h &&
      e.gen == (if e.state = .forward then (handleGen h + 1) % 4096 else handleGen h)
/-- The entry that an access through a handle reaches: through FORWARD entries, the child whose span covers the
address (11 R247). Each forward leads to younger entries; the fuel given is never used up. -/
def State.leafFor (s : State) (asid : Nat) (table : Word) (a : Nat) : Nat → BitVec 32 → Option TileEntry
  | 0, _ => none
  | fuel + 1, h =>
    match s.entryOf asid table h with
    | none => none
    | some e =>
      if e.state = .forward then (s.leafFor asid table a fuel e.child0).or (s.leafFor asid table a fuel e.child1)
      else if e.spans a then some e else none
/-- The entries that a handle reaches through FORWARD entries, its own included (11 R246, R248). -/
def State.reached (s : State) (asid : Nat) (table : Word) : Nat → BitVec 32 → List TileEntry
  | 0, _ => []
  | fuel + 1, h =>
    match s.entryOf asid table h with
    | none => []
    | some e =>
      if e.state = .forward then e :: (s.reached asid table fuel e.child0 ++ s.reached asid table fuel e.child1) else [e]
/-- Fuel for both: a chain of forwards is shorter than the list of entries. -/
def State.forwardFuel (s : State) : Nat := s.dir.entries.length + s.dir.kept.length + 1
/-- The tile entry that an access of a command through a handle reaches. -/
def State.leafOfRef (s : State) (r : TileRef) (a : Nat) : Option TileEntry := s.leafFor r.asid r.table a s.forwardFuel r.handle

/-- An engine fault: its CODE and address (10 R232). -/
structure EngErr where
  code : Nat
  addr : Word
deriving DecidableEq, Repr
/-- The CODE of an access error (10 R232, 22 R352, R360). -/
def engCode (e : AccErr) (write : Bool) : Nat :=
  match e with | .page => if write then 2 else 1 | .access => 3 | .lost => 5

/-- User level, with no permission but the page's own (11 R244, step 6). -/
def plainUser : AccMode := { user := true, sum := false, mxr := false }

/-- A pinned page, checked against its current page-table entry on the first access of its kind since the last
sfence.vma; that access sets A, and D on a write (11 R245, 22 R355). DEDUCED (log 23). -/
def State.usePin (s : State) (e : TileEntry) (p : Pin) (va : Word) (write : Bool) : Except AccErr Unit × State :=
  if (if write then p.writeSeen else p.readSeen) then (.ok (), s)
  else match s.leafOf va (if write then .store else .load) plainUser with
  | (.error x, s) => (.error x, s)
  | (.ok (pte, v, _), s) =>
    let q := { p with readSeen := p.readSeen || !write, writeSeen := p.writeSeen || write }
    (.ok (), (s.markLeaf pte v write).setEntry { e with pins := e.pins.map fun x => if x = p then q else x })

/-- The device-physical address and the tenure entry of an access through a handle. -/
def State.handlePlace (s : State) (r : TileRef) (a : Int) (n : Nat) (write : Bool) : Except EngErr (Nat × TKey) × State :=
  let va := BitVec.ofInt 64 a
  let fail := fun (e : AccErr) (s : State) => (Except.error ⟨engCode e write, va⟩, s)
  let finish := fun (pa : Nat) (k : TKey) (s : State) =>
    if !s.reaches pa write then fail .access s
    else if !write ∧ s.lostAt pa n then fail .lost s
    else (.ok (pa, k), s)
  match r.desc.space with
  | 0 =>
    match (s.leafOfRef r va.toNat).or (s.covering r.asid va.toNat) with
    | some e =>
      match e.pins.find? fun p => decide (p.va ≤ va.toNat ∧ va.toNat < p.va + p.bytes) with
      | some p =>
        match s.usePin e p va write with
        | (.error x, s) => fail x s
        | (.ok (), s) => finish (p.pa + (va.toNat - p.va)) (.tile e.ten) s
      | none => fail .access s
    | none =>
      match s.translate va (if write then .store else .load) plainUser with
      | (.error x, s) => fail x s
      | (.ok pa, s) => finish pa .block s
  | 5 => if a < 0 then fail .access s else finish a.toNat .block s
  | n => if a < 0 then fail .access s else finish (spaceAddr s.core.no (BitVec.ofNat 4 n) a.toNat) .block s

/-- Read through a handle: space 0 takes read tenure (10 R225). -/
def State.handleRead (s : State) (r : TileRef) (a : Int) (n : Nat) : Except EngErr Nat × State :=
  match s.handlePlace r a n false with
  | (.error e, s) => (.error e, s)
  | (.ok (pa, k), s) => let (v, s) := s.physRead k pa n; (.ok v, s)
/-- Write through a handle: space 0 takes write tenure and keeps it (10 R225, 15 R310). -/
def State.handleWrite (s : State) (r : TileRef) (a : Int) (n v : Nat) : Except EngErr Unit × State :=
  match s.handlePlace r a n true with
  | (.error e, s) => (.error e, s)
  | (.ok (pa, k), s) => (.ok (), s.physWrite k pa n v true)

/-! ## Handle checks at the control thread (10 R225, 11 R238) -/

/-- stval of cause 27 (11 R238). -/
def tileTval (code : Nat) (h : BitVec 32) : Word := BitVec.ofNat 64 (code * 2 ^ 32 + h.toNat)
/-- Codes of tile faults (11 R238). -/
def tfStale : Nat := 1
def tfShape : Nat := 2
def tfReadonly : Nat := 3
def tfPriv : Nat := 4
def tfMember : Nat := 5

/-- An instruction that names a tile: a stale handle is cause 27 with code 1, a space-5 tile at user level code 4 (11 R238). -/
def State.withTile (s : State) (h : BitVec 32) (f : TileEntry → State) : State :=
  match s.current h with
  | none => s.trap 27 (tileTval tfStale h)
  | some e => if e.desc.space = 5 ∧ s.core.ct.user then s.trap 27 (tileTval tfPriv h) else f e

/-- The tile of a handle with its checks in order: STALE, PRIV, its own shape, READONLY (10 R225). -/
def State.checkHandle (s : State) (h : BitVec 32) (write : Bool) (shape : TileDesc → Bool) : Except Word TileRef :=
  match s.current h with
  | none => .error (tileTval tfStale h)
  | some e =>
    if e.desc.space = 5 ∧ s.core.ct.user then .error (tileTval tfPriv h)
    else if !shape e.desc then .error (tileTval tfShape h)
    else if write ∧ e.desc.readonly then .error (tileTval tfReadonly h)
    else .ok { handle := h, desc := e.desc, asid := e.asid, table := e.table, index := e.index }

/-! ## TNEW (11 R244, R245) -/

/-- An SC access begins: every earlier access of the control thread has been performed, and no later one (11 R239, 14 R295). -/
def State.begins (s : State) : State := (s.drainBy Late.ofCt).acquired

/-- A status of custom-3 (11 R237). -/
def State.status3 (s : State) (rd : XReg) (code : Nat) : State := s.result rd (BitVec.ofNat 64 (code * 2 ^ 32))
def stOverlap : Nat := 1
def stFull : Nat := 2
def stPinfull : Nat := 3
def stBaddesc : Nat := 4
def stBadsplit : Nat := 5
def stAliased : Nat := 6
def stBadrec : Nat := 7
def stBusy : Nat := 8
def stForwarded : Nat := 9

/-- Two rounded spans meet (11 R242). -/
def roundedMeet (lo hi lo' hi' : Nat) : Bool := decide (lo / 64 ≤ hi' / 64 ∧ lo' / 64 ≤ hi / 64)
/-- The tiles that TNEW's overlap check sees: live and draining tiles of space 0. -/
def State.routable (s : State) (asid : Nat) : List TileEntry :=
  s.dir.entries.filter fun e => e.asid == asid && e.desc.space == 0 && e.state != .forward
/-- The tenure entry and GROUP of a new tile, or nothing where TNEW answers OVERLAP (11 R244, step 5). `fresh` is
the number of a new tenure entry, `own` the new handle. Joining a tile registered without ALIAS, whose GROUP is 0, gives that tile's
handle: R244 copies GROUP, R243 wants the handle of the group's first member. DESIGN CHOICE (log 71). -/
def State.joinTenure (s : State) (lo hi : Nat) (aliased : Bool) (fresh : Nat) (own : BitVec 32) : Option (Nat × BitVec 32) :=
  let all := s.routable s.asidNow
  match all.filter fun e => roundedMeet lo hi e.lo e.hi with
  | [] => some (fresh, if aliased then own else 0)
  | m :: ms =>
    if aliased && ms.all (fun e => e.ten == m.ten) && all.any (fun e => e.ten == m.ten && e.state == .live) then
      some (m.ten, if m.group = 0 then mkHandle m.gen m.index else m.group)
    else none

/-- Check and pin the pages of a span in ascending order (11 R244, step 6). The page address that a failing check gives is that of the
4 KiB page of the span's first byte in the page, also in a larger page or an unmapped one. DESIGN CHOICE (log 71). -/
def State.pinPages (s : State) (readonly : Bool) (hi : Nat) : Nat → Nat → Except (AccErr × Access × Word) (List Pin) × State
  | 0, _ => (.ok [], s)
  | fuel + 1, va =>
    if hi < va then (.ok [], s)
    else
      let a := BitVec.ofNat 64 (va / 4096 * 4096)
      match s.leafOf (BitVec.ofNat 64 va) .load plainUser with
      | (.error e, s) => (.error (e, .load, a), s)
      | (.ok (_, pte, lvl), s) =>
        if !readonly ∧ !permits (BitVec.ofNat 8 pte) .store plainUser then (.error (.page, .store, a), s)
        else
          let t := leafEntry s.asidNow va pte lvl 0
          match State.pinPages s readonly hi fuel (t.va + t.bytes) with
          | (.error e, s) => (.error e, s)
          | (.ok l, s) => (.ok ({ va := t.va, bytes := t.bytes, pa := t.pa, readSeen := false, writeSeen := false } :: l), s)

/-- The pages that an address space pins, each once (11 R245). -/
def State.pinnedPages (s : State) (asid : Nat) : List Nat :=
  ((s.dir.entries.filter fun e => e.asid == asid).flatMap fun e => e.pins.map (·.va)).eraseDups

/-- A page that another tile of the address space pins keeps that translation (11 R245). -/
def State.keepPin (s : State) (asid : Nat) (q : Pin) : Pin :=
  let old := ((s.dir.entries.filter fun e => e.asid == asid).flatMap (·.pins)).find? fun p =>
    decide (p.va ≤ q.va ∧ q.va + q.bytes ≤ p.va + p.bytes)
  match old with
  | some p => { q with pa := p.pa + (q.va - p.va) }
  | none => q

/-- The device-physical address of the first block of a span, by its pins. -/
def firstBlock (lo : Nat) (pins : List Pin) : Nat :=
  match pins.find? fun p => decide (p.va ≤ lo / 64 * 64 ∧ lo / 64 * 64 < p.va + p.bytes) with
  | some p => p.pa + (lo / 64 * 64 - p.va)
  | none => 0
/-- Register a tile in an entry, with its tenure and pins, and write it through: the end of TNEW (11 R244). A directory slice
holds any number of entries: 01 R9 gives 262,144, and no rule says what a TNEW beyond them does. DESIGN CHOICE (log 67). -/
def State.register (s : State) (rd : XReg) (t : TileDesc) (index gen ten : Nat) (group : BitVec 32) (pins : List Pin) (pa : Nat) : State :=
  let e : TileEntry :=
    { asid := s.asidNow, table := s.tableNow, index := index, state := .live, gen := gen, group := group, child0 := 0, child1 := 0, splitDim := 0,
      splitAt := 0, lo := (t.lo % 2 ^ 64).toNat, hi := (t.hi % 2 ^ 64).toNat, desc := t, ten := ten, pins := pins, waitFrom := 0,
      freer := none, path := [],
      home := match s.dir.entries.find? fun x => x.ten == ten && x.desc.space == 0 with
        | some x => x.home
        | none => firstBlock t.lo.toNat pins }
  let s := ((s.release 3).acquired).setEntry e
  let s := { s with dir := { s.dir with nextTen := max s.dir.nextTen (ten + 1) } }
  (s.throughTo pa e false).result rd ((mkHandle gen index).setWidth 64)

/-- Register a tile once every check of 11 R244 has passed: the entry must be writable in the table. -/
def State.registerAt (s : State) (rd : XReg) (t : TileDesc) (index gen ten : Nat) (group : BitVec 32) (pins : List Pin) : State :=
  match s.tablePlace index with
  | (.error e, s) => s.accTrap e .store (s.tileAddr index) 0
  | (.ok pa, s) => s.register rd t index gen ten group pins pa
/-- tnew (11 R244). -/
def execTnew (rd rs1 : XReg) (s : State) : Host.Outcome State Fault Refusal :=
  let a := s.getX rs1
  if a.toNat % 64 ≠ 0 then .next (s.trap 4 a)
  else match s.begins.loadPlain .ct none a 64 s.userMode [] with
  | (.error e, s) => .next (s.accTrap e .load a 0)
  | (.ok x, s) =>
    let t := TileDesc.ofBytes x
    if !descOk x s.core.ct.user then .next (s.status3 rd stBaddesc)
    else match s.findFree 1 with
    | (.error (e, a), s) => .next (s.accTrap e .load a 0)
    | (.ok [], s) => .next (s.status3 rd stFull)
    | (.ok ((index, gen) :: _), s) =>
      let fresh := s.dir.nextTen
      if t.space ≠ 0 then .next (s.registerAt rd t index gen fresh 0 [])
      else
        let lo := t.lo.toNat
        let hi := t.hi.toNat
        match s.joinTenure lo hi t.aliased fresh (mkHandle gen index) with
        | none => .next (s.status3 rd stOverlap)
        | some (ten, group) =>
          match s.pinPages t.readonly hi ((hi - lo) / 4096 + 2) lo with
          | (.error (e, k, va), s) => .next (s.accTrap e k va 0)
          | (.ok pins, s) =>
            let old := s.pinnedPages s.asidNow
            if Config.pinLimit < old.length + (pins.filter fun p => !old.contains p.va).length then .next (s.status3 rd stPinfull)
            else .next (s.registerAt rd t index gen ten group (pins.map (s.keepPin s.asidNow)))

/-! ## TFREE (11 R246, 13 R291) -/

/-- A command that has not completed reaches an entry through a tile that it holds. -/
def State.cmdUses (s : State) (e : TileEntry) (c : Cmd) : Bool :=
  [c.src, c.dst, c.idx, c.matTile].any fun r =>
    match r with
    | some r => (s.reached r.asid r.table s.forwardFuel r.handle).any e.same
    | none => false
/-- A core runs an address space. -/
def Core.runs (c : Core) (asid : Nat) : Bool := c.phase == .running && (c.ct.satp.extractLsb' 44 16).toNat == asid
/-- TFREE's wait is over (11 R246, step 2). -/
def State.mayFree (s : State) (e : TileEntry) : Bool :=
  (s.coresListed.all fun c => c.vec.cmds.all fun x => !s.cmdUses e x) &&
    (e.desc.space != 0 || s.coresListed.all fun c => !c.runs e.asid || ltBefore (s.tenure (.tile e.ten) 0).rts (some c.ltime))

/-- The device-physical blocks of a rounded span. -/
def TileEntry.blocks (e : TileEntry) : List Nat :=
  (List.range (e.hi / 64 + 1 - e.lo / 64)).filterMap fun k =>
    let va := 64 * (e.lo / 64 + k)
    (e.pins.find? fun p => decide (p.va ≤ va ∧ va < p.va + p.bytes)).map fun p => (p.pa + (va - p.va)) / 64
/-- The tile's tenure entry ends with its last member: each block of its span takes its own entry with the tile's
final wts and rts (13 R291), and no core keeps a copy or a lease under it. -/
def State.endTenure (s : State) (e : TileEntry) : State :=
  if e.desc.space ≠ 0 then s
  else
    let k := TKey.tile e.ten
    let t := s.tenure k 0
    let put := fun (s : State) (b : Nat) =>
      if placeOf (64 * b) = .ddr then (s.recallEntry .block (64 * b)).setTenure .block (64 * b) { wts := t.wts, rts := t.rts, holder := none, home := t.wts, version := (s.tenure .block (64 * b)).version + 1 } else s
    let s := e.blocks.foldl put s
    if s.dir.entries.any fun x => x.ten == e.ten then s
    else
      let s := s.setTenure k 0 Tenure.untouched
      let drop := fun (c : Core) => (c.mapCopies k 0 fun _ => none).setLease k 0 none
      { s with core := drop s.core, others := s.others.map fun (n, c) => (n, drop c) }

/-- The end of TFREE (11 R246, step 3). -/
def State.finishFree (s : State) (rd : XReg) (e : TileEntry) (pa : Nat) : State :=
  let e' := { e with gen := (e.gen + 1) % 4096 }
  let waited := s.core.ltime - e.waitFrom
  let s := (s.dropEntry e).endTenure e
  (s.throughTo pa e' true).result rd (waited.setWidth 64)

/-- Whose TFREE an entry drains for. DEDUCED (log 24). -/
def State.freerNow (s : State) : Option (Word × BitVec 8) := some (s.core.csr.jobid, s.core.csr.gangix)
/-- A waiting TFREE goes on, or waits again (11 R246, step 2): write tenure is recalled first. -/
def State.freeOn (s : State) (i : Instr) (rd : XReg) (e : TileEntry) : State :=
  let s := if e.desc.space = 0 then s.recallEntry (.tile e.ten) e.home else s
  if !s.mayFree e then s.waitAt (.instr i)
  else match s.tablePlace e.index with
    | (.error x, s) => s.accTrap x .store (s.tileAddr e.index) 0
    | (.ok pa, s) => s.finishFree rd e pa
/-- A FORWARD entry is FREE at once; while a command of any core still reaches its tile through it the directory keeps what it
forwards to (11 R239, R246). -/
def State.freeForward (s : State) (e : TileEntry) : State :=
  let used := s.coresListed.any fun c => c.vec.cmds.any (s.cmdUses e)
  let s := s.dropEntry e
  { s with dir := { s.dir with kept := (if used then [e] else []) ++ s.dir.kept } }
/-- Freed FORWARD entries that no command needs any more are kept no more. -/
def State.pruneKept (s : State) : State :=
  if s.dir.kept = [] then s
  else { s with dir := { s.dir with kept := s.dir.kept.filter fun e => s.coresListed.any fun c => c.vec.cmds.any (s.cmdUses e) } }
/-- TFREE (11 R246). Executed again after an interrupt of its wait, it goes on with the entry it drains. -/
def State.tfreeAt (s : State) (rd rs1 : XReg) : State :=
  let h := (s.getX rs1).setWidth 32
  let i : Instr := .tfree rd rs1
  let draining := match s.entryAt s.asidNow (handleIndex h) with
    | some e => if e.state = TileState.draining ∧ e.gen = handleGen h ∧ e.freer = s.freerNow then some e else none
    | none => none
  match draining with
  | some e => s.freeOn i rd e
  | none =>
    s.withTile h fun e =>
      match s.tablePlace e.index with
      | (.error x, s) => s.accTrap x .store (s.tileAddr e.index) 0
      | (.ok pa, s) =>
        let s := (s.release 3).acquired
        if e.state = TileState.forward then ((s.freeForward e).throughTo pa e true).result rd 0
        else
          let e := { e with state := .draining, freer := s.freerNow }
          let s := (s.setEntry e).throughTo pa e false
          -- the wait begins when the entry is DRAINING
          let e := { e with waitFrom := s.core.ltime }
          (s.setEntry e).freeOn i rd e
/-- tfree (11 R246). -/
def execTfree (rd rs1 : XReg) (s : State) : Host.Outcome State Fault Refusal := .next (s.tfreeAt rd rs1)

/-! ## TSPLIT (11 R247, 13 R290) -/

/-- Child `k` of a split. -/
def TileDesc.child (t : TileDesc) (dim at' : Nat) (second : Bool) : TileDesc :=
  if second then
    { t with base := BitVec.ofInt 64 (t.base.toNat + t.strideOf dim * at'), ext := t.ext.set dim (t.extent dim - at') }
  else { t with ext := t.ext.set dim at' }
/-- The pages of a tile that its child's rounded span meets. -/
def childPins (t : TileDesc) (pins : List Pin) : List Pin :=
  pins.filter fun p => decide ((t.lo.toNat / 64 * 64) < p.va + p.bytes ∧ p.va ≤ t.hi.toNat / 64 * 64 + 63)

/-- The copies and leases of a core pass to the children: a shared block to child 0 (13 R290). A dirty copy of a block
in neither child has been written back. -/
def Core.passCopies (c : Core) (old : Nat) (c0 c1 : TileEntry) : Core :=
  let b0 := c0.blocks
  let b1 := c1.blocks
  let l := Table.get Lease.none c.leases old
  let leases := Table.set Lease.none (Table.set Lease.none (Table.set Lease.none c.leases c0.ten l) c1.ten l) old Lease.none
  { c with
    leases := leases,
    copies := c.copies.filterMap fun (n, x) =>
      match x with
      | some x =>
        if x.key ≠ .tile old then some (n, some x)
        else if b0.contains n then some (n, some { x with key := .tile c0.ten })
        else if b1.contains n then some (n, some { x with key := .tile c1.ten })
        else none
      | none => none }
/-- Write back the dirty copies of blocks that lie in neither child. -/
def State.writeBackGaps (s : State) (e c0 c1 : TileEntry) : State :=
  let keep := c0.blocks ++ c1.blocks
  s.coresListed.foldl (fun s c =>
    c.copies.foldl (fun s (n, x) =>
      match x with
      | some x => if x.dirty ∧ x.key = .tile e.ten ∧ !keep.contains n then s.writeBlock n x.data else s
      | none => s) s) s

/-- The end of TSPLIT: the children and the FORWARD entry, tenure and copies divided (11 R247). -/
def State.finishSplit (s : State) (rd : XReg) (e : TileEntry) (dim at' : Nat) (i0 g0 p0 i1 g1 p1 pp : Nat) : State :=
  let s := (s.release 3).acquired
  let mk := fun (second : Bool) (i g ten : Nat) =>
    let d := e.desc.child dim at' second
    { e with index := i, gen := g, group := if d.aliased then mkHandle g i else 0, lo := (d.lo % 2 ^ 64).toNat,
             hi := (d.hi % 2 ^ 64).toNat, desc := d, ten := ten, pins := childPins d e.pins,
             home := firstBlock d.lo.toNat e.pins, path := e.path ++ [second] }
  let t0 := s.dir.nextTen
  let c0 := mk false i0 g0 t0
  let c1 := mk true i1 g1 (t0 + 1)
  let par := { e with state := .forward, gen := (e.gen + 1) % 4096, child0 := mkHandle g0 i0, child1 := mkHandle g1 i1,
                      splitDim := dim, splitAt := at', pins := [], ten := 0 }
  let s := { s with dir := { s.dir with nextTen := t0 + 2 } }
  let s := if e.desc.space = 0 then
      let t := s.tenure (.tile e.ten) 0
      let s := s.writeBackGaps e c0 c1
      let s := ((s.setTenure (.tile t0) 0 t).setTenure (.tile (t0 + 1)) 0 t).setTenure (.tile e.ten) 0 Tenure.untouched
      { s with core := s.core.passCopies e.ten c0 c1, others := s.others.map fun (n, c) => (n, c.passCopies e.ten c0 c1) }
    else s
  let s := ((s.setEntry par).setEntry c0).setEntry c1
  let s := ((s.throughTo p0 c0 false).throughTo p1 c1 false).throughTo pp par false
  s.result rd (mkHandle g1 i1 ++ mkHandle g0 i0)

/-- tsplit (11 R247). -/
def execTsplit (rd rs1 rs2 : XReg) (s : State) : Host.Outcome State Fault Refusal :=
  let h := (s.getX rs1).setWidth 32
  let x := (s.getX rs2).toNat
  .next (s.withTile h fun e =>
    let s := s.begins
    let dim := x % 4
    let at' := x / 2 ^ 32
    if e.state = .forward then s.status3 rd stForwarded
    else if x / 4 % 2 ^ 30 ≠ 0 ∨ e.desc.rank ≤ dim ∨ at' < 1 ∨ e.desc.extent dim - 1 < at' then s.status3 rd stBadsplit
    else if e.desc.space = 0 ∧ s.dir.entries.any (fun o => !e.same o && o.asid == e.asid && o.ten == e.ten) then
      s.status3 rd stAliased
    else match s.findFree 2 with
    | (.error (x, a), s) => s.accTrap x .load a 0
    | (.ok ((i0, g0) :: (i1, g1) :: _), s) =>
      match s.tablePlace i0 with
      | (.error x, s) => s.accTrap x .store (s.tileAddr i0) 0
      | (.ok p0, s) =>
        match s.tablePlace i1 with
        | (.error x, s) => s.accTrap x .store (s.tileAddr i1) 0
        | (.ok p1, s) =>
          match s.tablePlace e.index with
          | (.error x, s) => s.accTrap x .store (s.tileAddr e.index) 0
          | (.ok pp, s) => s.finishSplit rd e dim at' i0 g0 p0 i1 g1 p1 pp
    | (.ok _, s) => s.status3 rd stFull)

/-! ## TACQ, TREL, TINFO (11 R248 to R250) -/

/-- The LIVE tiles of space 0 that a handle names, in ascending index (11 R248). -/
def State.leaves (s : State) (e : TileEntry) : List TileEntry :=
  let l := if e.state = .forward then s.reached e.asid e.table s.forwardFuel e.child0 ++ s.reached e.asid e.table s.forwardFuel e.child1
    else [e]
  s.dir.entries.filter fun x => l.any x.same && x.state == .live && x.desc.space == 0

/-- Acquire each of the tiles for reading: the least rts. A lease that is taken so moves no data, and counts as a renewal (21 R343).
DEDUCED (log 10). -/
def State.acqRead (s : State) : List TileEntry → Option LTime → Option LTime × State
  | [], r => (r, s)
  | e :: es, r =>
    let k := TKey.tile e.ten
    let (rts, s) := if (s.tenure k 0).holder = some s.core.no then
        -- under its own tenure, the read still extends rts
        let s := s.clampEntry k e.home
        let t := s.tenure k 0
        let rts := ltMax t.rts (ltAdd (ltMax t.wts (some s.core.ltime)) s.core.lease)
        (rts, (s.setTenure k 0 { t with rts := rts }).raiseTime t.wts)
      else (s.note 12).takeLease k e.home
    State.acqRead s es (some (match r with | some x => if ltBefore rts x then rts else x | none => rts))
/-- TACQ with MODE 1 on one tile that the core does not hold (11 R248): its tenure, after every lease; rts stays. -/
def State.takeTenure (s : State) (k : TKey) (pa : Nat) : State :=
  let me := s.core.no
  let s := ((s.takePlace k pa).clampEntry k pa).recallFrom me k pa
  let t := s.tenure k pa
  let s := { s with core := s.core.mapCopies k (blockOf pa) fun x => if x.version = t.version then some x else none }
  let w := ltMax (some s.core.ltime) (ltAdd t.rts 1)
  (s.setTenure k pa { t with wts := w, holder := some me, version := t.version + 1 }).raiseTime w
/-- Acquire each of the tiles for writing: the greatest wts. -/
def State.acqWrite (s : State) : List TileEntry → Option LTime → Option LTime × State
  | [], r => (r, s)
  | e :: es, r =>
    let k := TKey.tile e.ten
    let s := if (s.tenure k 0).holder = some s.core.no then s else s.takeTenure k e.home
    let w := (s.tenure k 0).wts
    State.acqWrite s es (some (match r with | some x => ltMax x w | none => w))
/-- A logical time as rd holds it: ANCIENT reads all ones (11 R250). -/
def ltWord : LTime → Word
  | some t => t.setWidth 64
  | none => BitVec.allOnes 64

/-- tacq (11 R248). -/
def execTacq (rd rs1 rs2 : XReg) (s : State) : Host.Outcome State Fault Refusal :=
  let h := (s.getX rs1).setWidth 32
  .next (s.withTile h fun e =>
    match (if (s.getX rs2).getLsbD 0 then s.acqWrite (s.leaves e) none else s.acqRead (s.leaves e) none) with
    | (none, s) => s.acquired.result rd 0
    | (some t, s) => (s.raiseTime (if (s.getX rs2).getLsbD 0 then t else none)).acquired.result rd (ltWord t))

/-- Give up the write tenure of each of the tiles: the greatest wts released. -/
def State.giveUp (s : State) : List TileEntry → Option LTime → Option LTime × State
  | [], r => (r, s)
  | e :: es, r =>
    let k := TKey.tile e.ten
    let t := s.tenure k 0
    if t.holder = some s.core.no then
      let s := s.writeBackEntry s.core.no k e.home
      let s := s.setTenure k 0 { (s.tenure k 0) with holder := none }
      State.giveUp s es (some (match r with | some x => ltMax x t.wts | none => t.wts))
    else State.giveUp s es r
/-- trel (11 R249). -/
def execTrel (rd rs1 : XReg) (s : State) : Host.Outcome State Fault Refusal :=
  let h := (s.getX rs1).setWidth 32
  .next (s.withTile h fun e =>
    match (s.release 3).giveUp (s.leaves e) none with
    | (none, s) => s.result rd 0
    | (some t, s) => s.result rd (ltWord t))

/-- This core's tenure on an entry: 0 none, 1 a lease valid at LTIME, 2 write tenure (11 R250). -/
def State.tenureHere (s : State) (e : TileEntry) : Nat :=
  if (s.tenure (.tile e.ten) 0).holder = some s.core.no then 2
  else
    if ltGe (Table.get Lease.none s.core.leases e.ten).last (some s.core.ltime) then 1 else 0
/-- The value of a TINFO selector for an entry (11 R250). -/
def State.tinfoValue (s : State) (e : TileEntry) (h : BitVec 32) (sel : Nat) : Word :=
  let own := e.desc.space = 0 ∧ e.state ≠ .forward
  let t := s.tenure (.tile e.ten) 0
  let current := (s.current h).any fun x => x.index == e.index
  match sel with
  | 0 =>
    e.group ++ BitVec.ofNat 12 e.gen ++ BitVec.ofNat 2 e.state.code ++ BitVec.ofNat 2 (e.desc.rank - 1) ++ BitVec.ofNat 2 e.desc.esize
      ++ BitVec.ofNat 4 e.desc.space ++ bit1 e.desc.readonly ++ bit1 e.desc.aliased ++ (0 : BitVec 7) ++ bit1 current
  | 1 => e.desc.base
  | 2 => BitVec.ofNat 32 (e.desc.extent 1) ++ BitVec.ofNat 32 (e.desc.extent 0)
  | 3 => BitVec.ofNat 32 (e.desc.extent 3) ++ BitVec.ofNat 32 (e.desc.extent 2)
  | 8 => ltWord (if own then t.wts else none)
  | 9 => ltWord (if own then t.rts else none)
  | 10 => e.child1 ++ e.child0
  | 11 => BitVec.ofNat 64 (if own then s.tenureHere e else 0)
  | n => if 4 ≤ n ∧ n ≤ 7 then BitVec.ofInt 64 (e.desc.strideOf (n - 4)) else 0
/-- tinfo (11 R250). -/
def execTinfo (rd rs1 rs2 : XReg) (s : State) : Host.Outcome State Fault Refusal :=
  let h := (s.getX rs1).setWidth 32
  let i := handleIndex h
  .next (s.result rd (
    if s.core.csr.tileCount ≤ i then 0
    else match s.entryAt s.asidNow i with
      | some e => s.tinfoValue e h (s.getX rs2).toNat
      | none => 0))

end Sys2Proof.Machine
end

