-- ==== Sys2Proof/Machine/Flags.lean ====
section
/-! DEFINITION. The sticky flags and the first-index records: which entries can raise a flag, and the update that
a retiring entry makes (03 R83 to R85). -/

namespace Sys2Proof.Machine

/-- Entries that can raise a flag (03 R85). -/
def Entry.flagging (e : Entry) : Bool :=
  match e.op with
  | .fetch _ => true
  | .carrier w _ => match decodeMt w with | some i => canFlag i | none => false
  | .kcmp c _ _ _ => decide (8 ≤ c.toNat)
  | .loadMx _ _ => true
  | .storeMx _ _ => true
  | .kernelResume _ => true
  | _ => false

/-- The flags that a record holds. -/
def FlagIx.flags (f : FlagIx) : Flags :=
  flagIf f.nv.isSome flNV ||| flagIf f.dz.isSome flDZ ||| flagIf f.ov.isSome flOF ||| flagIf f.uf.isSome flUF
    ||| flagIf f.nx.isSome flNX

/-- The 13-bit index of a record field: the new one, the lower of two under a merge, else what it held. -/
def ixField (merge valid : Bool) (old : BitVec 13) (new : Option Nat) : BitVec 13 :=
  match new with
  | some x => if merge && valid then BitVec.ofNat 13 (min x old.toNat) else BitVec.ofNat 13 x
  | none => old
/-- The valid bit of a record field. -/
def ixValid (merge valid : Bool) (new : Option Nat) : Bool := new.isSome || (merge && valid)

/-- VFFIRSTA after an update (03 R84, R85). -/
def firstA (merge : Bool) (r : BitVec 42) (f : FlagIx) : BitVec 42 :=
  bit1 (ixValid merge (r.getLsbD 41) f.ov) ++ bit1 (ixValid merge (r.getLsbD 40) f.dz) ++ bit1 (ixValid merge (r.getLsbD 39) f.nv)
    ++ ixField merge (r.getLsbD 41) (r.extractLsb' 26 13) f.ov ++ ixField merge (r.getLsbD 40) (r.extractLsb' 13 13) f.dz
    ++ ixField merge (r.getLsbD 39) (r.extractLsb' 0 13) f.nv
/-- VFFIRSTB after an update. -/
def firstB (merge : Bool) (r : BitVec 28) (f : FlagIx) : BitVec 28 :=
  bit1 (ixValid merge (r.getLsbD 27) f.nx) ++ bit1 (ixValid merge (r.getLsbD 26) f.uf)
    ++ ixField merge (r.getLsbD 27) (r.extractLsb' 13 13) f.nx ++ ixField merge (r.getLsbD 26) (r.extractLsb' 0 13) f.uf

/-- The update of a retiring entry (03 R85): flags are ORed; the first-index records are replaced by a fresh
update and merged by a resumed one. -/
def Csrs.flagUpdate (c : Csrs) (e : Entry) : Csrs :=
  if e.flagging then
    { c with vfflags := c.vfflags ||| e.flags.flags, vffirsta := firstA e.resumed c.vffirsta e.flags,
             vffirstb := firstB e.resumed c.vffirstb e.flags }
  else c

/-- An earlier entry that can raise a flag has not retired (03 R85). -/
def State.flagsPendingBefore (s : State) (id : Nat) : Bool := s.core.vec.queue.any fun e => e.flagging && decide (e.id < id)
/-- Any entry that can raise a flag has not retired. -/
def State.flagsPending (s : State) : Bool := s.core.vec.queue.any Entry.flagging

end Sys2Proof.Machine
end

