-- ==== Sys2Proof/Machine/MtInteger.lean ====
section
/-! DEFINITION. Micro-thread integer, bit-field, link and chain-control words (06). Each meaning acts on the
micro-thread that the core in focus runs. -/

namespace Sys2Proof.Machine

/-! ## Lanes (06 R126) -/

/-- Apply an operation lane by lane under a width class. -/
def intLanes (w : BitVec 2) (op : (n : Nat) → BitVec n → BitVec n → BitVec n) (a b : Word) : Word :=
  let lane := fun (n i : Nat) => op n (a.extractLsb' (n * i) n) (b.extractLsb' (n * i) n)
  match w.toNat with
  | 0 => (lane 32 0).setWidth 64
  | 1 => (lane 16 1 ++ lane 16 0).setWidth 64
  | 2 => (lane 8 3 ++ lane 8 2 ++ lane 8 1 ++ lane 8 0).setWidth 64
  | _ => lane 64 0

/-- An integer word of three operands (06 R127). -/
def intWord (i : Instr) (w : BitVec 2) (d a b : VReg) (op : (n : Nat) → BitVec n → BitVec n → BitVec n) (s : State) :
    Host.Outcome State Fault Refusal :=
  s.word i fun s => (s.setD w d (intLanes w op (s.opndA w a) (s.opnd w b))).wordDone

/-- An integer word of two operands. -/
def intWord1 (i : Instr) (w : BitVec 2) (d a : VReg) (op : (n : Nat) → BitVec n → BitVec n) (s : State) :
    Host.Outcome State Fault Refusal :=
  s.word i fun s => (s.setD w d (intLanes w (fun n x _ => op n x) (s.opndA w a) 0)).wordDone

/-- 1 or 0 in a lane. -/
def lane01 (n : Nat) (b : Bool) : BitVec n := if b then 1 else 0
/-- The shift count u(b) mod n (06 R127). -/
def shiftCount {n : Nat} (b : BitVec n) : Nat := b.toNat % n
/-- Signed division towards zero with the results of 06 R128. -/
def laneDiv {n : Nat} (a b : BitVec n) : BitVec n := if b = 0 then BitVec.allOnes n else BitVec.ofInt n (a.toInt.tdiv b.toInt)
/-- Unsigned division; b = 0 gives all ones. -/
def laneDivu {n : Nat} (a b : BitVec n) : BitVec n := if b = 0 then BitVec.allOnes n else BitVec.ofNat n (a.toNat / b.toNat)
/-- Signed remainder; b = 0 gives a. -/
def laneRem {n : Nat} (a b : BitVec n) : BitVec n := if b = 0 then a else BitVec.ofInt n (a.toInt.tmod b.toInt)
/-- Unsigned remainder; b = 0 gives a. -/
def laneRemu {n : Nat} (a b : BitVec n) : BitVec n := if b = 0 then a else BitVec.ofNat n (a.toNat % b.toNat)
/-- Zero bits above the highest one bit. -/
def laneClz {n : Nat} (a : BitVec n) : BitVec n := BitVec.ofNat n (if a = 0 then n else n - 1 - a.toNat.log2)
/-- Zero bits below the lowest one bit, counted upwards from bit `k`. -/
def ctzFrom {n : Nat} (a : BitVec n) : Nat → Nat → Nat
  | 0, k => k
  | f + 1, k => if a.getLsbD k then k else ctzFrom a f (k + 1)
/-- Zero bits below the lowest one bit; n when a = 0. -/
def laneCtz {n : Nat} (a : BitVec n) : BitVec n := BitVec.ofNat n (ctzFrom a n 0)
/-- One bits. -/
def lanePopc {n : Nat} (a : BitVec n) : BitVec n := BitVec.ofNat n ((List.range n).filter fun k => a.getLsbD k).length

/-- add (06 R127). -/
def execAdd (w : BitVec 2) (d a b : VReg) (s : State) : Host.Outcome State Fault Refusal :=
  intWord (.add w d a b) w d a b (fun _ x y => x + y) s
/-- sub (06 R127). -/
def execSub (w : BitVec 2) (d a b : VReg) (s : State) : Host.Outcome State Fault Refusal :=
  intWord (.sub w d a b) w d a b (fun _ x y => x - y) s
/-- and (06 R127). -/
def execAnd (w : BitVec 2) (d a b : VReg) (s : State) : Host.Outcome State Fault Refusal :=
  intWord (.and w d a b) w d a b (fun _ x y => x &&& y) s
/-- or (06 R127). -/
def execOr (w : BitVec 2) (d a b : VReg) (s : State) : Host.Outcome State Fault Refusal :=
  intWord (.or w d a b) w d a b (fun _ x y => x ||| y) s
/-- xor (06 R127). -/
def execXor (w : BitVec 2) (d a b : VReg) (s : State) : Host.Outcome State Fault Refusal :=
  intWord (.xor w d a b) w d a b (fun _ x y => x ^^^ y) s
/-- andn (06 R127). -/
def execAndn (w : BitVec 2) (d a b : VReg) (s : State) : Host.Outcome State Fault Refusal :=
  intWord (.andn w d a b) w d a b (fun _ x y => x &&& ~~~y) s
/-- sll (06 R127). -/
def execSll (w : BitVec 2) (d a b : VReg) (s : State) : Host.Outcome State Fault Refusal :=
  intWord (.sll w d a b) w d a b (fun _ x y => x <<< shiftCount y) s
/-- srl (06 R127). -/
def execSrl (w : BitVec 2) (d a b : VReg) (s : State) : Host.Outcome State Fault Refusal :=
  intWord (.srl w d a b) w d a b (fun _ x y => x >>> shiftCount y) s
/-- sra (06 R127). -/
def execSra (w : BitVec 2) (d a b : VReg) (s : State) : Host.Outcome State Fault Refusal :=
  intWord (.sra w d a b) w d a b (fun _ x y => x.sshiftRight (shiftCount y)) s
/-- min (06 R127). -/
def execMin (w : BitVec 2) (d a b : VReg) (s : State) : Host.Outcome State Fault Refusal :=
  intWord (.min w d a b) w d a b (fun _ x y => if y.slt x then y else x) s
/-- max (06 R127). -/
def execMax (w : BitVec 2) (d a b : VReg) (s : State) : Host.Outcome State Fault Refusal :=
  intWord (.max w d a b) w d a b (fun _ x y => if x.slt y then y else x) s
/-- minu (06 R127). -/
def execMinu (w : BitVec 2) (d a b : VReg) (s : State) : Host.Outcome State Fault Refusal :=
  intWord (.minu w d a b) w d a b (fun _ x y => if y.ult x then y else x) s
/-- maxu (06 R127). -/
def execMaxu (w : BitVec 2) (d a b : VReg) (s : State) : Host.Outcome State Fault Refusal :=
  intWord (.maxu w d a b) w d a b (fun _ x y => if x.ult y then y else x) s
/-- slt (06 R127). -/
def execSlt (w : BitVec 2) (d a b : VReg) (s : State) : Host.Outcome State Fault Refusal :=
  intWord (.slt w d a b) w d a b (fun n x y => lane01 n (x.slt y)) s
/-- sltu (06 R127). -/
def execSltu (w : BitVec 2) (d a b : VReg) (s : State) : Host.Outcome State Fault Refusal :=
  intWord (.sltu w d a b) w d a b (fun n x y => lane01 n (x.ult y)) s
/-- seq (06 R127). -/
def execSeq (w : BitVec 2) (d a b : VReg) (s : State) : Host.Outcome State Fault Refusal :=
  intWord (.seq w d a b) w d a b (fun n x y => lane01 n (x == y)) s
/-- mul (06 R127). -/
def execMul (w : BitVec 2) (d a b : VReg) (s : State) : Host.Outcome State Fault Refusal :=
  intWord (.mul w d a b) w d a b (fun _ x y => x * y) s
/-- mulh (06 R127). -/
def execMulh (w : BitVec 2) (d a b : VReg) (s : State) : Host.Outcome State Fault Refusal :=
  intWord (.mulh w d a b) w d a b (fun n x y => BitVec.ofInt n (x.toInt * y.toInt / 2 ^ n)) s
/-- mulhu (06 R127). -/
def execMulhu (w : BitVec 2) (d a b : VReg) (s : State) : Host.Outcome State Fault Refusal :=
  intWord (.mulhu w d a b) w d a b (fun n x y => BitVec.ofNat n (x.toNat * y.toNat / 2 ^ n)) s
/-- div (06 R128). -/
def execDiv (w : BitVec 2) (d a b : VReg) (s : State) : Host.Outcome State Fault Refusal :=
  intWord (.div w d a b) w d a b (fun _ x y => laneDiv x y) s
/-- divu (06 R128). -/
def execDivu (w : BitVec 2) (d a b : VReg) (s : State) : Host.Outcome State Fault Refusal :=
  intWord (.divu w d a b) w d a b (fun _ x y => laneDivu x y) s
/-- rem (06 R128). -/
def execRem (w : BitVec 2) (d a b : VReg) (s : State) : Host.Outcome State Fault Refusal :=
  intWord (.rem w d a b) w d a b (fun _ x y => laneRem x y) s
/-- remu (06 R128). -/
def execRemu (w : BitVec 2) (d a b : VReg) (s : State) : Host.Outcome State Fault Refusal :=
  intWord (.remu w d a b) w d a b (fun _ x y => laneRemu x y) s
/-- clz (06 R127). -/
def execClz (w : BitVec 2) (d a : VReg) (s : State) : Host.Outcome State Fault Refusal :=
  intWord1 (.clz w d a) w d a (fun _ x => laneClz x) s
/-- ctz (06 R127). -/
def execCtz (w : BitVec 2) (d a : VReg) (s : State) : Host.Outcome State Fault Refusal :=
  intWord1 (.ctz w d a) w d a (fun _ x => laneCtz x) s
/-- popc (06 R127). -/
def execPopc (w : BitVec 2) (d a : VReg) (s : State) : Host.Outcome State Fault Refusal :=
  intWord1 (.popc w d a) w d a (fun _ x => lanePopc x) s

/-! ## sel, bit fields, rget and rput, mtid (06 R131 to R136) -/

/-- A word whose result is one register. -/
def oneWord (i : Instr) (d : VReg) (f : State → MWord) (s : State) : Host.Outcome State Fault Refusal :=
  s.word i fun s => (s.setReg d.toNat (f s)).wordDone

/-- sel (06 R131). -/
def execSel (d a b c : VReg) (s : State) : Host.Outcome State Fault Refusal :=
  oneWord (.sel d a b c) d (fun s => if s.regA a 0 ≠ 0 then s.reg b.toNat else s.reg c.toNat) s

/-- The low `len` bits of a value. -/
def lowBits (x : MWord) (len : Nat) : MWord := BitVec.ofNat 32 (x.toNat % 2 ^ len)
/-- bfx's field of a register (06 R132). -/
def bfxField (sign : Bool) (a : MWord) (pos len : Nat) : MWord :=
  let t := if sign then a.sshiftRight pos else a >>> pos
  let f := lowBits t len
  if sign ∧ 2 ^ (len - 1) ≤ f.toNat then f - BitVec.ofNat 32 (2 ^ len) else f
/-- bfx (06 R132); `len` is the length minus one. -/
def execBfx (sign : Bool) (d a : VReg) (pos len : BitVec 6) (s : State) : Host.Outcome State Fault Refusal :=
  oneWord (.bfx sign d a pos len) d (fun s => bfxField sign (s.regA a 0) pos.toNat (len.toNat + 1)) s

/-- bfi's merged register (06 R133). -/
def bfiMerge (old a : MWord) (pos len : Nat) : MWord :=
  let mask : MWord := BitVec.ofNat 32 ((2 ^ len - 1) * 2 ^ pos)
  (old &&& ~~~mask) ||| ((a <<< pos) &&& mask)
/-- bfi (06 R133). -/
def execBfi (d a : VReg) (pos len : BitVec 6) (s : State) : Host.Outcome State Fault Refusal :=
  oneWord (.bfi d a pos len) d (fun s => bfiMerge (s.reg d.toNat) (s.regA a 0) pos.toNat (len.toNat + 1)) s

/-- rget (06 R134). -/
def execRget (d a b : VReg) (s : State) : Host.Outcome State Fault Refusal :=
  s.word (.rget d a b) fun s =>
    let k := a.toNat + (s.reg b.toNat).toNat
    if s.nregs ≤ k then s.mtFault 2 (BitVec.ofNat 64 k)
    else match s.lostReg s.core.curMt [k] with
    | some r => s.mtFaultAt 14 0 s.me.blk s.me.ix (BitVec.ofNat 64 r) true
    | none => (s.setReg d.toNat (s.reg k)).wordDone

/-- rput (06 R134). -/
def execRput (d a b : VReg) (s : State) : Host.Outcome State Fault Refusal :=
  s.word (.rput d a b) fun s =>
    let k := d.toNat + (s.reg b.toNat).toNat
    if s.nregs ≤ k then s.mtFault 2 (BitVec.ofNat 64 k) else (s.setReg k (s.regA a 0)).wordDone

/-- mtid (06 R136). -/
def execMtid (d : VReg) (s : State) : Host.Outcome State Fault Refusal :=
  oneWord (.mtid d) d (fun s => BitVec.ofNat 32 s.core.curMt) s

/-! ## Links (06 R137, R138) -/

/-- lnkrd takes the slot's value and empties it. The word runs only in a block that started, so the slot is
full; were it empty, the micro-thread would wait in WAIT-LINK (02 R41). No access of the block comes before it (14 R303). -/
def execLnkrd (d : VReg) (s : State) : Host.Outcome State Fault Refusal :=
  s.word (.lnkrd d) fun s =>
    match s.me.slot with
    | some v => (((s.acquiredMt s.core.curMt).setReg d.toNat v).onMt s.core.curMt fun t => { t with slot := none }).wordDone
    | none => s.onMt s.core.curMt fun t => { t with phase := .waitLink }

/-- lnkwr copies A into the delivery buffer (06 R138). -/
def execLnkwr (a : VReg) (s : State) : Host.Outcome State Fault Refusal :=
  s.word (.lnkwr a) fun s => (s.onMt s.core.curMt fun t => { t with link := some (s.regA a 0) }).wordDone

/-! ## Immediates (06 R129, R130) -/

/-- addi (06 R129). -/
def execAddi (d a : VReg) (imm : BitVec 14) (s : State) : Host.Outcome State Fault Refusal :=
  oneWord (.addi d a imm) d (fun s => s.regA a 0 + imm.signExtend 32) s
/-- andi (06 R129). -/
def execAndi (d a : VReg) (imm : BitVec 14) (s : State) : Host.Outcome State Fault Refusal :=
  oneWord (.andi d a imm) d (fun s => s.regA a 0 &&& imm.signExtend 32) s
/-- ori (06 R129). -/
def execOri (d a : VReg) (imm : BitVec 14) (s : State) : Host.Outcome State Fault Refusal :=
  oneWord (.ori d a imm) d (fun s => s.regA a 0 ||| imm.signExtend 32) s
/-- xori (06 R129). -/
def execXori (d a : VReg) (imm : BitVec 14) (s : State) : Host.Outcome State Fault Refusal :=
  oneWord (.xori d a imm) d (fun s => s.regA a 0 ^^^ imm.signExtend 32) s
/-- slli (06 R129). -/
def execSlli (d a : VReg) (sh : BitVec 5) (s : State) : Host.Outcome State Fault Refusal :=
  oneWord (.slli d a sh) d (fun s => s.regA a 0 <<< sh.toNat) s
/-- srli (06 R129). -/
def execSrli (d a : VReg) (sh : BitVec 5) (s : State) : Host.Outcome State Fault Refusal :=
  oneWord (.srli d a sh) d (fun s => s.regA a 0 >>> sh.toNat) s
/-- srai (06 R129). -/
def execSrai (d a : VReg) (sh : BitVec 5) (s : State) : Host.Outcome State Fault Refusal :=
  oneWord (.srai d a sh) d (fun s => (s.regA a 0).sshiftRight sh.toNat) s
/-- lui (06 R130). -/
def execLui (d : VReg) (imm : BitVec 20) (s : State) : Host.Outcome State Fault Refusal :=
  oneWord (.lui d imm) d (fun _ => imm ++ (0 : BitVec 12)) s

/-! ## Chain control (06 R140 to R143) -/

/-- mfetch: the header address plus sext(imm20) × 4 (06 R140). -/
def execMfetch (imm : BitVec 20) (s : State) : Host.Outcome State Fault Refusal :=
  .next (s.chainTo (s.me.blk + imm.signExtend 64 * 4))
/-- mfetchr: the value of the pair A (06 R141). -/
def execMfetchr (a : VReg) (s : State) : Host.Outcome State Fault Refusal :=
  s.word (.mfetchr a) fun s => s.chainTo (s.pairA a)
/-- mtrap: fault 12 with a code (06 R143). -/
def execMtrap (code : BitVec 8) (s : State) : Host.Outcome State Fault Refusal :=
  .next (s.mtFaultAt 12 code s.me.blk s.me.ix 0 false)

end Sys2Proof.Machine
end

