-- ==== Sys2Proof/Machine/MtMemory.lean ====
section
/-! DEFINITION. Micro-thread loads, stores, atomics and mfence (08 R166 to R174). -/

namespace Sys2Proof.Machine

/-! ## Addresses (08 R168) -/

/-- Bytes of an access under SIZE. -/
def sizeBytes (size : BitVec 2) : Nat := 2 ^ size.toNat
/-- The data register or pair of a store or an atomic. -/
def State.data (s : State) (size : BitVec 2) (r : Nat) : Nat := if size = 3 then (s.pair r).toNat else (s.reg r).toNat
/-- Write the data register or pair of a load; bytes and halves are zero-extended. -/
def State.setData (s : State) (size : BitVec 2) (r v : Nat) : State :=
  if size = 3 then s.setPair r (BitVec.ofNat 64 v) else s.setReg r (BitVec.ofNat 32 v)
/-- The virtual address of ld and st. -/
def State.mtVa (s : State) (a : VReg) (off : BitVec 12) : Word := s.pairA a + off.signExtend 64
/-- The stash offset of lds and sts: exact, never wrapping. -/
def State.mtOff (s : State) (a : VReg) (off : BitVec 12) : Int := (s.regA a 0).toNat + off.toInt

/-- A stash access: misaligned faults 3, outside the 2 MiB stash faults 6 (08 R168). -/
def State.atStash (s : State) (a : Int) (n : Nat) (f : Nat → State) : State :=
  if a % n ≠ 0 then s.mtFault 3 (BitVec.ofInt 64 a)
  else if a < 0 ∨ (Config.stashBytes : Int) < a + n then s.mtFault 6 (BitVec.ofInt 64 a)
  else f a.toNat

/-- A load has been performed; the micro-thread is not ready until the data returns (08 R170). DEDUCED (log 45). -/
def State.awaitData (s : State) : State := s.onMt s.core.curMt fun t => { t with dataWait := true }

/-- Registers of the micro-thread that runs, as what holds a value. -/
def State.holders (s : State) (rs : List Nat) : List Holder := rs.map fun r => .v r s.core.curMt
/-- What the word's address comes from (14 R297): its A registers, or the span that was captured for it. -/
def State.addressFrom (s : State) (a : VReg) (n : Nat) : Option (List Holder) :=
  some (if s.me.span.isSome then [.span s.me.entry s.core.curMt] else s.holders (span a n))
/-- An offset of the own stash. -/
def State.stashSpot (s : State) (o n : Nat) : Spot := { space := 1, addr := o, pa := windowAddr s.core.no .stash o, n := n }

/-- ld (08 R168, R169; 14 R298). -/
def execLd (size : BitVec 2) (d a : VReg) (off : BitVec 12) (s : State) : Host.Outcome State Fault Refusal :=
  s.word (.ld size d a off) fun s =>
    let va := s.mtVa a off
    if va.toNat % sizeBytes size ≠ 0 then s.mtFault 3 va
    else match s.loadPlain (.mt s.core.curMt) (s.addressFrom a 2) va (sizeBytes size) s.userMode (s.holders (span d (sizeSpan size))) with
    | (.error e, s) => s.mtFault (accFault e .load) va
    | (.ok v, s) => (s.setData size d.toNat v).awaitData

/-- st (08 R168, R169). -/
def execSt (size : BitVec 2) (d a : VReg) (off : BitVec 12) (s : State) : Host.Outcome State Fault Refusal :=
  s.word (.st size d a off) fun s =>
    let va := s.mtVa a off
    if va.toNat % sizeBytes size ≠ 0 then s.mtFault 3 va
    else match s.storePlain (.mt s.core.curMt) va (sizeBytes size) (s.data size d.toNat) s.userMode with
    | (.error e, s) => s.mtFault (accFault e .store) va
    | (.ok (), s) => s.wordDone

/-- lds (08 R168; 14 R298). -/
def execLds (size : BitVec 2) (d a : VReg) (off : BitVec 12) (s : State) : Host.Outcome State Fault Refusal :=
  s.word (.lds size d a off) fun s =>
    let n := sizeBytes size
    s.atStash (s.mtOff a off) n fun o =>
      let who := Reader.mt s.core.curMt
      let s := s.drainFor who (s.stashSpot o n)
      if s.partLost .stash o n then s.mtFault 14 (BitVec.ofNat 64 o)
      else
        let (v, s) := s.plainRead who (s.addressFrom a 1) .block (s.stashSpot o n) (s.holders (span d (sizeSpan size)))
        (s.setData size d.toNat v).awaitData

/-- sts (08 R168). -/
def execSts (size : BitVec 2) (d a : VReg) (off : BitVec 12) (s : State) : Host.Outcome State Fault Refusal :=
  s.word (.sts size d a off) fun s =>
    let n := sizeBytes size
    s.atStash (s.mtOff a off) n fun o =>
      (s.plainWrite (.mt s.core.curMt) .block (s.stashSpot o n) (s.data size d.toNat) false).wordDone

/-! ## Atomics (08 R172, R173) -/

/-- The scope of the home of an access routed to an entry: .co own stash, .di this die, .mo another, .sy host memory
(08 R173, 09 R205, 13 R279, R285). -/
def State.homeScope (s : State) (k : TKey) (pa : Nat) : Nat :=
  match placeOf pa with
  | .window c _ _ => if c = s.core.no then 1 else if dieOf c = dieOf s.core.no then 2 else 3
  | .host => 4
  | _ => if s.entryDie k pa = dieOf s.core.no then 2 else 3
/-- The new-value operand of cas: D + 1 under .w, the pair D + 2 under .p. -/
def State.casNew (s : State) (size : BitVec 2) (d : VReg) : Nat := s.data size (d.toNat + sizeSpan size)
/-- The release part of an atomic at its effective scope: ORD bit 1 (08 R173, 15 R311). -/
def State.amoRelease (s : State) (ord : BitVec 2) (scope : Nat) : State :=
  if ord.getLsbD 1 then s.releaseBy (Late.ofMt s.core.curMt) scope else s
/-- The acquire part of an atomic: ORD bit 0; at core scope or wider no later load of the micro-thread is performed before it (08
R173, 15 R314, R324). -/
def State.amoAcquire (s : State) (ord : BitVec 2) (scope pa : Nat) : State :=
  if !ord.getLsbD 0 then s else let s := s.acquireAt pa; if 1 ≤ scope then s.acquiredMt s.core.curMt else s

/-- The checks of an atomic of `who` by virtual address: readable and writable, A and D set (08 R172); its own earlier stores to the
bytes are performed before these are looked at (14 R296). -/
def State.checkAtomic (s : State) (who : Reader) (va : Word) (n : Nat) (md : AccMode) (hostToo : Bool) : Except AccErr Nat × State :=
  match s.checkVirt va n .store md with
  | (.error e, s) => (.error e, s)
  | (.ok pa, s) =>
    match s.translate va .load md with
    | (.error e, s) => (.error e, s)
    | (.ok _, s) =>
      if !atomicPlace pa hostToo then (.error .access, s)
      else
        let s := s.drainFor who (virtSpot va pa n)
        if s.lostAt pa n then (.error .lost, s) else (.ok pa, s)
/-- An atomic of the micro-thread that runs on the bytes at a spot: its order, then its effect, or where it is plain and the turn
says so, it is left (08 R172, R173; 14 R298). -/
def State.amoWord (s : State) (size : BitVec 2) (op : BitVec 4) (ord : BitVec 2) (scope : Nat) (d : VReg) (k : TKey) (x : Spot) : State :=
  let o := AmoOp.ofCode op
  let s1 := s.data size d.toNat
  let s2 := s.casNew size d
  let who := Reader.mt s.core.curMt
  let s := ((s.amoRelease ord scope).inTurn who x).amoAcquire ord scope x.pa
  if ord = 0 && s.defers && s.mayLeave x.pa then (s.leave who x (.amoMt o s1 s2 d)).wordDone
  else
    let (old, s) := s.amoAt k x.pa x.n o s1 s2
    (s.setData size d.toNat old).wordDone

/-- amo (08 R172, R173). -/
def execAmo (size : BitVec 2) (op : BitVec 4) (ord : BitVec 2) (scope : BitVec 3) (d a : VReg) (s : State) :
    Host.Outcome State Fault Refusal :=
  s.word (.amo size op ord scope d a) fun s =>
    let n := sizeBytes size
    let va := s.pairA a
    if va.toNat % n ≠ 0 then s.mtFault 3 va
    else match s.checkAtomic (.mt s.core.curMt) va n s.userMode false with
    | (.error e, s) => s.mtFault (accFault e .store) va
    | (.ok pa, s) =>
      let k := s.keyFor (some va.toNat)
      s.amoWord size op ord (max scope.toNat (s.homeScope k pa)) d k (virtSpot va pa n)

/-- amos (08 R172, R173). -/
def execAmos (size : BitVec 2) (op : BitVec 4) (ord : BitVec 2) (scope : BitVec 3) (d a : VReg) (s : State) :
    Host.Outcome State Fault Refusal :=
  s.word (.amos size op ord scope d a) fun s =>
    let n := sizeBytes size
    s.atStash (s.mtOff a 0) n fun o =>
      let s := s.drainFor (.mt s.core.curMt) (s.stashSpot o n)
      if s.partLost .stash o n then s.mtFault 14 (BitVec.ofNat 64 o)
      else s.amoWord size op ord scope.toNat d .block (s.stashSpot o n)

/-- mfence (08 R174): under PRED the micro-thread's own earlier accesses are performed, and with writes at .di or wider written back
too (15 R311); with reads in SUCC no later load of it has been performed early. At .th it orders its own accesses alone. DEDUCED
(log 46). -/
def execMfence (scope : BitVec 3) (pred succ : BitVec 2) (s : State) : Host.Outcome State Fault Refusal :=
  s.word (.mfence scope pred succ) fun s =>
    let mine := Late.ofMt s.core.curMt
    let s := if pred.getLsbD 0 then s.releaseBy mine scope.toNat
      else if pred ≠ 0 ∧ scope ≠ 0 then s.drainBy fun l => mine l && !l.op.isStore
      else s
    (if succ.getLsbD 1 ∧ scope ≠ 0 then s.acquiredMt s.core.curMt else s).wordDone

end Sys2Proof.Machine
end

