-- ==== Sys2Proof/Machine/VQueue.lean ====
section
/-! DEFINITION. The three vector queues (02 R30, R31): the register, mask and byte sets of an entry, when an entry
may distribute, what it performs, and its retirement. -/

namespace Sys2Proof.Machine

/-! ## What an entry touches (02 R31, 09 R201, 14 R301) -/

/-- A set of registers as bits. -/
def regBits (l : List Nat) : BitVec 64 := l.foldl (fun b r => b ||| BitVec.twoPow 64 r) 0
/-- A set of masks as bits, by code; k0 is never written (05 R116). -/
def maskBits (l : List (BitVec 4)) : BitVec 16 := l.foldl (fun b k => if k = 0 then b else b ||| BitVec.twoPow 16 k.toNat) 0
/-- Registers `r` to NREGS − 1. -/
def regsFrom (nregs r : Nat) : List Nat := (List.range nregs).filter fun k => decide (r ≤ k)

/-- Words that read kv, and words that can clear it (07 R146). -/
def readsKv : Instr → Bool
  | .cvtW _ _ nf _ _ => nf == 2 || nf == 3
  | .mxscale _ _ _ _ _ _ => true
  | _ => false
def writesKv : Instr → Bool
  | .cvtN _ nf _ _ _ => nf == 2 || nf == 3
  | .cvtq4 _ _ _ => true
  | _ => false

/-- The registers and masks that an entry reads and writes. -/
structure Touch where
  regReads : BitVec 64
  regWrites : BitVec 64
  maskReads : BitVec 16
  maskWrites : BitVec 16
deriving DecidableEq, Repr

/-- Touches of registers alone. -/
def touchRegs (r w : List Nat) : Touch := ⟨regBits r, regBits w, 0, 0⟩
/-- Space 4 is taken to touch every register (09 R201). -/
def touchSpace (space : BitVec 4) (write : Bool) (t : Touch) : Touch :=
  if space = 4 then
    if write then { t with regWrites := BitVec.allOnes 64 } else { t with regReads := BitVec.allOnes 64 }
  else t

/-- The mask select of an item, until it distributes. -/
def Entry.select (e : Entry) : List (BitVec 4) := if e.distributed then [] else [e.mask]
/-- The registers and masks of an entry (02 R31, 06 R135). An item's mask select has been read when it has distributed. -/
def Entry.touch (e : Entry) (nregs : Nat) : Touch :=
  match e.op with
  | .fetch _ => ⟨BitVec.allOnes 64, BitVec.allOnes 64, maskBits (kvCode :: e.select), maskBits [kvCode]⟩
  | .carrier w _ =>
    match decodeMt w with
    | some i =>
      let r := mtRegsOf i
      let (rd, wr) := match i with
        | .rget _ a _ => (r.reads ++ regsFrom nregs a.toNat, r.writes)
        | .rput d _ _ => (r.reads, r.writes ++ regsFrom nregs d.toNat)
        | _ => (r.reads, r.writes)
      ⟨regBits rd, regBits wr, maskBits (e.select ++ if readsKv i then [kvCode] else []),
        maskBits (if writesKv i then [kvCode] else [])⟩
    | none => ⟨0, 0, 0, 0⟩
  | .kcmp _ kd a b => { touchRegs [a.toNat, b.toNat] [] with maskWrites := maskBits [kd] }
  | .klog _ kd ka kb => ⟨0, 0, maskBits [ka, kb], maskBits [kd]⟩
  | .kpre _ kd ka => ⟨0, 0, maskBits [ka], maskBits [kd]⟩
  | .kpop _ ka => ⟨0, 0, maskBits [ka], 0⟩
  | .kfirst _ ka => ⟨0, 0, maskBits [ka], 0⟩
  | .kget _ k _ => ⟨0, 0, maskBits [k], 0⟩
  | .kput k _ _ => ⟨0, 0, 0, maskBits [k]⟩
  | .vget v _ _ => touchRegs [v.toNat] []
  | .vput v _ _ => touchRegs [] [v.toNat]
  | .linkPut _ => ⟨0, 0, 0, 0⟩
  | .linkGet _ => ⟨0, 0, 0, 0⟩
  | .load v size _ => touchSpace e.space false (touchRegs [] (span v (sizeSpan size)))
  | .store v size _ => touchSpace e.space true (touchRegs (span v (sizeSpan size)) [])
  | .loadMx v _ => touchSpace e.space false { touchRegs [] (span v 2) with maskWrites := maskBits [kvCode] }
  | .storeMx v _ => touchSpace e.space true { touchRegs (span v 2) [] with maskReads := maskBits [kvCode] }
  | .amo v op _ _ => { touchRegs (span v (WF.atomicSpan 2 op)) [v.toNat] with maskWrites := maskBits [kmCode] }
  | .append v _ _ => touchRegs [v.toNat] []
  | .kernelResume _ => ⟨0, 0, 0, 0⟩

/-- The bytes of a memory entry: address and length in its space, and whether it writes (14 R301). -/
def Entry.bytes (e : Entry) : List (Nat × Nat) × Bool :=
  match e.op with
  | .load _ size l => (l.map fun x => (x.va.toNat, sizeBytes size), false)
  | .store _ size l => (l.map fun x => (x.va.toNat, sizeBytes size), true)
  | .loadMx _ l => (l.flatMap fun x => [(x.e.va.toNat, 4), (x.sc.va.toNat, 1)], false)
  | .storeMx _ l => (l.flatMap fun x => [(x.e.va.toNat, 4), (x.sc.va.toNat, 1)], true)
  | .amo _ _ _ l => (l.map fun x => (x.va.toNat, 4), true)
  | .append _ l _ => (l.map fun x => (x.va.toNat, 4), true)
  | _ => ([], false)
/-- Two byte ranges meet. -/
def rangesMeet (a b : Nat × Nat) : Bool := decide (a.1 < b.1 + b.2 ∧ b.1 < a.1 + a.2)
/-- Some range of one list meets some range of another. -/
def anyMeet (l m : List (Nat × Nat)) : Bool := l.any fun a => m.any (rangesMeet a)

/-- A vector memory entry. -/
def Entry.isMemory (e : Entry) : Bool :=
  match e.op with
  | .load _ _ _ => true
  | .store _ _ _ => true
  | .loadMx _ _ => true
  | .storeMx _ _ => true
  | .amo _ _ _ _ => true
  | .append _ _ _ => true
  | _ => false
/-- An entry that places items in micro-thread queues (02 R37). -/
def Entry.isItem (e : Entry) : Bool :=
  match e.op with
  | .fetch _ => true
  | .carrier _ _ => true
  | _ => false

/-- The elements of an entry that performs itself: those that it has still to perform, or the micro-threads below its VL. -/
def Entry.elems (e : Entry) : List Nat :=
  match e.op with
  | .load _ _ l => l.map (·.m)
  | .store _ _ l => l.map (·.m)
  | .loadMx _ l => l.map (·.e.m)
  | .storeMx _ l => l.flatMap fun x => x.e.m :: x.group
  | .amo _ _ _ l => l.map (·.m)
  | .append _ l _ => l.map (·.m)
  | .kget _ _ i => (List.range e.vl).filter fun m => m / 64 == i
  | .kput _ _ i => (List.range e.vl).filter fun m => m / 64 == i
  | .vget _ i _ => (List.range e.vl).filter fun m => m == i
  | .vput _ i _ => (List.range e.vl).filter fun m => m == i
  | .linkPut _ => []
  | .linkGet _ => []
  | .kernelResume _ => []
  | _ => List.range e.vl

/-- A micro-thread has an item or a chain of the entry; a FAULTED one counts as stopped (02 R50). -/
def Mt.busyWith (t : Mt) (id : Nat) : Bool :=
  (t.phase != .faulted && t.phase != .stopped && t.entry == id) ||
    t.queue.any fun x => match x with | .block e _ _ => e == id | .word e _ _ _ _ => e == id

/-- Some entry before `id` that may still write a mask: it decides which micro-threads a later select names. -/
def Vec.unsettled (v : Vec) (nregs id : Nat) (k : BitVec 4) : Bool :=
  v.queue.any fun x => decide (x.id < id) && (x.isItem || !x.distributed) && ((x.touch nregs).maskWrites &&& maskBits [k]) != 0
/-- Entry `x` has still to read or write registers in micro-thread `m` (02 R31). -/
def State.leftRegs (s : State) (x : Entry) (m : Nat) : Bool :=
  if x.isItem then
    if x.distributed then (s.mt m).busyWith x.id
    else decide (m < x.vl) && (s.core.vec.unsettled s.nregs x.id x.mask || (s.mask x.mask).getLsbD m)
  else !x.distributed && x.elems.contains m
/-- Entry `x` has still to read or write bit `m` of a mask: an item reads its select in every element. -/
def State.leftMasks (s : State) (x : Entry) (m : Nat) : Bool :=
  if x.isItem && !x.distributed then decide (m < x.vl) else s.leftRegs x m
/-- Two sets of registers meet, and one of the two writes; the same of masks. -/
def Touch.regsClash (a b : Touch) : Bool :=
  (a.regWrites &&& (b.regReads ||| b.regWrites)) != 0 || (a.regReads &&& b.regWrites) != 0
def Touch.masksClash (a b : Touch) : Bool :=
  (a.maskWrites &&& (b.maskReads ||| b.maskWrites)) != 0 || (a.maskReads &&& b.maskWrites) != 0
/-- An entry before `id` has not yet finished in element `m` with what `t` touches there (02 R31). -/
def State.heldAt (s : State) (id : Nat) (t : Touch) (m : Nat) : Bool :=
  s.core.vec.queue.any fun x => decide (x.id < id) &&
    ((Touch.regsClash (x.touch s.nregs) t && s.leftRegs x m) || (Touch.masksClash (x.touch s.nregs) t && s.leftMasks x m))
/-- An element of an entry before `id`, in the same space, has not been performed; it meets these bytes, and one of the
two writes (14 R301). -/
def State.bytesHeld (s : State) (id : Nat) (space : BitVec 4) (write : Bool) (r : List (Nat × Nat)) : Bool :=
  s.core.vec.queue.any fun x =>
    decide (x.id < id) && !x.distributed && x.space == space && (write || x.bytes.2) && anyMeet x.bytes.1 r
/-- A vlnkget before `id` has not retired (14 R303). -/
def State.linkGetBefore (s : State) (id : Nat) : Bool :=
  s.core.vec.queue.any fun x => decide (x.id < id) && (match x.op with | .linkGet _ => true | _ => false)

/-! ## Distribution (02 R31, R37) -/

/-- The micro-threads of [0, VL) whose bit in a mask is 1. -/
def activeIn (x : Mask) (vl : Nat) : List Nat := (List.range vl).filter fun m => x.getLsbD m
/-- A micro-thread's queue has room: it holds four items, and a FAULTED one drops what it is given (02 R37, R50). -/
def Mt.hasRoom (t : Mt) : Bool := t.phase == .faulted || decide (t.queue.length < 4)
/-- Stopped with an empty queue, or FAULTED (02 R37, R39). -/
def Mt.quiet (t : Mt) : Bool := t.phase == .faulted || (t.phase == .stopped && t.queue == [])

/-- Place an item; a FAULTED micro-thread drops and counts it (02 R50, 22 R357). -/
def Mt.place (t : Mt) (x : MtItem) : Mt :=
  match t.fault with
  | some f => { t with fault := some { f with dropped := min (f.dropped + 1) (2 ^ 24 - 1) } }
  | none => { t with queue := t.queue ++ [x] }

/-- The registers whose empty state holds an entry back (02 R44): those it names, not those that space 4 reaches. A block or
a single word waits in its micro-thread instead. -/
def Entry.namedRegs (e : Entry) (nregs : Nat) : BitVec 64 :=
  if e.isItem then 0 else let t := Entry.touch { e with space := 0 } nregs; t.regReads ||| t.regWrites
/-- Matrix commands. -/
def CmdKind.isMatrix : CmdKind → Bool
  | .mma => true
  | .mmas => true
  | .mzero => true
  | .mload => true
  | .mdrain => true
  | .copyMatrix => true
  | _ => false

/-- A matrix command, or the matrix part of a pair, has read its operands (10 R214, R220). -/
def Cmd.operandsRead (c : Cmd) : Bool :=
  c.phase == .running && c.code == 0 && (c.kind != .copyMatrix || c.matrixPart)
/-- Elements `ms` of a memory entry, which access the bytes `r`, may be performed now: 02 R31 in each, 14 R301, R303, and
under space 3 the tiles are full (09 R201). -/
def State.elemsReady (s : State) (e : Entry) (ms : List Nat) (r : List (Nat × Nat)) : Bool :=
  (ms.all fun m => !s.heldAt e.id (e.touch s.nregs) m) && !s.bytesHeld e.id e.space e.bytes.2 r && !s.linkGetBefore e.id &&
    !(e.space == 3 && r.any fun x => (s.tileEmptyAt e.after).getLsbD (x.1 / 8192))
/-- An element of `n` bytes may be performed now. -/
def State.elemReady (s : State) (e : Entry) (n : Nat) (x : Elem) : Bool := s.elemsReady e [x.m] [(x.va.toNat, n)]
/-- An element of an MX entry may be performed now: a block's scale byte comes from the kv bits of its group. -/
def State.mxReady (s : State) (e : Entry) (x : MxElem) : Bool :=
  s.elemsReady e (x.e.m :: x.group) ((x.e.va.toNat, 4) :: if x.first then [(x.sc.va.toNat, 1)] else [])

/-- The next element of a memory entry may be performed; another entry has its turn in every element at once. -/
def State.partReady (s : State) (e : Entry) : Bool :=
  match e.op with
  | .load _ size l => l.head?.all (s.elemReady e (sizeBytes size))
  | .store _ size l => l.head?.all (s.elemReady e (sizeBytes size))
  | .loadMx _ l => l.head?.all (s.mxReady e)
  | .storeMx _ l => l.head?.all (s.mxReady e)
  | .amo _ _ _ l => l.head?.all (s.elemReady e 4)
  | .append _ l _ => l.head?.all (s.elemReady e 4)
  | _ => e.elems.all fun m => !s.heldAt e.id (e.touch s.nregs) m
/-- The A span of a carrier's word. -/
def spanAWord (w : MWord) : Nat := match decodeMt w with | some i => spanAOf i | none => 1
/-- The targets of an item may be settled: its select has been written, each target's queue has room, and under a lane
modifier every micro-thread is quiet and the sources have been written and are full (02 R31, R37, R44). -/
def State.placesReady (s : State) (e : Entry) : Bool :=
  let vl := List.range e.vl
  (vl.all fun m => !s.heldAt e.id ⟨0, 0, maskBits [e.mask], 0⟩ m) &&
  ((activeIn (s.mask e.mask) e.vl).all fun m => (s.mt m).hasRoom) &&
  (match e.op with
   | .carrier w lane =>
     lane == 0 || (s.regEmptyAt e.after &&& regBits (span (fieldA w) (spanAWord w))) == 0 &&
       vl.all fun m => (s.mt m).quiet && !s.heldAt e.id (touchRegs (span (fieldA w) (spanAWord w)) []) m
   | _ => true)

/-- An entry of a link transfers a value, whatever VL is; every other one of VL 0 does nothing (02 R28). DEDUCED (log 68). -/
def Entry.isLink (e : Entry) : Bool := match e.op with | .linkPut _ => true | .linkGet _ => true | _ => false
/-- The entry may distribute now, or its next elements be performed; one of VL 0 waits for nothing (02 R28). A store into
spaces 2 and 3 waits for earlier matrix commands (09 R201), a writer of a register until the commands that read it as A have
read it (10 R214). -/
def State.canDistribute (s : State) (e : Entry) : Bool :=
  let v := s.core.vec
  (e.vl == 0 && !e.isLink) ||
  (if e.isItem then s.placesReady e else s.partReady e) &&
  (s.regEmptyAt e.after &&& e.namedRegs s.nregs) == 0 &&
  (v.cmds.all fun c => !(decide (c.seq ≤ e.after) && !c.operandsRead && (c.aRegs &&& (e.touch s.nregs).regWrites) != 0)) &&
  (!(e.bytes.2 && (e.space == 2 || e.space == 3)) ||
    v.cmds.all fun c => !(c.kind.isMatrix && decide (c.seq ≤ e.after))) &&
  (match e.op with
   | .linkPut _ => (v.mt 0).slot.isNone && v.queue.all fun x => !(decide (x.id < e.id) && x.isMemory && !x.distributed)
   | .linkGet _ => v.fifo != []
   | _ => true)

/-- The source element of a lane modifier (09 R193). -/
def laneSource (lane : BitVec 2) (m : Nat) : Int :=
  match lane.toNat with
  | 1 => (m : Int) - 1
  | 2 => (m : Int) + 1
  | _ => 0
/-- The A span that element `m` receives (09 R193): zeros when the source lies outside [0, VL), nothing when a source
register is lost, so that the word faults (22 R360). DEDUCED (log 64). -/
def State.captured (s : State) (w : MWord) (lane : BitVec 2) (vl m : Nat) : Option (List MWord) :=
  if lane = 0 then none
  else
    let src := laneSource lane m
    if 0 ≤ src ∧ src < vl then
      if (s.lostReg src.toNat (span (fieldA w) (spanAWord w))).isSome then some []
      else some ((List.range (spanAWord w)).map fun k => s.vreg ((fieldA w).toNat + k) src.toNat)
    else some (List.replicate (spanAWord w) 0)

/-- Bits below VL of a mask replaced (09 R184). -/
def belowVl (vl : Nat) (old new : Mask) : Mask :=
  let low : Mask := BitVec.ofNat 8192 (2 ^ vl - 1)
  (old &&& ~~~low) ||| (new &&& low)
/-- Write the bits of a mask below VL. -/
def State.setMaskBelow (s : State) (k : BitVec 4) (vl : Nat) (x : Mask) : State :=
  s.onVec fun v => v.setMask k (belowVl vl (v.maskOf k) x)
/-- A mask of the elements that satisfy a test. -/
def maskWhere (vl : Nat) (p : Nat → Bool) : Mask := (List.range vl).foldl (fun x m => if p m then x ||| BitVec.twoPow 8192 m else x) 0

/-- The lowest set bit below VL. -/
def firstSet (x : Mask) (vl : Nat) : Option Nat := (List.range vl).find? fun m => x.getLsbD m
/-- ksbf, ksif, ksof by form number (09 R196). -/
def prefixMask (form : Nat) (x : Mask) (vl : Nat) : Mask :=
  match firstSet x vl with
  | none => if form = 2 then 0 else BitVec.allOnes 8192
  | some f => maskWhere vl fun m => match form with | 0 => decide (m < f) | 1 => decide (m ≤ f) | _ => m == f
/-- klog's truth table, T[2a + b] (09 R195). -/
def truthTable (tt : BitVec 4) (a b : Mask) : Mask :=
  let on := fun (i : Nat) (x : Mask) => if tt.getLsbD i then x else 0
  on 3 (a &&& b) ||| on 2 (a &&& ~~~b) ||| on 1 (~~~a &&& b) ||| on 0 (~~~a &&& ~~~b)

/-- The condition of kcmp and the flags it raises (09 R194). -/
def kcmpHolds (cond : BitVec 5) (a b : MWord) : Bool × Flags :=
  match cond.toNat with
  | 0 => (a == b, 0)
  | 1 => (a != b, 0)
  | 2 => (a.slt b, 0)
  | 3 => (!a.slt b, 0)
  | 4 => (a.ult b, 0)
  | 5 => (!a.ult b, 0)
  | 8 => Fmt.fp32.compare 0 a.toNat b.toNat
  | 9 => Fmt.fp32.compare 1 a.toNat b.toNat
  | _ => Fmt.fp32.compare 2 a.toNat b.toNat

/-- Cause of a failed access check of an element (09 R200). -/
def elemCause (e : AccErr) (write : Bool) : Nat := accCause e (if write then .store else .load)
/-- An access that was left is an element's of an entry. -/
def Late.ofEntry (id : Nat) (l : Late) : Bool := match l.who with | .elem e _ => e == id | _ => false
/-- An element fails at its performance: elements below it have been performed (14 R306), the entry has nothing more to do but to retire
in its turn (03 R85), its scalar result is not written, VRESUME names the element, and the trap is taken at the entry's
instruction (09 R200). -/
def State.elemFail (s : State) (e : Entry) (err : AccErr) (write : Bool) (m : Nat) (va : Word) : State :=
  let s := (if err = .lost then s.countUe else s).drainBy (Late.ofEntry e.id)
  let s := s.onEntry e.id fun x => { x with distributed := true }
  let s := s.onCt fun c => { c with pendingX := c.pendingX.filter fun p => p.1 != e.id }
  let s := s.onCsr fun c => { c with vresume := m, tsrc := if err = .lost then 1 else c.tsrc }
  s.takeTrap false (elemCause err write) e.pc va
/-- The tenure key of an element: by virtual address in space 0, else the block's own (13 R286, R288). -/
def State.elemKey (s : State) (e : Entry) (x : Elem) : TKey := if e.space = 0 then s.keyFor (some x.va.toNat) else .block
/-- Why an element cannot be performed now. -/
def State.elemRefused (s : State) (x : Elem) (n : Nat) (write : Bool) : Option AccErr :=
  if !s.reaches x.pa write then some .access
  else if !write ∧ s.lostAt x.pa n then some .lost
  else none

/-- Write a loaded value to element `m` of a register or a pair. -/
def State.putElem (s : State) (v : VReg) (size : BitVec 2) (m val : Nat) : State :=
  let s := s.setVreg v.toNat m (BitVec.ofNat 32 val)
  if size = 3 then s.setVreg (v.toNat + 1) m (BitVec.ofNat 32 (val / 2 ^ 32)) else s
/-- The value that a store takes from element `m` of a register or a pair. -/
def State.getElem (s : State) (v : VReg) (size : BitVec 2) (m : Nat) : Nat :=
  (s.vreg v.toNat m).toNat + (if size = 3 then (s.vreg (v.toNat + 1) m).toNat * 2 ^ 32 else 0)

/-- Where an element's `n` bytes lie. -/
def Entry.spot (e : Entry) (x : Elem) (n : Nat) : Spot := { space := e.space.toNat, addr := x.va.toNat, pa := x.pa, n := n }
/-- An element of an entry as an agent. -/
def Entry.agent (e : Entry) (x : Elem) : Reader := .elem e.id x.m
/-- A plain store of an element. -/
def State.elemWrite (s : State) (e : Entry) (x : Elem) (n v : Nat) : State :=
  let k := s.elemKey e x
  s.plainWrite (e.agent x) k (e.spot x n) v k.keeps
/-- A plain load of an element into registers of its micro-thread. -/
def State.elemRead (s : State) (e : Entry) (x : Elem) (n : Nat) (rs : List Nat) : Nat × State :=
  s.plainRead (e.agent x) (some []) (s.elemKey e x) (e.spot x n) (rs.map fun r => .v r x.m)
/-- Earlier stores to an element's bytes are performed before these are looked at (14 R301). -/
def State.elemTurn (s : State) (e : Entry) (x : Elem) (n : Nat) : State := s.drainFor (e.agent x) (e.spot x n)
/-- Perform load elements in ascending index (09 R199). -/
def State.doLoads (s : State) (e : Entry) (v : VReg) (size : BitVec 2) : List Elem → State
  | [] => s
  | x :: xs =>
    let s := s.elemTurn e x (sizeBytes size)
    match s.elemRefused x (sizeBytes size) false with
    | some err => s.elemFail e err false x.m x.va
    | none =>
      let (val, s) := s.elemRead e x (sizeBytes size) (span v (sizeSpan size))
      State.doLoads (s.putElem v size x.m val) e v size xs
/-- Perform store elements in ascending index (09 R199). -/
def State.doStores (s : State) (e : Entry) (v : VReg) (size : BitVec 2) : List Elem → State
  | [] => s
  | x :: xs =>
    match s.elemRefused x (sizeBytes size) true with
    | some err => s.elemFail e err true x.m x.va
    | none =>
      State.doStores (s.elemWrite e x (sizeBytes size) (s.getElem v size x.m)) e v size xs

/-- Perform MX load elements (09 R203); the entry holds the scale of the current block as its value. -/
def State.doLoadsMx (s : State) (e : Entry) (v : VReg) (sc : Nat) : List MxElem → State
  | [] => s
  | x :: xs =>
    let s := if x.first then s.elemTurn e x.sc 1 else s
    match if x.first then s.elemRefused x.sc 1 false else none with
    | some err => s.elemFail e err false x.sc.m x.sc.va
    | none =>
      let (sc, s) := if x.first then s.elemRead e x.sc 1 [v.toNat + 1] else (sc, s)
      let s := if x.first then s.onEntry e.id fun y => { y with value := BitVec.ofNat 64 sc } else s
      let s := s.elemTurn e x.e 4
      match s.elemRefused x.e 4 false with
      | some err => s.elemFail e err false x.e.m x.e.va
      | none =>
        let (val, s) := s.elemRead e x.e 4 (span v 2)
        let s := (s.setVreg v.toNat x.e.m (BitVec.ofNat 32 val)).setVreg (v.toNat + 1) x.e.m (BitVec.ofNat 32 sc)
        let s := if sc = 255 then s.onVec fun w => w.setMask kvCode (setBit (w.maskOf kvCode) x.e.m false) else s
        State.doLoadsMx s e v sc xs
/-- Perform MX store elements (09 R203). -/
def State.doStoresMx (s : State) (e : Entry) (v : VReg) : List MxElem → State
  | [] => s
  | x :: xs =>
    match if x.first then s.elemRefused x.sc 1 true else none with
    | some err => s.elemFail e err true x.sc.m x.sc.va
    | none =>
      let kv := s.mask kvCode
      let sc := if x.group.any fun m => !kv.getLsbD m then 255 else (s.vreg (v.toNat + 1) x.e.m).toNat % 256
      let s := if x.first then s.elemWrite e x.sc 1 sc else s
      match if x.only then none else s.elemRefused x.e 4 true with
      | some err => s.elemFail e err true x.e.m x.e.va
      | none => State.doStoresMx (if x.only then s else s.elemWrite e x.e 4 (s.vreg v.toNat x.e.m).toNat) e v xs

/-- Set or clear a km bit. -/
def State.setKm (s : State) (m : Nat) (b : Bool) : State := s.onVec fun v => v.setMask kmCode (setBit (v.maskOf kmCode) m b)
/-- Perform VAMO elements: a scope narrower than the home leaves the element and sets its km bit (09 R204, R205). -/
def State.doAmos (s : State) (e : Entry) (v : VReg) (op : BitVec 4) (scope : BitVec 3) : List Elem → State
  | [] => s
  | x :: xs =>
    if scope.toNat < s.homeScope (s.elemKey e x) x.pa then State.doAmos (s.setKm x.m true) e v op scope xs
    else if !s.reaches x.pa true then s.elemFail e .access true x.m x.va
    else
      let s := s.inTurn (e.agent x) (e.spot x 4)
      if s.lostAt x.pa 4 then s.elemFail e .lost true x.m x.va
      else
        let (old, s) := s.amoAt (s.elemKey e x) x.pa 4 (AmoOp.ofCode op) (s.vreg v.toNat x.m).toNat (s.vreg (v.toNat + 1) x.m).toNat
        let s := s.onEarlies (e.agent x) (carry true [] [.v v.toNat x.m])
        State.doAmos ((s.setVreg v.toNat x.m (BitVec.ofNat 32 old)).setKm x.m false) e v op scope xs

/-- The entry has taken effect in every element that it performs itself. -/
def State.markDone (s : State) (id : Nat) (value : Word) : State :=
  s.onEntry id fun e => { e with distributed := true, value := value }

/-- The elements of an entry that have their turn now have been performed: `rest` is what it has still to do. -/
def State.markPart (s : State) (e : Entry) (done : Bool) (rest : VOp) : State :=
  if done then s.markDone e.id (match e.op with | .append _ _ _ => e.value | _ => 0) else s.onEntry e.id fun x => { x with op := rest }
/-- Perform the elements that have their turn, in ascending index, up to the first that must wait (02 R31, R48), and no
more than `limit`. -/
def Entry.doPart (e : Entry) (limit : Option Nat) {α : Type} (ready : α → Bool) (l : List α) (f : List α → State)
    (rest : List α → VOp) : State :=
  let now := l.takeWhile ready
  let now := match limit with | some k => now.take k | none => now
  (f now).markPart e (now.length == l.length) (rest (l.drop now.length))

/-- Place an entry's item in each active micro-thread; a modifier reads every source first (02 R37, 09 R193). -/
def State.placeItems (s : State) (e : Entry) (item : Nat → MtItem) : State :=
  let targets := activeIn (s.mask e.mask) e.vl
  let items := targets.map fun m => (m, item m)
  s.onVec fun v => items.foldl (fun v (m, x) => v.setMt m ((v.mt m).place x)) v

/-- The element groups that a carrier issues (02 R43): all below VL, or those with an active element. They are counted (21 R343), and
each takes a slot on every lane: that of an active element is its item's, another stands by itself. -/
def State.countGroups (s : State) (e : Entry) : State :=
  let x := s.mask e.mask
  let act := activeIn x e.vl
  let groups := (List.range ((e.vl + 63) / 64)).filter fun g => !e.dt || act.any fun m => m / 64 == g
  let slots := groups.flatMap fun g => ((List.range 64).filter fun l => !(decide (64 * g + l < e.vl) && x.getLsbD (64 * g + l))).map fun l =>
    { age := e.id, m := 64 * g + l, waits := 0 : IdleSlot }
  ({ s with core := s.core.note 5 groups.length }).onVec fun v => { v with idle := v.idle ++ slots }
/-- The spans that a lane modifier captures carry what their source registers hold (14 R302). -/
def State.captureCarries (s : State) (e : Entry) (w : MWord) (lane : BitVec 2) : State :=
  if lane = 0 ∨ s.core.vec.early = [] then s
  else
    let put := fun (l : List Early) (m : Nat) =>
      carry false ((span (fieldA w) (spanAWord w)).map fun r => .v r (laneSource lane m).toNat) [.span e.id m] l
    s.onVec fun v => { v with early := (activeIn (s.mask e.mask) e.vl).foldl put v.early }
/-- What an entry does when it distributes; `limit` cuts a turn of vector memory short. DESIGN CHOICE (log 39). -/
def State.distribute (s : State) (e : Entry) (limit : Option Nat) : State :=
  match e.op with
  | .fetch a => (s.placeItems e fun _ => .block e.id a e.vfrm).markDone e.id 0
  | .carrier w lane =>
    (((s.countGroups e).placeItems e fun m => .word e.id e.pc w e.vfrm (s.captured w lane e.vl m)).captureCarries e w lane).markDone e.id 0
  | .kcmp c kd a b =>
    let r := fun m => kcmpHolds c (s.vreg a.toNat m) (s.vreg b.toNat m)
    let fl := (List.range e.vl).foldl (fun f m => FlagIx.raise f m (r m).2) FlagIx.none
    ((s.setMaskBelow kd e.vl (maskWhere e.vl fun m => (r m).1)).onEntry e.id fun x => { x with flags := fl }).markDone e.id 0
  | .klog tt kd ka kb => (s.setMaskBelow kd e.vl (truthTable tt (s.mask ka) (s.mask kb))).markDone e.id 0
  | .kpre f kd ka => (s.setMaskBelow kd e.vl (prefixMask f (s.mask ka) e.vl)).markDone e.id 0
  | .kpop _ ka => s.markDone e.id (BitVec.ofNat 64 (activeIn (s.mask ka) e.vl).length)
  | .kfirst _ ka => s.markDone e.id (match firstSet (s.mask ka) e.vl with | some f => BitVec.ofNat 64 f | none => BitVec.allOnes 64)
  | .kget _ k i =>
    let x := s.mask k
    s.markDone e.id (if i < 128 then (belowVl e.vl 0 x).extractLsb' (64 * i) 64 else 0)
  | .kput k val i =>
    let old := s.mask k
    let at_ : Mask := if i < 128 then BitVec.ofNat 8192 ((2 ^ 64 - 1) * 2 ^ (64 * i)) else 0
    let new : Mask := if i < 128 then BitVec.ofNat 8192 (val.toNat * 2 ^ (64 * i)) else 0
    (s.setMaskBelow k e.vl ((old &&& ~~~at_) ||| new)).markDone e.id 0
  | .vget v i _ => s.markDone e.id (if i < e.vl then (s.vreg v.toNat i).setWidth 64 else 0)
  | .vput v i val =>
    (if i < e.vl then (s.setVreg v.toNat i val).onVec fun w => { w with early := carry false [] [.v v.toNat i] w.early } else s).markDone e.id 0
  | .linkPut val => ((s.drainBy fun l => l.ofCt || l.ofElem e.id).onMt 0 fun t => { t with slot := some val }).markDone e.id 0
  | .linkGet _ => (s.onVec fun v => { v with fifo := v.fifo.tail }).markDone e.id ((s.core.vec.fifo.headD 0).setWidth 64)
  | .load v size l => e.doPart limit (s.elemReady e (sizeBytes size)) l (s.doLoads e v size) (.load v size)
  | .store v size l => e.doPart limit (s.elemReady e (sizeBytes size)) l (s.doStores e v size) (.store v size)
  | .loadMx v l => e.doPart limit (s.mxReady e) l (s.doLoadsMx e v e.value.toNat) (.loadMx v)
  | .storeMx v l => e.doPart limit (s.mxReady e) l (s.doStoresMx e v) (.storeMx v)
  | .amo v op sc l => e.doPart limit (s.elemReady e 4) l (s.doAmos e v op sc) (.amo v op sc)
  | .append v l rd => e.doPart limit (s.elemReady e 4) l (s.doStores e v 2) fun l => .append v l rd
  | .kernelResume _ => s

/-- A load of `who` at a spot is performed ahead of its turn (14 R298): stores that it must come after are performed first. -/
def State.loadEarly (s : State) (who : Reader) (k : TKey) (x : Spot) : State :=
  let (v, s) := (s.drainFor who x).physRead k x.pa x.n
  s.onEarlies who fun l => l ++ [{ reader := who, spot := x, value := v, after := [] }]
/-- A load of `who` at a spot has been performed early already. -/
def State.hasEarly (s : State) (who : Reader) (x : Spot) : Bool := (s.earlies who).any fun e => e.reader == who && e.spot == x
/-- Element `k` of a vector load that has still to be performed is performed ahead of the others (14 R298): its bytes are not
another entry's to write first (R301), no vlnkget before it is pending (R303), and no lower element shares a byte (R296). -/
def State.earlyElement (s : State) (id k : Nat) : State :=
  match s.core.vec.queue.find? fun e => e.id == id && !e.distributed with
  | some e =>
    match e.op with
    | .load _ size l =>
      let n := sizeBytes size
      let below := l.takeWhile fun x => x.m != k
      match l.find? fun x => x.m == k with
      | some x =>
        if s.linkGetBefore id ∨ s.bytesHeld id e.space false [(x.va.toNat, n)] ∨ (below.any fun y => overlaps y.pa n x.pa n) ∨
          (s.elemRefused x n false).isSome ∨ s.hasEarly (e.agent x) (e.spot x n) then s
        else s.loadEarly (e.agent x) (s.elemKey e x) (e.spot x n)
      | none => s
    | _ => s
  | none => s

/-! ## Retirement (02 R31) -/

/-- Some micro-thread still has an item or a chain of the entry. -/
def Vec.busyWith (v : Vec) (id : Nat) : Bool := v.mts.any fun (_, t) => t.busyWith id

/-- The entry may retire: it has taken effect everywhere, and an earlier entry that can raise a flag has retired
before one that can (03 R85). -/
def State.canRetire (s : State) (e : Entry) : Bool :=
  e.distributed && !(e.flagging && s.flagsPendingBefore e.id) && !s.core.vec.busyWith e.id

/-- Retire an entry: its flag update, its scalar result, its place in the queue (02 R31, 03 R85). No later access has been
performed before a vlnkget retires (14 R303). -/
def State.retire (s : State) (e : Entry) : State :=
  let s := s.onCsr fun c => c.flagUpdate e
  let s := match e.op with | .linkGet _ => s.acquiredAll | _ => s
  let s := match e.op with | .kernelResume _ => s | _ => s.note 3
  let s := s.onCt fun c =>
    let c := match c.pendingX.find? fun p => p.1 == e.id with
      | some (_, r) => { c.setX r e.value with early := carry true [] [.x r.toNat] c.early }
      | none => c
    { c with pendingX := c.pendingX.filter fun p => p.1 != e.id }
  s.onVec fun v => { v with queue := v.queue.filter fun x => x.id != e.id }

/-- The oldest entry of a queue that has not distributed. -/
def State.toDistribute (s : State) (q : VQueue) : Option Entry := s.core.vec.queue.find? fun e => e.q == q && !e.distributed
/-- The oldest entry of a queue that may retire. -/
def State.toRetire (s : State) (q : VQueue) : Option Entry := s.core.vec.queue.find? fun e => e.q == q && s.canRetire e

/-! ## Issue by the control thread -/

/-- stval of cause 24: the number of faulted micro-threads, and the lowest of them (22 R348). -/
def State.kfTval (s : State) : Word :=
  let l := activeIn (s.mask kfCode) 8192
  BitVec.ofNat 64 (l.length * 2 ^ 32 + l.headD 0)

/-- Entries that a queue holds. -/
def Vec.inQueue (v : Vec) (q : VQueue) : Nat :=
  (v.queue.filter fun e => e.q == q && (match e.op with | .kernelResume _ => false | _ => true)).length
/-- The queue is full (02 R26, R31). -/
def State.queueFull (s : State) (q : VQueue) : Bool := decide (s.core.csr.vqdepth.toNat + 1 ≤ s.core.vec.inQueue q)

/-- Put an entry at the end of its queue; a scalar result is then pending (02 R31). -/
def State.pushEntry (s : State) (q : VQueue) (op : VOp) (mask : BitVec 4) (rd : Option XReg) (value : Word)
    (dt : Bool := false) : State :=
  let id := s.core.vec.nextEntry
  let e : Entry :=
    { id := id, q := q, op := op, vl := s.core.csr.vl, space := s.core.csr.vspace, mask := mask, vfrm := s.core.csr.vfrm,
      pc := s.core.ct.pc, resumed := false, distributed := false, after := s.core.csr.xissued, dt := dt,
      value := value, flags := .none }
  -- an entry of vector memory that starts above element 0 resumes one that trapped (03 R85)
  let e := { e with resumed := e.isMemory && s.core.csr.vresume != 0 }
  let s := s.onVec fun v => { v with queue := v.queue ++ [e], nextEntry := id + 1 }
  match rd with
  | some r => s.onCt fun c => { c with pendingX := c.pendingX ++ [(id, r)] }
  | none => s

/-- Issue an entry and move past its instruction; on a full queue the control thread stalls (02 R31). -/
def State.issue (s : State) (i : Instr) (q : VQueue) (op : VOp) (mask : BitVec 4) (rd : Option XReg) (dt : Bool := false) : State :=
  if s.queueFull q then s else (s.pushEntry q op mask rd 0 dt).advance i.size

/-- The lowest of the registers that is empty and whose FEPOL bit is set (02 R44): the spec does not say which of several
stval names. DESIGN CHOICE (log 67). -/
def State.fepolTrap (s : State) (rs : List Nat) : Option Nat :=
  (List.range 64).find? fun r => s.regEmpty.getLsbD r && s.core.csr.fepol.getLsbD r && rs.contains r

/-- A control-thread instruction that names vector registers: one that does not exist is cause 2 (02 R29), an empty
one whose FEPOL bit is set is cause 26 (02 R44). -/
def State.withRegs (s : State) (i : Instr) (rs : List Nat) (f : State → State) : State :=
  if rs.any fun r => decide (s.nregs ≤ r) then s.illegal i
  else match s.fepolTrap rs with
  | some r => s.trap 26 (BitVec.ofNat 64 r)
  | none => f s

/-- An earlier entry has still to write a mask that the control thread must read at issue. -/
def State.maskPending (s : State) (k : BitVec 4) : Bool :=
  (List.range s.core.csr.vl).any (s.heldAt s.core.vec.nextEntry ⟨0, 0, maskBits [k], 0⟩)
/-- An earlier entry has still to write registers that the control thread must read at issue, in the active elements. -/
def State.regPending (s : State) (rs : List Nat) (k : BitVec 4) : Bool :=
  (activeIn (s.mask k) s.core.csr.vl).any (s.heldAt s.core.vec.nextEntry (touchRegs rs []))

/-- A micro-thread may take the item at the head of its queue: its entry's registers and masks are its own there (02
R31). -/
def State.itemReady (s : State) (m : Nat) : Bool :=
  let id := match (s.mt m).queue with | .block e _ _ :: _ => e | .word e _ _ _ _ :: _ => e | [] => 0
  match s.core.vec.queue.find? fun e => e.id == id with
  | some e => !s.heldAt id (e.touch s.nregs) m
  | none => true

end Sys2Proof.Machine
end

