-- ==== Sys2Proof/Machine/Perf.lean ====
section
/-! DEFINITION. Cycle classes, counters, trace records, samples and breakpoints (21 R341 to R346), and TMARK. Counting
is the step's work, not an instruction's: an operation notes its event, and the step counts after its agent has moved. -/

namespace Sys2Proof.Machine

/-! ## Trace records (21 R345) -/

/-- A trace buffer is set. -/
def Perf.traced (p : Perf) : Bool := p.traceBase != 0 || p.traceLog != 0
/-- CAPCTL.FROZEN: no trace record is written on any core (24 R403). -/
def State.frozen (s : State) : Bool := s.base.capctl.getLsbD 1
/-- CAPCTL.ACTIVE: TMARK writes records (24 R403). -/
def State.capturing (s : State) : Bool := s.base.capctl.getLsbD 0
/-- Change the profiling state of the core in focus. -/
def State.onPerf (s : State) (f : Perf → Perf) : State := { s with core := { s.core with perf := f s.core.perf } }

/-- Write `n` 8-byte words of a number by device-physical address. DEDUCED (log 29). -/
def State.putWords (s : State) (pa : Nat) : Nat → Nat → State
  | 0, _ => s
  | n + 1, v => State.putWords (s.physWrite .block pa 8 (v % 2 ^ 64) true) (pa + 8) n (v / 2 ^ 64)

/-- The 32 bytes of a record. -/
def traceBytes (kind core info event : Nat) (ltime : BitVec 32) (cycle : Nat) (pc value : Word) : Nat :=
  kind + core * 2 ^ 8 + info * 2 ^ 16 + event * 2 ^ 24 + ltime.toNat * 2 ^ 32 + cycle % 2 ^ 64 * 2 ^ 64 + pc.toNat * 2 ^ 128
    + value.toNat * 2 ^ 192
/-- A write of the profiling unit waits behind nothing at its home, so that no record holds a turn up. DESIGN CHOICE (log 29). -/
def State.atOnce (s : State) (f : State → State) : State :=
  let t := f { s with dir := { s.dir with forwards := [], senders := s.dir.incarnation }, base := { s.base with lantern := [] } }
  { t with stalled := s.stalled, asks := s.asks, dir := { t.dir with forwards := s.dir.forwards, senders := s.dir.senders },
           base := { t.base with lantern := s.base.lantern } }
/-- Write a record of a cycle, while a buffer is set and capture is not frozen; where its place cannot be written, it counts alone.
DEDUCED (log 29). -/
def State.traceAt (s : State) (cycle kind info event : Nat) (pc value : Word) : State :=
  let p := s.core.perf
  if !p.traced ∨ s.frozen then s
  else
    let cap := 4096 * 2 ^ p.traceLog / 32
    let pa := p.traceBase + 32 * (p.tracePos % cap)
    let put := fun (s : State) => s.putWords pa 4 (traceBytes kind s.core.no info event s.core.ltime cycle pc value)
    (if s.reaches pa true then s.atOnce put else s).onPerf fun p => { p with tracePos := p.tracePos + 1 }

/-- Write a record of this cycle. -/
def State.trace (s : State) (kind info event : Nat) (pc value : Word) : State := s.traceAt s.base.cycle kind info event pc value

/-- tmark (11 R259). -/
def execTmark (rs1 : XReg) (s : State) : Host.Outcome State Fault Refusal :=
  .next ((if s.capturing then s.trace 2 0 0 s.core.ct.pc (s.getX rs1) else s).advance 4)

/-! ## Counters (21 R342 to R344) -/

/-- Counter `i`. -/
def Perf.counter (p : Perf) (i : Nat) : Counter := Table.get Counter.zero p.counters i
/-- Replace counter `i`. -/
def Perf.setCounter (p : Perf) (i : Nat) (c : Counter) : Perf := { p with counters := Table.set Counter.zero p.counters i c }
/-- The event and the threshold of a counter in a cycle: a reprogramming counts from the next cycle on (21 R344). -/
def Counter.inForce (c : Counter) (cycle : Nat) : Nat × Nat :=
  match c.prior with
  | some (at', e, t) => if at' = cycle then (e, t) else (c.event, c.threshold)
  | none => (c.event, c.threshold)
/-- A counter about to be reprogrammed in a cycle. -/
def Counter.keep (c : Counter) (cycle : Nat) : Counter :=
  let (e, t) := c.inForce cycle
  { c with prior := some (cycle, e, t) }
/-- A counter has 48 bits. -/
def counterSize : Nat := 2 ^ 48
/-- Counter `i` increments by `n`: a wrap sets OV and writes an overflow record, a crossing of the threshold sets TX
and writes a threshold record (21 R344, R345), also where the count comes to it after a wrap. The rule names no instruction for these
records: PC is the control thread's at that moment. DESIGN CHOICE (log 71). -/
def State.bump (s : State) (i n : Nat) : State :=
  if n = 0 then s
  else
    let c := s.core.perf.counter i
    let (event, threshold) := c.inForce s.base.cycle
    let v := c.value + n
    let wraps := decide (counterSize ≤ v)
    let crosses := decide (threshold ≠ 0 ∧ (c.value < threshold ∧ threshold ≤ v ∨ threshold + counterSize ≤ v))
    let s := s.onPerf fun p => p.setCounter i
      { c with value := v % counterSize, ov := c.ov || wraps, tx := c.tx || crosses,
               wrapped := if wraps then some s.base.cycle else c.wrapped }
    let val := BitVec.ofNat 64 (v % counterSize)
    let s := if wraps then s.trace 4 i event s.core.ct.pc val else s
    if crosses then s.trace 5 i event s.core.ct.pc val else s
/-- Event `e` has happened `n` times: every programmable counter of that event increments. -/
def State.count (s : State) (e n : Nat) : State :=
  (List.range 8).foldl (fun s i => if ((s.core.perf.counter i).inForce s.base.cycle).1 = e then s.bump i n else s) s
/-- The events noted on the core in focus are counted. -/
def State.countNoted (s : State) : State :=
  s.core.events.foldl (fun s (e, n) => s.count e n) { s with core := { s.core with events := [] } }

/-- Interrupt 17 is pending (21 R342). -/
def Perf.interrupt (p : Perf) : Bool := p.counters.any fun (_, c) => c.inten && (c.ov || c.tx)

/-! ## Cycle classes (21 R341) -/

/-- An entry that has an element which awaits data. -/
def Entry.awaits (e : Entry) : Bool := !e.distributed && e.q == .load && e.isMemory && e.elems != []
/-- The slip (02 R32). -/
def State.slip (s : State) : Nat := (s.core.vec.queue.filter fun e => match e.op with | .kernelResume _ => false | _ => true).length
/-- The control thread is stalled on the data of a load of its own (21 R341); a WAITA that sleeps has its data. DEDUCED (log 10). -/
def State.ctAwaits (s : State) : Bool := s.core.awaiting
/-- The class of a cycle: 0 scalar-bound, 1 vector-bound, 2 memory-bound, 3 balanced; as INFO numbers them (R345). -/
def State.cycleClass (s : State) : Nat :=
  if s.ctAwaits || (s.core.vec.queue.find? fun e => e.q == .load).any Entry.awaits then 2
  else if s.queueFull .load || s.queueFull .compute || s.queueFull .store then 1
  else if s.slip = 0 then 0
  else 3
/-- The core's die is held at its trip point (25 R416): its cores do not issue. -/
def State.held (s : State) (core : Nat) : Bool := (Table.get Die.zero s.base.dies (dieOf core)).heldSince.isSome
/-- A job is bound to the core. -/
def CorePhase.bound : CorePhase → Bool
  | .running => true
  | .saving => true
  | .restoring => true
  | _ => false
/-- Count `n` cycles of the core in focus, in which the power cap withholds its issue or not; a thermal hold withholds it too
(01 R21, 25 R413). DESIGN CHOICE (log 10). -/
def State.countCycles (s : State) (capped : Bool) (n : Nat) : State :=
  if !s.core.phase.bound ∨ n = 0 then s
  else
    let withheld := capped || s.held s.core.no
    let s := if withheld then s.count 15 n else s.bump (8 + s.cycleClass) n
    (s.count 1 n).count 4 (s.slip * n)
/-- Time passes (00 R4), the power cap withholding issue from a set of cores. The increments of a cycle come before anything
else in it (21 R344). Withheld cycles of the whole module are counted
in WITHHELD, a core's cycle once (25 R413). -/
def State.elapse (s : State) (capped : BitVec 192) (n : Nat) : State :=
  let held := (s.coresListed.filter fun c => c.phase.bound && (capped.getLsbD c.no || s.held c.no)).length
  State.countCycles { s with base := { s.base with
    cycle := s.base.cycle + n, withheld := min (s.base.withheld + held * n) (2 ^ 64 - 1) } } (capped.getLsbD s.core.no) n

/-- COUNTER_WRAP (21 R344): a counter at its last value increments. -/
def execCounterWrap (idx : Nat) (s : State) : Host.Outcome State Fault Refusal :=
  .next (if (s.core.perf.counter idx).value + 1 = counterSize then s.bump idx 1 else s)
/-- COUNTER_THRESHOLD (21 R344): a counter below the threshold in force reaches it. -/
def execCounterThreshold (idx : Nat) (s : State) : Host.Outcome State Fault Refusal :=
  let c := s.core.perf.counter idx
  let limit := (c.inForce s.base.cycle).2
  .next (if limit ≠ 0 ∧ c.value + 1 = limit then s.bump idx 1 else s)

/-- The sample of a cycle (21 R345): it names the oldest entry that has not retired. -/
def State.sampleAt (s : State) (cycle : Nat) : State :=
  let (pc, v) := match s.core.vec.queue.filter fun e => match e.op with | .kernelResume _ => false | _ => true with
    | e :: _ => (e.pc, match e.op with | .fetch a => a | _ => 0)
    | [] => (s.core.ct.pc, 0)
  s.traceAt cycle 1 s.cycleClass 0 pc v
/-- Sample periods that have passed. -/
def State.samplesDue (s : State) : Nat :=
  let p := s.core.perf
  if p.period = 0 then 0 else (s.base.cycle - p.sampledAt) / p.period
/-- The samples of the periods that have passed are taken, while a job is bound. -/
def State.sample (s : State) : State :=
  let at' := s.core.perf.sampledAt
  let p := s.core.perf.period
  let n := s.samplesDue
  if n = 0 then s
  else ((if s.core.phase.bound then (List.range n).foldl (fun s k => s.sampleAt (at' + p * (k + 1))) s else s).onPerf fun y =>
    { y with sampledAt := at' + p * n })
/-- PERF_SAMPLE (21 R345): what sample periods are due on the core in focus. -/
def execPerfSample (s : State) : Host.Outcome State Fault Refusal := .next s.sample

/-! ## Breakpoints (21 R346) -/

/-- A breakpoint fires: its record is written and its trap is due. DEDUCED (log 30). R345 gives a record of the PC breakpoint no VALUE: it is
0 (`State.arm`). One that is met while another's trap is due does not fire. DESIGN CHOICE (log 71). -/
def State.fireBreak (s : State) (addr pc : Word) (value : Word) : State :=
  (s.trace 3 0 0 pc value).onPerf fun p => { p with breakPending := some (addr, pc) }
/-- The instruction that fired a breakpoint has jumped, perhaps to itself: the trap lands at the next boundary. -/
def Perf.passed (p : Perf) : Perf :=
  { p with breakPending := p.breakPending.map fun (addr, pc) => if addr = pc then (addr, pc + 1) else (addr, pc) }
/-- A fresh execution begins at the PC breakpoint. -/
def State.pcBreakHit (s : State) : Bool :=
  s.core.perf.pcBreak == some s.core.ct.pc && s.core.csr.vresume == 0 && s.core.perf.breakPending.isNone
/-- Micro-thread `m` starts the block at the block breakpoint. It does not fire while another breakpoint's trap is due. DESIGN CHOICE
(log 71). -/
def State.blockBreakHit (s : State) (m : Nat) : Bool :=
  let t := s.mt m
  s.core.perf.blockBreak == some t.blk && t.phase == .ready && !t.carrier && t.ix == 0 && t.words != [] &&
    s.core.perf.breakPending.isNone
/-- BREAKPOINT_FIRE (21 R346), on a core that runs; the record names the instruction that started the chain. -/
def execBreakpointFire (block : Bool) (m : Nat) (s : State) : Host.Outcome State Fault Refusal :=
  if s.core.phase ≠ .running then .next s
  else if block then
    let t := s.mt m
    .next (if s.blockBreakHit m then s.fireBreak t.blk t.origin t.blk else s)
  else .next (if s.pcBreakHit then s.fireBreak s.core.ct.pc s.core.ct.pc 0 else s)

/-! ## PERFSEL (21 R342) -/

/-- The view that the last command selected. -/
def Perf.read (p : Perf) : Word :=
  let c := p.counter p.idx
  let ix := BitVec.ofNat 4 p.idx
  match p.view with
  | 0 => ix ++ bit1 c.ov ++ bit1 c.tx ++ bit1 c.inten ++ (0 : BitVec 1) ++ BitVec.ofNat 8 c.event ++ BitVec.ofNat 48 c.value
  | 1 => ix ++ (0 : BitVec 12) ++ BitVec.ofNat 48 c.threshold
  | _ => ix ++ (0 : BitVec 12) ++ BitVec.ofNat 48 p.tracePos

/-- A PERFSEL command: illegal at user level or where the table of 21 R342 refuses it; else what the cycle counts is counted
first, this instruction's retirement with it (R344), then IDX is set and the view reset, and rd takes what a read gives
before the command. -/
def State.perfCmd (s : State) (rd : XReg) (idx : BitVec 4) (ok : Bool) (f : Perf → Perf) : State :=
  if s.core.ct.user ∨ !ok then s.illegalHere
  else
    let s := (s.note 2).countNoted
    (((s.onPerf fun p => f { p with idx := idx.toNat, view := 0 }).setX rd s.core.perf.read)).pastInstr 4
/-- A plain read of PERFSEL: the cycle's increments come first, this instruction's retirement with them (21 R344). -/
def State.perfRead (s : State) (rd : XReg) : State :=
  let s := (s.note 2).countNoted
  (s.setX rd s.core.perf.read).pastInstr 4
/-- IDX names a counter. -/
def isCounter (idx : BitVec 4) : Bool := decide (idx.toNat ≤ 11)
/-- Change the counter that a command names. -/
def Perf.onCounter (p : Perf) (f : Counter → Counter) : Perf := p.setCounter p.idx (f (p.counter p.idx))

/-- PERFSEL op 0 (21 R342). -/
def execPerfselSelect (rd : XReg) (idx : BitVec 4) (arg : BitVec 56) (s : State) : Host.Outcome State Fault Refusal :=
  .next (s.perfCmd rd idx (isCounter idx && decide (arg.toNat ≤ 2)) fun p => { p with view := arg.toNat })
/-- PERFSEL op 1 (21 R342). -/
def execPerfselProgram (rd : XReg) (idx : BitVec 4) (arg : BitVec 56) (s : State) : Host.Outcome State Fault Refusal :=
  let ev := arg.toNat % 256
  let ok := isCounter idx && decide (arg.toNat < 512 ∧ ev ≤ 17) && (decide (idx.toNat < 8) || ev == 0)
  .next (s.perfCmd rd idx ok fun p =>
    p.onCounter fun c => { c.keep s.base.cycle with event := ev, inten := arg.getLsbD 8 })
/-- PERFSEL op 2 (21 R342). -/
def execPerfselWriteValue (rd : XReg) (idx : BitVec 4) (arg : BitVec 56) (s : State) : Host.Outcome State Fault Refusal :=
  .next (s.perfCmd rd idx (isCounter idx && decide (arg.toNat < counterSize)) fun p => p.onCounter fun c => { c with value := arg.toNat })
/-- PERFSEL op 3 (21 R342). -/
def execPerfselSetThreshold (rd : XReg) (idx : BitVec 4) (arg : BitVec 56) (s : State) : Host.Outcome State Fault Refusal :=
  .next (s.perfCmd rd idx (isCounter idx && decide (arg.toNat < counterSize)) fun p =>
    p.onCounter fun c => { c.keep s.base.cycle with threshold := arg.toNat })
/-- PERFSEL op 4 (21 R342); OV stays set in the cycle of a wrap (R344). -/
def execPerfselClearFlags (rd : XReg) (idx : BitVec 4) (arg : BitVec 56) (s : State) : Host.Outcome State Fault Refusal :=
  .next (s.perfCmd rd idx (isCounter idx && arg == 0) fun p => p.onCounter fun c => { c with ov := c.ov && c.wrapped == some s.base.cycle, tx := false })
/-- PERFSEL op 5 (21 R342): a base in no populated region is cause 2. -/
def execPerfselSetTraceBuffer (rd : XReg) (idx : BitVec 4) (arg : BitVec 56) (s : State) : Host.Outcome State Fault Refusal :=
  let base := arg.toNat / 4096 * 4096
  let ok := decide (idx.toNat ≤ 13 ∧ arg.toNat / 16 % 256 = 0) && (arg == 0 || placeOf base != .nowhere)
  .next (s.perfCmd rd idx ok fun p => { p with traceBase := base, traceLog := arg.toNat % 16, tracePos := 0 })
/-- PERFSEL op 6 (21 R342): periods of 1 to 1,023 act as 1,024. -/
def execPerfselSetSamplePeriod (rd : XReg) (idx : BitVec 4) (arg : BitVec 56) (s : State) : Host.Outcome State Fault Refusal :=
  let n := arg.toNat
  .next (s.perfCmd rd idx (decide (idx.toNat ≤ 13 ∧ n < 2 ^ 32)) fun p =>
    { p with period := if n = 0 then 0 else max n 1024, sampledAt := s.base.cycle })
/-- Whether IDX names a breakpoint. -/
def isBreak (idx : BitVec 4) : Bool := idx == 12 || idx == 13
/-- Set or remove the breakpoint that IDX names. -/
def Perf.setBreak (p : Perf) (x : Option Word) : Perf := if p.idx = 12 then { p with pcBreak := x } else { p with blockBreak := x }
/-- PERFSEL op 7 (21 R342). -/
def execPerfselSetBreakpoint (rd : XReg) (idx : BitVec 4) (arg : BitVec 56) (s : State) : Host.Outcome State Fault Refusal :=
  .next (s.perfCmd rd idx (isBreak idx) fun p => p.setBreak (some (arg.signExtend 64 <<< 2)))
/-- PERFSEL op 8 (21 R342). -/
def execPerfselClearBreakpoint (rd : XReg) (idx : BitVec 4) (arg : BitVec 56) (s : State) : Host.Outcome State Fault Refusal :=
  .next (s.perfCmd rd idx (isBreak idx && arg == 0) fun p => p.setBreak none)

end Sys2Proof.Machine
end

