-- ==== Sys2Proof/Machine/CtVector.lean ====
section
/-! DEFINITION. Control-thread configuration, dispatch, single elements, masks and vector memory (09). A vector
instruction issues an entry; what the entry does is in Machine/VQueue.lean. -/

namespace Sys2Proof.Machine

/-! ## Configuration (09 R187, R188) -/

/-- The condition of 02 R39: every entry has retired, every micro-thread is stopped with an empty queue or faulted. -/
def State.drained (s : State) : Bool := s.core.vec.queue == [] && s.core.vec.mts.all fun (_, t) => t.quiet
/-- Every engine command of the core has completed, or has faulted (09 R187). -/
def State.enginesDoneOrFaulted (s : State) : Bool := s.core.vec.cmds.all fun c => c.phase == .faulted

/-- MTCFG as it reads (02 R26). -/
def Csrs.mtcfg (c : Csrs) : Word := (0 : BitVec 51) ++ c.vqdepth ++ (0 : BitVec 6) ++ c.nregs
/-- The zeroing of 02 R24, with kv all ones, VL 0 and the links empty (09 R187). -/
def Core.reconfigure (c : Core) (v : Word) : Core :=
  { c with
    csr := { c.csr with nregs := v.extractLsb' 0 2, vqdepth := v.extractLsb' 8 5, vl := 0 },
    vec := { c.vec with regs := [], acc := [], masks := [(8, BitVec.allOnes 8192)], regDirty := 0, tileDirty := 0, high := 0,
                        fifo := [], mts := [], early := [], idle := [], pipe := [] } }

/-- MTCONF and the CSR write of MTCFG (09 R187): wait; with a fault recorded, cause 24; else the new configuration.
`result` is rd's value, from the new VLMAX and the old MTCFG. -/
def State.mtconfAt (s : State) (i : Instr) (rd : XReg) (v : Word) (result : Nat → Word → Word) : State :=
  if !(s.drained && s.enginesDoneOrFaulted) then s.waitAt (.instr i)
  else if s.kfAny then s.trap 24 s.kfTval
  else
    let old := s.core.csr.mtcfg
    let s := s.drain.clearLost s.core.no true
    let s := { s with core := (s.core.reconfigure v).landHeld }
    s.result rd (result s.vlmax old)

/-- mtconf (09 R187). -/
def execMtconf (rd rs1 : XReg) (s : State) : Host.Outcome State Fault Refusal :=
  .next (s.mtconfAt (.mtconf rd rs1) rd (s.getX rs1) fun vlmax _ => BitVec.ofNat 64 vlmax)

/-- VL for a request: min(request, VLMAX, grant) (02 R28). -/
def State.boundVl (s : State) (request : Nat) : Nat := min request (min s.vlmax s.core.grant)
/-- Set VL. -/
def State.setVl (s : State) (n : Nat) : State := s.onCsr fun c => { c with vl := n }

/-- setvl (09 R188). -/
def execSetvl (rd rs1 : XReg) (s : State) : Host.Outcome State Fault Refusal :=
  let n := s.boundVl (s.getX rs1).toNat
  .next ((s.setVl n).result rd (BitVec.ofNat 64 n))

/-! ## Dispatch (09 R189, R190) -/

/-- vsync: wait for 02 R39; every access of an entry or a chain is then performed, and
no later access has been (14 R304); then complete, or
take cause 24 while a kf bit is set (09 R190). -/
def State.vsyncAt (s : State) : State :=
  if !s.drained then s.waitAt (.instr .vsync)
  else
    let s := (s.drainBy fun l => !l.ofCt).acquiredAll
    if s.kfAny then s.trap 24 s.kfTval else s.advance 4
/-- vsync (09 R190). -/
def execVsync (s : State) : Host.Outcome State Fault Refusal := .next s.vsyncAt

/-- vfetch (09 R189): the header's fetch is precise at the control thread (02 R37). -/
def execVfetch (mask : BitVec 4) (rs1 : XReg) (s : State) : Host.Outcome State Fault Refusal :=
  let a := s.getX rs1
  if a.toNat % 4 ≠ 0 then .next (s.trap 4 a)
  else match s.fetchMWord a with
  | (.error e, s) => .next (s.accTrap e .fetch a 0)
  | (.ok h, s) =>
    match s.fepolTrap (List.range ((bits h 4 6).toNat + 1)) with
    | some r => .next (s.trap 26 (BitVec.ofNat 64 r))
    | none => .next (s.issue (.vfetch mask rs1) .compute (.fetch a) mask none)

/-- A vector carrier (05 R118): every register of its word exists (02 R29); FEPOL (02 R44); then an entry. -/
def execVectorCarrier (mask : BitVec 4) (dt : Bool) (lane : BitVec 2) (word : MWord) (s : State) :
    Host.Outcome State Fault Refusal :=
  .next (s.withRegs (.vectorCarrier mask dt lane word) (namesOf word) fun s =>
    s.issue (.vectorCarrier mask dt lane word) .compute (.carrier word lane) mask none dt)

/-! ## Links and single elements (09 R191, R192) -/

/-- vlnkput (09 R191). -/
def execVlnkput (rs1 : XReg) (s : State) : Host.Outcome State Fault Refusal :=
  .next (s.issue (.vlnkput rs1) .load (.linkPut ((s.getX rs1).setWidth 32)) 0 none)
/-- vlnkget (09 R191). -/
def execVlnkget (rd : XReg) (s : State) : Host.Outcome State Fault Refusal :=
  .next (s.issue (.vlnkget rd) .store (.linkGet rd) 0 (some rd))
/-- vget (09 R192). -/
def execVget (v : VReg) (rs1 rd : XReg) (s : State) : Host.Outcome State Fault Refusal :=
  .next (s.withRegs (.vget v rs1 rd) [v.toNat] fun s =>
    s.issue (.vget v rs1 rd) .compute (.vget v (s.getX rs1).toNat rd) 0 (some rd))
/-- vput (09 R192): rs1 is the value, rx the element index. -/
def execVput (v : VReg) (rs1 rx : XReg) (s : State) : Host.Outcome State Fault Refusal :=
  .next (s.withRegs (.vput v rs1 rx) [v.toNat] fun s =>
    s.issue (.vput v rs1 rx) .compute (.vput v (s.getX rx).toNat ((s.getX rs1).setWidth 32)) 0 none)

/-! ## Masks (09 R194 to R197) -/

/-- kcmp (09 R194). -/
def execKcmp (cond : BitVec 5) (kd : BitVec 4) (a b : VReg) (s : State) : Host.Outcome State Fault Refusal :=
  .next (s.withRegs (.kcmp cond kd a b) [a.toNat, b.toNat] fun s => s.issue (.kcmp cond kd a b) .compute (.kcmp cond kd a b) 0 none)
/-- klog (09 R195). -/
def execKlog (tt kd ka kb : BitVec 4) (s : State) : Host.Outcome State Fault Refusal :=
  .next (s.issue (.klog tt kd ka kb) .compute (.klog tt kd ka kb) 0 none)
/-- ksbf (09 R196). -/
def execKsbf (kd ka : BitVec 4) (s : State) : Host.Outcome State Fault Refusal :=
  .next (s.issue (.ksbf kd ka) .compute (.kpre 0 kd ka) 0 none)
/-- ksif (09 R196). -/
def execKsif (kd ka : BitVec 4) (s : State) : Host.Outcome State Fault Refusal :=
  .next (s.issue (.ksif kd ka) .compute (.kpre 1 kd ka) 0 none)
/-- ksof (09 R196). -/
def execKsof (kd ka : BitVec 4) (s : State) : Host.Outcome State Fault Refusal :=
  .next (s.issue (.ksof kd ka) .compute (.kpre 2 kd ka) 0 none)
/-- kpop (09 R196). -/
def execKpop (rd : XReg) (ka : BitVec 4) (s : State) : Host.Outcome State Fault Refusal :=
  .next (s.issue (.kpop rd ka) .compute (.kpop rd ka) 0 (some rd))
/-- kfirst (09 R196). -/
def execKfirst (rd : XReg) (ka : BitVec 4) (s : State) : Host.Outcome State Fault Refusal :=
  .next (s.issue (.kfirst rd ka) .compute (.kfirst rd ka) 0 (some rd))
/-- kget (09 R197). -/
def execKget (rd : XReg) (k : BitVec 4) (rs1 : XReg) (s : State) : Host.Outcome State Fault Refusal :=
  .next (s.issue (.kget rd k rs1) .compute (.kget rd k (s.getX rs1).toNat) 0 (some rd))
/-- kput (09 R197). -/
def execKput (k : BitVec 4) (rs1 rs2 : XReg) (s : State) : Host.Outcome State Fault Refusal :=
  .next (s.issue (.kput k rs1 rs2) .compute (.kput k (s.getX rs1) (s.getX rs2).toNat) 0 none)

/-! ## Vector memory (09 R198 to R202) -/

/-- The size of a core's own space (09 R200). -/
def spaceBytes (space : BitVec 4) : Nat :=
  match space.toNat with | 1 => Config.stashBytes | 2 => Config.flysheetBytes | _ => Config.partBytes

/-- Why an element fails its checks: the cause, the address, and whether it was lost data. -/
structure ElemFail where
  m : Nat
  cause : Nat
  va : Word
  lost : Bool
deriving DecidableEq, Repr

/-- Checks 1 to 3 of 09 R200, in order, on an exact address. `reads` says that the access consumes the bytes. -/
def State.placeElem (s : State) (m : Nat) (a : Int) (n : Nat) (write reads atomic : Bool) : Except ElemFail Elem × State :=
  let va := BitVec.ofInt 64 a
  let kind : Access := if write then .store else .load
  let fail := fun (e : AccErr) (s : State) => (Except.error ⟨m, elemCause e write, va, e == .lost⟩, s)
  let space := s.core.csr.vspace
  let done := fun (pa : Nat) (s : State) => if atomic ∧ !atomicPlace pa true then fail .access s else (.ok ⟨m, va, pa⟩, s)
  if (if space = 0 then (va.toNat : Int) else a) % n ≠ 0 then (.error ⟨m, if write then 6 else 4, va, false⟩, s)
  else if space = 0 then
    match s.translate va kind s.ctMode with
    | (.error e, s) => fail e s
    | (.ok pa, s) =>
      if !s.reaches pa write then fail .access s
      else if write ∧ reads then
        match s.translate va .load s.ctMode with
        | (.error e, s) => fail e s
        | (.ok _, s) => done pa s
      else done pa s
  else if space = 5 then
    if a < 0 ∨ !s.reaches a.toNat write then fail .access s else done a.toNat s
  else if a < 0 ∨ (spaceBytes space : Int) < a + n then fail .access s
  else done (spaceAddr s.core.no space a.toNat) s

/-- Check 4 of 09 R200 on an element that has passed the others: `n` of its bytes are readable. -/
def State.checkLost (s : State) (write : Bool) (n : Nat) (x : Elem) : Except ElemFail Elem :=
  if s.lostAt x.pa n then .error ⟨x.m, elemCause .lost write, x.va, true⟩ else .ok x
/-- Where the `n` bytes of an element lie that the next entry is to have. -/
def State.nextSpot (s : State) (x : Elem) (n : Nat) : Spot :=
  { space := s.core.csr.vspace.toNat, addr := x.va.toNat, pa := x.pa, n := n }
/-- Stores to the bytes of an element of the next entry that were left are performed before these are looked at. -/
def State.nextTurn (s : State) (x : Elem) (n : Nat) : State := s.drainFor (.elem s.core.vec.nextEntry x.m) (s.nextSpot x n)
/-- The checks of 09 R200, in order, on an exact address. Bytes that an element not performed yet writes first (14 R301) are
looked at when their own turn comes. -/
def State.checkElem (s : State) (m : Nat) (a : Int) (n : Nat) (write reads atomic : Bool) : Except ElemFail Elem × State :=
  match s.placeElem m a n write reads atomic with
  | (.ok x, s) =>
    let s := if reads then s.nextTurn x n else s
    (if reads ∧ !s.bytesHeld s.core.vec.nextEntry s.core.csr.vspace false [(x.va.toNat, n)] then s.checkLost write n x else .ok x, s)
  | r => r

/-- Check elements in ascending order up to the first that fails: those that passed, the failure, the state. -/
def State.checkElems (s : State) (n : Nat) (write : Bool) (addr : Nat → Int) : List Nat → List Elem × Option ElemFail × State
  | [] => ([], none, s)
  | m :: ms =>
    match s.checkElem m (addr m) n write (!write) false with
    | (.error f, s) => ([], some f, s)
    | (.ok x, s) =>
      let (xs, f, s) := State.checkElems s n write addr ms
      (x :: xs, f, s)

/-- Record lost data's source (22 R362), set VRESUME, and trap at the instruction. -/
def State.elemTrapNow (s : State) (f : ElemFail) (vresume : Nat) : State :=
  ((if f.lost then s.countUe else s).onCsr fun c => { c with vresume := vresume, tsrc := if f.lost then 1 else c.tsrc }).trap f.cause f.va

/-- Entries of MX blocks. -/
def VOp.isMx (op : VOp) : Bool := match op with | .loadMx _ _ => true | .storeMx _ _ => true | _ => false
/-- Issue a memory entry whose checks have ended (02 R48): all passed, VRESUME is 0 and the control thread moves on;
one failed, the elements below it are performed first, then the trap is taken; an entry that can raise a flag retires first
even where it has no element (03 R85). -/
def State.issueMem (s : State) (i : Instr) (q : VQueue) (mask : BitVec 4) (op : VOp) (empty : Bool) (fail : Option ElemFail) : State :=
  match fail with
  | none => (s.pushEntry q op mask none 0).onCsr (fun c => { c with vresume := 0 }) |>.advance i.size
  | some f =>
    if empty && !op.isMx then s.elemTrapNow f f.m
    else
      let id := s.core.vec.nextEntry
      (s.pushEntry q op mask none 0).waitAt (.elemTrap f.cause f.va f.m id (if f.lost then 1 else 0))

/-- The active elements from VRESUME on. -/
def State.activeFrom (s : State) (mask : BitVec 4) (start : Nat) : List Nat :=
  (activeIn (s.mask mask) s.core.csr.vl).filter fun m => decide (start ≤ m)

/-- The guards of every vector memory instruction: registers, space 5 at user level (09 R185), and what the control
thread must wait for to know its elements: its mask, for elements from `start` on the registers that give their addresses, full
ones (02 R44), and room in its queue. With no such element it waits for no register (02 R28, 09 R184). -/
def State.memGuard (s : State) (i : Instr) (regs addrRegs : List Nat) (mask : BitVec 4) (start : Nat) (q : VQueue) (f : State → State) :
    State :=
  if s.core.csr.vspace = 5 ∧ s.core.ct.user then s.illegal i
  else s.withRegs i regs fun s =>
    let waits := s.regPending addrRegs mask || (s.regEmpty &&& regBits addrRegs) != 0
    if s.maskPending mask ∨ s.queueFull q ∨ ((s.activeFrom mask start) ≠ [] ∧ waits) then s else f s

/-- A load or a store of 09 R198. -/
def vecAccess (i : Instr) (write : Bool) (mask : BitVec 4) (v : VReg) (size : BitVec 2) (addrRegs : List Nat)
    (addr : State → Nat → Int) (s : State) : Host.Outcome State Fault Refusal :=
  let q : VQueue := if write then .store else .load
  .next (s.memGuard i (span v (sizeSpan size) ++ addrRegs) addrRegs mask s.core.csr.vresume q fun s =>
    let (xs, fail, s) := s.checkElems (sizeBytes size) write (addr s) (s.activeFrom mask s.core.csr.vresume)
    s.issueMem i q mask (if write then .store v size xs else .load v size xs) xs.isEmpty fail)

/-- Unit-stride addresses. -/
def unitAddr (rs1 : XReg) (size : BitVec 2) (s : State) (m : Nat) : Int := (s.getX rs1).toNat + (sizeBytes size * m : Nat)
/-- Strided addresses; the stride is signed. -/
def strideAddr (rs1 xs : XReg) (s : State) (m : Nat) : Int := (s.getX rs1).toNat + (s.getX xs).toInt * m
/-- Indexed addresses; the index is sign-extended. -/
def indexAddr (rs1 : XReg) (vi : BitVec 4) (s : State) (m : Nat) : Int := (s.getX rs1).toNat + (s.vreg vi.toNat m).toInt

/-- vld (09 R199). -/
def execVld (mask : BitVec 4) (v : VReg) (size : BitVec 2) (rs1 : XReg) (s : State) : Host.Outcome State Fault Refusal :=
  vecAccess (.vld mask v size rs1) false mask v size [] (unitAddr rs1 size) s
/-- vlds (09 R199). -/
def execVlds (mask : BitVec 4) (v : VReg) (size : BitVec 2) (rs1 xs : XReg) (s : State) : Host.Outcome State Fault Refusal :=
  vecAccess (.vlds mask v size rs1 xs) false mask v size [] (strideAddr rs1 xs) s
/-- vst (09 R199). -/
def execVst (mask : BitVec 4) (v : VReg) (size : BitVec 2) (rs1 : XReg) (s : State) : Host.Outcome State Fault Refusal :=
  vecAccess (.vst mask v size rs1) true mask v size [] (unitAddr rs1 size) s
/-- vsts (09 R199). -/
def execVsts (mask : BitVec 4) (v : VReg) (size : BitVec 2) (rs1 xs : XReg) (s : State) : Host.Outcome State Fault Refusal :=
  vecAccess (.vsts mask v size rs1 xs) true mask v size [] (strideAddr rs1 xs) s
/-- vldx (09 R199). -/
def execVldx (mask : BitVec 4) (v : VReg) (size : BitVec 2) (rs1 : XReg) (vi : BitVec 4) (s : State) : Host.Outcome State Fault Refusal :=
  vecAccess (.vldx mask v size rs1 vi) false mask v size [vi.toNat] (indexAddr rs1 vi) s
/-- vstx (09 R199). -/
def execVstx (mask : BitVec 4) (v : VReg) (size : BitVec 2) (rs1 : XReg) (vi : BitVec 4) (s : State) : Host.Outcome State Fault Refusal :=
  vecAccess (.vstx mask v size rs1 vi) true mask v size [vi.toNat] (indexAddr rs1 vi) s

/-- vldff (09 R202): from element 0; a failure above the lowest active element lowers VL, and VRESUME is left 0. -/
def execVldff (mask : BitVec 4) (v : VReg) (size : BitVec 2) (rs1 xs : XReg) (s : State) : Host.Outcome State Fault Refusal :=
  let i : Instr := .vldff mask v size rs1 xs
  let addr := if xs = 0 then unitAddr rs1 size else strideAddr rs1 xs
  .next (s.memGuard i (span v (sizeSpan size)) [] mask 0 .load fun s =>
    let s := s.onCsr fun c => { c with vresume := 0 }
    let (es, fail, s) := s.checkElems (sizeBytes size) false (addr s) (s.activeFrom mask 0)
    match fail with
    | none => s.issueMem i .load mask (.load v size es) false none
    | some f =>
      if es = [] then s.elemTrapNow f f.m
      else (s.issueMem i .load mask (.load v size es) false none).setVl f.m)

/-! ## MX blocks (09 R203) -/

/-- Micro-threads of an MX block: 4 of E2M1, 8 of eight-bit elements (09 R203). -/
def mxGroup (wide : Bool) : Nat := if wide then 8 else 4
/-- Check MX elements in ascending order; `prev` is the block that the element below belongs to. A scale byte that has passed
its check is written even where its element then fails. -/
def State.checkMx (s : State) (write wide : Bool) (base scales : Int) (act : List Nat) :
    Option Nat → List Nat → List MxElem × Option ElemFail × State
  | _, [] => ([], none, s)
  | prev, m :: ms =>
    let b := m / mxGroup wide
    let first := prev != some b
    match (if first then s.checkElem m (scales + b) 1 write (!write) false else (.ok ⟨m, BitVec.ofInt 64 (scales + b), 0⟩, s)) with
    | (.error f, s) => ([], some f, s)
    | (.ok sc, s) =>
      let group := if first then act.filter fun k => k / mxGroup wide == b else []
      match s.checkElem m (base + (4 * m : Nat)) 4 write (!write) false with
      | (.error f, s) => (if write && first then [⟨sc, sc, true, group, true⟩] else [], some f, s)
      | (.ok e, s) =>
        let (xs, f, s) := State.checkMx s write wide base scales act (some b) ms
        (⟨e, sc, first, group, false⟩ :: xs, f, s)

/-- vldmx and vstmx. -/
def mxAccess (i : Instr) (write : Bool) (mask : BitVec 4) (v : VReg) (wide : Bool) (rs1 xc : XReg) (s : State) :
    Host.Outcome State Fault Refusal :=
  let q : VQueue := if write then .store else .load
  .next (s.memGuard i (span v 2) [] mask s.core.csr.vresume q fun s =>
    let (xs, fail, s) := s.checkMx write wide (s.getX rs1).toNat (s.getX xc).toNat (s.activeFrom mask 0) none
      (s.activeFrom mask s.core.csr.vresume)
    s.issueMem i q mask (if write then .storeMx v xs else .loadMx v xs) xs.isEmpty fail)
/-- vldmx (09 R203). -/
def execVldmx (mask : BitVec 4) (v : VReg) (wide : Bool) (rs1 xc : XReg) (s : State) : Host.Outcome State Fault Refusal :=
  mxAccess (.vldmx mask v wide rs1 xc) false mask v wide rs1 xc s
/-- vstmx (09 R203). -/
def execVstmx (mask : BitVec 4) (v : VReg) (wide : Bool) (rs1 xc : XReg) (s : State) : Host.Outcome State Fault Refusal :=
  mxAccess (.vstmx mask v wide rs1 xc) true mask v wide rs1 xc s

/-! ## VAMO (09 R204, R205) -/

/-- The address of a VAMO element: a pair in spaces 0 and 5, a stash offset in space 1. -/
def vamoAddr (x : BitVec 5) (s : State) (m : Nat) : Int :=
  if s.core.csr.vspace = 1 then (s.vreg x.toNat m).toNat else (s.vreg x.toNat m).toNat + 2 ^ 32 * (s.vreg (x.toNat + 1) m).toNat
/-- The named scope of a VAMO is narrower than the home of an element, which is then not performed and raises no fault
(09 R205). -/
def State.misses (s : State) (scope : BitVec 3) (x : Elem) : Bool :=
  decide (scope.toNat < s.homeScope (if s.core.csr.vspace = 0 then s.keyFor (some x.va.toNat) else .block) x.pa)
/-- Check VAMO elements in ascending order. -/
def State.checkAmos (s : State) (scope : BitVec 3) (addr : Nat → Int) : List Nat → List Elem × Option ElemFail × State
  | [] => ([], none, s)
  | m :: ms =>
    match s.placeElem m (addr m) 4 true true true with
    | (.error f, s) => ([], some f, s)
    | (.ok x, s) =>
      let s := s.nextTurn x 4
      let later := s.misses scope x || s.bytesHeld s.core.vec.nextEntry s.core.csr.vspace false [(x.va.toNat, 4)]
      match if later then .ok x else s.checkLost true 4 x with
      | .error f => ([], some f, s)
      | .ok x =>
        let (xs, f, s) := State.checkAmos s scope addr ms
        (x :: xs, f, s)
/-- vamo (09 R204, R205): spaces 2 to 4, and an odd address pair, are cause 2. -/
def execVamo (mask : BitVec 4) (v : VReg) (op : BitVec 4) (scope : BitVec 3) (x : BitVec 5) (s : State) : Host.Outcome State Fault Refusal :=
  let i : Instr := .vamo mask v op scope x
  let sp := s.core.csr.vspace
  let pairSpace := sp = 0 ∨ sp = 5
  let addrRegs := if pairSpace then [x.toNat, x.toNat + 1] else [x.toNat]
  if (2 ≤ sp.toNat ∧ sp.toNat ≤ 4) ∨ (pairSpace ∧ x.toNat % 2 = 1) then .next (s.illegal i)
  else .next (s.memGuard i (span v (WF.atomicSpan 2 op) ++ addrRegs) addrRegs mask s.core.csr.vresume .store fun s =>
    let (xs, fail, s) := s.checkAmos scope (vamoAddr x s) (s.activeFrom mask s.core.csr.vresume)
    s.issueMem i .store mask (.amo v op scope xs) xs.isEmpty fail)

/-- A control-thread scalar access must wait: an earlier vlnkget has not retired (14 R303), or, in space 0, an element
that has not been performed meets its bytes and one of the two writes (14 R301). -/
def State.spaceBlocked (s : State) (space : BitVec 4) (va : Word) (n : Nat) (write : Bool) : Bool :=
  let next := s.core.vec.nextEntry
  s.linkGetBefore next || (space == 0 && s.bytesHeld next 0 write [(va.toNat, n)])
/-- The same of an access by virtual address. -/
def State.scalarBlocked (s : State) (va : Word) (n : Nat) (write : Bool) : Bool := s.spaceBlocked 0 va n write

/-! ## Work counters and work vectors (09 R206, R207) -/

/-- A record of `n` bytes under VSPACE 0 or 1, readable and writable, its address aligned to `align` already. -/
def State.checkRecord (s : State) (a : Word) (align n : Nat) : Except ElemFail Elem × State :=
  match s.placeElem 0 a.toNat align true true true with
  | (.ok x, s) =>
    let s := s.inTurn .ct (s.nextSpot x n)
    (s.checkLost true n x, s)
  | r => r

/-- vclaim (09 R206). -/
def execVclaim (rd rs1 rs2 : XReg) (s : State) : Host.Outcome State Fault Refusal :=
  let a := s.getX rs1
  let sp := s.core.csr.vspace
  if 2 ≤ sp.toNat then .next (s.illegal (.vclaim rd rs1 rs2))
  else if a.toNat % 16 ≠ 0 then .next (s.trap 6 a)
  else if s.spaceBlocked sp a 16 true then .next s
  else match s.checkRecord a 16 16 with
  | (.error f, s) => .next ((s.onCsr fun c => { c with tsrc := if f.lost then 0 else c.tsrc }).trap f.cause a)
  | (.ok x, s) =>
    let s := ((s.release (max 3 (s.homeScope .block x.pa))).acquireWords x.pa 2).acquired
    let limit := min (s.getX rs2).toNat (min s.vlmax s.core.grant)
    let claim := fun old : Nat =>
      let nx := BitVec.ofNat 64 old
      let lim := BitVec.ofNat 64 (old / 2 ^ 64)
      min limit (lim.toInt - nx.toInt).toNat
    let k := if s.core.csr.vspace = 0 then s.keyFor (some a.toNat) else .block
    let (old, s) := s.rmwAt k x.pa 16 fun old =>
      let n := claim old
      if n = 0 then none else some ((old % 2 ^ 64 + n) % 2 ^ 64 + old / 2 ^ 64 * 2 ^ 64)
    .next ((s.setVl (claim old)).result rd (BitVec.ofNat 64 old))

/-- The three words of a work vector's record at their home, under the entry that covers them (09 R207, 13 R286, R288). -/
def State.recordRead (s : State) (k : TKey) (pa : Nat) : Nat × State :=
  if placeOf pa = .ddr then s.homeReadBy k pa 24 else s.physRead k pa 24
/-- vappend (09 R207). With VL 0 it appends nothing and writes nothing (02 R28). That lost data of its record is a vector element's
in TSRC, and VCLAIM's a scalar access's, is DESIGN CHOICE (log 71). -/
def execVappend (mask : BitVec 4) (v : VReg) (rs1 rd : XReg) (s : State) : Host.Outcome State Fault Refusal :=
  let i : Instr := .vappend mask v rs1 rd
  let a := s.getX rs1
  if 2 ≤ s.core.csr.vspace.toNat then .next (s.illegal i)
  else .next (s.memGuard i [v.toNat] [] mask 0 .store fun s =>
    let noTrap := fun (s : State) => s.onCsr fun c => { c with vresume := 0 }
    if a.toNat % 32 ≠ 0 then (noTrap s).trap 6 a
    else if s.linkGetBefore s.core.vec.nextEntry ∨ s.bytesHeld s.core.vec.nextEntry s.core.csr.vspace true [(a.toNat, 24)] then s
    else match s.checkRecord a 32 24 with
    | (.error f, s) => s.elemTrapNow { f with va := a } 0
    | (.ok x, s) =>
      let key := if s.core.csr.vspace = 0 then s.keyFor (some a.toNat) else .block
      let (old, s) := s.recordRead key x.pa
      let tail : Int := (BitVec.ofNat 64 old).toInt
      let cap : Int := (BitVec.ofNat 64 (old / 2 ^ 64)).toInt
      let base := old / 2 ^ 128 % 2 ^ 64
      if base % 4 ≠ 0 then (noTrap s).trap 6 (BitVec.ofNat 64 base)
      else
        let act := activeIn (s.mask mask) s.core.csr.vl
        let k := min act.length (cap - tail).toNat
        let addr := fun j : Nat => (base : Int) + 4 * (tail + j)
        let (xs, fail, s2) := s.checkElems 4 true addr (List.range k)
        match fail with
        | some f => s2.elemTrapNow f 0
        | none =>
          let s3 := if s2.core.csr.vl = 0 then s2 else (s2.rmwAt key x.pa 8 fun _ => some ((tail + k) % 2 ^ 64).toNat).2
          let xs := (act.zip xs).map fun (m, x) => { x with m := m }
          ((noTrap (s3.pushEntry .store (.append v xs rd) mask (some rd) (BitVec.ofNat 64 k)))).advance 4)

/-! ## SC accesses (09 R208) -/

/-- ldsc (09 R208). -/
def execLdsc (dbl : Bool) (rd rs1 : XReg) (s : State) : Host.Outcome State Fault Refusal :=
  let a := s.getX rs1
  let n := if dbl then 8 else 4
  if a.toNat % n ≠ 0 then .next (s.trap 4 a)
  else if s.scalarBlocked a n false then .next s
  else match s.checkOwn .ct a n s.ctMode with
  | (.error e, s) => .next (s.accTrap e .load a 0)
  | (.ok pa, s) =>
    let s := (s.release 3).inTurn .ct (virtSpot a pa n)
    let (v, s) := s.physRead (s.keyFor (some a.toNat)) pa n
    .next ((s.acquireAt pa).acquired.result rd (if dbl then BitVec.ofNat 64 v else (BitVec.ofNat 32 v).signExtend 64))

/-- stsc (09 R208). -/
def execStsc (dbl : Bool) (rs2 rs1 : XReg) (s : State) : Host.Outcome State Fault Refusal :=
  let a := s.getX rs1
  let n := if dbl then 8 else 4
  if a.toNat % n ≠ 0 then .next (s.trap 6 a)
  else if s.scalarBlocked a n true then .next s
  else match s.checkVirt a n .store s.ctMode with
  | (.error e, s) => .next (s.accTrap e .store a 0)
  | (.ok pa, s) =>
    let s := ((s.release 3).inTurn .ct (virtSpot a pa n)).acquired
    let k := s.keyFor (some a.toNat)
    .next ((s.physWrite k pa n (s.getX rs2).toNat k.keeps).advance 4)

end Sys2Proof.Machine
end

