-- ==== Sys2Proof/Machine/Sync.lean ====
section
/-! DEFINITION. Fences, waiting and waking, named barriers, LTSYNC, JTRIG and JEXIT (11 R253 to R259). -/

namespace Sys2Proof.Machine

/-! ## Slots of the dispatch hardware (23 R382, R383) -/

/-- The slot of a core number. -/
def State.slot (s : State) (n : Nat) : Slot := Table.get Slot.free s.disp.slots n
/-- Replace the slot of a core number. -/
def State.setSlot (s : State) (n : Nat) (x : Slot) : State := { s with disp := { s.disp with slots := Table.set Slot.free s.disp.slots n x } }
/-- The gang that a slot's bind record names. -/
def Slot.gang (x : Slot) : Nat := match x.bind with | some b => b.gangId | none => 0
/-- The gang of the core in focus. -/
def State.gangNow (s : State) : Nat := (s.slot s.core.no).gang
/-- A report to Sheepdog (23 R386). -/
def State.report (s : State) (r : Report) : State := { s with sheep := { s.sheep with reports := s.sheep.reports ++ [r] } }

/-! ## Fences (11 R253 to R255) -/

/-- What a fence still waits for: earlier entries under v, earlier commands under e. -/
def State.fenceWaits (s : State) (pred : BitVec 4) : Bool :=
  (pred.getLsbD 2 && s.core.vec.queue != []) || (pred.getLsbD 3 && s.core.vec.cmds != [])
/-- An access that was left belongs to PRED: r names the control thread's loads and atomics, w its stores and atomics, v what entries
and micro-threads left (11 R253). -/
def inPred (pred : BitVec 4) (l : Late) : Bool :=
  if l.ofCt then
    match l.op with
    | .store _ => pred.getLsbD 0
    | .load _ _ _ => pred.getLsbD 1
    | _ => pred.getLsbD 0 || pred.getLsbD 1
  else pred.getLsbD 2
/-- OFENCE: its waits; then the accesses in PRED that were left are performed at the scope, and under w, v or e written back too (15
R311); no read in SUCC has been performed early: the control thread's under r, those of entries and micro-threads under v (14
R305). -/
def State.ofenceAt (s : State) (i : Instr) (pred succ : BitVec 4) (scope : Nat) : State :=
  if s.fenceWaits pred then s.waitAt (.instr i)
  else
    let writes := pred.extractLsb' 0 1 = 1 ∨ pred.extractLsb' 2 2 ≠ 0
    let s := s.releaseBy (inPred pred) (if writes then scope else min scope 1)
    let s := if succ.getLsbD 1 ∧ pred ≠ 0 then s.acquired else s
    (if succ.getLsbD 2 ∧ pred ≠ 0 ∧ scope ≠ 0 then s.acquiredVec else s).advance 4
/-- ofence (11 R253). -/
def execOfence (pred succ : BitVec 4) (scope : BitVec 3) (s : State) : Host.Outcome State Fault Refusal :=
  .next (s.ofenceAt (.ofence pred succ scope) pred succ scope.toNat)

/-- The OFENCE set of a FENCE set: r from R or I, w from W or O (11 R255). FENCE sets are I, O, R, W from bit 3. -/
def fenceSet (x : BitVec 4) : BitVec 4 := (0 : BitVec 2) ++ bit1 (x.getLsbD 1 || x.getLsbD 3) ++ bit1 (x.getLsbD 0 || x.getLsbD 2)
/-- The scope of a FENCE: .sy when I or O stands in either set, else .mo (11 R255). -/
def fenceScope (pred succ : BitVec 4) : Nat := if (pred ||| succ).extractLsb' 2 2 ≠ 0 then 4 else 3
/-- A FENCE as the OFENCE that it is. -/
def State.fenceAt (s : State) (fm pred succ : BitVec 4) : State :=
  s.ofenceAt (.fence fm pred succ) (fenceSet pred) (fenceSet succ) (if fm = 8 ∧ pred = 3 ∧ succ = 3 then 3 else fenceScope pred succ)
/-- fence (11 R255): an empty set has no effect; FENCE.TSO is FENCE rw,rw. -/
def execFence (fm pred succ : BitVec 4) (s : State) : Host.Outcome State Fault Refusal :=
  .next (
    if pred = 0 ∨ succ = 0 then s.advance 4 else s.fenceAt fm pred succ)

/-! ## Words that WAITA and NOTIFY name (11 R256, R257) -/

/-- Where such a word lies. -/
def State.wordSpot (s : State) (a : Word) (pa : Nat) : Spot := { space := s.core.csr.vspace.toNat, addr := a.toNat, pa := pa, n := 4 }
/-- The place and the entry of a 4-byte word at an address of the space that VSPACE selects, or why not. -/
def State.wordPlace (s : State) (a : Word) (write : Bool) : Except AccErr (Nat × TKey) × State :=
  let space := s.core.csr.vspace
  if space = 0 then
    match if write then s.checkVirt a 4 .store s.ctMode else s.checkOwn .ct a 4 s.ctMode with
    | (.error e, s) => (.error e, s)
    | (.ok pa, s) => (.ok (pa, s.keyFor (some a.toNat)), s)
  else
    let pa := if space = 5 then a.toNat else spaceAddr s.core.no space a.toNat
    if (space ≠ 5 ∧ spaceBytes space < a.toNat + 4) ∨ !s.reaches pa write then (.error .access, s)
    else
      let s := if write then s else s.drainFor .ct (s.wordSpot a pa)
      if !write ∧ s.lostAt pa 4 then (.error .lost, s) else (.ok (pa, .block), s)
/-- The spaces that these instructions allow. -/
def State.wordSpaceOk (s : State) : Bool :=
  let sp := s.core.csr.vspace.toNat
  !(decide (2 ≤ sp ∧ sp ≤ 4) || (sp == 5 && s.core.ct.user))
/-- An earlier entry must be performed before this access (14 R301, R303). -/
def State.wordBlocked (s : State) (a : Word) (write : Bool) : Bool := s.spaceBlocked s.core.csr.vspace a 4 write

/-- The conditions of WAITA (11 R256): 0 eq, 1 ne, 2 geu, 3 ltu. -/
def waitaHolds (cond : Nat) (w v : MWord) : Bool :=
  match cond with
  | 0 => w == v
  | 1 => w != v
  | 2 => !w.ult v
  | _ => w.ult v
/-- The timeout of a WAITA that began at a cycle has passed. -/
def State.waitaExpired (s : State) (start : Nat) (limit : Word) : Bool :=
  limit != BitVec.allOnes 64 && decide (start + limit.toNat ≤ s.base.cycle)

/-- One turn of WAITA's loop: read the word as an acquire; done, timed out, or asleep (11 R256). DEDUCED (log 26). -/
def State.waitaAt (s : State) (i : Instr) (cond : Nat) (rd rs1 rs2 rs3 : XReg) : State :=
  let a := s.getX rs1
  if !s.wordSpaceOk then s.illegal i
  else if a.toNat % 4 ≠ 0 then s.trap 4 a
  else if s.wordBlocked a false then s
  else match s.wordPlace a false with
  | (.error e, s) => s.accTrap e .load a 0
  | (.ok (pa, k), s) =>
    let (x, s) := (s.inTurn .ct (s.wordSpot a pa)).physRead k pa 4
    let s := (s.acquireAt pa).acquired
    let w := BitVec.ofNat 32 x
    let start := s.core.ct.waitaStart.getD s.base.cycle
    if waitaHolds cond w ((s.getX rs2).setWidth 32) then s.result rd (w.setWidth 64)
    else if s.waitaExpired start (s.getX rs3) then s.result rd (w.setWidth 64 ||| BitVec.twoPow 64 63)
    else (s.waitAt (.sleep i pa s.core.ltime false)).onCt fun c => { c with waitaStart := some start }
/-- waita.eq (11 R256). -/
def execWaitaEq (rd rs1 rs2 rs3 : XReg) (s : State) : Host.Outcome State Fault Refusal :=
  .next (s.waitaAt (.waitaEq rd rs1 rs2 rs3) 0 rd rs1 rs2 rs3)
/-- waita.ne (11 R256). -/
def execWaitaNe (rd rs1 rs2 rs3 : XReg) (s : State) : Host.Outcome State Fault Refusal :=
  .next (s.waitaAt (.waitaNe rd rs1 rs2 rs3) 1 rd rs1 rs2 rs3)
/-- waita.geu (11 R256). -/
def execWaitaGeu (rd rs1 rs2 rs3 : XReg) (s : State) : Host.Outcome State Fault Refusal :=
  .next (s.waitaAt (.waitaGeu rd rs1 rs2 rs3) 2 rd rs1 rs2 rs3)
/-- waita.ltu (11 R256). -/
def execWaitaLtu (rd rs1 rs2 rs3 : XReg) (s : State) : Host.Outcome State Fault Refusal :=
  .next (s.waitaAt (.waitaLtu rd rs1 rs2 rs3) 3 rd rs1 rs2 rs3)

/-- A sleeping WAITA, its operands by condition. -/
def waitaOf (i : Instr) : Option (Nat × XReg × XReg × XReg × XReg) :=
  match i with
  | .waitaEq rd a b c => some (0, rd, a, b, c)
  | .waitaNe rd a b c => some (1, rd, a, b, c)
  | .waitaGeu rd a b c => some (2, rd, a, b, c)
  | .waitaLtu rd a b c => some (3, rd, a, b, c)
  | _ => none
/-- The lease of the core in focus on a block of DDR has ended. -/
def State.leaseEnded (s : State) (pa : Nat) : Bool :=
  match s.core.copy (blockOf pa) with
  | some x => !((s.tenure x.key pa).holder == some s.core.no || ltGe (s.core.leaseEnd x) (some s.core.ltime))
  | none => true
/-- A bound of 11 R256 on a sleep has been reached: the end of the lease for DDR, LTLEASE ticks since the last read for
another place that takes no tenure but the own stash. -/
def State.sleepEnds (s : State) (pa : Nat) (readAt : BitVec 32) : Bool :=
  match placeOf pa with
  | .ddr => s.leaseEnded pa
  | .window c .stash _ => c != s.core.no && decide (s.core.lease ≤ (s.core.ltime - readAt).toNat)
  | _ => decide (s.core.lease ≤ (s.core.ltime - readAt).toNat)
/-- The timeout of the WAITA that sleeps has passed. -/
def State.sleepExpired (s : State) (i : Instr) : Bool :=
  match waitaOf i with
  | some (_, _, _, _, rs3) => s.waitaExpired (s.core.ct.waitaStart.getD s.base.cycle) (s.getX rs3)
  | none => false
/-- WAITA runs its loop again. -/
def State.wake (s : State) (i : Instr) : State :=
  match waitaOf i with
  | some (cond, rd, rs1, rs2, rs3) => (s.onCt fun c => { c with wait := none }).waitaAt i cond rd rs1 rs2 rs3
  | none => s
/-- WAITA_WAKE (11 R256). -/
def execWaitaWake (s : State) : Host.Outcome State Fault Refusal :=
  match s.core.ct.wait with
  | some (.sleep i pa t woken) => .next (if woken ∨ s.sleepEnds pa t then s.wake i else s)
  | _ => .next s
/-- WAITA_TIMEOUT (11 R256): the word is read again; if its condition does not hold, rd has bit 63 set. -/
def execWaitaTimeout (s : State) : Host.Outcome State Fault Refusal :=
  match s.core.ct.wait with
  | some (.sleep i _ _ _) => .next (if s.sleepExpired i then s.wake i else s)
  | _ => .next s

/-- NOTIFY wakes the sleepers of its scope on a block (11 R256): 1 .co this core, 2 .di its die, else every core. -/
def State.notifyWakes (s : State) (scope b : Nat) : State :=
  let inScope := fun n : Nat => if scope = 1 then n == s.core.no else if scope = 2 then dieOf n == dieOf s.core.no else true
  { s with core := s.core.wakeOn b, others := s.others.map fun (n, c) => (n, if inScope n then c.wakeOn b else c) }
/-- notify (11 R257): a release, a store at the word's home, or under the tenure that the core holds (13 R287), and the wake. -/
def execNotify (scope : BitVec 3) (rs1 rs2 : XReg) (s : State) : Host.Outcome State Fault Refusal :=
  let a := s.getX rs1
  let v := (s.getX rs2).toNat % 2 ^ 32
  if !s.wordSpaceOk then .next (s.illegal (.notify scope rs1 rs2))
  else if a.toNat % 4 ≠ 0 then .next (s.trap 6 a)
  else if s.wordBlocked a true then .next s
  else match s.wordPlace a true with
  | (.error e, s) => .next (s.accTrap e .store a 0)
  | (.ok (pa, k), s) =>
    let s := (s.release scope.toNat).inTurn .ct (s.wordSpot a pa)
    let s := s.physWrite k pa 4 v false
    .next ((s.notifyWakes scope.toNat (blockOf pa)).advance 4)

/-! ## Named barriers (11 R258) -/

/-- HOME and B of a barrier name. -/
def barHome (x : Word) : Nat := (x.extractLsb' 8 16).toNat
def barNumber (x : Word) : Nat := (x.extractLsb' 0 5).toNat
/-- A barrier of a core. -/
def Core.barrier (c : Core) (b : Nat) : Barrier := Table.get Barrier.zero c.vec.barriers b
/-- Replace a barrier of a core. -/
def Core.setBarrier (c : Core) (b : Nat) (x : Barrier) : Core :=
  { c with vec := { c.vec with barriers := Table.set Barrier.zero c.vec.barriers b x } }
/-- Where a home's barriers are: a core, or dispatch for an exited member (23 R383). -/
inductive BarPlace where
  | core (n : Nat)
  | held (gang ix : Nat)
deriving DecidableEq, Repr
/-- The place of home `h` of this gang. DEDUCED (log 27). -/
def State.barPlace (s : State) (h : Nat) : Option BarPlace :=
  if h = s.core.csr.gangix.toNat then some (.core s.core.no)
  else
    let g := s.gangNow
    match s.disp.slots.find? fun (_, x) => (x.state == .running || x.state == .unmapping) && (match x.bind with | some b => b.gangId == g && b.gangIx == h | none => false) with
    | some (n, _) => if (s.coreAt n).phase = .restoring then none else some (.core n)
    | none => if s.disp.held.any fun x => x.gang == g && x.ix == h then some (.held g h) else none
/-- The barrier at a place. -/
def State.barrierAt (s : State) (p : BarPlace) (b : Nat) : Barrier :=
  match p with
  | .core n => (s.coreAt n).barrier b
  | .held g h =>
    match s.disp.held.find? fun x => x.gang == g && x.ix == h with
    | some x => Table.get Barrier.zero x.bars b
    | none => Barrier.zero
/-- Replace the barrier at a place. -/
def State.setBarrierAt (s : State) (p : BarPlace) (b : Nat) (x : Barrier) : State :=
  match p with
  | .core n => s.onCore n fun c => c.setBarrier b x
  | .held g h =>
    { s with disp := { s.disp with held := s.disp.held.map fun y =>
        if y.gang = g ∧ y.ix = h then { y with bars := Table.set Barrier.zero y.bars b x } else y } }

/-- An arrival at a time: the phase completes when ARRIVED reaches COUNT. -/
def Barrier.arrive (x : Barrier) (t : BitVec 32) : Barrier :=
  let high := raise t x.high
  if x.count.toNat ≤ x.arrived.toNat + 1 then
    { x with arrived := 0, phase := x.phase + 1, high := none, done := Table.set 0 x.done x.phase.toNat high }
  else { x with arrived := x.arrived + 1, high := some high }

/-- barinit (11 R258). -/
def execBarinit (rs1 rs2 : XReg) (s : State) : Host.Outcome State Fault Refusal :=
  let b := barNumber (s.getX rs1)
  let x := s.core.barrier b
  .next ({ s with core := s.core.setBarrier b { x with count := (s.getX rs2).setWidth 16, arrived := 0 } }.advance 4)
/-- bararv (11 R258): a release at module scope, then the arrival; a home that is nowhere in the gang yet waits. -/
def execBararv (rs1 : XReg) (s : State) : Host.Outcome State Fault Refusal :=
  let v := s.getX rs1
  let b := barNumber v
  if s.core.csr.gangsize.toNat ≤ barHome v then .next (s.trap 7 v)
  else match s.barPlace (barHome v) with
  | none => .next s
  | some p =>
    let s := s.release 3
    let x := s.barrierAt p b
    let s := s.setBarrierAt p b (x.arrive s.core.ltime)
    let own := { s.core.barrier b with arvPhase := some x.phase }
    .next ({ s with core := s.core.setBarrier b own }.advance 4)
/-- BARWAIT: the wait for the phase that this core's arrival joined, then an acquire (11 R258). -/
def State.barwaitAt (s : State) (rs1 : XReg) : State :=
  let v := s.getX rs1
  let b := barNumber v
  if s.core.csr.gangsize.toNat ≤ barHome v then s.trap 5 v
  else match (s.core.barrier b).arvPhase, s.barPlace (barHome v) with
  | none, _ => s.advance 4
  | some _, none => s.waitAt (.instr (.barwait rs1))
  | some ph, some p =>
    let x := s.barrierAt p b
    if x.phase = ph then s.waitAt (.instr (.barwait rs1)) else ((s.raiseTime (some (Table.get 0 x.done ph.toNat))).acquired).advance 4
/-- barwait (11 R258). -/
def execBarwait (rs1 : XReg) (s : State) : Host.Outcome State Fault Refusal := .next (s.barwaitAt rs1)

/-! ## Logical time and the end of a job (11 R259) -/

/-- How far an LTSYNC advances: at most 2^30 − 1 ticks, and not past 2^20 ticks after the module time received last. -/
def ltsyncStep (now target module : BitVec 32) : Nat :=
  let d := (target - now).toNat
  let room := (module + 0x10_0000 - now).toNat
  if d = 0 ∨ 2 ^ 31 ≤ d ∨ 2 ^ 31 ≤ room then 0 else min d (min (2 ^ 30 - 1) room)
/-- ltsync (11 R259): SC at module scope (R239). -/
def execLtsync (rd rs1 : XReg) (s : State) : Host.Outcome State Fault Refusal :=
  let s := (s.release 3).acquired
  let n := ltsyncStep s.core.ltime ((s.getX rs1).setWidth 32) s.core.moduleTime
  let c := s.core.later n
  .next ({ s with core := c }.result rd (c.ltime.setWidth 64))

/-- The core counts as triggered, once (11 R259, 02 R55). -/
def State.triggerCore (s : State) : State :=
  if s.core.triggered then s
  else { s with core := { s.core with triggered := true } }.report (.triggered s.gangNow s.core.csr.gangix.toNat)
/-- JTRIG: its waits, a release at module scope, the trigger (11 R259). -/
def State.jtrigAt (s : State) : State :=
  if s.core.vec.queue != [] || s.core.vec.cmds != [] then s.waitAt (.instr .jtrig)
  else ((s.drain.release 3).triggerCore).advance 4
/-- jtrig (11 R259). -/
def execJtrig (s : State) : Host.Outcome State Fault Refusal := .next s.jtrigAt

/-- The core has no job any more (13 R281, 23 R383): no address space, no pending pre-emption, nothing to wait for, no access
ahead of its instruction or left behind. -/
def Core.unbound (c : Core) : Core :=
  { c with phase := .unbound, asid := none, prevAsid := c.asid.or c.prevAsid, pendingSince := none, stopForced := false,
           noticeTaken := false, ready := false, triggered := false, misses := [], missed := [], awaiting := false,
           ct := { c.ct with wait := none, waitaStart := none, pendingX := [], reservation := none, windowReservation := none, early := [] },
           vec := { c.vec with early := [], late := [] } }
/-- Dispatch holds the barriers of a member that has exited (23 R383). -/
def State.holdBarriers (s : State) : State :=
  { s with disp := { s.disp with held := s.disp.held ++ [{ gang := s.gangNow, ix := s.core.csr.gangix.toNat, bars := s.core.vec.barriers }] } }
/-- JEXIT: its waits, cause 24, a release at system scope, the report, and the unbinding (11 R259, 23 R383). -/
def State.jexitAt (s : State) (rs1 : XReg) : State :=
  if !s.drained || s.core.vec.cmds != [] then s.waitAt (.instr (.jexit rs1))
  else if s.kfAny then s.trap 24 s.kfTval
  else
    let status := (s.getX rs1).setWidth 32
    let s := (s.drain.release 4).triggerCore
    let s := s.report (.exited s.core.no s.gangNow s.core.csr.gangix.toNat status (!s.core.ct.user))
    let s := s.holdBarriers.advance 4
    let s := s.setSlot s.core.no Slot.free
    { s with core := s.core.unbound }
/-- jexit (11 R259). -/
def execJexit (rs1 : XReg) (s : State) : Host.Outcome State Fault Refusal := .next (s.jexitAt rs1)

end Sys2Proof.Machine
end

