-- ==== Sys2Proof/Machine/RiscV.lean ====
section
/-! DEFINITION. RISC-V instructions to which Osnex 2 adds: scalar loads and stores, atomics, LR and SC, fence.i and
sfence.vma (11 R255, R418; 13 R277; 15 R309, R310; 22 R353). A misaligned access traps, as the order of 22 R350 names
causes 4 and 6 (log 21). -/

namespace Sys2Proof.Machine

/-! ## Scalar loads and stores -/

/-- Bytes of a size code. -/
def rvBytes (size : BitVec 2) : Nat := 2 ^ size.toNat
/-- The instruction of `len` bytes at the pc is past; its access at a spot is left, and owes `rd` a value (14 R298). -/
def State.leaveOwing (s : State) (len : Nat) (x : Spot) (o : LateOp) (rd : XReg) : State :=
  ((s.leave .ct x o).onCt fun c => { c with pendingX := c.pendingX ++ [(0, rd)] }).advance len
/-- A load by an instruction of `len` bytes, at an address from register `rs1`: performed now, or early, or left where the turn says
so. DESIGN CHOICE (log 11). -/
def State.scalarLoad (s : State) (len : Nat) (kind : LoadKind) (rd rs1 : XReg) (a : Word) : State :=
  let n := rvBytes kind.size
  if a.toNat % n ≠ 0 then s.trap 4 a
  else if s.scalarBlocked a n false then s
  else match s.checkOwn .ct a n s.ctMode with
  | (.error e, s) => s.accTrap e .load a 0
  | (.ok pa, s) =>
    let x := virtSpot a pa n
    if s.defers && s.mayLeave pa then (s.forgetEarly .ct x).leaveOwing len x (.load rd kind.size kind.signed) rd
    else
      let (v, s) := s.plainRead .ct (some [.x rs1.toNat]) (s.keyFor (some a.toNat)) x [.x rd.toNat]
      (s.setX rd (rvExtend kind.size kind.signed v)).advance len
/-- A store by an instruction of `len` bytes. -/
def State.scalarStore (s : State) (len : Nat) (kind : StoreKind) (v a : Word) : State :=
  let n := rvBytes kind.size
  if a.toNat % n ≠ 0 then s.trap 6 a
  else if s.scalarBlocked a n true then s
  else match s.storePlain .ct a n (v.toNat % 2 ^ (8 * n)) s.ctMode with
  | (.error e, s) => s.accTrap e .store a 0
  | (.ok (), s) => s.advance len

/-- A RISC-V load (15 R309). -/
def execCtScalarLoad (kind : LoadKind) (rd rs1 : XReg) (off : BitVec 12) (s : State) : Host.Outcome State Fault Refusal :=
  .next (s.scalarLoad 4 kind rd rs1 (s.getX rs1 + off.signExtend 64))
/-- A RISC-V store (15 R310). -/
def execCtScalarStore (kind : StoreKind) (rs2 rs1 : XReg) (off : BitVec 12) (s : State) : Host.Outcome State Fault Refusal :=
  .next (s.scalarStore 4 kind (s.getX rs2) (s.getX rs1 + off.signExtend 64))

/-! ## Atomics (11 R255) -/

/-- Bytes of an atomic. -/
def dblBytes (dbl : Bool) : Nat := if dbl then 8 else 4
/-- The value of an atomic as rd holds it. -/
def dblValue (dbl : Bool) (v : Nat) : Word := if dbl then BitVec.ofNat 64 v else (BitVec.ofNat 32 v).signExtend 64
/-- The scope of an atomic: .mo, or .sy for host memory (11 R255). -/
def State.rvScope (s : State) (pa : Nat) : Nat := max 3 (s.homeScope .block pa)
/-- What an atomic access of the control thread at a spot comes after, its own accesses to the bytes (14 R296), and what aq and rl ask
of it: rl a release before it, aq an acquire of it (11 R255, 15 R311, R324). -/
def State.ordered (s : State) (aq rl : Bool) (x : Spot) : State :=
  let s := if rl then s.release (s.rvScope x.pa) else s
  let s := s.inTurn .ct x
  if aq then (s.acquireAt x.pa).acquired else s

/-- A RISC-V AMO (11 R255); a plain one may be left where the turn says so (14 R298). -/
def execRiscvAmo (op : AmoOp) (dbl aq rl : Bool) (rd rs1 rs2 : XReg) (s : State) : Host.Outcome State Fault Refusal :=
  let a := s.getX rs1
  let n := dblBytes dbl
  if a.toNat % n ≠ 0 then .next (s.trap 6 a)
  else if s.scalarBlocked a n true then .next s
  else match s.checkAtomic .ct a n s.ctMode true with
  | (.error e, s) => .next (s.accTrap e .store a 0)
  | (.ok pa, s) =>
    let x := virtSpot a pa n
    let v := (s.getX rs2).toNat % 2 ^ (8 * n)
    let s := s.ordered aq rl x
    if !aq && !rl && s.defers && s.mayLeave pa then .next (s.leaveOwing 4 x (.amo op v 0 rd) rd)
    else
      let (old, s) := s.amoAt (s.keyFor (some a.toNat)) pa n op v 0
      .next (s.result rd (dblValue dbl old))

/-! ## LR and SC (11 R418) -/

/-- Whether LR and SC may act on a place: DDR, or the stash of a core. -/
def reservable (pa : Nat) : Bool :=
  match placeOf pa with
  | .ddr => true
  | .window _ .stash _ => true
  | _ => false
/-- Forget the reservation. -/
def State.unreserve (s : State) : State := s.onCt fun c => { c with reservation := none, windowReservation := none }
/-- The version that a read of a block has just returned. -/
def State.readVersion (s : State) (k : TKey) (pa : Nat) : Nat :=
  if (s.tenure k pa).holder = some s.core.no then (s.tenure k pa).version
  else match s.core.copy (blockOf pa) with
  | some x => x.version
  | none => (s.tenure k pa).version
/-- Reserve the block of an address. -/
def State.reserve (s : State) (k : TKey) (pa : Nat) : State :=
  if placeOf pa = .ddr then s.onCt fun c => { c with reservation := some (blockOf pa, k, s.readVersion k pa), windowReservation := none }
  else s.onCt fun c => { c with reservation := none, windowReservation := some (blockOf pa) }
/-- lr.w, lr.d (11 R418). -/
def execLr (dbl aq rl : Bool) (rd rs1 : XReg) (s : State) : Host.Outcome State Fault Refusal :=
  let a := s.getX rs1
  let n := dblBytes dbl
  if a.toNat % n ≠ 0 then .next (s.trap 4 a)
  else if s.scalarBlocked a n false then .next s
  else match s.checkOwn .ct a n s.ctMode with
  | (.error e, s) => .next (s.accTrap e .load a 0)
  | (.ok pa, s) =>
    if !reservable pa then .next (s.trap 5 a)
    else
      let k := s.keyFor (some a.toNat)
      let s := s.ordered aq rl (virtSpot a pa n)
      let (v, s) := s.physRead k pa n
      .next ((s.reserve k pa).result rd (dblValue dbl v))

/-- Whether the reservation holds at an address: the block is the reserved one, and nothing has been written since. -/
def State.reserved (s : State) (k : TKey) (pa : Nat) : Bool :=
  if placeOf pa = .ddr then
    match s.core.ct.reservation with
    | some (b, k', v) => b == blockOf pa && k' == k && v == (s.tenure k pa).version
    | none => false
  else s.core.ct.windowReservation == some (blockOf pa)
/-- sc.w, sc.d (11 R418): any SC clears the reservation; one that fails writes nothing, no bit of a leaf either. -/
def execSc (dbl aq rl : Bool) (rd rs1 rs2 : XReg) (s : State) : Host.Outcome State Fault Refusal :=
  let a := s.getX rs1
  let n := dblBytes dbl
  if a.toNat % n ≠ 0 then .next (s.trap 6 a)
  else if s.scalarBlocked a n true then .next s
  else match s.placeBare a .store s.ctMode with
  | (.error e, s) => .next (s.accTrap e .store a 0)
  | (.ok pa, s) =>
    if !s.reaches pa true ∨ !reservable pa then .next (s.trap 7 a)
    else if !s.reserved (s.keyFor (some a.toNat)) pa then .next (s.unreserve.result rd 1)
    else match s.checkVirt a n .store s.ctMode with
    | (.error e, s) => .next (s.accTrap e .store a 0)
    | (.ok pa, s) =>
      let s := s.unreserve.ordered aq rl (virtSpot a pa n)
      let (_, s) := s.rmwAt (s.keyFor (some a.toNat)) pa n fun _ => some ((s.getX rs2).toNat % 2 ^ (8 * n))
      .next ((s.repair pa n).result rd 0)

/-! ## fence.i and sfence.vma -/

/-- fence.i (02 R36): the block cache no longer holds anything; earlier stores are performed. -/
def execFenceI (s : State) : Host.Outcome State Fault Refusal :=
  .next (((s.drainBy Late.ofCt).acquired.onVec fun v => { v with blocks := [] }).advance 4)

/-- A TLB entry that an sfence.vma names, by address and by address space (RISC-V); global entries are not named by
address space. -/
def TlbEntry.named (e : TlbEntry) (va : Option Nat) (asid : Option Nat) : Bool :=
  (match va with | some a => decide (e.va ≤ a ∧ a < e.va + e.bytes) | none => true) &&
  (match asid with | some i => e.asid == i && !e.flags.getLsbD 5 | none => true)
/-- What an sfence.vma takes from the TLBs, the dies' translation caches and the frame-chain caches of the module. -/
def State.dropTranslations (s : State) (p : TlbEntry → Bool) (q : ChainEntry → Bool) : State :=
  let keep := fun (e : TlbEntry) => !p e
  let drop := fun (c : Core) => { c with tlb := c.tlb.filter keep, chain := c.chain.filter fun e => !q e }
  { s with core := drop s.core, others := s.others.map fun (n, c) => (n, drop c),
           base := { s.base with dies := s.base.dies.map fun (d, x) => (d, { x with cache := x.cache.filter keep }) } }
/-- sfence.vma (22 R353, R355): earlier stores are performed; matching entries leave every core's TLB and the four translation
caches, link entries of the address space every chain cache; every pinned page is checked again at its next access. -/
def execSfenceVma (rs1 rs2 : XReg) (s : State) : Host.Outcome State Fault Refusal :=
  if s.core.ct.user then .next (s.illegal (.sfenceVma rs1 rs2))
  else
    let va := if rs1 = 0 then none else some (s.getX rs1).toNat
    let asid := if rs2 = 0 then none else some ((s.getX rs2).toNat % 2 ^ 16)
    let s := (s.release 3).acquired.dropTranslations (fun e => e.named va asid) fun e => asid.all (· == e.asid)
    let fresh := fun (e : TileEntry) => { e with pins := e.pins.map fun p => { p with readSeen := false, writeSeen := false } }
    .next ({ s with dir := { s.dir with entries := s.dir.entries.map fresh } }.advance 4)

end Sys2Proof.Machine
end

