-- ==== Sys2Proof/Machine/Csr.lean ====
section
/-! DEFINITION. CSR reads and writes, and writes of memory-mapped registers that have no row of their own (00 R5; 02
R26 to R28; 03 R72, R83 to R85; 09 R185, R186; 10 R211, R232; 11 R260 to R263; 22 R347, R353, R356 to R358, R362; 24
R395, R398, R403). -/

namespace Sys2Proof.Machine

/-! ## Reading (11 R260) -/

/-- Interrupts pending: those held in sip, and 16 and 17 (22 R347, R362, 21 R342). -/
def State.sipNow (s : State) : Word :=
  putBit (putBit s.core.ct.sip 16 s.core.pendingSince.isSome) 17 s.core.perf.interrupt
/-- sstatus as it reads: UXL is 2, for 64 bits. -/
def State.sstatusNow (s : State) : Word := s.core.ct.sstatus ||| BitVec.twoPow 64 33
/-- SAVECTL as it reads (22 R362). -/
def State.savectl (s : State) : Word :=
  s.core.csr.tsrc ++ (0 : BitVec 22) ++ bit1 s.core.pendingSince.isSome ++ (0 : BitVec 18) ++ BitVec.ofNat 21 s.core.csr.grace

/-- The four words of a micro-thread's record (22 R357). -/
def Mt.recordWord (t : Mt) (w : BitVec 2) : Word :=
  match t.fault with
  | none => 0
  | some f =>
    match w.toNat with
    | 0 =>
      bit1 true ++ bit1 t.link.isSome ++ bit1 f.carrier ++ bit1 f.inReg ++ (0 : BitVec 12) ++ f.mcode ++ (0 : BitVec 4)
        ++ BitVec.ofNat 4 (if f.carrier then 0 else f.wordIx) ++ BitVec.ofNat 24 f.dropped ++ BitVec.ofNat 8 f.code
    | 1 => f.block
    | 2 => f.addr
    | _ => (t.link.getD 0).setWidth 64
/-- MTFINFO as it reads (22 R356). -/
def State.mtfinfo (s : State) : Word := if s.core.csr.mtNone then 0 else (s.mt s.core.csr.mtSel).recordWord s.core.csr.mtWord

/-- The value of a CSR, `none` where there is none of that number (05 R123, 11 R260). -/
def State.csrRead (s : State) (n : BitVec 12) : Option Word :=
  let c := s.core.ct
  let r := s.core.csr
  match n.toNat with
  | 0x100 => some s.sstatusNow
  | 0x104 => some c.sie
  | 0x105 => some c.stvec
  | 0x106 => some c.scounteren
  | 0x10A => some c.senvcfg
  | 0x140 => some c.sscratch
  | 0x141 => some c.sepc
  | 0x142 => some c.scause
  | 0x143 => some c.stval
  | 0x144 => some s.sipNow
  | 0x180 => some c.satp
  | 0x800 => some (BitVec.ofNat 64 r.vl)
  | 0x802 => some r.mtcfg
  | 0x803 => some (r.vspace.setWidth 64)
  | 0x804 => some (BitVec.ofNat 64 r.vresume)
  | 0x805 => some (r.vfflags.setWidth 64)
  | 0x806 => some (r.vfrm.setWidth 64)
  | 0x807 => some (r.vffirsta.setWidth 64)
  | 0x808 => some (r.vffirstb.setWidth 64)
  | 0x809 => some r.fepol
  | 0x80A => some (r.ltlease.setWidth 64)
  | 0x80B => some r.xnotify
  | 0x80C => some r.jobarg
  | 0xCC0 => some (BitVec.ofNat 64 s.vlmax)
  | 0xCC1 => some (BitVec.ofNat 64 s.core.no)
  | 0xCC2 => some r.jobid
  | 0xCC3 => some (BitVec.ofNat 64 r.xseq)
  | 0xCC4 => some (s.core.ltime.setWidth 64)
  | 0xCC5 => some (r.gangix.setWidth 64)
  | 0xCC6 => some (r.gangsize.setWidth 64)
  | 0xCC7 => some (BitVec.ofNat 64 r.xissued)
  | 0x5C0 => some (if r.mtfi then 1 else 0)
  | 0x5C1 => some s.mtfinfo
  | 0x5C2 => some r.xfault
  | 0x5C3 => some s.savectl
  | 0x5C4 => some (BitVec.ofNat 64 r.lttick)
  | 0x5C5 => some r.tilebase
  | 0x5C6 => some r.framebase
  | 0x5C7 => some s.core.perf.read
  | 0x5C8 => some r.panicmark
  | _ => none

/-- A CSR that user level may not touch: bits [9:8] of its number (RISC-V). -/
def csrSupervisor (n : BitVec 12) : Bool := n.extractLsb' 8 2 != 0
/-- A CSR number that RISC-V allocates as read-only (00 R5). -/
def csrReadOnly (n : BitVec 12) : Bool := n.extractLsb' 10 2 == 3
/-- A CSR instruction that reads: cause 2 at the wrong level or where there is no such CSR. -/
def State.csrGuard (s : State) (n : BitVec 12) (f : Word → State) : State :=
  if (csrSupervisor n && s.core.ct.user) then s.illegalHere
  else match s.csrRead n with
  | some v => f v
  | none => s.illegalHere

/-! ## Writing a CSR without a row of its own -/

/-- Keep the bits of `mask` from `v`, the rest from `old`. -/
def mix (mask v old : Word) : Word := (v &&& mask) ||| (old &&& ~~~mask)
/-- Writable bits of sstatus: SIE, SPIE, SPP, SUM, MXR (22 R347; no F, D or V unit is present, 05 R123). -/
def sstatusMask : Word := 0xC_0122
/-- Writable bits of sie: software, timer, external, 16 and 17. -/
def sieMask : Word := 0x3_0222
/-- SAVECTL's GRACE: at most 1,048,576 (22 R362). -/
def graceOf (v : Word) : Nat := min (v.extractLsb' 0 21).toNat 0x10_0000
/-- LTTICK's PERIOD: 256 to 65,536 (11 R263). -/
def lttickOf (v : Word) : Nat := max 256 (min (v.extractLsb' 0 17).toNat 65536)

/-- The effect of a write on the control-thread CSRs of RISC-V. -/
def Ct.csrWrite (c : Ct) (n : BitVec 12) (v : Word) : Ct :=
  match n.toNat with
  | 0x100 => { c with sstatus := v &&& sstatusMask }
  | 0x104 => { c with sie := v &&& sieMask }
  | 0x105 => { c with stvec := v &&& ~~~2 }
  | 0x106 => { c with scounteren := v &&& 0xFFFF_FFFF }
  | 0x10A => { c with senvcfg := v &&& 1 }
  | 0x140 => { c with sscratch := v }
  | 0x141 => { c with sepc := v &&& ~~~1 }
  | 0x142 => { c with scause := v }
  | 0x143 => { c with stval := v }
  | 0x144 => { c with sip := mix 2 v c.sip }
  | _ => c
/-- The effect of a write on the Osnex CSRs: fields that are RW take the value, the rest is ignored (00 R5). -/
def Csrs.write (r : Csrs) (n : BitVec 12) (v : Word) : Csrs :=
  match n.toNat with
  | 0x804 => { r with vresume := v.toNat % 2 ^ 14 }
  | 0x806 => { r with vfrm := v.setWidth 2 }
  | 0x809 => { r with fepol := v }
  | 0x80A => { r with ltlease := if v.extractLsb' 0 12 = 0 then r.ltlease else v.setWidth 12 }
  | 0x80B => { r with xnotify := v &&& 0xFFFF_FFFF_003F_FFFC }
  | 0x80C => { r with jobarg := v }
  | 0x5C0 => { r with mtfi := v.getLsbD 0 }
  | 0x5C2 => { r with xfault := v &&& ~~~0x7FF }
  | 0x5C3 => { r with grace := graceOf v }
  | 0x5C4 => { r with lttick := lttickOf v }
  | 0x5C5 => { r with tilebase := v &&& ~~~0xFE0 }
  | 0x5C6 => { r with framebase := v &&& ~~~0x60 }
  | _ => r
/-- A write of a CSR that has no row of its own: rd takes the old value. -/
def State.csrWrite (s : State) (n : BitVec 12) (rd : XReg) (v : Word) : State :=
  s.csrGuard n fun old =>
    if csrReadOnly n || WF.ownRow.contains n.toNat then s.illegalHere
    else
      let s := (s.onCt fun c => c.csrWrite n v).onCsr fun r => r.write n v
      -- a new frame table: the link entries of the old one are gone (12 R267)
      (if n = 0x5C6 then { s with core := { s.core with chain := [] } } else s).result rd old

/-! ## Memory-mapped registers without rows of their own (24 R395, R398) -/

/-- `n` bytes of a word replaced from byte `k`. DEDUCED (log 33). -/
def putBytes (old : Word) (k n : Nat) (v : Word) : Word :=
  let m := BitVec.ofNat 64 ((2 ^ (8 * n) - 1) * 2 ^ (8 * k))
  (old &&& ~~~m) ||| ((v <<< (8 * k)) &&& m)
/-- The writable bits of CAPCTL (24 R403). -/
def capctlMask : Word := 0xFFFF_FFFF_FF03_F003
/-- The command that a write of FCMD starts (24 R396). -/
def fnCommand (fn op : Nat) (arg : Word) : Option Instr :=
  match op with
  | 1 => some (.regqueue fn arg)
  | 2 => some (.resetqueue fn arg)
  | 3 => some (.attest fn arg)
  | 4 => some (.assign fn arg)
  | 5 => some (.regiontab fn arg)
  | _ => none
/-- The registers of a function page. -/
def State.fnPage (s : State) (fn : Nat) : FnPage := Table.get FnPage.zero s.base.pages fn
/-- Change the registers of a function page. -/
def State.onPage (s : State) (fn : Nat) (f : FnPage → FnPage) : State :=
  { s with base := { s.base with pages := Table.set FnPage.zero s.base.pages fn (f (s.fnPage fn)) } }
/-- A write of FCMD: a command starts, unless one is running (24 R395); an unknown one is BADARG. -/
def State.fcmdWrite (s : State) (fn op : Nat) : State :=
  if (s.fnPage fn).busy then s.onPage fn fun p => { p with ignored := p.ignored + 1 }
  else match fnCommand fn op (s.fnPage fn).farg with
  | some i =>
    { (s.onPage fn fun p => { p with arg := p.farg, busy := true, lastOp := BitVec.ofNat 8 op, result := 0 }) with agenda := .event i :: s.agenda }
  | none => s.onPage fn fun p => { p with lastOp := BitVec.ofNat 8 op, result := 1 }
/-- A register write acts next. -/
def State.actNext (s : State) (i : Instr) : State := { s with posted := i :: s.posted }
/-- A write of a register of basecamp that has no row of its own, or of part of one that has: the other bytes are as the register
reads, and 0 where it is write-only. DESIGN CHOICE (log 33): 00 R5 does not speak of narrow writes. Other addresses ignore a
write. -/
def State.mmioWrite (s : State) (pa n : Nat) (v : Word) : State :=
  let o := pa - Config.basecampBase
  let k := o % 8
  if 0x10_0000 ≤ o ∧ o < 0x10_0000 + 0x1000 * 257 then
    let fn := (o - 0x10_0000) / 0x1000
    match o % 0x1000 / 8 with
    | 0 => if k = 0 then s.fcmdWrite fn (v.toNat % 256) else s
    | 1 => s.onPage fn fun p => { p with farg := putBytes p.farg k n v }
    | _ => s
  else match o / 8 with
  | 2 => if k < 4 then s.actNext (.fwloadWrite (putBytes 0 k n v)) else s
  | 3 => s.actNext (.mresetWrite (putBytes 0 k n v))
  | 6 => s.actNext (.pwrcapWrite (putBytes (s.base.word 0x030) k n v))
  | 8 => s.actNext (.hlogWrite (putBytes s.base.hlog k n v))
  | 4 => { s with base := { s.base with dumpAddr := putBytes s.base.dumpAddr k n v &&& ~~~0xFFF } }
  | 5 => { s with base := { s.base with capctl := putBytes s.base.capctl k n v &&& capctlMask } }
  | _ => s

/-- REGISTER_WRITE (00 R5). -/
def execRegisterWrite (target : RegTarget) (rd : XReg) (value : Word) (s : State) : Host.Outcome State Fault Refusal :=
  match target with
  | .csr n => .next (s.csrWrite n rd value)
  | .mmio pa n => .next (s.mmioWrite pa n value)

/-! ## CSRs with rows of their own -/

/-- MTCFG_WRITE (02 R26, 09 R187). -/
def execMtcfgWrite (rd : XReg) (value : Word) (s : State) : Host.Outcome State Fault Refusal :=
  .next (s.mtconfAt (.mtcfgWrite rd value) rd value fun _ old => old)
/-- VL_WRITE (02 R28). -/
def execVlWrite (rd : XReg) (value : Word) (s : State) : Host.Outcome State Fault Refusal :=
  .next ((s.setVl (s.boundVl value.toNat)).result rd (BitVec.ofNat 64 s.core.csr.vl))
/-- VSPACE_WRITE (09 R185). -/
def execVspaceWrite (rd : XReg) (value : Word) (s : State) : Host.Outcome State Fault Refusal :=
  let sp : BitVec 4 := value.setWidth 4
  if 6 ≤ sp.toNat ∨ (sp = 5 ∧ s.core.ct.user) then .next s.illegalHere
  else .next ((s.onCsr fun c => { c with vspace := sp }).result rd (s.core.csr.vspace.setWidth 64))

/-- A CSR operation on an old value. -/
def csrApply (op : CsrOp) (old src : Word) : Word :=
  match op with | .write => src | .set => old ||| src | .clear => old &&& ~~~src
/-- A flag CSR. -/
def Csrs.flagCsr (c : Csrs) : FlagCsr → Word
  | .vfflags => c.vfflags.setWidth 64
  | .vffirsta => c.vffirsta.setWidth 64
  | .vffirstb => c.vffirstb.setWidth 64
/-- Write a flag CSR. -/
def Csrs.setFlagCsr (c : Csrs) (w : FlagCsr) (v : Word) : Csrs :=
  match w with
  | .vfflags => { c with vfflags := v.setWidth 5 }
  | .vffirsta => { c with vffirsta := v.setWidth 42 }
  | .vffirstb => { c with vffirstb := v.setWidth 28 }
/-- FLAG_CSR_ACCESS (03 R85): it waits for every earlier entry that can raise a flag. -/
def execFlagCsrAccess (which : FlagCsr) (op : CsrOp) (rd : XReg) (src : Option Word) (s : State) : Host.Outcome State Fault Refusal :=
  if s.flagsPending then .next s
  else
    let old := s.core.csr.flagCsr which
    let s := match src with
      | some v => s.onCsr fun c => c.setFlagCsr which (csrApply op old v)
      | none => s
    .next (s.result rd old)

/-- An address space is in use: a core is bound to it or runs it, or a tile of it lives (22 R353). -/
def State.asidBusy (s : State) (a : Nat) : Bool :=
  (s.coresListed.any fun c => c.asid == some a || c.runs a) || s.dir.entries.any fun e => e.asid == a && e.state == .live
/-- The last of a list that satisfies a test. -/
def lastWhere (p : Nat → Bool) (l : List Nat) : Option Nat := l.reverse.find? p
/-- Take a hardware tag for an address space, by a bind or by a write of satp, the most recently bound first: a bind makes the space the
most recent, a write of satp only where it takes a tag. With none free, the least recently bound unused one loses its tag and its
translations; `none` where there is none (22 R353). DEDUCED (log 32). -/
def State.takeTag (s : State) (a : Nat) (bind : Bool) : Option State :=
  let put := fun (s : State) => { s with disp := { s.disp with tags := a :: s.disp.tags.filter fun x => x != a } }
  if s.disp.tags.contains a ∧ !bind then some s
  else if s.disp.tags.contains a ∨ s.disp.tags.length < Config.asidTags then some (put s)
  else match lastWhere (fun x => !s.asidBusy x) s.disp.tags with
  | none => none
  | some old =>
    let s := s.dropTranslations (fun e => e.asid == old) fun e => e.asid == old
    some (put { s with disp := { s.disp with tags := s.disp.tags.filter fun x => x != old } })
/-- An event of CAPCTL (24 R403). -/
def State.capture (s : State) (hit : Bool) (act : BitVec 2) : State :=
  if hit then { s with base := { s.base with capctl := captureAct s.base.capctl act } } else s
/-- SATP_WRITE (22 R353): a MODE other than Sv57 is ignored; without a tag, cause 2. Accesses of the old address space are
performed in it. -/
def execSatpWrite (rd : XReg) (value : Word) (s : State) : Host.Outcome State Fault Refusal :=
  if s.core.ct.user then .next s.illegalHere
  else
    let old := s.core.ct.satp
    if value.extractLsb' 60 4 ≠ 10 then .next (s.result rd old)
    else match s.takeTag (value.extractLsb' 44 16).toNat false with
    | none => .next s.illegalHere
    | some s =>
      let c := s.base.capctl
      let s := s.capture (c.extractLsb' 48 16 == value.extractLsb' 44 16) (c.extractLsb' 16 2)
      .next ((s.drain.acquiredAll.onCt fun c => { c with satp := value }).result rd old)

/-- PANICMARK_WRITE (11 R263, 24 R403). -/
def execPanicmarkWrite (rd : XReg) (value : Word) (s : State) : Host.Outcome State Fault Refusal :=
  if s.core.ct.user then .next s.illegalHere
  else .next (((s.capture true (s.base.capctl.extractLsb' 12 2)).onCsr fun c => { c with panicmark := value }).result rd s.core.csr.panicmark)

/-- SAVECTL_READY (22 R362): READY while a pre-emption is pending lets the stop land. -/
def execSavectlReady (rd : XReg) (value : Word) (s : State) : Host.Outcome State Fault Refusal :=
  if s.core.ct.user then .next s.illegalHere
  else
    let old := s.savectl
    let s := s.onCsr fun c => { c with grace := graceOf value }
    let ready := value.getLsbD 38 && s.core.pendingSince.isSome
    .next ({ s with core := { s.core with ready := s.core.ready || ready } }.result rd old)

/-! ## MTFINFO (22 R356 to R358) -/

/-- An MTFINFO command: cause 2 at user level, with a reserved bit set, or with an index at or above VLMAX; else WORD is
set and rd takes what a read gave before. -/
def State.mtfCmd (s : State) (rd : XReg) (word : BitVec 2) (rsv : BitVec 45) (mt : BitVec 13) (f : State → State) : State :=
  if s.core.ct.user ∨ rsv ≠ 0 ∨ s.vlmax ≤ mt.toNat then s.illegalHere
  else (f (s.onCsr fun c => { c with mtWord := word, mtNone := false })).result rd s.mtfinfo
/-- Select a micro-thread. -/
def State.selectMt (s : State) (m : Nat) : State := s.onCsr fun c => { c with mtSel := m }
/-- Clear a micro-thread's kf bit. -/
def State.clearKf (s : State) (m : Nat) : State := s.onVec fun v => v.setMask kfCode (setBit (v.maskOf kfCode) m false)

/-- The entry that a resumed micro-thread's update belongs to (03 R85): it has distributed, and merges; so does the entry that
the micro-thread faulted in, where that has not retired. DESIGN CHOICE (log 39). -/
def State.pushResume (s : State) (m : Nat) : State :=
  let id := s.core.vec.nextEntry
  let e : Entry :=
    { id := id, q := .compute, op := .kernelResume m, vl := s.core.csr.vl, space := s.core.csr.vspace, mask := 0, vfrm := (s.mt m).vfrm,
      pc := s.core.ct.pc, resumed := true, distributed := true, after := s.core.csr.xissued, dt := false, value := 0, flags := .none }
  let old := s.core.vec.queue.map fun x => if x.id = (s.mt m).entry then { x with resumed := true } else x
  (s.onVec fun v => { v with queue := old ++ [e], nextEntry := id + 1 }).onMt m fun t => { t with entry := id }
/-- A resumed micro-thread goes on at word `ix`: past the last word its block ends. DEDUCED (log 48). -/
def Mt.goOn (t : Mt) (ix : Nat) (empty : BitVec 64) : Mt :=
  let t := { t with fault := none, phase := .ready, ix := ix }
  if ix < t.words.length then t.enter empty
  else if t.link.isSome then { t with words := [], ix := 0, phase := .linkPending }
  else t.stop
/-- A resumed micro-thread enters its block at word `ix`: a value that a chain's earlier block has not delivered comes first, as
the record's word 0 says that this block has run nothing (06 R138, R139). -/
def Mt.comeBack (t : Mt) (f : MtFault) (ix : Nat) (empty : BitVec 64) : Mt :=
  if t.link.isSome && f.wordIx == 0 && !f.carrier && decide (ix < t.words.length) then
    { t with fault := none, ix := ix, phase := .linkPending }
  else t.goOn ix empty
/-- Resume a FAULTED micro-thread at its faulting word, or after it. A block that is not at hand, or that was bad, is
fetched and checked again. -/
def State.resumeMt (s : State) (m : Nat) (skip : Bool) : State :=
  match (s.mt m).fault with
  | none => s
  | some f =>
    let s := (s.clearKf m).pushResume m
    let s := { s with core := { s.core with curMt := m } }
    let ix := f.wordIx + (if skip then 1 else 0)
    if f.carrier then s.onMt m fun t => t.goOn (if skip then 1 else 0) (s.emptyFor t)
    else if f.code ≠ 13 ∧ f.block = (s.mt m).blk ∧ (s.mt m).words ≠ [] then s.onMt m fun t => t.comeBack f ix (s.emptyFor t)
    else
      let s := s.onMt m fun t => { t with fault := none, phase := .ready, words := [], ix := 0, blk := f.block }
      if f.block.extractLsb' 0 2 ≠ 0 then s.mtFaultAt 3 0 f.block 0 f.block false
      else match s.fetchBlock f.block with
      | (.failed x, s) => s.mtFaultAt (accFault x .fetch) 0 f.block f.wordIx f.block false
      | (.bad, s) => s.mtFaultAt 13 0 f.block 0 0 false
      | (.block ws, s) => s.onMt m fun t => Mt.comeBack { t with words := ws } f ix (s.emptyFor t)

/-- MTFINFO op 0 (22 R356). -/
def execMtfinfoSelect (rd : XReg) (word : BitVec 2) (rsv : BitVec 45) (mt : BitVec 13) (s : State) : Host.Outcome State Fault Refusal :=
  .next (s.mtfCmd rd word rsv mt fun s => s.selectMt mt.toNat)
/-- MTFINFO op 1 (22 R358). -/
def execMtfinfoResume (rd : XReg) (word : BitVec 2) (rsv : BitVec 45) (mt : BitVec 13) (s : State) : Host.Outcome State Fault Refusal :=
  .next (s.mtfCmd rd word rsv mt fun s => (s.selectMt mt.toNat).resumeMt mt.toNat false)
/-- MTFINFO op 2 (22 R358). -/
def execMtfinfoSkip (rd : XReg) (word : BitVec 2) (rsv : BitVec 45) (mt : BitVec 13) (s : State) : Host.Outcome State Fault Refusal :=
  .next (s.mtfCmd rd word rsv mt fun s => (s.selectMt mt.toNat).resumeMt mt.toNat true)
/-- MTFINFO op 3 (22 R358): STOPPED, the delivery buffer discarded; the link slot stays. -/
def execMtfinfoClear (rd : XReg) (word : BitVec 2) (rsv : BitVec 45) (mt : BitVec 13) (s : State) : Host.Outcome State Fault Refusal :=
  .next (s.mtfCmd rd word rsv mt fun s =>
    let m := mt.toNat
    let s := s.selectMt m
    if (s.mt m).fault.isSome then (s.clearKf m).onMt m fun t => { Mt.idle with slot := t.slot } else s)
/-- The lowest FAULTED micro-thread at or above an index. -/
def State.faultedFrom (s : State) (m : Nat) : Option Nat := (s.core.vec.mts.find? fun (k, t) => decide (m ≤ k) && t.fault.isSome).map (·.1)
/-- MTFINFO op 4 (22 R356). -/
def execMtfinfoSelectLowest (rd : XReg) (word : BitVec 2) (rsv : BitVec 45) (mt : BitVec 13) (s : State) : Host.Outcome State Fault Refusal :=
  .next (s.mtfCmd rd word rsv mt fun s =>
    match s.faultedFrom mt.toNat with
    | some m => s.selectMt m
    | none => s.onCsr fun c => { c with mtNone := true })

end Sys2Proof.Machine
end

