-- ==== Sys2Proof/Machine/MtFloat.lean ====
section
/-! DEFINITION. Micro-thread floating point, special functions, conversion, MX scaling and plane-nested words (07). -/

namespace Sys2Proof.Machine

/-! ## Lanes (07 R147) -/

/-- The lane format of a width class. -/
def fmtOf (w : BitVec 2) : Fmt := match w.toNat with | 0 => .fp32 | 1 => .bf16 | _ => .fp16
/-- The 16-bit lane `l` of a register. -/
def half (x : MWord) (l : Nat) : Nat := x.toNat / 2 ^ (16 * l) % 2 ^ 16
/-- Apply a lane operation of up to three operands; flags are the OR over the lanes. -/
def fpLanes (w : BitVec 2) (op : Nat → Nat → Nat → Nat × Flags) (a b c : MWord) : MWord × Flags :=
  if w = 0 then
    let (r, fl) := op a.toNat b.toNat c.toNat
    (BitVec.ofNat 32 r, fl)
  else
    let (r0, f0) := op (half a 0) (half b 0) (half c 0)
    let (r1, f1) := op (half a 1) (half b 1) (half c 1)
    (BitVec.ofNat 16 r1 ++ BitVec.ofNat 16 r0, f0 ||| f1)

/-- The rounding mode of the entry that the micro-thread runs for (03 R71). -/
def State.rmode (s : State) : RMode := s.me.vfrm

/-- A word whose result is one register, with flags. -/
def flagWord (i : Instr) (d : VReg) (f : State → MWord × Flags) (s : State) : Host.Outcome State Fault Refusal :=
  s.word i fun s => let (v, fl) := f s; ((s.setReg d.toNat v).raiseFlags fl).wordDone

/-- A floating-point word of A and B (07 R149). -/
def fpWord (i : Instr) (w : BitVec 2) (d a b : VReg) (op : Fmt → RMode → Nat → Nat → Nat × Flags) (s : State) :
    Host.Outcome State Fault Refusal :=
  flagWord i d (fun s => fpLanes w (fun x y _ => op (fmtOf w) s.rmode x y) (s.regA a 0) (s.reg b.toNat) 0) s
/-- A floating-point word of A alone. -/
def fpWord1 (i : Instr) (w : BitVec 2) (d a : VReg) (op : Fmt → RMode → Nat → Nat × Flags) (s : State) :
    Host.Outcome State Fault Refusal :=
  flagWord i d (fun s => fpLanes w (fun x _ _ => op (fmtOf w) s.rmode x) (s.regA a 0) 0 0) s
/-- A fused word (07 R153). -/
def fmaWord (i : Instr) (w : BitVec 2) (d a b c : VReg) (negProduct negAddend : Bool) (s : State) :
    Host.Outcome State Fault Refusal :=
  flagWord i d (fun s => fpLanes w (fun x y z => (fmtOf w).fma s.rmode negProduct negAddend x y z)
    (s.regA a 0) (s.reg b.toNat) (s.reg c.toNat)) s
/-- The width class of a special function (07 R154). -/
def sfuWidth (bf : Bool) : BitVec 2 := if bf then 1 else 0
/-- A special-function word that does not fault: its results are counted (21 R343), one in each lane, and its micro-thread is not ready
until its position of the pipe accepts the operand (07 R156). -/
def State.enterPipe (s : State) (i : Instr) (bf : Bool) : State :=
  if (s.lostSource i).isNone then
    ({ s with core := s.core.note 6 (if bf then 2 else 1) }).onVec fun v => { v with pipe := v.pipe ++ [s.core.curMt] }
  else s
/-- A special function; it rounds by RNE whatever VFRM holds (03 R80). -/
def sfuWord (i : Instr) (bf : Bool) (d a : VReg) (op : Fmt → Nat → Nat × Flags) (s : State) :
    Host.Outcome State Fault Refusal :=
  fpWord1 i (sfuWidth bf) d a (fun f _ x => op f x) (s.enterPipe i bf)

/-! ## Register operations (07 R149 to R152) -/

/-- fadd (07 R149). -/
def execFadd (w : BitVec 2) (d a b : VReg) (s : State) : Host.Outcome State Fault Refusal :=
  fpWord (.fadd w d a b) w d a b (fun f m x y => f.add m x y) s
/-- fsub (07 R149). -/
def execFsub (w : BitVec 2) (d a b : VReg) (s : State) : Host.Outcome State Fault Refusal :=
  fpWord (.fsub w d a b) w d a b (fun f m x y => f.sub m x y) s
/-- fmul (07 R149). -/
def execFmul (w : BitVec 2) (d a b : VReg) (s : State) : Host.Outcome State Fault Refusal :=
  fpWord (.fmul w d a b) w d a b (fun f m x y => f.mul m x y) s
/-- fdiv (07 R149). -/
def execFdiv (w : BitVec 2) (d a b : VReg) (s : State) : Host.Outcome State Fault Refusal :=
  fpWord (.fdiv w d a b) w d a b (fun f m x y => f.div m x y) s
/-- fsqrt (07 R149). -/
def execFsqrt (w : BitVec 2) (d a : VReg) (s : State) : Host.Outcome State Fault Refusal :=
  fpWord1 (.fsqrt w d a) w d a (fun f m x => f.sqrt m x) s
/-- fmin (07 R150). -/
def execFmin (w : BitVec 2) (d a b : VReg) (s : State) : Host.Outcome State Fault Refusal :=
  fpWord (.fmin w d a b) w d a b (fun f _ x y => f.minmax false x y) s
/-- fmax (07 R150). -/
def execFmax (w : BitVec 2) (d a b : VReg) (s : State) : Host.Outcome State Fault Refusal :=
  fpWord (.fmax w d a b) w d a b (fun f _ x y => f.minmax true x y) s
/-- feq (07 R151). -/
def execFeq (w : BitVec 2) (d a b : VReg) (s : State) : Host.Outcome State Fault Refusal :=
  fpWord (.feq w d a b) w d a b (fun f _ x y => let (r, fl) := f.compare 0 x y; (r.toNat, fl)) s
/-- flt (07 R151). -/
def execFlt (w : BitVec 2) (d a b : VReg) (s : State) : Host.Outcome State Fault Refusal :=
  fpWord (.flt w d a b) w d a b (fun f _ x y => let (r, fl) := f.compare 1 x y; (r.toNat, fl)) s
/-- fle (07 R151). -/
def execFle (w : BitVec 2) (d a b : VReg) (s : State) : Host.Outcome State Fault Refusal :=
  fpWord (.fle w d a b) w d a b (fun f _ x y => let (r, fl) := f.compare 2 x y; (r.toNat, fl)) s
/-- fsgnj (07 R152). -/
def execFsgnj (w : BitVec 2) (d a b : VReg) (s : State) : Host.Outcome State Fault Refusal :=
  fpWord (.fsgnj w d a b) w d a b (fun f _ x y => (f.withSign x (f.signOf y), 0)) s
/-- fsgnjn (07 R152). -/
def execFsgnjn (w : BitVec 2) (d a b : VReg) (s : State) : Host.Outcome State Fault Refusal :=
  fpWord (.fsgnjn w d a b) w d a b (fun f _ x y => (f.withSign x (!f.signOf y), 0)) s
/-- fsgnjx (07 R152). -/
def execFsgnjx (w : BitVec 2) (d a b : VReg) (s : State) : Host.Outcome State Fault Refusal :=
  fpWord (.fsgnjx w d a b) w d a b (fun f _ x y => (f.withSign x (f.signOf x != f.signOf y), 0)) s
/-- fclass (07 R152). -/
def execFclass (w : BitVec 2) (d a : VReg) (s : State) : Host.Outcome State Fault Refusal :=
  fpWord1 (.fclass w d a) w d a (fun f _ x => (2 ^ f.classOf x, 0)) s

/-! ## Fused words (07 R153) -/

/-- fma: a × b + c (07 R153). -/
def execFma (w : BitVec 2) (d a b c : VReg) (s : State) : Host.Outcome State Fault Refusal :=
  fmaWord (.fma w d a b c) w d a b c false false s
/-- fms: a × b − c (07 R153). -/
def execFms (w : BitVec 2) (d a b c : VReg) (s : State) : Host.Outcome State Fault Refusal :=
  fmaWord (.fms w d a b c) w d a b c false true s
/-- fnma: −(a × b) + c (07 R153). -/
def execFnma (w : BitVec 2) (d a b c : VReg) (s : State) : Host.Outcome State Fault Refusal :=
  fmaWord (.fnma w d a b c) w d a b c true false s

/-! ## Special functions (07 R154, R155) -/

/-- frcp (07 R155). -/
def execFrcp (bf : Bool) (d a : VReg) (s : State) : Host.Outcome State Fault Refusal :=
  sfuWord (.frcp bf d a) bf d a Fmt.frcp s
/-- frsq (07 R155). -/
def execFrsq (bf : Bool) (d a : VReg) (s : State) : Host.Outcome State Fault Refusal :=
  sfuWord (.frsq bf d a) bf d a Fmt.frsq s
/-- fexp2 (07 R155). -/
def execFexp2 (bf : Bool) (d a : VReg) (s : State) : Host.Outcome State Fault Refusal :=
  sfuWord (.fexp2 bf d a) bf d a Fmt.fexp2 s
/-- flog2 (07 R155). -/
def execFlog2 (bf : Bool) (d a : VReg) (s : State) : Host.Outcome State Fault Refusal :=
  sfuWord (.flog2 bf d a) bf d a Fmt.flog2 s
/-- fsinpi (07 R155). -/
def execFsinpi (bf : Bool) (d a : VReg) (s : State) : Host.Outcome State Fault Refusal :=
  sfuWord (.fsinpi bf d a) bf d a Fmt.fsinpi s
/-- fcospi (07 R155). -/
def execFcospi (bf : Bool) (d a : VReg) (s : State) : Host.Outcome State Fault Refusal :=
  sfuWord (.fcospi bf d a) bf d a Fmt.fcospi s
/-- ftanh (07 R155). -/
def execFtanh (bf : Bool) (d a : VReg) (s : State) : Host.Outcome State Fault Refusal :=
  sfuWord (.ftanh bf d a) bf d a Fmt.ftanh s
/-- fsigm (07 R155). -/
def execFsigm (bf : Bool) (d a : VReg) (s : State) : Host.Outcome State Fault Refusal :=
  sfuWord (.fsigm bf d a) bf d a Fmt.fsigm s

/-! ## kv (03 R78, R79) -/

/-- The kv bit of the micro-thread that runs. -/
def State.kvBit (s : State) : Bool := (s.mask kvCode).getLsbD s.core.curMt
/-- Clear the kv bit of the micro-thread that runs. -/
def State.clearKv (s : State) : State :=
  s.onVec fun v => v.setMask kvCode (setBit (v.maskOf kvCode) s.core.curMt false)

/-! ## Conversions (07 R158) -/

/-- The narrow format of NFMT where it is a floating-point one (05 R112). -/
def narrowFmt (nf : BitVec 3) : Fmt := match nf.toNat with | 0 => .bf16 | 1 => .fp16 | 2 => .e4 | _ => .e5
/-- Narrow elements of NFMT. -/
inductive NarrowKind where
  | float | finite | integer
deriving DecidableEq, Repr
/-- The kind of a narrow format (05 R112). -/
def narrowKind (nf : BitVec 3) : NarrowKind :=
  match nf.toNat with | 0 => .float | 1 => .float | 2 => .finite | 3 => .finite | _ => .integer
/-- Bits of a narrow element: 16 under W = 00, else 8. -/
def narrowBits (w : BitVec 2) : Nat := if w = 0 then 16 else 8

/-- Narrow one wide element (07 R158): the code, its flags, and whether kv is cleared. -/
def narrowElem (w : BitVec 2) (nf : BitVec 3) (mode : RMode) (x : Nat) : Nat × Flags × Bool :=
  match narrowKind nf with
  | .float => let (c, fl) := (narrowFmt nf).round mode ((fmtOf w).decode x); (c, fl, false)
  | .finite => (narrowFmt nf).narrow mode ((fmtOf w).decode x)
  | .integer => (x % 2 ^ narrowBits w, 0, false)

/-- The wide elements of a register. -/
def wideElems (w : BitVec 2) (x : MWord) : List Nat := if w = 0 then [x.toNat] else [half x 0, half x 1]

/-- Elements of `n` bits packed from the low end (03 R61). -/
def packElems (n : Nat) : List Nat → Nat
  | [] => 0
  | x :: xs => x % 2 ^ n + 2 ^ n * packElems n xs

/-- cvt.n (07 R158). -/
def execCvtN (w : BitVec 2) (nf : BitVec 3) (d a b : VReg) (s : State) : Host.Outcome State Fault Refusal :=
  s.word (.cvtN w nf d a b) fun s =>
    let es := (wideElems w (s.regA a 0) ++ wideElems w (s.reg b.toNat)).map (narrowElem w nf s.rmode)
    let v := BitVec.ofNat 32 (packElems (narrowBits w) (es.map (·.1)))
    let s := (s.setReg d.toNat v).raiseFlags (es.foldl (fun f e => f ||| e.2.1) 0)
    (if es.any (·.2.2) then s.clearKv else s).wordDone

/-- Widen one narrow element into the wide format of W (07 R158). -/
def widenElem (w : BitVec 2) (nf : BitVec 3) (mode : RMode) (x : Nat) : Nat × Flags :=
  match narrowKind nf with
  | .integer =>
    let n := narrowBits w
    (((BitVec.ofNat n x).signExtend (2 * n)).toNat, 0)
  | _ => (fmtOf w).round mode ((narrowFmt nf).decode x)

/-- cvt.w (07 R158); a clear kv bit gives canonical NaN in the forms out of E4M3F and E5M2F (03 R79). -/
def execCvtW (w : BitVec 2) (part : BitVec 1) (nf : BitVec 3) (d a : VReg) (s : State) : Host.Outcome State Fault Refusal :=
  s.word (.cvtW w part nf d a) fun s =>
    let lanes := if w = 0 then 1 else 2
    let n := narrowBits w
    let x := (s.regA a 0).toNat
    let es := (List.range lanes).map fun l =>
      if narrowKind nf = .finite ∧ !s.kvBit then ((fmtOf w).nan, (0 : Flags))
      else widenElem w nf s.rmode (x / 2 ^ (n * (part.toNat * lanes + l)) % 2 ^ n)
    let v := BitVec.ofNat 32 (packElems (2 * n) (es.map (·.1)))
    ((s.setReg d.toNat v).raiseFlags (es.foldl (fun f e => f ||| e.2) 0)).wordDone

/-- cvt.fi (07 R158). -/
def execCvtFi (w : BitVec 2) (d a : VReg) (s : State) : Host.Outcome State Fault Refusal :=
  fpWord1 (.cvtFi w d a) w d a (fun f m x => toIntBits m f.width (f.decode x)) s
/-- cvt.if (07 R158). -/
def execCvtIf (w : BitVec 2) (d a : VReg) (s : State) : Host.Outcome State Fault Refusal :=
  fpWord1 (.cvtIf w d a) w d a (fun f m x => f.ofInt m (BitVec.ofNat f.width x).toInt) s

/-! ## cvtq4 and mxscale (07 R159, R160) -/

/-- A value times a power of two. -/
def FVal.scale (v : FVal) (k : Int) : FVal := match v with | .fin n m e => .fin n m (e + k) | v => v

/-- cvtq4 (07 R159). -/
def execCvtq4 (d a b : VReg) (s : State) : Host.Outcome State Fault Refusal :=
  s.word (.cvtq4 d a b) fun s =>
    let sh := (s.reg b.toNat).toInt
    let es := (List.range 8).map fun k => Fmt.e2.narrow rne ((Fmt.fp32.decode (s.reg (a.toNat + k)).toNat).scale (-sh))
    let v := BitVec.ofNat 32 (packElems 4 (es.map (·.1)))
    let s := (s.setReg d.toNat v).raiseFlags (es.foldl (fun f e => f ||| e.2.1) 0)
    (if es.any (·.2.2) then s.clearKv else s).wordDone

/-- The source format of mxscale (05 R112). -/
def mxFmt (sf : BitVec 3) : Fmt := match sf.toNat with | 0 => .e4 | 1 => .e5 | _ => .e2
/-- mxscale (07 R160). -/
def execMxscale (bf : Bool) (part sf : BitVec 3) (d a b : VReg) (s : State) : Host.Outcome State Fault Refusal :=
  s.word (.mxscale bf part sf d a b) fun s =>
    let tgt := if bf then Fmt.bf16 else Fmt.fp32
    let t := if bf then 2 else 1
    let n := (mxFmt sf).width
    let sc := (s.reg b.toNat).toNat % 256
    let x := (s.regA a 0).toNat
    let es := (List.range t).map fun i =>
      if sc = 255 ∨ !s.kvBit then (tgt.nan, (0 : Flags))
      else tgt.round s.rmode (((mxFmt sf).decode (x / 2 ^ (n * (part.toNat * t + i)) % 2 ^ n)).scale ((sc : Int) - 127))
    let v := BitVec.ofNat 32 (packElems tgt.width (es.map (·.1)))
    ((s.setReg d.toNat v).raiseFlags (es.foldl (fun f e => f ||| e.2) 0)).wordDone

/-! ## Plane-nested words (07 R161 to R163) -/

/-- Element `k` of a plane group, its first `q` planes as a two's-complement number (07 R162). -/
def pniElem (a b : MWord) (k q : Nat) : Int :=
  let w := (List.range q).foldl (fun w p => 2 * w + (if p < 4 then a.getLsbD (8 * p + k) else b.getLsbD (8 * (p - 4) + k)).toNat) 0
  if 2 ^ (q - 1) ≤ w then (w : Int) - 2 ^ q else w
/-- pnix (07 R162). -/
def execPnix (q : BitVec 6) (d a b : VReg) (s : State) : Host.Outcome State Fault Refusal :=
  oneWord (.pnix q d a b) d (fun s =>
    BitVec.ofNat 32 (packElems 8 ((List.range 4).map fun k => (pniElem (s.regA a 0) (s.reg b.toNat) k q.toNat % 256).toNat))) s

/-- The bit of plane `p` of element `k` that pnit writes (07 R163). -/
def pnitBit (a b : MWord) (q p k : Nat) : Bool :=
  decide (p < q) && (if k < 4 then a.getLsbD (8 * k + (7 - p)) else b.getLsbD (8 * (k - 4) + (7 - p)))
/-- pnit (07 R163). -/
def execPnit (q : BitVec 6) (d a b : VReg) (s : State) : Host.Outcome State Fault Refusal :=
  oneWord (.pnit q d a b) d (fun s =>
    BitVec.ofNat 32 (packElems 1 ((List.range 32).map fun i => (pnitBit (s.regA a 0) (s.reg b.toNat) q.toNat (i / 8) (i % 8)).toNat))) s

end Sys2Proof.Machine
end

