-- ==== Sys2Proof/Machine/Matrix.lean ====
section
/-! DEFINITION. The matrix array: operand fields and their checks, operand values, accumulation, mzero, mload and
mdrain (03 R81, R82, 10 R215 to R223). -/

namespace Sys2Proof.Machine

/-! ## Formats (01 R17, 05 R121, 10 R216) -/

/-- Elements of an 8-byte group. -/
def matGroup (f : Nat) : Nat := if f ≤ 1 then 4 else if f = 4 then 16 else if f ≤ 5 then 8 else if f - 4 ≤ 4 then 16 else 8
/-- K: six groups. -/
def matK (f : Nat) : Nat := 6 * matGroup f
/-- Planes that a PNI format reads; 0 for every other. -/
def matPlanes (f : Nat) : Nat := if 6 ≤ f then f - 4 else 0
/-- Bytes of each plane in a row. -/
def planeBytes (f : Nat) : Nat := if matPlanes f ≤ 4 then 12 else 6
/-- MX formats: e4, e5, f4. -/
def isMx (f : Nat) : Bool := decide (2 ≤ f ∧ f ≤ 4)
/-- The largest APHASE or BPHASE. -/
def phaseLimit (f : Nat) : Nat := if f = 2 ∨ f = 3 then 3 else if f = 4 then 1 else 0
/-- Bits of an element that is not plane-nested. -/
def matBits (f : Nat) : Nat := if f ≤ 1 then 16 else if f = 4 then 4 else 8
/-- A floating-point format. -/
def matFloat (f : Nat) : Bool := decide (f ≤ 4)
/-- The element format. -/
def matFmt (f : Nat) : Fmt := match f with | 0 => .bf16 | 1 => .fp16 | 2 => .e4 | 3 => .e5 | _ => .e2
/-- Bytes of an mdrain element (10 R223). -/
def drainSize (f : Nat) : Nat := if f = 14 ∨ f = 15 then 4 else if f ≤ 1 then 2 else 1
/-- log2 of a size of 1, 2, 4 or 8. -/
def log2Size (n : Nat) : Nat := if n = 1 then 0 else if n = 2 then 1 else if n = 4 then 2 else 3

/-! ## The word and its operand registers (10 R215 to R217) -/

/-- FMT. -/
def mwFmt (w : BitVec 32) : Nat := (bits w 28 4).toNat
/-- ASRC or DKIND. -/
def mwSrc (w : BitVec 32) : Nat := (bits w 26 2).toNat
/-- The accumulator tile. -/
def mwTile (w : BitVec 32) : Nat := (bits w 7 5).toNat
/-- mmas. -/
def mwVector (w : BitVec 32) : Bool := w.getLsbD 25
/-- Bits of an operand register. -/
def opBits (x : Word) (lo n : Nat) : Nat := (x.extractLsb' lo n).toNat

/-- How a matrix word's checks end (10 R218): legal, with the tile it names; cause 2; or another cause. -/
inductive MatCheck where
  | ok (tile : Option TileRef)
  | illegal
  | bad (cause : Nat) (tval : Word)
deriving DecidableEq, Repr

/-- The first stash byte of a list of ranges that lies beyond the stash (10 R218). -/
def stashBeyond : List (Nat × Nat) → Option Nat
  | [] => none
  | (a, n) :: l => if Config.stashBytes < a + n then some (max a Config.stashBytes) else stashBeyond l

/-- The number of scale bytes that a row reads. -/
def scaleCount (f phase : Nat) : Nat := (phase * matGroup f + matK f - 1) / 32 + 1
/-- Bytes of one plane of x in mmas (10 R216). -/
def vectorPlane (f : Nat) : Nat := (31 + matK f + 7) / 8

/-- The stash fields of an A operand: AOFF, ASTRIDE, SOFF, SSTRIDE, APHASE. -/
def aOff (r : Word) : Nat := opBits r 0 21
def aStride (r : Word) : Nat := opBits r 21 11
def aScale (r : Word) : Nat := opBits r 32 21
def aScaleStride (r : Word) : Nat := opBits r 53 8
def aPhase (r : Word) : Nat := opBits r 61 2

/-- A row of A, or x, at a base crosses a 64-byte plane. DEDUCED (log 37): the offset at fault is the base. -/
def planeCross (f : Nat) (vector : Bool) (base : Nat) : Bool :=
  matPlanes f != 0 && decide (64 - (if vector then vectorPlane f else planeBytes f) < base % 64)
/-- The rows of an A operand: each one's base and its stash bytes, its scales last. -/
def aRows (f : Nat) (r : Word) (vector : Bool) : List (Nat × List (Nat × Nat)) :=
  let q := matPlanes f
  let planes := fun base n => (List.range q).map fun p => (base + 64 * p, n)
  if vector then
    [(aOff r, (if q = 0 then [(aOff r, ((31 + matK f) * matBits f + 7) / 8)] else planes (aOff r) (vectorPlane f))
      ++ (if isMx f then [(aScale r, 1)] else []))]
  else (List.range 32).map fun i =>
    let base := aOff r + 8 * aStride r * i
    (base, (if q = 0 then [(base, 48)] else planes base (planeBytes f))
      ++ (if isMx f then [(aScale r + aScaleStride r * i, scaleCount f (aPhase r))] else []))
/-- The stash bytes of an A operand and its scales, row by row. -/
def aRanges (f : Nat) (r : Word) (vector : Bool) : List (Nat × Nat) := (aRows f r vector).flatMap (·.2)
/-- The first offending stash offset of an A operand, row by row (10 R218). -/
def aOffending (f : Nat) (r : Word) (vector : Bool) : Option Nat :=
  (aRows f r vector).findSome? fun (a, l) => if planeCross f vector a then some a else stashBeyond l

/-- The reserved and required-zero fields of rs2 of mma and mmas (10 R217). -/
def bFieldsOk (f : Nat) (r : Word) : Bool :=
  let ph := opBits r 38 2
  opBits r 13 3 == 0 && opBits r 29 3 == 0 && opBits r 40 24 == 0 && decide (ph ≤ phaseLimit f) &&
    if isMx f then decide (opBits r 32 6 + (ph * matGroup f + matK f - 1) / 32 < 48) else opBits r 16 13 == 0 && opBits r 32 6 == 0
/-- The same of rs1 under each source (10 R216). -/
def aFieldsOk (f src : Nat) (vector : Bool) (r : Word) (nregs vlmax : Nat) : Bool :=
  match src with
  | 0 =>
    !r.getLsbD 63 && decide (aPhase r ≤ phaseLimit f) && (isMx f || (aScale r == 0 && aScaleStride r == 0)) &&
      (!vector || (aStride r == 0 && aScaleStride r == 0 && aPhase r == 0))
  | 1 =>
    !vector && !r.getLsbD 63 && opBits r 6 2 == 0 && opBits r 21 40 == 0 && decide (aPhase r ≤ phaseLimit f) &&
      decide (opBits r 0 6 + (if isMx f then 13 else 12) ≤ nregs) && decide (opBits r 8 13 + 31 < vlmax)
  | 2 => !vector && (f == 0 || f == 1 || f == 5)
  | _ => false

/-- The lowest index beyond an extent for `n` indices from `first` (10 R218). -/
def beyondExtent (ext first n : Nat) : Option Nat := if ext < first + n then some (max first ext) else none
/-- The checks of a tile operand: its extents, dimension 1 first. -/
def tileExtents (t : TileDesc) (row0 first n cause : Nat) : Option (Nat × Word) :=
  match beyondExtent (t.extent 1) row0 32 with
  | some i => some (cause, BitVec.ofNat 64 i)
  | none => (beyondExtent (t.extent 0) first n).map fun i => (cause, BitVec.ofNat 64 i)

/-- The checks of mma and mmas (10 R218). -/
def State.checkMma (s : State) (w : BitVec 32) (r1 r2 : Word) : MatCheck :=
  let f := mwFmt w
  if 12 < f ∨ !bFieldsOk f r2 ∨ !aFieldsOk f (mwSrc w) (mwVector w) r1 s.nregs s.vlmax then .illegal
  else match mwSrc w with
  | 0 =>
    if aOff r1 % 8 ≠ 0 then .bad 4 (BitVec.ofNat 64 (aOff r1))
    else match aOffending f r1 (mwVector w) with
    | some a => .bad 5 (BitVec.ofNat 64 a)
    | none => .ok none
  | 1 => .ok none
  | _ =>
    let n := matBits f / 8
    match s.checkHandle (r1.setWidth 32) false fun t =>
        t.space == 0 && decide (2 ≤ t.rank) && t.bytes == n && t.strideOf 0 == n with
    | .error v => .bad 27 v
    | .ok t =>
      match tileExtents t.desc (opBits r1 32 16) (8 * opBits r1 48 16 / n) (matK f) 5 with
      | some (c, v) => .bad c v
      | none => .ok (some t)

/-- mdrain's row stride in the stash; 0 means 64 × size. -/
def drainStride (f : Nat) (r2 : Word) : Nat := if opBits r2 0 21 = 0 then 64 * drainSize f else opBits r2 0 21
/-- The checks of mdrain (10 R218, R223). DEDUCED (log 38). -/
def State.checkDrain (s : State) (w : BitVec 32) (r1 r2 : Word) : MatCheck :=
  let f := mwFmt w
  let n := drainSize f
  let sh := opBits r2 32 6
  if 31 < sh ∨ (f ≠ 5 ∧ sh ≠ 0) ∨ opBits r2 38 26 ≠ 0 ∨ opBits r2 21 11 ≠ 0 then .illegal
  else match mwSrc w with
  | 0 =>
    if opBits r1 21 43 ≠ 0 then .illegal
    else if opBits r1 0 21 % n ≠ 0 then .bad 6 (BitVec.ofNat 64 (opBits r1 0 21))
    else if opBits r2 0 21 % n ≠ 0 then .bad 6 (BitVec.ofNat 64 (opBits r2 0 21))
    else match stashBeyond ((List.range 32).map fun i => (opBits r1 0 21 + drainStride f r2 * i, 64 * n)) with
    | some a => .bad 7 (BitVec.ofNat 64 a)
    | none => .ok none
  | 1 =>
    if opBits r2 0 21 ≠ 0 ∨ opBits r1 6 2 ≠ 0 ∨ opBits r1 21 43 ≠ 0 ∨ s.nregs < opBits r1 0 6 + 16 * n ∨ s.vlmax ≤ opBits r1 8 13 + 31 then
      .illegal
    else .ok none
  | _ =>
    if opBits r2 0 21 ≠ 0 then .illegal
    else match s.checkHandle (r1.setWidth 32) true fun t => t.space == 0 && decide (2 ≤ t.rank) && t.bytes == n with
    | .error v => .bad 27 v
    | .ok t =>
      match tileExtents t.desc (opBits r1 32 16) (opBits r1 48 16) 64 7 with
      | some (c, v) => .bad c v
      | none => .ok (some t)

/-- mload's row stride; 0 means 256 (10 R222). -/
def loadStride (r2 : Word) : Nat := if r2 = 0 then 256 else r2.toNat
/-- The checks of mload (10 R218, R222). -/
def checkMload (r1 r2 : Word) : MatCheck :=
  if opBits r1 21 43 ≠ 0 ∨ opBits r2 21 43 ≠ 0 then .illegal
  else if r1.toNat % 4 ≠ 0 then .bad 4 r1
  else if r2.toNat % 4 ≠ 0 then .bad 4 r2
  else match stashBeyond ((List.range 32).map fun i => (r1.toNat + loadStride r2 * i, 256)) with
  | some a => .bad 5 (BitVec.ofNat 64 a)
  | none => .ok none

/-! ## Reading operands (10 R216, R217, R220) -/

/-- Read `n` bytes of a core's own space, little-endian; a lost granule is CODE 5. -/
def State.ownRead (s : State) (space : BitVec 4) (off n : Nat) : Except EngErr Nat :=
  let pa := spaceAddr s.core.no space off
  if s.lostAt pa n then .error ⟨5, BitVec.ofNat 64 off⟩
  else .ok (s.core.partRead (spacePart space) (if space = 2 then flyToColumn off else off) n)
/-- Read several ranges of the stash. -/
def State.stashReads (s : State) : List (Nat × Nat) → Except EngErr (List Nat)
  | [] => .ok []
  | (a, n) :: l =>
    match s.ownRead 1 a n, s.stashReads l with
    | .error e, _ => .error e
    | _, .error e => .error e
    | .ok x, .ok xs => .ok (x :: xs)

/-- An operand row: its planes (one, for the formats that are not plane-nested), its scale bytes, and the place of its
first element. -/
structure MatRow where
  planes : List Nat
  scales : List Nat
  from' : Nat
deriving DecidableEq, Repr

/-- Bytes of a number, least first. -/
def bytesOf (x n : Nat) : List Nat := (List.range n).map fun k => x / 256 ^ k % 256
/-- Planes packed one after another, as in a granule. -/
def packedPlanes (f x : Nat) : List Nat :=
  if matPlanes f = 0 then [x] else (List.range (matPlanes f)).map fun p => x / 256 ^ (planeBytes f * p) % 256 ^ planeBytes f

/-- Read elements of a tile row and put them side by side. -/
def State.tileRow (s : State) (t : TileRef) (n row first : Nat) : Nat → Except EngErr Nat × State
  | 0 => (.ok 0, s)
  | k + 1 =>
    match State.tileRow s t n row first k with
    | (.error e, s) => (.error e, s)
    | (.ok x, s) =>
      match s.handleRead t (t.desc.at (first + k) row 0 0) n with
      | (.error e, s) => (.error e, s)
      | (.ok y, s) => (.ok (x + y * 256 ^ (n * k)), s)

/-- A row of 32-bit registers of micro-thread `m` side by side. -/
def State.regRow (s : State) (r m : Nat) : Nat → Nat
  | 0 => 0
  | n + 1 => s.regRow r m n + (s.vreg (r + n) m).toNat * 2 ^ (32 * n)

/-- A row `i` of A (10 R216). -/
def State.aRow (s : State) (w : BitVec 32) (r1 : Word) (t : Option TileRef) (i : Nat) : Except EngErr MatRow × State :=
  let f := mwFmt w
  match mwSrc w with
  | 0 =>
    if mwVector w then
      (match s.stashReads (aRanges f r1 true) with
       | .error e => .error e
       | .ok l =>
         let n := if matPlanes f = 0 then 1 else matPlanes f
         .ok ⟨l.take n, List.replicate 8 ((l.drop n).headD 0), i⟩, s)
    else
      let base := aOff r1 + 8 * aStride r1 * i
      let rs := if matPlanes f = 0 then [(base, 48)] else (List.range (matPlanes f)).map fun p => (base + 64 * p, planeBytes f)
      (match s.stashReads rs, (if isMx f then s.stashReads [(aScale r1 + aScaleStride r1 * i, scaleCount f (aPhase r1))] else .ok []) with
       | .error e, _ => .error e
       | _, .error e => .error e
       | .ok l, .ok sc => .ok ⟨l, bytesOf (sc.headD 0) (scaleCount f (aPhase r1)), 0⟩, s)
  | 1 =>
    let m := opBits r1 8 13 + i
    let r := opBits r1 0 6
    (match s.lostReg m ((List.range (if isMx f then 13 else 12)).map (r + ·)) with
     | some x => .error ⟨5, BitVec.ofNat 64 (4 * regSlot s.core.csr.nregs x m)⟩
     | none => .ok ⟨packedPlanes f (s.regRow r m 12), bytesOf (if isMx f then (s.vreg (r + 12) m).toNat else 0) 4, 0⟩, s)
  | _ =>
    match t with
    | none => (.error ⟨3, 0⟩, s)
    | some t =>
      let n := matBits f / 8
      match s.tileRow t n (opBits r1 32 16 + i) (8 * opBits r1 48 16 / n) (matK f) with
      | (.error e, s) => (.error e, s)
      | (.ok x, s) => (.ok ⟨[x], [], 0⟩, s)

/-- The columns of B: column `j` reads its granule of B-row BROW, and of SROW for scales (10 R217). -/
def State.bColumns (s : State) (f : Nat) (r2 : Word) : Nat → Except EngErr (List MatRow)
  | 0 => .ok []
  | n + 1 =>
    let j := 63 - n
    match s.ownRead 2 (opBits r2 0 13 * 3072 + j * 48) 48,
          (if isMx f then s.ownRead 2 (opBits r2 16 13 * 3072 + j * 48) 48 else .ok 0) with
    | .error e, _ => .error e
    | _, .error e => .error e
    | .ok g, .ok sc =>
      match s.bColumns f r2 n with
      | .error e => .error e
      | .ok l => .ok (⟨packedPlanes f g, (bytesOf sc 48).drop (opBits r2 32 6), 0⟩ :: l)

/-! ## Values and accumulation (03 R63, R81, R82, 10 R219) -/

/-- Element `k` of a row, floating-point, its block's scale applied; a scale of 255 makes NaN. -/
def MatRow.float (f phase : Nat) (x : MatRow) (k : Nat) : FVal :=
  let v := (matFmt f).decode ((x.planes.headD 0) / 2 ^ (matBits f * (x.from' + k)) % 2 ^ matBits f)
  if isMx f then
    let sc := x.scales.getD ((phase * matGroup f + k) / 32) 0
    if sc = 255 then .nan false else v.scale ((sc : Int) - 127)
  else v
/-- Element `k` of a row, an integer: INT8, or the planes read from the sign plane down. -/
def MatRow.int (f : Nat) (x : MatRow) (k : Nat) : Int :=
  let e := x.from' + k
  if matPlanes f = 0 then (BitVec.ofNat 8 ((x.planes.headD 0) / 256 ^ e)).toInt
  else
    let v : Nat := x.planes.foldl (fun v p => 2 * v + (p.testBit e).toNat) 0
    if 2 ^ (matPlanes f - 1) ≤ v then (v : Int) - 2 ^ matPlanes f else v

/-- The exact sum of a group's products, rounded once to FP32 (03 R81). -/
def groupSum (ps : List (FVal × FVal)) : Nat :=
  let prods := ps.map fun p => (FVal.mul p.1 p.2).1
  match prods with
  | [] => 0
  | p :: ps => (Fmt.fp32.round rne (ps.foldl (fun v x => (FVal.add rne v x).1) p)).1
/-- One floating-point accumulator element after an mma (03 R81). -/
def accFloat (f : Nat) (acc : Nat) (a b : List FVal) : Nat :=
  let e := matGroup f
  (List.range 6).foldl (fun s g => (Fmt.fp32.add rne s (groupSum (((a.zip b).drop (g * e)).take e))).1) acc
/-- One integer accumulator element after an mma (03 R82). -/
def accInt (acc : MWord) (a b : List Int) : MWord := acc + BitVec.ofInt 32 ((a.zip b).foldl (fun t p => t + p.1 * p.2) 0)

/-- One row of an accumulator tile after an mma. -/
def State.accumulate (s : State) (f t i phaseA phaseB : Nat) (a : MatRow) (bs : List MatRow) : State :=
  let ks := List.range (matK f)
  let put := fun (s : State) (j : Nat) (v : MWord) => { s with core := s.core.accSet t i j v }
  if matFloat f then
    let av := ks.map fun k => a.float f phaseA k
    (bs.zipIdx).foldl (fun s (b, j) =>
      put s j (BitVec.ofNat 32 (accFloat f (s.core.accGet t i j).toNat av (ks.map fun k => b.float f phaseB k)))) s
  else
    let av := ks.map fun k => a.int f k
    (bs.zipIdx).foldl (fun s (b, j) => put s j (accInt (s.core.accGet t i j) av (ks.map fun k => b.int f k))) s

/-! ## Running a command from its progress point (10 R220, R232) -/

/-- Run steps `i`, `i + 1`, … until one fails: the failure and the steps done. -/
def runSteps (f : Nat → State → Except EngErr Unit × State) : Nat → Nat → State → (Option EngErr × Nat) × State
  | 0, i, s => ((none, i), s)
  | n + 1, i, s =>
    match f i s with
    | (.error e, s) => ((some e, i), s)
    | (.ok (), s) => runSteps f n (i + 1) s

/-- A row of an accumulator tile holds an uncorrectable granule: the offset in space 3. -/
def State.accRowLost (s : State) (t i : Nat) : Option EngErr :=
  let off := t * 8192 + i * 256
  if s.partLost .acc off 256 then some ⟨5, BitVec.ofNat 64 off⟩ else none

/-- Row `i` of mma or mmas (10 R219). -/
def mmaRow (w : BitVec 32) (r1 r2 : Word) (t : Option TileRef) (bs : List MatRow) (i : Nat) (s : State) : Except EngErr Unit × State :=
  match s.accRowLost (mwTile w) i with
  | some e => (.error e, s)
  | none =>
    match s.aRow w r1 t i with
    | (.error e, s) => (.error e, s)
    | (.ok a, s) =>
      let pa := if mwSrc w = 2 ∨ mwVector w then 0 else aPhase r1
      (.ok (), s.accumulate (mwFmt w) (mwTile w) i pa (opBits r2 38 2) a bs)

/-- Whole bytes of an accumulator tile have been written: their granules are repaired (22 R360). -/
def State.accRepair (s : State) (t off n : Nat) : State := s.repair (windowAddr s.core.no .acc (t * 8192 + off)) n
/-- Row `i` of mload (10 R222). -/
def mloadRow (t : Nat) (r1 r2 : Word) (i : Nat) (s : State) : Except EngErr Unit × State :=
  match s.ownRead 1 (r1.toNat + loadStride r2 * i) 256 with
  | .error e => (.error e, s)
  | .ok x =>
    let s := s.meet (spaceAddr s.core.no 1 (r1.toNat + loadStride r2 * i)) 256
    (.ok (), State.accRepair { s with core := (List.range 64).foldl (fun c j => c.accSet t i j (BitVec.ofNat 32 (x / 2 ^ (32 * j)))) s.core }
      t (256 * i) 256)

/-- The element that mdrain writes for a tile word (10 R223). -/
def drainElem (f sh : Nat) (x : MWord) : Nat :=
  match f with
  | 0 => (Fmt.bf16.round rne (Fmt.fp32.decode x.toNat)).1
  | 1 => (Fmt.fp16.round rne (Fmt.fp32.decode x.toNat)).1
  | 2 => (Fmt.e4.narrow rne (Fmt.fp32.decode x.toNat)).1
  | 3 => (Fmt.e5.narrow rne (Fmt.fp32.decode x.toNat)).1
  | 5 =>
    let (k, _) := roundTo rne (decide (x.toInt < 0)) x.toInt.natAbs (-(sh : Int)) 0
    let v : Int := if x.toInt < 0 then -k else k
    (max (-128) (min 127 v) % 256).toNat
  | _ => x.toNat

/-- Check every element of a tile row before the first is written, so that a row lands whole or not at all. -/
def State.rowPlaces (s : State) (t : TileRef) (n row first : Nat) : Nat → Except EngErr Unit × State
  | 0 => (.ok (), s)
  | k + 1 =>
    match State.rowPlaces s t n row first k with
    | (.error e, s) => (.error e, s)
    | (.ok (), s) =>
      match s.handlePlace t (t.desc.at (first + k) row 0 0) n true with
      | (.error e, s) => (.error e, s)
      | (.ok _, s) => (.ok (), s)
/-- Write the elements of a tile row. -/
def State.writeRow (s : State) (t : TileRef) (n row first : Nat) (vs : List Nat) : State :=
  vs.zipIdx.foldl (fun s (v, k) => (s.handleWrite t (t.desc.at (first + k) row 0 0) n v).2) s

/-- Row `i` of mdrain (10 R223). -/
def mdrainRow (w : BitVec 32) (r1 r2 : Word) (t : Option TileRef) (i : Nat) (s : State) : Except EngErr Unit × State :=
  let f := mwFmt w
  let n := drainSize f
  match s.accRowLost (mwTile w) i with
  | some e => (.error e, s)
  | none =>
    let s := s.meet (windowAddr s.core.no .acc (8192 * mwTile w + 256 * i)) 256
    let vs := (List.range 64).map fun j => drainElem f (opBits r2 32 6) (s.core.accGet (mwTile w) i j)
    match mwSrc w with
    | 0 =>
      let base := opBits r1 0 21 + drainStride f r2 * i
      (.ok (), vs.zipIdx.foldl (fun s (v, j) =>
        let pa := spaceAddr s.core.no 1 (base + n * j)
        s.physWrite .block pa n v true) s)
    | 1 =>
      let m := opBits r1 8 13 + i
      let x := packElems (8 * n) vs
      (.ok (), (List.range (16 * n)).foldl (fun s k => s.setVreg (opBits r1 0 6 + k) m (BitVec.ofNat 32 (x / 2 ^ (32 * k)))) s)
    | _ =>
      match t with
      | none => (.error ⟨3, 0⟩, s)
      | some t =>
        let row := opBits r1 32 16 + i
        match s.rowPlaces t n row (opBits r1 48 16) 64 with
        | (.error e, s) => (.error e, s)
        | (.ok (), s) => (.ok (), s.writeRow t n row (opBits r1 48 16) vs)

/-- `n`, or less where a turn is cut short. -/
def atMost (limit : Option Nat) (n : Nat) : Nat := match limit with | some k => min k n | none => n
/-- What row `i` of A is read from, in the core's window (25 R406). -/
def State.aReads (s : State) (w : BitVec 32) (r1 : Word) (i : Nat) : List (Nat × Nat) :=
  let n := s.core.no
  match mwSrc w with
  | 0 => ((aRows (mwFmt w) r1 (mwVector w)).getD (if mwVector w then 0 else i) (0, [])).2.map fun (a, k) => (spaceAddr n 1 a, k)
  | 1 => (List.range 13).map fun k => (s.regPlace (opBits r1 0 6 + k) (opBits r1 8 13 + i), 4)
  | _ => []
/-- What the columns of B are read from. -/
def State.bReads (s : State) (f : Nat) (r2 : Word) : List (Nat × Nat) :=
  (List.range 64).flatMap fun j =>
    (spaceAddr s.core.no 2 (opBits r2 0 13 * 3072 + j * 48), 48) ::
      if isMx f then [(spaceAddr s.core.no 2 (opBits r2 16 13 * 3072 + j * 48), 48)] else []
/-- Run a matrix command, or the matrix part of a pair, from its progress point. mma and mmas read B once (10 R220), and
run to their end; one that is resumed after a fault reads its B-rows and its scale row again, R234 speaking of A alone.
DESIGN CHOICE (log 67). -/
def State.runMatrix (s : State) (kind : CmdKind) (w : BitVec 32) (r1 r2 : Word) (t : Option TileRef) (progress : Nat)
    (limit : Option Nat) : (Option EngErr × Nat) × State :=
  match kind with
  | .mzero =>
    ((none, 32), State.accRepair { s with core := (List.range 2048).foldl (fun c k => c.accSet (mwTile w) (k / 64) (k % 64) 0) s.core }
      (mwTile w) 0 8192)
  | .mload => runSteps (mloadRow (mwTile w) r1 r2) (atMost limit (32 - progress)) progress s
  | .mdrain => runSteps (mdrainRow w r1 r2 t) (atMost limit (32 - progress)) progress s
  | _ =>
    match s.bColumns (mwFmt w) r2 64 with
    | .error e => ((some e, progress), s)
    | .ok bs =>
      let s := if s.base.soft = [] then s else
        s.meetAll (s.bReads (mwFmt w) r2 ++ ((List.range 32).flatMap (s.aReads w r1)) ++ [(windowAddr s.core.no .acc (8192 * mwTile w), 8192)])
      runSteps (mmaRow w r1 r2 t bs) (32 - progress) progress s

end Sys2Proof.Machine
end

