-- ==== Sys2Proof/Machine/Engines.lean ====
section
/-! DEFINITION. Engine commands of the core in focus: issue and its checks, starting, running, completing, faulting,
resuming and cancelling (10 R210 to R235, 15 R324 to R327). The accesses of a command, or of one part of a pair, are
made in one step, or in several on an agenda (log 12). -/

namespace Sys2Proof.Machine

/-! ## Classes -/

/-- Commands of the copy engine; an xcopy.m is one and a matrix command too (10 R214, R227). -/
def CmdKind.isCopy : CmdKind → Bool
  | .copy => true
  | .copyMatrix => true
  | .fill => true
  | .gather => true
  | .scatter => true
  | _ => false
/-- Collectives. -/
def CmdKind.isColl : CmdKind → Bool
  | .reduce => true
  | .broadcast => true
  | .allgather => true
  | _ => false
/-- The matrix word of a command, or of a pair. -/
def Cmd.mword (c : Cmd) : BitVec 32 := if c.kind = .copyMatrix then c.insn.extractLsb' 32 32 else c.insn.extractLsb' 0 32
/-- The operand registers of the matrix word. -/
def Cmd.mops (c : Cmd) : Word × Word := if c.kind = .copyMatrix then (c.mrs1, c.mrs2) else (c.rs1, c.rs2)
/-- The command numbered `n`. -/
def State.cmd (s : State) (n : Nat) : Option Cmd := s.core.vec.cmds.find? fun c => c.seq == n
/-- Replace a command. -/
def State.setCmd (s : State) (c : Cmd) : State :=
  s.onVec fun v => { v with cmds := v.cmds.map fun x => if x.seq = c.seq then c else x }

/-! ## What a copy covers (02 R44, 10 R225) -/

/-- The window bytes of a tile's elements, by core, part and offset; own stash and flysheet tiles are not listed. -/
def State.windowPlaces (s : State) (t : TileRef) : List (Nat × Part × Nat) :=
  let es := List.range t.desc.count
  let place := fun (pa : Nat) =>
    match placeOf pa with
    | .window c p off => some (c, p, off)
    | _ => none
  match t.desc.space with
  | 1 => []
  | 2 => []
  | 0 =>
    let beside := fun (p : Pin) => decide (p.pa + p.bytes ≤ Config.windowBase ∨ Config.windowEnd ≤ p.pa)
    if s.dir.entries.all fun e => e.asid != t.asid || e.pins.all beside then []
    else es.filterMap fun e =>
      let a := (BitVec.ofInt 64 (t.desc.addr e)).toNat
      ((s.leafOfRef t a).bind fun x => x.pins.find? fun p => decide (p.va ≤ a ∧ a < p.va + p.bytes)).bind fun p =>
        place (p.pa + (a - p.va))
  | 5 =>
    if t.desc.hi < Config.windowBase ∨ (Config.windowEnd : Int) ≤ t.desc.lo then []
    else es.filterMap fun e => place (t.desc.addr e).toNat
  | n => es.map fun e => (s.core.no, spacePart (BitVec.ofNat 4 n), (t.desc.addr e).toNat)
/-- Add the register or tile of a place to marks; the register number follows the target's MTCFG (13 R278). -/
def State.addMark (s : State) (ms : List Mark) (p : Nat × Part × Nat) : List Mark :=
  let (c, part, off) := p
  let r : BitVec 64 := if part = .regs then BitVec.twoPow 64 (off / 4 / vlmaxOf (s.coreAt c).csr.nregs) else 0
  let t : BitVec 32 := if part = .acc then BitVec.twoPow 32 (off / 8192) else 0
  if r = 0 ∧ t = 0 then ms
  else if ms.any fun m => m.core == c then
    ms.map fun m => if m.core = c then { m with regs := m.regs ||| r, tiles := m.tiles ||| t } else m
  else { core := c, regs := r, tiles := t } :: ms
/-- The registers and tiles of any core that a destination covers. -/
def State.marksOf (s : State) (t : TileRef) : List Mark := (s.windowPlaces t).foldl s.addMark []
/-- The own accumulator tiles of some marks. -/
def State.ownTiles (s : State) (ms : List Mark) : BitVec 32 :=
  ms.foldl (fun b m => if m.core = s.core.no then b ||| m.tiles else b) 0
/-- The own registers of some marks. -/
def State.ownRegs (s : State) (ms : List Mark) : BitVec 64 :=
  ms.foldl (fun b m => if m.core = s.core.no then b ||| m.regs else b) 0
/-- A tile lies in the core's own storage. -/
def State.inOwn (s : State) (t : TileRef) : Bool :=
  decide (1 ≤ t.desc.space ∧ t.desc.space ≤ 4) || (s.windowPlaces t).any fun p => p.1 == s.core.no

/-! ## Issue (10 R210, R211) -/

/-- A command to be issued: everything but its number. -/
structure Draft where
  kind : CmdKind
  acq : Bool
  rel : Bool
  scope : BitVec 3
  rs1 : Word
  rs2 : Word
  mrs1 : Word
  mrs2 : Word
  src : Option TileRef
  dst : Option TileRef
  idx : Option TileRef
  mat : Option TileRef
  members : List Nat
deriving DecidableEq, Repr

/-- What a matrix word makes empty and reads as A (02 R44, 10 R220, R223). -/
def State.matrixMarks (s : State) (kind : CmdKind) (w : BitVec 32) (r1 : Word) : List Mark × BitVec 64 :=
  let f := mwFmt w
  let regs := if kind = .mdrain ∧ mwSrc w = 1 then regBits ((List.range (16 * drainSize f)).map (opBits r1 0 6 + ·)) else 0
  let a := if (kind = .mma ∨ kind = .mmas ∨ kind = .copyMatrix) ∧ mwSrc w = 1 then
      regBits ((List.range (if isMx f then 13 else 12)).map (opBits r1 0 6 + ·)) else 0
  ([{ core := s.core.no, regs := regs, tiles := BitVec.twoPow 32 (mwTile w) }], a)

/-- XNOTIFY.EN is bit 21; issuing any command clears it (10 R211). -/
def notifyEn : Nat := 21
/-- Put a command into the engine queue and move past its instruction; a full queue stalls (10 R210, R211). What a collective's
destination covers is empty as a copy's is. DESIGN CHOICE (log 71): 02 R44 and 10 R225 speak of copy-engine commands. -/
def State.issueCmd (s : State) (i : Instr) (rd : Option XReg) (d : Draft) : State :=
  if 16 ≤ s.core.vec.cmds.length then s
  else
    let seq := s.core.csr.xissued + 1
    let insn := match i with | .xcopyM _ _ _ _ _ _ mword => mword ++ (instrBits i).extractLsb' 0 32 | _ => (instrBits i).extractLsb' 0 32 |>.setWidth 64
    let copyMarks := match d.dst with | some t => if d.kind.isCopy ∨ d.kind.isColl then s.marksOf t else [] | none => []
    let mw : BitVec 32 := if d.kind = .copyMatrix then insn.extractLsb' 32 32 else insn.extractLsb' 0 32
    let (mm, a) := if d.kind.isMatrix then s.matrixMarks d.kind mw (if d.kind = .copyMatrix then d.mrs1 else d.rs1) else ([], 0)
    let touched := [d.src, d.idx].foldl (fun b r => match r with | some t => b ||| s.ownTiles (s.marksOf t) | none => b) (s.ownTiles copyMarks)
    let c : Cmd :=
      { seq := seq, kind := d.kind, insn := insn, acq := d.acq, rel := d.rel, scope := d.scope, rs1 := d.rs1, rs2 := d.rs2,
        mrs1 := d.mrs1, mrs2 := d.mrs2, notify := s.core.csr.xnotify, phase := .queued, matrixPart := false, progress := 0,
        code := 0, addr := 0, recorded := false, trapTaken := false, src := d.src, dst := d.dst, idx := d.idx, matTile := d.mat,
        afterEntry := s.core.vec.nextEntry, marks := copyMarks ++ mm, tiles := touched,
        own := (d.kind.isCopy || d.kind.isColl) && d.dst.any s.inOwn, aRegs := a, members := d.members,
        status := d.members.map fun _ => none, staged := false, failed := false, stamp := none }
    let s := s.onVec fun v => { v with cmds := v.cmds ++ [c] }
    let s := s.onCsr fun c => { c with xissued := seq, xnotify := putBit c.xnotify notifyEn false }
    (match rd with | some r => s.setX r (BitVec.ofNat 64 seq) | none => s).advance i.size

/-- An instruction that names an accumulator tile which is empty, under FEPOL.HIGH, takes cause 26 (02 R44). -/
def State.tileTrap (s : State) (w : BitVec 32) : Bool := s.core.csr.fepol.getLsbD 63 && s.tileEmpty.getLsbD (mwTile w)
/-- A matrix instruction: its checks, then its command (10 R218). DEDUCED (log 20). -/
def State.matrixIssue (s : State) (i : Instr) (kind : CmdKind) (w : BitVec 32) (r1 r2 : Word) (chk : MatCheck) : State :=
  match chk with
  | .illegal => s.illegal i
  | chk =>
    if s.tileTrap w then s.trap 26 (BitVec.ofNat 64 (64 + mwTile w))
    else match chk with
    | .bad cause v => s.trap cause v
    | .illegal => s.illegal i
    | .ok t =>
      s.issueCmd i none
        { kind := kind, acq := false, rel := false, scope := 1, rs1 := r1, rs2 := r2, mrs1 := 0, mrs2 := 0, src := none,
          dst := none, idx := none, mat := t, members := [] }
/-- The word of a matrix instruction. -/
def matrixWord (i : Instr) : BitVec 32 := (instrBits i).extractLsb' 0 32

/-- mma (10 R215 to R220). -/
def execMma (fmt : BitVec 4) (asrc : BitVec 2) (t rs1 rs2 : XReg) (s : State) : Host.Outcome State Fault Refusal :=
  let i : Instr := .mma fmt asrc t rs1 rs2
  let w := matrixWord i
  .next (s.matrixIssue i .mma w (s.getX rs1) (s.getX rs2) (s.checkMma w (s.getX rs1) (s.getX rs2)))
/-- mmas (10 R215 to R220). -/
def execMmas (fmt : BitVec 4) (t rs1 rs2 : XReg) (s : State) : Host.Outcome State Fault Refusal :=
  let i : Instr := .mmas fmt t rs1 rs2
  let w := matrixWord i
  .next (s.matrixIssue i .mmas w (s.getX rs1) (s.getX rs2) (s.checkMma w (s.getX rs1) (s.getX rs2)))
/-- mdrain (10 R223). -/
def execMdrain (fmt : BitVec 4) (dkind : BitVec 2) (t rs1 rs2 : XReg) (s : State) : Host.Outcome State Fault Refusal :=
  let i : Instr := .mdrain fmt dkind t rs1 rs2
  let w := matrixWord i
  .next (s.matrixIssue i .mdrain w (s.getX rs1) (s.getX rs2) (s.checkDrain w (s.getX rs1) (s.getX rs2)))
/-- mzero (10 R222). -/
def execMzero (t : XReg) (s : State) : Host.Outcome State Fault Refusal :=
  let i : Instr := .mzero t
  .next (s.matrixIssue i .mzero (matrixWord i) 0 0 (.ok none))
/-- mload (10 R222). -/
def execMload (t rs1 rs2 : XReg) (s : State) : Host.Outcome State Fault Refusal :=
  let i : Instr := .mload t rs1 rs2
  .next (s.matrixIssue i .mload (matrixWord i) (s.getX rs1) (s.getX rs2) (checkMload (s.getX rs1) (s.getX rs2)))

/-! ## Copy commands at issue (10 R224 to R227) -/

/-- The low and the high handle of a register value. -/
def lowHandle (x : Word) : BitVec 32 := x.extractLsb' 0 32
def highHandle (x : Word) : BitVec 32 := x.extractLsb' 32 32
/-- Any shape. -/
def anyShape (_ : TileDesc) : Bool := true
/-- Rank 2 or more. -/
def rankTwo (t : TileDesc) : Bool := decide (2 ≤ t.rank)
/-- An index tile: rank 1, uint32. -/
def indexShape (t : TileDesc) : Bool := t.rank == 1 && t.esize == 2
/-- A group tile: rank 1, 64-bit words (10 R228). -/
def groupShape (t : TileDesc) : Bool := t.rank == 1 && t.esize == 3
/-- The rows of a tile: the product of its other extents (10 R226). -/
def TileDesc.rows (t : TileDesc) : Nat := t.extent 1 * t.extent 2 * t.extent 3

/-- The draft of a copy command without its flags. -/
def copyDraft (kind : CmdKind) (acq rel : Bool) (scope : BitVec 3) (r1 r2 : Word) (src dst idx : Option TileRef) : Draft :=
  { kind := kind, acq := acq, rel := rel, scope := scope, rs1 := r1, rs2 := r2, mrs1 := 0, mrs2 := 0, src := src, dst := dst,
    idx := idx, mat := none, members := [] }

/-- The tiles of an xcopy: source, destination, then the relation, which names the destination. -/
def State.copyTiles (s : State) (r1 r2 : Word) : Except Word (TileRef × TileRef) :=
  match s.checkHandle (lowHandle r1) false anyShape with
  | .error v => .error v
  | .ok a =>
    match s.checkHandle (lowHandle r2) true anyShape with
    | .error v => .error v
    | .ok b =>
      if a.desc.esize = b.desc.esize ∧ a.desc.count = b.desc.count then .ok (a, b) else .error (tileTval tfShape (lowHandle r2))

/-- xcopy (10 R225, R226). -/
def execXcopy (acq rel : Bool) (scope : BitVec 3) (rd rs1 rs2 : XReg) (s : State) : Host.Outcome State Fault Refusal :=
  let r1 := s.getX rs1
  let r2 := s.getX rs2
  match s.copyTiles r1 r2 with
  | .error v => .next (s.trap 27 v)
  | .ok (a, b) => .next (s.issueCmd (.xcopy acq rel scope rd rs1 rs2) (some rd) (copyDraft .copy acq rel scope r1 r2 (some a) (some b) none))

/-- xfill (10 R226). -/
def execXfill (acq rel : Bool) (scope : BitVec 3) (rd rs1 rs2 : XReg) (s : State) : Host.Outcome State Fault Refusal :=
  let r2 := s.getX rs2
  match s.checkHandle (lowHandle r2) true anyShape with
  | .error v => .next (s.trap 27 v)
  | .ok b => .next (s.issueCmd (.xfill acq rel scope rd rs1 rs2) (some rd) (copyDraft .fill acq rel scope (s.getX rs1) r2 none (some b) none))

/-- The tiles of a gather or a scatter: source, destination, index; `n` is the index extent that is required. -/
def State.rowTiles (s : State) (hs hd hi : BitVec 32) (scatter : Bool) : Except Word (TileRef × TileRef × TileRef) :=
  match s.checkHandle hs false rankTwo with
  | .error v => .error v
  | .ok a =>
    match s.checkHandle hd true rankTwo with
    | .error v => .error v
    | .ok b =>
      match s.checkHandle hi false indexShape with
      | .error v => .error v
      | .ok x =>
        if a.desc.esize ≠ b.desc.esize ∨ a.desc.extent 0 ≠ b.desc.extent 0 then .error (tileTval tfShape hd)
        else if x.desc.extent 0 ≠ (if scatter then a.desc.rows else b.desc.rows) then .error (tileTval tfShape hi)
        else .ok (a, b, x)
/-- xgather (10 R226). -/
def execXgather (acq rel : Bool) (scope : BitVec 3) (rd rs1 rs2 : XReg) (s : State) : Host.Outcome State Fault Refusal :=
  let r1 := s.getX rs1
  let r2 := s.getX rs2
  match s.rowTiles (lowHandle r1) (lowHandle r2) (highHandle r1) false with
  | .error v => .next (s.trap 27 v)
  | .ok (a, b, x) =>
    .next (s.issueCmd (.xgather acq rel scope rd rs1 rs2) (some rd) (copyDraft .gather acq rel scope r1 r2 (some a) (some b) (some x)))
/-- xscatter (10 R226). -/
def execXscatter (acq rel : Bool) (scope : BitVec 3) (rd rs1 rs2 : XReg) (s : State) : Host.Outcome State Fault Refusal :=
  let r1 := s.getX rs1
  let r2 := s.getX rs2
  match s.rowTiles (lowHandle r1) (lowHandle r2) (highHandle r2) true with
  | .error v => .next (s.trap 27 v)
  | .ok (a, b, x) =>
    .next (s.issueCmd (.xscatter acq rel scope rd rs1 rs2) (some rd) (copyDraft .scatter acq rel scope r1 r2 (some a) (some b) (some x)))

/-- xcopy.m with the mma or mmas that follows it (10 R227). -/
def execXcopyM (acq rel : Bool) (scope : BitVec 3) (rd rs1 rs2 : XReg) (mword : MWord) (s : State) : Host.Outcome State Fault Refusal :=
  let i : Instr := .xcopyM acq rel scope rd rs1 rs2 mword
  let r1 := s.getX rs1
  let r2 := s.getX rs2
  let m1 := s.getX (bits mword 15 5)
  let m2 := s.getX (bits mword 20 5)
  match s.checkMma mword m1 m2 with
  | .illegal => .next (s.illegal i)
  | chk =>
    if s.tileTrap mword then .next (s.trap 26 (BitVec.ofNat 64 (64 + mwTile mword)))
    else match s.copyTiles r1 r2 with
    | .error v => .next (s.trap 27 v)
    | .ok (a, b) =>
      match chk with
      | .bad cause v => .next (s.trap cause v)
      | .illegal => .next (s.illegal i)
      | .ok t =>
        .next (s.issueCmd i (some rd)
          { kind := .copyMatrix, acq := acq, rel := rel, scope := scope, rs1 := r1, rs2 := r2, mrs1 := m1, mrs2 := m2,
            src := some a, dst := some b, idx := none, mat := t, members := [] })

/-! ## Collectives at issue (10 R228, R229) -/

/-- The member word of a core of this module. -/
def memberWord (core : Nat) : Nat := 0xFFFF + core * 65536
/-- A member word as this module names its own cores: its number, or 0xFFFF, in the low bits (10 R228). -/
def ownForm (w : Nat) : Nat :=
  if w % 65536 = 0xFFFF then w else if w % 65536 = Config.moduleNumber then w / 65536 * 65536 + 0xFFFF else w
/-- The member words of a group tile. -/
def State.readMembers (s : State) (t : TileRef) : Nat → Nat → Except EngErr (List Nat) × State
  | 0, _ => (.ok [], s)
  | n + 1, k =>
    match s.handleRead t (t.desc.addr k) 8 with
    | (.error e, s) => (.error e, s)
    | (.ok x, s) =>
      match State.readMembers s t n (k + 1) with
      | (.error e, s) => (.error e, s)
      | (.ok l, s) => (.ok (ownForm x :: l), s)
/-- The size of an element that a reduction operator takes: bf16 for add.bf16, else 4 bytes (10 R229). -/
def reduceEsize (op : Nat) : Nat := if op = 1 then 1 else 2
/-- The cause of a failed read of a group word (22 R360). DEDUCED (log 14). -/
def groupCause (code : Nat) : Nat := if code = 1 then 13 else if code = 5 then 31 else 5

/-- The release part of ACQ: the accesses of the control thread and of entries issued before `entry` are performed at the command's
scope before its first read (10 R213, 15 R326); an engine is an agent of its own, so those of its core are performed at least. -/
def State.acquireFor (s : State) (scope : BitVec 3) (entry : Nat) : State :=
  s.releaseBy (fun l => l.ofCt || l.ofElem entry) (max 1 scope.toNat)
/-- The same of a command that begins. -/
def State.acquireCmd (s : State) (c : Cmd) : State := if c.acq ∧ c.phase = .queued then s.acquireFor c.scope c.afterEntry else s
/-- An xcoll: its checks, then its command (10 R228, R229). -/
def State.collIssue (s : State) (i : Instr) (kind : CmdKind) (acq rel : Bool) (scope : BitVec 3) (rd : XReg) (r1 r2 : Word) : State :=
  let op := (highHandle r2).toNat
  -- the group's words are the command's first reads: under ACQ they come after every element of an earlier entry (15 R326)
  let waits := acq && s.core.vec.queue.any fun e => e.isMemory && !e.distributed
  if !s.core.csr.xnotify.getLsbD notifyEn ∨ 6 < op then s.illegal i
  else match s.checkHandle (lowHandle r1) false (fun t => kind != .reduce || t.esize == reduceEsize op) with
  | .error v => s.trap 27 v
  | .ok a =>
    match s.checkHandle (lowHandle r2) true anyShape with
    | .error v => s.trap 27 v
    | .ok b =>
      match s.checkHandle (highHandle r1) false groupShape with
      | .error v => s.trap 27 v
      | .ok g =>
        let n := if kind = .allgather then g.desc.count * a.desc.count else a.desc.count
        if a.desc.esize ≠ b.desc.esize ∨ b.desc.count ≠ n then s.trap 27 (tileTval tfShape (lowHandle r2))
        else if waits then s
        else match (if acq then s.acquireFor scope s.core.vec.nextEntry else s).readMembers g g.desc.count 0 with
        | (.error e, s) =>
          ((if e.code = 5 then s.countUe else s).onCsr fun c => { c with tsrc := if e.code = 5 then 0 else c.tsrc }).trap
            (groupCause e.code) e.addr
        | (.ok ms, s) =>
          if !ms.contains (memberWord s.core.no) then s.trap 27 (tileTval tfMember (highHandle r1))
          else
            s.issueCmd i (some rd)
              { kind := kind, acq := acq, rel := rel, scope := scope, rs1 := r1, rs2 := r2, mrs1 := 0, mrs2 := 0, src := some a,
                dst := some b, idx := some g, mat := none, members := ms }
/-- xcoll, reduce (10 R229). -/
def execXcollReduce (acq rel : Bool) (scope : BitVec 3) (rd rs1 rs2 : XReg) (s : State) : Host.Outcome State Fault Refusal :=
  .next (s.collIssue (.xcollReduce acq rel scope rd rs1 rs2) .reduce acq rel scope rd (s.getX rs1) (s.getX rs2))
/-- xcoll, broadcast (10 R229). -/
def execXcollBroadcast (acq rel : Bool) (scope : BitVec 3) (rd rs1 rs2 : XReg) (s : State) : Host.Outcome State Fault Refusal :=
  .next (s.collIssue (.xcollBroadcast acq rel scope rd rs1 rs2) .broadcast acq rel scope rd (s.getX rs1) (s.getX rs2))
/-- xcoll, all-gather (10 R229). -/
def execXcollAllgather (acq rel : Bool) (scope : BitVec 3) (rd rs1 rs2 : XReg) (s : State) : Host.Outcome State Fault Refusal :=
  .next (s.collIssue (.xcollAllgather acq rel scope rd rs1 rs2) .allgather acq rel scope rd (s.getX rs1) (s.getX rs2))

/-! ## Copying (10 R225, R226) -/

/-- Write an element of a copy command; its bytes count as moved (21 R343). -/
def copyWrite (b : TileRef) (e v : Nat) (s : State) : Except EngErr Unit × State :=
  match s.handleWrite b (b.desc.addr e) b.desc.bytes v with
  | (.error x, s) => (.error x, s)
  | (.ok (), s) => (.ok (), { s with core := s.core.note 8 b.desc.bytes })
/-- Copy element `e`: read, then write. -/
def copyStep (a b : TileRef) (e : Nat) (s : State) : Except EngErr Unit × State :=
  match s.handleRead a (a.desc.addr e) a.desc.bytes with
  | (.error x, s) => (.error x, s)
  | (.ok v, s) => copyWrite b e v s
/-- Fill element `e`. -/
def fillStep (pattern : Nat) (b : TileRef) (e : Nat) (s : State) : Except EngErr Unit × State :=
  copyWrite b e (pattern % 256 ^ b.desc.bytes) s
/-- Check the accesses of a row before its first write, so that a row lands whole or not at all. -/
def rowCheck (a b : TileRef) (ea eb : Nat) : Nat → State → Except EngErr Unit × State
  | 0, s => (.ok (), s)
  | n + 1, s =>
    match s.handlePlace a (a.desc.addr ea) a.desc.bytes false with
    | (.error x, s) => (.error x, s)
    | (.ok _, s) =>
      match s.handlePlace b (b.desc.addr eb) b.desc.bytes true with
      | (.error x, s) => (.error x, s)
      | (.ok _, s) => rowCheck a b (ea + 1) (eb + 1) n s
/-- Move `n` elements from `ea` of one tile to `eb` of another. -/
def rowMove (a b : TileRef) (ea eb : Nat) : Nat → State → Except EngErr Unit × State
  | 0, s => (.ok (), s)
  | n + 1, s =>
    match s.handleRead a (a.desc.addr ea) a.desc.bytes with
    | (.error x, s) => (.error x, s)
    | (.ok v, s) =>
      match copyWrite b eb v s with
      | (.error x, s) => (.error x, s)
      | (.ok (), s) => rowMove a b (ea + 1) (eb + 1) n s
/-- Row `r` of a gather or a scatter: its index is read, checked against the row count, and the row moves. -/
def rowStep (a b x : TileRef) (scatter : Bool) (r : Nat) (s : State) : Except EngErr Unit × State :=
  match s.handleRead x (x.desc.addr r) 4 with
  | (.error e, s) => (.error e, s)
  | (.ok k, s) =>
    if (if scatter then b.desc.rows else a.desc.rows) ≤ k then (.error ⟨6, BitVec.ofInt 64 (x.desc.addr r)⟩, s)
    else
      let n := a.desc.extent 0
      let ea := (if scatter then r else k) * n
      let eb := (if scatter then k else r) * n
      match rowCheck a b ea eb n s with
      | (.error e, s) => (.error e, s)
      | (.ok (), s) => rowMove a b ea eb n s
/-- The elements or rows of a copy command, or of the copy part of a pair; the rows of a matrix command. -/
def Cmd.steps (c : Cmd) : Nat :=
  match c.kind, c.matrixPart, c.src, c.dst with
  | .scatter, _, some a, _ => a.desc.rows
  | .gather, _, _, some b => b.desc.rows
  | .copyMatrix, true, _, _ => 32
  | k, _, _, some b => if k.isCopy then b.desc.count else 32
  | _, _, _, none => 32
/-- Run a copy command, or the copy part of a pair, from its progress point. -/
def State.runCopy (s : State) (c : Cmd) (limit : Option Nat) : (Option EngErr × Nat) × State :=
  let n := atMost limit (c.steps - c.progress)
  match c.kind, c.src, c.dst, c.idx with
  | .fill, _, some b, _ => runSteps (fillStep c.rs1.toNat b) n c.progress s
  | .gather, some a, some b, some x => runSteps (rowStep a b x false) n c.progress s
  | .scatter, some a, some b, some x => runSteps (rowStep a b x true) n c.progress s
  | _, some a, some b, _ => runSteps (copyStep a b) n c.progress s
  | _, _, _, _ => ((none, c.steps), s)

/-! ## Starting (10 R213, R214, R227) -/

/-- The copy of a command has landed. A pair that has faulted in its matrix part holds back later matrix commands alone.
DESIGN CHOICE (log 67): 10 R233 does not say which kind it is. -/
def Cmd.copied (c : Cmd) : Bool := c.matrixPart || (c.phase == .running && c.code == 0)
/-- No vector-queue entry that was issued before a command is left. -/
def State.entriesBefore (s : State) (c : Cmd) : Bool := s.core.vec.queue.all fun e => decide (c.afterEntry ≤ e.id)
/-- The tiles that commands of other cores make empty here. -/
def State.farTiles (s : State) : BitVec 32 := (s.marksHere 0).foldl (fun b m => b ||| m.tiles) 0
/-- A copy may start: copies keep their order; it waits for earlier vector entries under ACQ or when it writes own
registers, for earlier matrix commands to have read their operands when it writes own storage, and for the
accumulator tiles that it reads or writes to be full (02 R44, 10 R213, R214). -/
def State.mayCopy (s : State) (c : Cmd) : Bool :=
  (s.core.vec.cmds.all fun y => decide (c.seq ≤ y.seq) ||
    ((!y.kind.isCopy || y.copied) &&
     (!y.kind.isMatrix || ((!c.own || c.dst.all (fun t => t.desc.space == 3) || y.operandsRead) && !c.tiles.getLsbD (mwTile y.mword))))) &&
  (s.farTiles &&& c.tiles) == 0 && (!(c.acq || s.ownRegs c.marks != 0) || s.entriesBefore c)
/-- A collective may start: its writes into own storage wait as a copy's do. Collectives start in order among themselves, in
no order with copies, and complete in any order: 10 R214 speaks of copies and matrix commands alone. DESIGN CHOICE (log 67). -/
def State.mayCollect (s : State) (c : Cmd) : Bool :=
  (s.core.vec.cmds.all fun y => decide (c.seq ≤ y.seq) ||
    ((!y.kind.isColl || (y.phase == .running && y.code == 0)) &&
     (!y.kind.isMatrix || ((!c.own || y.operandsRead) && !c.tiles.getLsbD (mwTile y.mword))))) &&
  (s.farTiles &&& c.tiles) == 0 && (!(c.acq || s.ownRegs c.marks != 0) || s.entriesBefore c)
/-- A matrix command, or the matrix part of a pair, may start: matrix commands keep their order; a matrix command, but
not a pair's part, waits for earlier copies into own storage; a register A waits while empty; an mdrain into registers
waits for earlier entries; earlier stores into spaces 2 and 3 come first (09 R201, 10 R214, R220, R227). -/
def State.mayMultiply (s : State) (c : Cmd) : Bool :=
  (s.core.vec.cmds.all fun y => decide (c.seq ≤ y.seq) ||
    ((!y.kind.isMatrix || y.operandsRead) &&
     (c.kind == .copyMatrix || y.kind == .copyMatrix || !((y.kind.isCopy || y.kind.isColl) && y.own)))) &&
  (s.regEmptyAt (c.seq - 1) &&& c.aRegs) == 0 && !s.farTiles.getLsbD (mwTile c.mword) &&
  (!(c.kind == .mdrain && s.ownRegs c.marks != 0) || s.entriesBefore c) &&
  (s.core.vec.queue.all fun e => decide (c.afterEntry ≤ e.id) || e.distributed || !(e.bytes.2 && (e.space == 2 || e.space == 3)))

/-- Where a command stands after a turn: stopped by a failure, at its end, or to go on from its progress point. -/
def Cmd.ranTo (c : Cmd) (e : Option EngErr) (progress : Nat) : Cmd :=
  match e with
  | some e => { c with phase := .running, progress := progress, code := e.code, addr := e.addr }
  | none => { c with phase := if progress < c.steps ∧ !c.kind.isColl then .suspended else .running, progress := progress, code := 0, addr := 0 }
/-- The last byte of a command's copy, or of an mdrain into registers, has landed: what it covered is full (02 R44). The
accumulator tile of a matrix command stays empty until it completes. -/
def State.landed (s : State) (c : Cmd) : Cmd :=
  if c.kind.isMatrix then { c with marks := (s.matrixMarks c.kind c.mword c.mops.1).1.map fun m => { m with regs := 0 } }
  else { c with marks := [] }

/-- What takes part with what (10 R228): one kind, one operator, the same members. -/
def Cmd.sameColl (c : Cmd) (x : Contribution) : Bool :=
  x.kind == c.kind && x.op == (highHandle c.rs2).toNat && x.members == c.members
/-- Stage a contribution, or a failure; `taken` are the cores it is not for. DEDUCED (log 14). -/
def State.stageFor (s : State) (member : Nat) (c : Cmd) (data : Option (List Nat)) (taken : List Nat) : State :=
  { s with dir := { s.dir with staged := s.dir.staged ++
      [{ member := member, kind := c.kind, op := (highHandle c.rs2).toNat, members := c.members, data := data, taken := taken }] } }
/-- Stage a contribution for every member. -/
def State.stage (s : State) (member : Nat) (c : Cmd) (data : Option (List Nat)) : State := s.stageFor member c data []
/-- A core's own collective fails for its other members, once (10 R231). -/
def State.stageFailure (s : State) (core : Nat) (c : Cmd) : State :=
  if c.kind.isColl ∧ !c.staged ∧ !c.failed then s.stageFor (memberWord core) c none [core] else s
/-- The cores of this module among some members. -/
def localMembers (ms : List Nat) : List Nat := (ms.filter fun m => m % 65536 == 0xFFFF).map fun m => m / 65536 % 256
/-- The source elements of a collective, read when it starts. -/
def State.readSource (s : State) (t : TileRef) : Nat → Nat → Except EngErr (List Nat) × State
  | 0, _ => (.ok [], s)
  | n + 1, e =>
    match s.handleRead t (t.desc.addr e) t.desc.bytes with
    | (.error x, s) => (.error x, s)
    | (.ok v, s) =>
      match State.readSource s t n (e + 1) with
      | (.error x, s) => (.error x, s)
      | (.ok l, s) => (.ok (v :: l), s)
/-- The members of a collective; a restored one reads its group tile once more where it could not be read then (log 61). -/
def State.withMembers (s : State) (c : Cmd) : Except EngErr Cmd × State :=
  match c.members, c.idx with
  | [], some g =>
    match s.readMembers g g.desc.count 0 with
    | (.error e, s) => (.error e, s)
    | (.ok l, s) => (.ok { c with members := l, status := l.map fun _ => none }, s)
  | _, _ => (.ok c, s)
/-- A collective has ended for everyone before this core took part: a failure of its own member stands for it (25 R411). -/
def State.overFor (s : State) (c : Cmd) : Bool :=
  s.dir.staged.any fun x => c.sameColl x && x.member == memberWord s.core.no && x.data.isNone && !x.taken.contains s.core.no
/-- Start a collective: its source is read whole and staged. One that failed for the others and was resumed stages it for
itself alone (10 R231, R234). -/
def State.startColl (s : State) (c : Cmd) : State :=
  match (s.acquireCmd c).withMembers c with
  | (.error e, s) => s.setCmd (c.ranTo (some e) c.progress)
  | (.ok c, s) =>
    match c.src with
    | some t =>
      if c.staged then s.setCmd (c.ranTo none c.progress)
      else if s.overFor c then s.setCmd { (c.ranTo none c.progress) with staged := true }
      else match s.readSource t t.desc.count 0 with
        | (.error e, s) => s.setCmd (c.ranTo (some e) c.progress)
        | (.ok l, s) =>
          let others := (localMembers c.members).filter fun n => n != s.core.no
          (s.stageFor (memberWord s.core.no) c (some l) (if c.failed then others else [])).setCmd { (c.ranTo none c.progress) with staged := true }
    | none => s

/-- Cycles for which a matrix command occupies the array (10 R221); reading A through a tile takes the time of memory, a free value, where
the die's tile cache does not hold every row. DESIGN CHOICE (log 10). -/
def State.occupancy (s : State) (c : Cmd) : Nat :=
  match c.kind with
  | .mzero => 1
  | .mload => 16
  | .mdrain => 8 * drainSize (mwFmt c.mword)
  | _ => if mwSrc c.mword = 2 then max 24 (Config.eventCount 7 s.core.no s.base.cycle) else 6
/-- The array has been occupied (21 R343): a command that comes to its end counts its cycles, one that stops on the way the cycles of the
rows that it has done. -/
def State.occupied (s : State) (c : Cmd) (e : Option EngErr) (rows : Nat) : State :=
  let n := if e.isNone ∧ (c.progress + rows = 32) then s.occupancy c - s.occupancy c * c.progress / 32 else s.occupancy c * rows / 32
  { s with core := s.core.note 7 n }
/-- Start a command's next part, when its ordering waits have ended; `limit` cuts a turn short. -/
def State.startCmd (s : State) (c : Cmd) (limit : Option Nat) : State :=
  if c.kind.isColl then (if s.mayCollect c then s.startColl c else s)
  else if c.kind.isCopy ∧ !c.matrixPart then
    if !s.mayCopy c then s
    else
      let ((e, n), s) := (s.acquireCmd c).runCopy c limit
      let d := c.ranTo e n
      let d := if d.phase = .running ∧ e = none then s.landed d else d
      s.setCmd (if d.kind = .copyMatrix ∧ d.phase = .running ∧ e = none then { d with matrixPart := true, phase := .suspended, progress := 0 } else d)
  else if !s.mayMultiply c then s
  else
    let ((e, n), s) := s.runMatrix c.kind c.mword c.mops.1 c.mops.2 c.matTile c.progress limit
    let d := c.ranTo e n
    let s := s.occupied c e (n - c.progress)
    s.setCmd (if d.phase = .running ∧ e = none then s.landed d else d)
/-- The agent number of a command's accesses (15 R316). -/
def Cmd.agent (c : Cmd) (core : Nat) : Nat := if c.kind.isColl then 512 + dieOf core else 256 + core
/-- A command that waits, or that stands at a progress point, has its turn, on a core that runs and is not held (01 R20,
10 R235). -/
def State.startSeq (s : State) (seq : Nat) (limit : Option Nat) : State :=
  match s.cmd seq with
  | some c =>
    if (c.phase = .queued ∨ c.phase = .suspended) ∧ s.core.phase = .running ∧ !s.held s.core.no then
      s.asAgent (c.agent s.core.no) fun s => s.startCmd c limit
    else s
  | none => s
/-- ENGINE_COMMAND_START (10 R214). -/
def execEngineCommandStart (seq : Nat) (s : State) : Host.Outcome State Fault Refusal := .next (s.startSeq seq none)

/-! ## Completing (10 R211, R212, R231) -/

/-- Write `n` bytes into the own stash where they lie in it, stamped: status bytes and a notify word beyond the stash are not
written. DESIGN CHOICE (log 67). -/
def State.stashPut (s : State) (off n v : Nat) (t : BitVec 32) : State :=
  if off + n ≤ Config.stashBytes then
    let s := (s.windowWrite s.core.no .stash off n v).repair (windowAddr s.core.no .stash off) n
    { s with core := s.core.stampWrite .stash off n t }
  else s
/-- The stash offset of the notify word. -/
def Cmd.notifyAt (c : Cmd) : Nat := 4 * opBits c.notify 2 19
/-- Write the status bytes of a collective, then the notify word, when EN was recorded, with the stamp that it took, if it took one
early (15 R325). -/
def State.notifyCmd (s : State) (c : Cmd) (flip : BitVec 32) : State :=
  if !c.notify.getLsbD notifyEn then s
  else
    let t := c.stamp.getD s.core.ltime
    let s := c.status.zipIdx.foldl (fun s (v, k) => s.stashPut (c.notifyAt + 4 + k) 1 (v.getD 3) t) s
    s.stashPut c.notifyAt 4 (c.notify.extractLsb' 32 32 ^^^ flip).toNat t
/-- The notify word of a command that has begun takes its stamp while payload writes are still to be performed (15 R325): without
REL, or with REL at a scope no wider than the core. The word itself follows the payload, as the core's own control thread and
micro-threads must see them (10 R212); that an agent of another core could see it before is left out (log 11). -/
def State.notifyEarly (s : State) (seq : Nat) : State :=
  match s.cmd seq with
  | some c =>
    if (c.phase ≠ .running ∧ c.phase ≠ .suspended) ∨ s.core.phase ≠ .running ∨ c.stamp.isSome ∨ (c.rel ∧ 2 ≤ c.scope.toNat) then s
    else s.setCmd { c with stamp := some s.core.ltime }
  | none => s
/-- XSEQ: the highest number below every command that is still held (10 R211). -/
def Vec.seqDone (v : Vec) (issued : Nat) : Nat := v.cmds.foldl (fun n c => min n (c.seq - 1)) issued
/-- The contributions that a core takes when its collective ends: of each member, the oldest that it has not taken. -/
def takeStaged (me : Nat) (c : Cmd) : List Nat → List Contribution → List Contribution
  | _, [] => []
  | done, x :: xs =>
    if c.sameColl x && !x.taken.contains me && !done.contains x.member then
      { x with taken := me :: x.taken } :: takeStaged me c (x.member :: done) xs
    else x :: takeStaged me c done xs
/-- Every core of this module that is a member has taken a contribution. -/
def Contribution.spent (x : Contribution) : Bool := (localMembers x.members).all fun c => x.taken.contains c

/-- A command frees its entry (10 R212). -/
def State.finishCmd (s : State) (c : Cmd) (flip : BitVec 32) : State :=
  let s := s.notifyCmd c flip
  let s := if c.kind.isColl then
      { s with dir := { s.dir with staged := (takeStaged s.core.no c [] s.dir.staged).filter fun x => !x.spent } }
    else s
  let s := (s.onVec fun v => { v with cmds := v.cmds.filter fun x => x.seq != c.seq }).pruneKept
  s.onCsr fun r => { r with xseq := s.core.vec.seqDone r.xissued }

/-- Two kinds complete in sequence order (10 R214). -/
def sameLane (a b : CmdKind) : Bool := (a.isCopy && b.isCopy) || (a.isMatrix && b.isMatrix)
/-- A command may complete: it has run, no earlier one of its lane is left, every member is accounted for. -/
def State.mayComplete (s : State) (c : Cmd) : Bool :=
  c.phase == .running && c.code == 0 && c.status.all Option.isSome &&
    s.core.vec.cmds.all fun y => decide (c.seq ≤ y.seq) || !sameLane y.kind c.kind
/-- ENGINE_COMMAND_COMPLETE (10 R212, R213). -/
def execEngineCommandComplete (seq : Nat) (s : State) : Host.Outcome State Fault Refusal :=
  match s.cmd seq with
  | some c => .next (if s.mayComplete c then (if c.rel then s.release c.scope.toNat else s).finishCmd c 0 else s)
  | none => .next s

/-! ## Contributions (10 R229 to R231) -/

/-- The fold of a reduction, one element (10 R229). -/
def reduceElem (op x y : Nat) : Nat :=
  match op with
  | 0 => (Fmt.fp32.add rne x y).1
  | 1 => (Fmt.bf16.add rne x y).1
  | 2 => (x + y) % 2 ^ 32
  | 3 => (Fmt.fp32.minmax true x y).1
  | 4 => (Fmt.fp32.minmax false x y).1
  | 5 => if (BitVec.ofNat 32 x).slt (BitVec.ofNat 32 y) then y else x
  | _ => if (BitVec.ofNat 32 y).slt (BitVec.ofNat 32 x) then y else x
/-- The fold of whole contributions in list order. -/
def reduceAll (op : Nat) : List (List Nat) → List Nat
  | [] => []
  | x :: xs => xs.foldl (fun a b => List.zipWith (reduceElem op) a b) x
/-- The oldest contribution of a member that this core has not taken. -/
def State.contribution (s : State) (c : Cmd) (member : Nat) : Option Contribution :=
  s.dir.staged.find? fun x => c.sameColl x && x.member == member && !x.taken.contains s.core.no
/-- A contribution from a peer module arrives: its elements are free values (10 R228). -/
def State.peerArrives (s : State) (c : Cmd) (member : Nat) : State :=
  let n := match c.src with | some t => t.desc.count | none => 0
  let w := match c.src with | some t => 8 * t.desc.bytes | none => 8
  let l := (List.range n).map fun e => Config.peerElement (s.fresh + e) % 2 ^ w
  { s.stage member c (some l) with fresh := s.fresh + n }
/-- The data of every member, once all have arrived. -/
def State.allData (s : State) (c : Cmd) : List (List Nat) :=
  c.members.map fun m => match s.contribution c m with | some x => x.data.getD [] | none => []
/-- The elements that a contribution lets a member write, and from where: a reduction when all have arrived, a
broadcast from S_0, a segment of an all-gather (10 R230). -/
def State.contributes (s : State) (c : Cmd) (k : Nat) (data : List Nat) (status : List (Option Nat)) : List Nat × Nat :=
  match c.kind with
  | .reduce => if status.all (· == some 0) then (reduceAll (highHandle c.rs2).toNat (s.allData c), 0) else ([], 0)
  | .broadcast => if k = 0 then (data, 0) else ([], 0)
  | _ => (data, k * data.length)
/-- Who writes what member `w` contributes: the engine, or the guyline on which data of a peer module comes in (15 R316). -/
def Cmd.writerFor (c : Cmd) (core w : Nat) : Nat :=
  if c.kind != .reduce && w % 65536 != 0xFFFF then 544 + Config.linkOf w % 24 else c.agent core
/-- Member `k`'s contribution is applied, or its failure recorded (10 R230, R231). What a fault cut short goes on from its
progress point (R232, R234). -/
def State.contribute (s : State) (c : Cmd) (k : Nat) (x : Contribution) : State :=
  match x.data with
  | none => s.setCmd { c with status := c.status.set k (some 2) }
  | some l =>
    let st := c.status.set k (some 0)
    let (vs, e) := s.contributes c k l st
    match c.dst with
    | none => s
    | some b =>
      let done := min vs.length (c.progress - e)
      let put := fun (i : Nat) (s : State) => s.handleWrite b (b.desc.addr i) b.desc.bytes (vs.getD (i - e) 0)
      match runSteps put (vs.length - done) (e + done) s with
      | ((none, _), s) =>
        let d := { c with status := st, progress := if vs = [] then c.progress else max c.progress (e + vs.length) }
        s.setCmd (if b.desc.count ≤ d.progress then s.landed d else d)
      | ((some x, n), s) => s.setCmd (c.ranTo (some x) n)
/-- The segments of an all-gather land in list order, so that its progress point is a prefix of the elements (10 R232). DEDUCED
(log 14). -/
def Cmd.segmentDue (c : Cmd) (k : Nat) : Bool := c.kind != .allgather || (c.status.take k).all Option.isSome
/-- COLLECTIVE_CONTRIBUTION (10 R230). -/
def execCollectiveContribution (seq member : Nat) (s : State) : Host.Outcome State Fault Refusal :=
  match s.cmd seq with
  | none => .next s
  | some c =>
    if !c.kind.isColl ∨ c.phase ≠ .running ∨ c.code ≠ 0 ∨ c.status.getD member (some 0) ≠ none ∨ !c.segmentDue member then .next s
    else
      let w := c.members.getD member 0
      let peer := w % 65536 ≠ 0xFFFF ∧ s.contribution c w = none
      if peer ∧ s.base.linksDown.getLsbD (Config.linkOf w % 24) then .next (s.setCmd { c with status := c.status.set member (some 1) })
      else
      let s := if peer then s.peerArrives c w else s
      match s.contribution c w with
      | some x => .next (s.asAgent (c.writerFor s.core.no w) fun s => s.contribute c member x)
      | none => .next s

/-! ## Faults, resume and cancel (10 R232 to R234) -/

/-- KIND of a fault record. -/
def Cmd.kindCode (c : Cmd) : Nat :=
  if c.kind.isColl then 4 else if c.kind = .copyMatrix then (if c.matrixPart then 3 else 2) else if c.kind.isMatrix then 1 else 0
/-- FLAGS of a fault record. -/
def Cmd.flagsCode (c : Cmd) : Nat := c.acq.toNat * 128 + c.rel.toNat * 64 + c.scope.toNat * 8
/-- The 128 bytes of a fault record (10 R232). -/
def Cmd.record (c : Cmd) : Nat :=
  c.seq + c.code * 2 ^ 64 + c.kindCode * 2 ^ 80 + c.flagsCode * 2 ^ 88 + c.addr.toNat * 2 ^ 128 + c.progress * 2 ^ 192
    + c.insn.toNat * 2 ^ 256 + c.rs1.toNat * 2 ^ 320 + c.rs2.toNat * 2 ^ 384 + c.notify.toNat * 2 ^ 448 + c.mrs1.toNat * 2 ^ 512
    + c.mrs2.toNat * 2 ^ 576
/-- The place of a command's record; nothing where the area lies in no populated region (10 R233). DEDUCED (log 49). -/
def State.recordPlace (s : State) (c : Cmd) : Option Nat :=
  let pa := s.core.csr.xfault.toNat / 2048 * 2048 + 128 * (c.seq % 16)
  if s.reaches pa true then some pa else none
/-- A command that has stopped becomes faulted: its record is written, its trap is due; a collective's other members
will find it failed (10 R231 to R233). -/
def State.faultCmd (s : State) (c : Cmd) : State :=
  let place := s.recordPlace c
  let s := if c.code = 5 then s.countUe else s
  let s := match place with | some pa => s.asAgent (c.agent s.core.no) fun s => s.putWords pa 16 c.record | none => s
  let s := s.stageFailure s.core.no c
  s.setCmd { c with phase := .faulted, recorded := place.isSome, trapTaken := false, failed := c.failed || (c.kind.isColl && !c.staged) }
/-- ENGINE_FAULT (10 R232). -/
def execEngineFault (seq : Nat) (s : State) : Host.Outcome State Fault Refusal :=
  match s.cmd seq with
  | some c => .next (if c.phase = .running ∧ c.code ≠ 0 then s.faultCmd c else s)
  | none => .next s

/-- The write tenures that a cancelled command took to write its prefix end in a write-back (15 R327). DEDUCED (log 67). -/
def State.endCmdTenures (s : State) (c : Cmd) : State :=
  if c.progress = 0 ∧ !c.matrixPart then s
  else
    let refs := [c.dst, if c.kind = .mdrain then c.matTile else none]
    let es := refs.flatMap fun r => match r with
      | some r => (s.reached r.asid r.table s.forwardFuel r.handle).filter fun e => e.state != .forward && e.desc.space == 0
      | none => []
    es.foldl (fun s e => if (s.tenure (.tile e.ten) e.home).holder = some s.core.no then s.giveBack (.tile e.ten) e.home else s) s
/-- A withdrawn command completes, with bit 31 of its notify word inverted (10 R234); a collective that has not staged
its source fails for the others. -/
def State.withdraw (s : State) (c : Cmd) : State :=
  let s := (s.stageFailure s.core.no c).endCmdTenures c
  (if c.rel then s.release c.scope.toNat else s).finishCmd c 0x8000_0000
/-- A collective that waits on members ends with status 3 for those not received (10 R231, R234). -/
def State.endColl (s : State) (c : Cmd) : State :=
  let s := s.endCmdTenures c
  (if c.rel then s.release c.scope.toNat else s).finishCmd { c with status := c.status.map fun v => some (v.getD 3) } 0

/-- xresume (10 R234). -/
def execXresume (rd rs1 : XReg) (s : State) : Host.Outcome State Fault Refusal :=
  let n := s.getX rs1
  match s.cmd n.toNat with
  | some c =>
    if c.phase = .faulted then
      .next ((s.setCmd { c with phase := .suspended, code := 0, addr := 0, recorded := false, trapTaken := false }).result rd n)
    else .next (s.result rd 0)
  | none => .next (s.result rd 0)
/-- xcancel (10 R234). -/
def execXcancel (rd rs1 : XReg) (s : State) : Host.Outcome State Fault Refusal :=
  let n := s.getX rs1
  match s.cmd n.toNat with
  | some c =>
    if c.phase = .faulted ∨ c.phase = .queued then .next ((s.withdraw c).result rd n)
    else if c.kind.isColl ∧ c.phase = .running ∧ c.code = 0 ∧ !c.status.all Option.isSome then .next ((s.endColl c).result rd n)
    else .next (s.result rd 0)
  | none => .next (s.result rd 0)

end Sys2Proof.Machine
end

