-- ==== Sys2Proof/Machine/Traps.lean ====
section
/-! DEFINITION. What happens at an instruction boundary of the control thread: the trap that is due, by the order of 22
R350; the waits of 02 R33 that end; WFI and sret. -/

namespace Sys2Proof.Machine

/-! ## The boundary (22 R347 to R350, R362) -/

/-- Events held pending by 22 R349, and interrupts, are enabled: at user level, or at supervisor level under SIE. -/
def State.eventsOn (s : State) : Bool := s.core.ct.user || s.core.ct.sstatus.getLsbD sieBit
/-- The stop of a pre-emption is due at the next boundary (22 R363). -/
def Core.stopDue (c : Core) : Bool := c.phase == .running && c.pendingSince.isSome && (c.ready || c.stopForced)
/-- No boundary is here: the control thread stands inside a vector memory instruction whose failing element waits for the
elements below it (02 R48), or at a WFI, which completes first (22 R419). -/
def Ct.noBoundary (c : Ct) : Bool :=
  match c.wait with
  | some (.elemTrap _ _ _ _ _) => true
  | some .wfi => true
  | _ => false

/-- A trap that is due. -/
structure Due where
  interrupt : Bool
  cause : Nat
  tval : Word
deriving DecidableEq, Repr

/-- The faulted command of the lowest number whose trap has not been taken (10 R233). -/
def State.engineDue (s : State) : Option Cmd := s.core.vec.cmds.find? fun c => c.phase == .faulted && !c.trapTaken
/-- Its trap: cause 31 for CODE 5, else 25; stval is the number, with bit 63 set when no record was written. -/
def Cmd.due (c : Cmd) : Due :=
  { interrupt := false, cause := if c.code = 5 then 31 else 25, tval := bit1 (!c.recorded) ++ BitVec.ofNat 63 c.seq }
/-- The breakpoint's trap lands: earlier entries have retired, between whole instructions, after the one that fired
(21 R346). DEDUCED (log 30). -/
def State.breakLands (s : State) (addr pc : Word) : Bool :=
  s.core.vec.queue == [] && s.core.csr.vresume == 0 && (addr != pc || s.core.ct.pc != pc)
/-- The breakpoint's trap. -/
def State.breakDue (s : State) : Option Due :=
  match s.core.perf.breakPending with
  | some (addr, pc) => if s.breakLands addr pc then some { interrupt := false, cause := 3, tval := addr } else none
  | none => none
/-- The interrupt that is taken first among those pending and enabled: 16, external, software, timer, 17. -/
def State.interruptDue (s : State) : Option Due :=
  let p := s.sipNow &&& s.core.ct.sie
  ([16, 9, 1, 5, 17].find? fun i => p.getLsbD i).map fun i => { interrupt := true, cause := i, tval := 0 }
/-- Rows 2 to 7 of 22 R350. -/
def State.trapDue (s : State) : Option Due :=
  if s.core.phase != .running || !s.eventsOn || s.core.ct.noBoundary then none
  else match s.engineDue with
  | some c => some c.due
  | none =>
    if s.core.csr.mtfi && s.kfAny then some { interrupt := false, cause := 24, tval := s.kfTval }
    else s.breakDue.or s.interruptDue

/-- A trap taken at a boundary is no longer due: an engine's, a breakpoint's; the notice of a pre-emption is noted. -/
def State.settleDue (s : State) (d : Due) : State :=
  if d.interrupt then { s with core := { s.core with noticeTaken := s.core.noticeTaken || d.cause == 16 } }
  else match s.engineDue with
  | some c =>
    let s := s.setCmd { c with trapTaken := true }
    if c.code = 5 then s.onCsr fun r => { r with tsrc := 2 } else s
  | none => if d.cause = 3 then s.onPerf fun p => { p with breakPending := none } else s
/-- Take the trap that is due, with sepc at the next instruction that has not executed. -/
def State.takeDue (s : State) (d : Due) : State := (s.settleDue d).takeTrap d.interrupt d.cause s.core.ct.pc d.tval

/-- TRAP_TAKEN (22 R350): a due stop of a pre-emption comes first. -/
def execTrapTaken (s : State) : Host.Outcome State Fault Refusal :=
  match s.trapDue with
  | some d => .next (if s.core.stopDue then s else s.takeDue d)
  | none => .next s

/-- A breakpoint that has fired holds back every further instruction until it lands (21 R346). -/
def State.breakHolds (s : State) : Bool :=
  s.eventsOn && match s.core.perf.breakPending with
    | some (addr, pc) => !(addr == pc && s.core.ct.pc == pc)
    | none => false

/-! ## WFI and sret (22 R347, R419; 02 R33) -/

/-- WFI's wait is over: an interrupt pending and enabled in sie, an event held by 22 R349, or a due stop. -/
def State.wfiDone (s : State) : Bool :=
  (s.sipNow &&& s.core.ct.sie) != 0 || s.engineDue.isSome || (s.core.csr.mtfi && s.kfAny) || s.core.perf.breakPending.isSome ||
    s.core.stopDue
/-- wfi (02 R33): cause 2 at user level. -/
def execWfi (s : State) : Host.Outcome State Fault Refusal :=
  .next (if s.core.ct.user then s.illegal .wfi else if s.wfiDone then s.advance 4 else s.waitAt .wfi)
/-- sret (22 R347): cause 2 at user level; else the level of SPP, SIE from SPIE, the pc from sepc. -/
def execSret (s : State) : Host.Outcome State Fault Refusal :=
  .next (if s.core.ct.user then s.illegal .sret else (s.note 2).leaveTrap)

/-! ## Waits that end (02 R33) -/

/-- The vector entry before a failing element has retired, and its elements have been performed (14 R306): the trap is taken (02 R48, 09
R200). -/
def State.elemTrapAt (s : State) (cause : Nat) (tval : Word) (vresume entry : Nat) (src : BitVec 2) : State :=
  if s.core.vec.queue.any fun e => e.id == entry then s
  else (s.drainBy (Late.ofEntry entry)).elemTrapNow { m := vresume, cause := cause, va := tval, lost := src = 1 ∧ cause = 31 } vresume
/-- A waiting instruction is looked at again. DEDUCED (log 13). -/
def State.retry (s : State) (i : Instr) : State :=
  match i with
  | .vsync => s.vsyncAt
  | .mtconf rd rs1 => s.mtconfAt i rd (s.getX rs1) fun vlmax _ => BitVec.ofNat 64 vlmax
  | .mtcfgWrite rd v => s.mtconfAt i rd v fun _ old => old
  | .ofence pred succ scope => s.ofenceAt i pred succ scope.toNat
  | .fence fm pred succ => s.fenceAt fm pred succ
  | .barwait rs1 => s.barwaitAt rs1
  | .jtrig => s.jtrigAt
  | .jexit rs1 => s.jexitAt rs1
  | .tfree rd rs1 => s.tfreeAt rd rs1
  | _ => s
/-- CT_WAIT_COMPLETE (02 R33): the wait ends when its condition holds, and goes on otherwise. -/
def execCtWaitComplete (s : State) : Host.Outcome State Fault Refusal :=
  match s.core.ct.wait with
  | none => .next s
  | some .wfi => .next (if s.wfiDone then s.advance 4 else s)
  | some (.elemTrap cause tval vresume entry src) => .next (s.elemTrapAt cause tval vresume entry src)
  | some (.sleep i pa t woken) => .next (if woken ∨ s.sleepEnds pa t ∨ s.sleepExpired i then s.wake i else s)
  | some (.instr i) => .next (s.retry i)

end Sys2Proof.Machine
end

