-- ==== Sys2Proof/Machine/BaseIsa.lean ====
section
/-! DEFINITION. The RISC-V instructions without a row of their own: RV64IMC, Zicsr, Zba and Zbb (01 R13, 05 R123), as the
ratified specifications define them (00 R1, log 22), and the CSR instructions' way to the rows of the CSRs that they write. -/

namespace Sys2Proof.Machine

/-! ## Syntax -/

/-- Operations on two 64-bit values. -/
inductive Alu where
  | add | sub | sll | slt | sltu | xor | srl | sra | or | and
  | mul | mulh | mulhsu | mulhu | div | divu | rem | remu
  | sh1add | sh2add | sh3add | addUw | sh1addUw | sh2addUw | sh3addUw | slliUw
  | andn | orn | xnor | max | maxu | min | minu | rol | ror
  | addw | subw | sllw | srlw | sraw | mulw | divw | divuw | remw | remuw | rolw | rorw
deriving DecidableEq, Repr
/-- Operations on one value (Zbb). -/
inductive Unary where
  | clz | ctz | cpop | sextB | sextH | zextH | orcB | rev8 | clzw | ctzw | cpopw
deriving DecidableEq, Repr
/-- Conditions of branches. -/
inductive Cond where
  | eq | ne | lt | ge | ltu | geu
deriving DecidableEq, Repr
/-- The source of a CSR instruction. -/
inductive CsrSrc where
  | reg (r : XReg)
  | imm (v : BitVec 5)
deriving DecidableEq, Repr
/-- An instruction of the base. -/
inductive Rv where
  | lui (rd : XReg) (v : Word)
  | auipc (rd : XReg) (v : Word)
  | jal (rd : XReg) (off : Word)
  | jalr (rd rs1 : XReg) (off : Word)
  | branch (c : Cond) (rs1 rs2 : XReg) (off : Word)
  | alu (op : Alu) (rd rs1 rs2 : XReg)
  | alui (op : Alu) (rd rs1 : XReg) (v : Word)
  | unary (op : Unary) (rd rs1 : XReg)
  | load (kind : LoadKind) (rd rs1 : XReg) (off : Word)
  | store (kind : StoreKind) (rs2 rs1 : XReg) (off : Word)
  | csr (op : CsrOp) (rd : XReg) (src : CsrSrc) (n : BitVec 12)
  | ecall
  | ebreak
deriving DecidableEq, Repr

/-! ## Arithmetic -/

/-- The low half of a value, sign-extended. -/
def sext32 (x : BitVec 32) : Word := x.signExtend 64
/-- The low half of a value. -/
def lowHalf (x : Word) : BitVec 32 := x.setWidth 32
/-- Signed division with the RISC-V corners. -/
def rvDiv {w : Nat} (a b : BitVec w) : BitVec w := if b = 0 then BitVec.allOnes w else a.sdiv b
/-- Signed remainder. -/
def rvRem {w : Nat} (a b : BitVec w) : BitVec w := if b = 0 then a else a.srem b
/-- Unsigned division and remainder. -/
def rvDivu {w : Nat} (a b : BitVec w) : BitVec w := if b = 0 then BitVec.allOnes w else a.udiv b
def rvRemu {w : Nat} (a b : BitVec w) : BitVec w := if b = 0 then a else a.umod b
/-- Shift amounts. -/
def sh6 (b : Word) : Nat := b.toNat % 64
def sh5 (b : Word) : Nat := b.toNat % 32
/-- The result of a two-operand operation. -/
def Alu.eval (op : Alu) (a b : Word) : Word :=
  let aw := lowHalf a
  let bw := lowHalf b
  let zw : Word := aw.setWidth 64
  match op with
  | .add => a + b
  | .sub => a - b
  | .sll => a <<< sh6 b
  | .slt => if a.slt b then 1 else 0
  | .sltu => if a.ult b then 1 else 0
  | .xor => a ^^^ b
  | .srl => a >>> sh6 b
  | .sra => a.sshiftRight (sh6 b)
  | .or => a ||| b
  | .and => a &&& b
  | .mul => a * b
  | .mulh => BitVec.ofInt 64 (a.toInt * b.toInt / 2 ^ 64)
  | .mulhsu => BitVec.ofInt 64 (a.toInt * b.toNat / 2 ^ 64)
  | .mulhu => BitVec.ofNat 64 (a.toNat * b.toNat / 2 ^ 64)
  | .div => rvDiv a b
  | .divu => rvDivu a b
  | .rem => rvRem a b
  | .remu => rvRemu a b
  | .sh1add => (a <<< 1) + b
  | .sh2add => (a <<< 2) + b
  | .sh3add => (a <<< 3) + b
  | .addUw => zw + b
  | .sh1addUw => (zw <<< 1) + b
  | .sh2addUw => (zw <<< 2) + b
  | .sh3addUw => (zw <<< 3) + b
  | .slliUw => zw <<< sh6 b
  | .andn => a &&& ~~~b
  | .orn => a ||| ~~~b
  | .xnor => ~~~(a ^^^ b)
  | .max => if a.slt b then b else a
  | .maxu => if a.ult b then b else a
  | .min => if b.slt a then b else a
  | .minu => if b.ult a then b else a
  | .rol => a.rotateLeft (sh6 b)
  | .ror => a.rotateRight (sh6 b)
  | .addw => sext32 (aw + bw)
  | .subw => sext32 (aw - bw)
  | .sllw => sext32 (aw <<< sh5 b)
  | .srlw => sext32 (aw >>> sh5 b)
  | .sraw => sext32 (aw.sshiftRight (sh5 b))
  | .mulw => sext32 (aw * bw)
  | .divw => sext32 (rvDiv aw bw)
  | .divuw => sext32 (rvDivu aw bw)
  | .remw => sext32 (rvRem aw bw)
  | .remuw => sext32 (rvRemu aw bw)
  | .rolw => sext32 (aw.rotateLeft (sh5 b))
  | .rorw => sext32 (aw.rotateRight (sh5 b))

/-- Leading zeros, trailing zeros and ones of a value. -/
def leadZeros {w : Nat} (x : BitVec w) : Nat := ((List.range w).find? fun k => x.getMsbD k).getD w
def trailZeros {w : Nat} (x : BitVec w) : Nat := ((List.range w).find? fun k => x.getLsbD k).getD w
def countOnes {w : Nat} (x : BitVec w) : Nat := ((List.range w).filter fun k => x.getLsbD k).length
/-- The bytes of a value from the lowest. -/
def byteOf (x : Word) (k : Nat) : BitVec 8 := x.extractLsb' (8 * k) 8
/-- A value from its bytes. -/
def ofBytes (f : Nat → BitVec 8) : Word := f 7 ++ f 6 ++ f 5 ++ f 4 ++ f 3 ++ f 2 ++ f 1 ++ f 0
/-- The result of a one-operand operation. -/
def Unary.eval (op : Unary) (a : Word) : Word :=
  match op with
  | .clz => BitVec.ofNat 64 (leadZeros a)
  | .ctz => BitVec.ofNat 64 (trailZeros a)
  | .cpop => BitVec.ofNat 64 (countOnes a)
  | .sextB => (a.setWidth 8).signExtend 64
  | .sextH => (a.setWidth 16).signExtend 64
  | .zextH => (a.setWidth 16).setWidth 64
  | .orcB => ofBytes fun k => if byteOf a k = 0 then 0 else 0xFF
  | .rev8 => ofBytes fun k => byteOf a (7 - k)
  | .clzw => BitVec.ofNat 64 (leadZeros (lowHalf a))
  | .ctzw => BitVec.ofNat 64 (trailZeros (lowHalf a))
  | .cpopw => BitVec.ofNat 64 (countOnes (lowHalf a))
/-- A branch condition. -/
def Cond.holds (c : Cond) (a b : Word) : Bool :=
  match c with
  | .eq => a == b
  | .ne => a != b
  | .lt => a.slt b
  | .ge => !a.slt b
  | .ltu => a.ult b
  | .geu => !a.ult b

/-! ## CSR instructions -/

/-- PERFSEL's command in a written value (21 R342). -/
def perfselOf (rd : XReg) (v : Word) : Option Instr :=
  let i : BitVec 4 := v.extractLsb' 56 4
  let a : BitVec 56 := v.extractLsb' 0 56
  match (v.extractLsb' 60 4).toNat with
  | 0 => some (.perfselSelect rd i a)
  | 1 => some (.perfselProgram rd i a)
  | 2 => some (.perfselWriteValue rd i a)
  | 3 => some (.perfselSetThreshold rd i a)
  | 4 => some (.perfselClearFlags rd i a)
  | 5 => some (.perfselSetTraceBuffer rd i a)
  | 6 => some (.perfselSetSamplePeriod rd i a)
  | 7 => some (.perfselSetBreakpoint rd i a)
  | 8 => some (.perfselClearBreakpoint rd i a)
  | _ => none
/-- MTFINFO's command in a written value (22 R356). DEDUCED (log 57). -/
def mtfinfoOf (rd : XReg) (v : Word) : Option Instr :=
  let w : BitVec 2 := v.extractLsb' 58 2
  let r : BitVec 45 := v.extractLsb' 13 45
  let m : BitVec 13 := v.extractLsb' 0 13
  match (v.extractLsb' 60 4).toNat with
  | 0 => some (.mtfinfoSelect rd w r m)
  | 1 => some (.mtfinfoResume rd w r m)
  | 2 => some (.mtfinfoSkip rd w r m)
  | 3 => some (.mtfinfoClear rd w r m)
  | 4 => some (.mtfinfoSelectLowest rd w r m)
  | _ => none
/-- The row that a write of a CSR is, `none` where it is cause 2. -/
def csrWriteRow (n : BitVec 12) (rd : XReg) (op : CsrOp) (v : Word) : Option Instr :=
  match n.toNat with
  | 0x800 => some (.vlWrite rd v)
  | 0x802 => some (.mtcfgWrite rd v)
  | 0x803 => some (.vspaceWrite rd v)
  | 0x180 => some (.satpWrite rd v)
  | 0x5C8 => some (.panicmarkWrite rd v)
  | 0x5C7 => if op = .write then perfselOf rd v else none
  | 0x5C1 => if op = .write then mtfinfoOf rd v else none
  | 0x5C3 => if v.getLsbD 38 then some (.savectlReady rd v) else some (.registerWrite (.csr n) rd v)
  | _ => some (.registerWrite (.csr n) rd v)
/-- A flag CSR by its number. -/
def flagCsrOf (n : BitVec 12) : Option FlagCsr :=
  match n.toNat with
  | 0x805 => some .vfflags
  | 0x807 => some .vffirsta
  | 0x808 => some .vffirstb
  | _ => none
/-- The source writes: csrrw always, csrrs and csrrc unless it is x0 or 0. -/
def CsrSrc.writes (src : CsrSrc) (op : CsrOp) : Bool :=
  op == .write || (match src with | .reg r => r != 0 | .imm v => v != 0)
/-- The value of a source. -/
def State.csrSrc (s : State) (src : CsrSrc) : Word := match src with | .reg r => s.getX r | .imm v => v.setWidth 64

/-- A CSR instruction that the control thread issues: what the rows do not cover (a read), or the row that it is. -/
inductive CsrDo where
  | row (i : Instr)
  | read
  | illegal
deriving DecidableEq, Repr
/-- What a CSR instruction does (Zicsr; 00 R5). -/
def State.csrDo (s : State) (op : CsrOp) (rd : XReg) (src : CsrSrc) (n : BitVec 12) : CsrDo :=
  let v := s.csrSrc src
  match flagCsrOf n with
  | some f => .row (.flagCsrAccess f op rd (if src.writes op then some v else none))
  | none =>
    if !src.writes op then .read
    else if csrSupervisor n && s.core.ct.user then .illegal
    else match s.csrRead n with
    | none => .illegal
    | some old =>
      match csrWriteRow n rd op (csrApply op old v) with
      | some i => .row i
      | none => .illegal

/-! ## Meanings -/

/-- Write a result and move past an instruction of `len` bytes. -/
def State.rvResult (s : State) (len : Nat) (rd : XReg) (v : Word) : State := (s.setX rd v).advance len
/-- A jump retires and goes to an address. -/
def State.jumpTo (s : State) (a : Word) : State :=
  ((s.note 2).onCt fun c => { c with pc := a, wait := none, waitaStart := none }).onPerf Perf.passed
/-- An instruction of the base that is not a CSR instruction, of `len` bytes. -/
def State.runRv (s : State) (len : Nat) (i : Rv) : State :=
  let pc := s.core.ct.pc
  let next := pc + BitVec.ofNat 64 len
  match i with
  | .lui rd v => s.rvResult len rd v
  | .auipc rd v => s.rvResult len rd (pc + v)
  | .jal rd off => (s.setX rd next).jumpTo (pc + off)
  | .jalr rd rs1 off => (s.setX rd next).jumpTo ((s.getX rs1 + off) &&& ~~~1)
  | .branch c rs1 rs2 off => if c.holds (s.getX rs1) (s.getX rs2) then s.jumpTo (pc + off) else s.advance len
  | .alu op rd rs1 rs2 => s.rvResult len rd (op.eval (s.getX rs1) (s.getX rs2))
  | .alui op rd rs1 v => s.rvResult len rd (op.eval (s.getX rs1) v)
  | .unary op rd rs1 => s.rvResult len rd (op.eval (s.getX rs1))
  | .load kind rd rs1 off => s.scalarLoad len kind rd rs1 (s.getX rs1 + off)
  | .store kind rs2 rs1 off => s.scalarStore len kind (s.getX rs2) (s.getX rs1 + off)
  | .csr _ rd _ n => s.csrGuard n fun v => if n = 0x5C7 then s.perfRead rd else s.result rd v
  | .ecall => s.trap (if s.core.ct.user then 8 else 9) 0
  | .ebreak => s.trap 3 pc

/-! ## Registers that an instruction names -/

/-- The x registers of an instruction of the base. -/
def Rv.uses (i : Rv) : List XReg :=
  match i with
  | .lui rd _ => [rd]
  | .auipc rd _ => [rd]
  | .jal rd _ => [rd]
  | .jalr rd rs1 _ => [rd, rs1]
  | .branch _ rs1 rs2 _ => [rs1, rs2]
  | .alu _ rd rs1 rs2 => [rd, rs1, rs2]
  | .alui _ rd rs1 _ => [rd, rs1]
  | .unary _ rd rs1 => [rd, rs1]
  | .load _ rd rs1 _ => [rd, rs1]
  | .store _ rs2 rs1 _ => [rs2, rs1]
  | .csr _ rd (.reg r) _ => [rd, r]
  | .csr _ rd (.imm _) _ => [rd]
  | .ecall => []
  | .ebreak => []
/-- The x registers of a control-thread row. -/
def ctUses (i : Instr) : List XReg :=
  match i with
  | .mtconf rd rs1 => [rd, rs1]
  | .setvl rd rs1 => [rd, rs1]
  | .vlnkput rs1 => [rs1]
  | .vlnkget rd => [rd]
  | .vfetch _ rs1 => [rs1]
  | .vget _ rs1 rd => [rs1, rd]
  | .vput _ rs1 rx => [rs1, rx]
  | .kpop rd _ => [rd]
  | .kfirst rd _ => [rd]
  | .kget rd _ rs1 => [rd, rs1]
  | .kput _ rs1 rs2 => [rs1, rs2]
  | .vld _ _ _ rs1 => [rs1]
  | .vlds _ _ _ rs1 xs => [rs1, xs]
  | .vst _ _ _ rs1 => [rs1]
  | .vsts _ _ _ rs1 xs => [rs1, xs]
  | .vldx _ _ _ rs1 _ => [rs1]
  | .vstx _ _ _ rs1 _ => [rs1]
  | .vldff _ _ _ rs1 xs => [rs1, xs]
  | .vldmx _ _ _ rs1 xc => [rs1, xc]
  | .vstmx _ _ _ rs1 xc => [rs1, xc]
  | .vappend _ _ rs1 rd => [rs1, rd]
  | .vclaim rd rs1 rs2 => [rd, rs1, rs2]
  | .ldsc _ rd rs1 => [rd, rs1]
  | .stsc _ rs2 rs1 => [rs2, rs1]
  | .xcopy _ _ _ rd rs1 rs2 => [rd, rs1, rs2]
  | .xcopyM _ _ _ rd rs1 rs2 mword => [rd, rs1, rs2, bits mword 15 5, bits mword 20 5]
  | .xfill _ _ _ rd rs1 rs2 => [rd, rs1, rs2]
  | .xgather _ _ _ rd rs1 rs2 => [rd, rs1, rs2]
  | .xscatter _ _ _ rd rs1 rs2 => [rd, rs1, rs2]
  | .xcollReduce _ _ _ rd rs1 rs2 => [rd, rs1, rs2]
  | .xcollBroadcast _ _ _ rd rs1 rs2 => [rd, rs1, rs2]
  | .xcollAllgather _ _ _ rd rs1 rs2 => [rd, rs1, rs2]
  | .xresume rd rs1 => [rd, rs1]
  | .xcancel rd rs1 => [rd, rs1]
  | .mma _ _ _ rs1 rs2 => [rs1, rs2]
  | .mmas _ _ rs1 rs2 => [rs1, rs2]
  | .mdrain _ _ _ rs1 rs2 => [rs1, rs2]
  | .mload _ rs1 rs2 => [rs1, rs2]
  | .tnew rd rs1 => [rd, rs1]
  | .tfree rd rs1 => [rd, rs1]
  | .tsplit rd rs1 rs2 => [rd, rs1, rs2]
  | .tacq rd rs1 rs2 => [rd, rs1, rs2]
  | .trel rd rs1 => [rd, rs1]
  | .tinfo rd rs1 rs2 => [rd, rs1, rs2]
  | .fnew rd rs1 => [rd, rs1]
  | .fset rd rs1 rs2 => [rd, rs1, rs2]
  | .fsplit rd rs1 rs2 => [rd, rs1, rs2]
  | .fdel rd rs1 => [rd, rs1]
  | .waitaEq rd rs1 rs2 rs3 => [rd, rs1, rs2, rs3]
  | .waitaNe rd rs1 rs2 rs3 => [rd, rs1, rs2, rs3]
  | .waitaGeu rd rs1 rs2 rs3 => [rd, rs1, rs2, rs3]
  | .waitaLtu rd rs1 rs2 rs3 => [rd, rs1, rs2, rs3]
  | .notify _ rs1 rs2 => [rs1, rs2]
  | .barinit rs1 rs2 => [rs1, rs2]
  | .bararv rs1 => [rs1]
  | .barwait rs1 => [rs1]
  | .ltsync rd rs1 => [rd, rs1]
  | .jexit rs1 => [rs1]
  | .tmark rs1 => [rs1]
  | .sfenceVma rs1 rs2 => [rs1, rs2]
  | .lr _ _ _ rd rs1 => [rd, rs1]
  | .sc _ _ _ rd rs1 rs2 => [rd, rs1, rs2]
  | .riscvAmo _ _ _ _ rd rs1 rs2 => [rd, rs1, rs2]
  | .registerWrite _ rd _ => [rd]
  | .mtcfgWrite rd _ => [rd]
  | .vlWrite rd _ => [rd]
  | .vspaceWrite rd _ => [rd]
  | .flagCsrAccess _ _ rd _ => [rd]
  | .satpWrite rd _ => [rd]
  | .panicmarkWrite rd _ => [rd]
  | .savectlReady rd _ => [rd]
  | .perfselSelect rd _ _ => [rd]
  | .perfselProgram rd _ _ => [rd]
  | .perfselWriteValue rd _ _ => [rd]
  | .perfselSetThreshold rd _ _ => [rd]
  | .perfselClearFlags rd _ _ => [rd]
  | .perfselSetTraceBuffer rd _ _ => [rd]
  | .perfselSetSamplePeriod rd _ _ => [rd]
  | .perfselSetBreakpoint rd _ _ => [rd]
  | .perfselClearBreakpoint rd _ _ => [rd]
  | .mtfinfoSelect rd _ _ _ => [rd]
  | .mtfinfoResume rd _ _ _ => [rd]
  | .mtfinfoSkip rd _ _ _ => [rd]
  | .mtfinfoClear rd _ _ _ => [rd]
  | .mtfinfoSelectLowest rd _ _ _ => [rd]
  | .ctScalarLoad _ rd rs1 _ => [rd, rs1]
  | .ctScalarStore _ rs2 rs1 _ => [rs2, rs1]
  | _ => []
/-- A register still waits for the result of an entry (02 R31): the control thread waits for it. -/
def State.owes (s : State) (rs : List XReg) : Bool := s.core.ct.pendingX.any fun p => p.2 != 0 && rs.contains p.2

/-! ## Decoding -/

/-- Sign-extended immediates of the formats. -/
def immI (x : BitVec 32) : Word := (bits x 20 12).signExtend 64
def immU (x : BitVec 32) : Word := (bits x 12 20 ++ (0 : BitVec 12) : BitVec 32).signExtend 64
def immB (x : BitVec 32) : Word := (bits x 31 1 ++ bits x 7 1 ++ bits x 25 6 ++ bits x 8 4 ++ (0 : BitVec 1) : BitVec 13).signExtend 64
def immJ (x : BitVec 32) : Word := (bits x 31 1 ++ bits x 12 8 ++ bits x 20 1 ++ bits x 21 10 ++ (0 : BitVec 1) : BitVec 21).signExtend 64

/-- OP-IMM. -/
def decodeOpImm (x : BitVec 32) (rd rs1 : XReg) : Option Rv :=
  let i := immI x
  let sh : Word := (bits x 20 6).setWidth 64
  let f6 := (bits x 26 6).toNat
  let imm12 := (bits x 20 12).toNat
  match (bits x 12 3).toNat with
  | 0 => some (.alui .add rd rs1 i)
  | 1 =>
    if f6 = 0 then some (.alui .sll rd rs1 sh)
    else match imm12 with
    | 0x600 => some (.unary .clz rd rs1)
    | 0x601 => some (.unary .ctz rd rs1)
    | 0x602 => some (.unary .cpop rd rs1)
    | 0x604 => some (.unary .sextB rd rs1)
    | 0x605 => some (.unary .sextH rd rs1)
    | _ => none
  | 2 => some (.alui .slt rd rs1 i)
  | 3 => some (.alui .sltu rd rs1 i)
  | 4 => some (.alui .xor rd rs1 i)
  | 5 =>
    if f6 = 0 then some (.alui .srl rd rs1 sh)
    else if f6 = 0x10 then some (.alui .sra rd rs1 sh)
    else if f6 = 0x18 then some (.alui .ror rd rs1 sh)
    else if imm12 = 0x287 then some (.unary .orcB rd rs1)
    else if imm12 = 0x6B8 then some (.unary .rev8 rd rs1)
    else none
  | 6 => some (.alui .or rd rs1 i)
  | _ => some (.alui .and rd rs1 i)
/-- OP-IMM-32. -/
def decodeOpImm32 (x : BitVec 32) (rd rs1 : XReg) : Option Rv :=
  let sh : Word := (bits x 20 5).setWidth 64
  let f7 := (bits x 25 7).toNat
  match (bits x 12 3).toNat with
  | 0 => some (.alui .addw rd rs1 (immI x))
  | 1 =>
    if f7 = 0 then some (.alui .sllw rd rs1 sh)
    else if (bits x 26 6).toNat = 2 then some (.alui .slliUw rd rs1 ((bits x 20 6).setWidth 64))
    else match (bits x 20 12).toNat with
    | 0x600 => some (.unary .clzw rd rs1)
    | 0x601 => some (.unary .ctzw rd rs1)
    | 0x602 => some (.unary .cpopw rd rs1)
    | _ => none
  | 5 =>
    if f7 = 0 then some (.alui .srlw rd rs1 sh)
    else if f7 = 0x20 then some (.alui .sraw rd rs1 sh)
    else if f7 = 0x30 then some (.alui .rorw rd rs1 sh)
    else none
  | _ => none
/-- OP, by funct7 and funct3. -/
def opOf (f7 f3 : Nat) : Option Alu :=
  match f7, f3 with
  | 0x00, 0 => some .add
  | 0x00, 1 => some .sll
  | 0x00, 2 => some .slt
  | 0x00, 3 => some .sltu
  | 0x00, 4 => some .xor
  | 0x00, 5 => some .srl
  | 0x00, 6 => some .or
  | 0x00, 7 => some .and
  | 0x20, 0 => some .sub
  | 0x20, 5 => some .sra
  | 0x20, 4 => some .xnor
  | 0x20, 6 => some .orn
  | 0x20, 7 => some .andn
  | 0x01, 0 => some .mul
  | 0x01, 1 => some .mulh
  | 0x01, 2 => some .mulhsu
  | 0x01, 3 => some .mulhu
  | 0x01, 4 => some .div
  | 0x01, 5 => some .divu
  | 0x01, 6 => some .rem
  | 0x01, 7 => some .remu
  | 0x10, 2 => some .sh1add
  | 0x10, 4 => some .sh2add
  | 0x10, 6 => some .sh3add
  | 0x05, 4 => some .min
  | 0x05, 5 => some .minu
  | 0x05, 6 => some .max
  | 0x05, 7 => some .maxu
  | 0x30, 1 => some .rol
  | 0x30, 5 => some .ror
  | _, _ => none
/-- OP-32, by funct7 and funct3. -/
def op32Of (f7 f3 : Nat) : Option Alu :=
  match f7, f3 with
  | 0x00, 0 => some .addw
  | 0x00, 1 => some .sllw
  | 0x00, 5 => some .srlw
  | 0x20, 0 => some .subw
  | 0x20, 5 => some .sraw
  | 0x01, 0 => some .mulw
  | 0x01, 4 => some .divw
  | 0x01, 5 => some .divuw
  | 0x01, 6 => some .remw
  | 0x01, 7 => some .remuw
  | 0x04, 0 => some .addUw
  | 0x10, 2 => some .sh1addUw
  | 0x10, 4 => some .sh2addUw
  | 0x10, 6 => some .sh3addUw
  | 0x30, 1 => some .rolw
  | 0x30, 5 => some .rorw
  | _, _ => none
/-- Branch conditions by funct3. -/
def condOf (f3 : Nat) : Option Cond :=
  match f3 with
  | 0 => some .eq
  | 1 => some .ne
  | 4 => some .lt
  | 5 => some .ge
  | 6 => some .ltu
  | 7 => some .geu
  | _ => none
/-- SYSTEM. -/
def decodeSystem (x : BitVec 32) (rd rs1 : XReg) : Option Rv :=
  let n := bits x 20 12
  match (bits x 12 3).toNat with
  | 0 => if x = 0x00000073 then some .ecall else if x = 0x00100073 then some .ebreak else none
  | 1 => some (.csr .write rd (.reg rs1) n)
  | 2 => some (.csr .set rd (.reg rs1) n)
  | 3 => some (.csr .clear rd (.reg rs1) n)
  | 5 => some (.csr .write rd (.imm rs1) n)
  | 6 => some (.csr .set rd (.imm rs1) n)
  | 7 => some (.csr .clear rd (.imm rs1) n)
  | _ => none
/-- A 32-bit instruction of the base. -/
def decodeBase (x : BitVec 32) : Option Rv :=
  let rd := bits x 7 5
  let rs1 := bits x 15 5
  let rs2 := bits x 20 5
  let f3 := (bits x 12 3).toNat
  let f7 := (bits x 25 7).toNat
  match (bits x 0 7).toNat with
  | 0x37 => some (.lui rd (immU x))
  | 0x17 => some (.auipc rd (immU x))
  | 0x6F => some (.jal rd (immJ x))
  | 0x67 => if f3 = 0 then some (.jalr rd rs1 (immI x)) else none
  | 0x63 => (condOf f3).map fun c => .branch c rs1 rs2 (immB x)
  | 0x13 => decodeOpImm x rd rs1
  | 0x1B => decodeOpImm32 x rd rs1
  | 0x33 => (opOf f7 f3).map fun o => .alu o rd rs1 rs2
  | 0x3B => if f7 = 0x04 ∧ f3 = 4 ∧ rs2 = 0 then some (.unary .zextH rd rs1) else (op32Of f7 f3).map fun o => .alu o rd rs1 rs2
  | 0x73 => decodeSystem x rd rs1
  | _ => none

/-- The three-bit register fields of compressed instructions. -/
def regC (x : BitVec 16) (lo : Nat) : XReg := (1 : BitVec 2) ++ (x.extractLsb' lo 3 : BitVec 3)
/-- Bits of a compressed instruction. -/
def cb (x : BitVec 16) (lo n : Nat) : BitVec n := x.extractLsb' lo n
/-- The six-bit immediate, sign-extended. -/
def immC (x : BitVec 16) : Word := (cb x 12 1 ++ cb x 2 5 : BitVec 6).signExtend 64
/-- The shift amount. -/
def shC (x : BitVec 16) : Word := (cb x 12 1 ++ cb x 2 5 : BitVec 6).setWidth 64
def wordKind : LoadKind := { size := 2, signed := true }
def dblKind : LoadKind := { size := 3, signed := true }
/-- Offsets of compressed loads and stores of words and double words. -/
def offW (x : BitVec 16) : Word := (cb x 5 1 ++ cb x 10 3 ++ cb x 6 1 ++ (0 : BitVec 2) : BitVec 7).setWidth 64
def offD (x : BitVec 16) : Word := (cb x 5 2 ++ cb x 10 3 ++ (0 : BitVec 3) : BitVec 8).setWidth 64
/-- Quadrant 0. -/
def decodeC0 (x : BitVec 16) : Option Rv :=
  match (cb x 13 3).toNat with
  | 0 =>
    let v : BitVec 10 := cb x 7 4 ++ cb x 11 2 ++ cb x 5 1 ++ cb x 6 1 ++ (0 : BitVec 2)
    if v = 0 then none else some (.alui .add (regC x 2) 2 (v.setWidth 64))
  | 2 => some (.load wordKind (regC x 2) (regC x 7) (offW x))
  | 3 => some (.load dblKind (regC x 2) (regC x 7) (offD x))
  | 6 => some (.store ⟨2⟩ (regC x 2) (regC x 7) (offW x))
  | 7 => some (.store ⟨3⟩ (regC x 2) (regC x 7) (offD x))
  | _ => none
/-- The register operations of quadrant 1. -/
def decodeCA (x : BitVec 16) : Option Rv :=
  let rd := regC x 7
  let rs2 := regC x 2
  match (cb x 12 1).toNat, (cb x 5 2).toNat with
  | 0, 0 => some (.alu .sub rd rd rs2)
  | 0, 1 => some (.alu .xor rd rd rs2)
  | 0, 2 => some (.alu .or rd rd rs2)
  | 0, _ => some (.alu .and rd rd rs2)
  | _, 0 => some (.alu .subw rd rd rs2)
  | _, 1 => some (.alu .addw rd rd rs2)
  | _, _ => none
/-- The offsets of c.j and of compressed branches. -/
def offJ (x : BitVec 16) : Word :=
  (cb x 12 1 ++ cb x 8 1 ++ cb x 9 2 ++ cb x 6 1 ++ cb x 7 1 ++ cb x 2 1 ++ cb x 11 1 ++ cb x 3 3 ++ (0 : BitVec 1) : BitVec 12).signExtend 64
def offB (x : BitVec 16) : Word :=
  (cb x 12 1 ++ cb x 5 2 ++ cb x 2 1 ++ cb x 10 2 ++ cb x 3 2 ++ (0 : BitVec 1) : BitVec 9).signExtend 64
/-- Quadrant 1. -/
def decodeC1 (x : BitVec 16) : Option Rv :=
  let rd : XReg := cb x 7 5
  match (cb x 13 3).toNat with
  | 0 => some (.alui .add rd rd (immC x))
  | 1 => if rd = 0 then none else some (.alui .addw rd rd (immC x))
  | 2 => some (.alui .add rd 0 (immC x))
  | 3 =>
    if rd = 2 then
      let v : BitVec 10 := cb x 12 1 ++ cb x 3 2 ++ cb x 5 1 ++ cb x 2 1 ++ cb x 6 1 ++ (0 : BitVec 4)
      if v = 0 then none else some (.alui .add 2 2 (v.signExtend 64))
    else if immC x = 0 then none
    else some (.lui rd (immC x <<< 12))
  | 4 =>
    let r := regC x 7
    match (cb x 10 2).toNat with
    | 0 => some (.alui .srl r r (shC x))
    | 1 => some (.alui .sra r r (shC x))
    | 2 => some (.alui .and r r (immC x))
    | _ => decodeCA x
  | 5 => some (.jal 0 (offJ x))
  | 6 => some (.branch .eq (regC x 7) 0 (offB x))
  | _ => some (.branch .ne (regC x 7) 0 (offB x))
/-- Quadrant 2. -/
def decodeC2 (x : BitVec 16) : Option Rv :=
  let rd : XReg := cb x 7 5
  let rs2 : XReg := cb x 2 5
  match (cb x 13 3).toNat with
  | 0 => some (.alui .sll rd rd (shC x))
  | 2 => if rd = 0 then none else some (.load wordKind rd 2 ((cb x 2 2 ++ cb x 12 1 ++ cb x 4 3 ++ (0 : BitVec 2) : BitVec 8).setWidth 64))
  | 3 => if rd = 0 then none else some (.load dblKind rd 2 ((cb x 2 3 ++ cb x 12 1 ++ cb x 5 2 ++ (0 : BitVec 3) : BitVec 9).setWidth 64))
  | 4 =>
    if (cb x 12 1) = 0 then
      if rs2 = 0 then (if rd = 0 then none else some (.jalr 0 rd 0)) else some (.alu .add rd 0 rs2)
    else if rs2 = 0 then (if rd = 0 then some .ebreak else some (.jalr 1 rd 0))
    else some (.alu .add rd rd rs2)
  | 6 => some (.store ⟨2⟩ rs2 2 ((cb x 7 2 ++ cb x 9 4 ++ (0 : BitVec 2) : BitVec 8).setWidth 64))
  | 7 => some (.store ⟨3⟩ rs2 2 ((cb x 7 3 ++ cb x 10 3 ++ (0 : BitVec 3) : BitVec 9).setWidth 64))
  | _ => none
/-- A compressed instruction. -/
def decodeC (x : BitVec 16) : Option Rv :=
  match (cb x 0 2).toNat with
  | 0 => decodeC0 x
  | 1 => decodeC1 x
  | _ => decodeC2 x

end Sys2Proof.Machine
end

