-- ==== Sys2Proof/Machine/Hash.lean ====
section
/-! DEFINITION. SHAKE128 and SHAKE256 of FIPS 202, which 00 R2 names for firmware and attestation (24 R400 to R402). The standard
stands outside the manual: PRESUMED (log 41). -/

namespace Sys2Proof.Machine

/-- One step of the shift register that gives the round constants: bit 8 feeds back into bits 0, 4, 5 and 6. -/
def feedBack (r : Nat) : Nat := if r < 128 then 2 * r else (2 * r) % 256 ^^^ 0x71
/-- The constant of a round whose shift register begins at `r`: output bit `j` of seven stands at place 2^j − 1. -/
def roundWord (r : Nat) : Word :=
  ((List.range 7).foldl (fun (w, r) j => (if r % 2 = 1 then w ||| BitVec.twoPow 64 (2 ^ j - 1) else w, feedBack r)) ((0 : Word), r)).1
/-- Where the shift register begins in each of `n` rounds, from `r` on. -/
def roundStarts : Nat → Nat → List Nat
  | 0, _ => []
  | n + 1, r => r :: roundStarts n (Nat.repeat feedBack 7 r)

/-- The walk of ρ and π over the lanes but the first: of `n` lanes from place (x, y) on, the `t`th is turned by a triangular
number and moves to the place of the next. -/
def keccakWalk (a : List Word) : Nat → Nat → Nat → Nat → List Word → List Word
  | 0, _, _, _, out => out
  | n + 1, x, y, t, out =>
    let v := (a.getD (x + 5 * y) 0).rotateLeft (t * (t + 1) / 2 % 64)
    let y' := (2 * x + 3 * y) % 5
    keccakWalk a n y y' (t + 1) (out.set (y + 5 * y') v)
/-- The parity of each column. -/
def keccakParities (a : List Word) : List Word := (List.range 5).map fun x => [0, 5, 10, 15, 20].foldl (fun w k => w ^^^ a.getD (x + k) 0) 0
/-- One row after χ: every word takes in the two that follow it, round about. -/
def mixRow (row : List Word) : List Word :=
  let next := row.drop 1 ++ row.take 1
  let after := row.drop 2 ++ row.take 2
  row.zip (next.zip after) |>.map fun (u, v, w) => u ^^^ (w &&& ~~~v)
/-- One round: columns, walk, rows, the round's constant. -/
def keccakRound (a : List Word) (r : Nat) : List Word :=
  let p := keccakParities a
  let b := a.zipIdx.map fun (w, i) => w ^^^ p.getD ((i + 4) % 5) 0 ^^^ (p.getD ((i + 1) % 5) 0).rotateLeft 1
  let c := keccakWalk b 24 1 0 1 b
  ([0, 5, 10, 15, 20].flatMap fun k => mixRow ((c.drop k).take 5)).modifyHead (roundWord r ^^^ ·)
/-- Keccak-f[1600]. -/
def keccakF (a : List Word) : List Word := (roundStarts 24 1).foldl keccakRound a

/-- Eight bytes as a lane. -/
def hashLane (l : List Byte) : Word := l.foldr (fun b w => (w <<< 8) ||| b.setWidth 64) 0
/-- `n` lanes of a list of bytes. -/
def hashLanes : Nat → List Byte → List Word
  | 0, _ => []
  | n + 1, l => hashLane (l.take 8) :: hashLanes n (l.drop 8)
/-- Absorb `n` blocks of `r` lanes. -/
def keccakAbsorb (r : Nat) : Nat → List Byte → List Word → List Word
  | 0, _, a => a
  | n + 1, l, a =>
    let b := hashLanes r (l.take (8 * r))
    keccakAbsorb r n (l.drop (8 * r)) (keccakF (a.zipIdx.map fun p => p.1 ^^^ b.getD p.2 0))
/-- The bytes of a lane. -/
def hashBytes (w : Word) : List Byte := (List.range 8).map fun k => w.extractLsb' (8 * k) 8
/-- Squeeze `n` blocks of `r` lanes. -/
def keccakSqueeze (r : Nat) : Nat → List Word → List Byte
  | 0, _ => []
  | n + 1, a => (a.take r).flatMap hashBytes ++ keccakSqueeze r n (keccakF a)
/-- `n` bytes of SHAKE with a rate of `r` lanes: 21 for SHAKE128, 17 for SHAKE256. -/
def shake (r : Nat) (msg : List Byte) (n : Nat) : List Byte :=
  let rate := 8 * r
  let gap := rate - msg.length % rate
  let pad : List Byte := if gap = 1 then [0x9F] else 0x1F :: (List.replicate (gap - 2) 0 ++ [0x80])
  let m := msg ++ pad
  (keccakSqueeze r ((n + rate - 1) / rate) (keccakAbsorb r (m.length / rate) m (List.replicate 25 0))).take n
/-- SHAKE256 with an output of `n` bytes. -/
def shake256 (msg : List Byte) (n : Nat) : List Byte := shake 17 msg n
/-- SHAKE128 with an output of `n` bytes. -/
def shake128 (msg : List Byte) (n : Nat) : List Byte := shake 21 msg n

end Sys2Proof.Machine
end

