-- ==== Sys2Proof/Machine/MlDsa.lean ====
section
/-! DEFINITION. Verification of an ML-DSA-65 signature as FIPS 204 gives it, with an empty context, which 00 R2 and 24 R400 name
for firmware images. The standard stands outside the manual: PRESUMED (log 41). -/

namespace Sys2Proof.Machine

/-- The modulus q, γ1, γ2 and β of ML-DSA-65. -/
def dsaQ : Nat := 8380417
def dsaGamma1 : Nat := 2 ^ 19
def dsaGamma2 : Nat := 261888
def dsaBeta : Nat := 196
/-- The number of ones in c, and the most ones in a hint. -/
def dsaTau : Nat := 49
def dsaOmega : Nat := 55

/-- The eight bits of an index in reverse. -/
def bitRev (i : Nat) : Nat := ((List.range 8).map fun k => if i.testBit k then 2 ^ (7 - k) else 0).sum
/-- The number theoretic transform, from the block of index `i` down. -/
def dsaNtt : Nat → Nat → List Nat → List Nat
  | 0, _, w => w
  | n + 1, i, w =>
    let h := w.length / 2
    let z := 1753 ^ bitRev i % dsaQ
    let t := (w.drop h).map fun x => z * x % dsaQ
    dsaNtt n (2 * i) (List.zipWith (fun x y => (x + y) % dsaQ) (w.take h) t) ++
      dsaNtt n (2 * i + 1) (List.zipWith (fun x y => (x + dsaQ - y) % dsaQ) (w.take h) t)
/-- Its inverse, but for the factor of 256. -/
def dsaInv : Nat → Nat → List Nat → List Nat
  | 0, _, w => w
  | n + 1, i, w =>
    let h := w.length / 2
    let a := dsaInv n (2 * i) (w.take h)
    let b := dsaInv n (2 * i + 1) (w.drop h)
    let z := 1753 ^ (512 - bitRev i) % dsaQ
    List.zipWith (fun x y => (x + y) % dsaQ) a b ++ List.zipWith (fun x y => (x + dsaQ - y) * z % dsaQ) a b
/-- The transform of a polynomial, and back. -/
def ntt (w : List Nat) : List Nat := dsaNtt 8 1 w
def nttInv (w : List Nat) : List Nat := (dsaInv 8 1 w).map fun x => x * 8347681 % dsaQ

/-- The numbers of `b` bits in a list of bytes. -/
def unpackBits (b n : Nat) (l : List Byte) : List Nat :=
  let x := l.foldr (fun v r => v.toNat + 256 * r) 0
  (List.range n).map fun i => x / 2 ^ (b * i) % 2 ^ b
/-- Bytes with two numbers of 4 bits each. -/
def packNibbles : List Nat → List Byte
  | x :: y :: l => BitVec.ofNat 8 (x + 16 * y) :: packNibbles l
  | _ => []
/-- The coefficients that three bytes each give, those not below q left out. -/
def rejectThree : List Byte → List Nat
  | a :: b :: c :: l =>
    let z := a.toNat + 256 * b.toNat + 65536 * (c.toNat % 128)
    if z < dsaQ then z :: rejectThree l else rejectThree l
  | _ => []
/-- A polynomial of the matrix A; 8 blocks of SHAKE128 hold more coefficients than are ever left out (log 41). -/
def matrixPoly (rho : List Byte) (row col : Nat) : List Nat :=
  (rejectThree (shake128 (rho ++ [BitVec.ofNat 8 col, BitVec.ofNat 8 row]) 1344)).take 256
/-- Place the last `n` of τ signs in c. -/
def ballFill (signs : Nat) : Nat → List Byte → List Int → List Int
  | 0, _, c => c
  | n + 1, l, c =>
    let i := 255 - n
    match l.dropWhile fun b => decide (i < b.toNat) with
    | j :: l => ballFill signs n l ((c.set i (c.getD j.toNat 0)).set j.toNat (if signs.testBit (dsaTau - 1 - n) then -1 else 1))
    | [] => c
/-- The polynomial c with τ coefficients of ±1. -/
def sampleBall (seed : List Byte) : List Nat :=
  let l := shake256 seed 544
  let signs := (l.take 8).foldr (fun v r => v.toNat + 256 * r) 0
  (ballFill signs dsaTau (l.drop 8) (List.replicate 256 0)).map fun x => (x % (dsaQ : Int)).toNat
/-- The high part of a coefficient, corrected by its hint. -/
def useHint (hint : Bool) (r : Nat) : Nat :=
  let low := r % (2 * dsaGamma2)
  let above := decide (dsaGamma2 < low)
  let high := (if above then r / (2 * dsaGamma2) + 1 else r / (2 * dsaGamma2)) % 16
  let positive := decide (0 < low) && !above
  if !hint then high else if positive then (high + 1) % 16 else (high + 15) % 16
/-- Numbers that rise strictly. -/
def rising : List Nat → Bool
  | x :: y :: l => decide (x < y) && rising (y :: l)
  | _ => true
/-- The places of the hint's ones, polynomial by polynomial; none where the encoding is malformed. -/
def hintPlaces (y : List Nat) : Nat → Nat → Option (List (List Nat))
  | 0, i => if (y.take dsaOmega).drop i |>.all (· == 0) then some [] else none
  | n + 1, i =>
    let e := y.getD (dsaOmega + 5 - n) 0
    let ps := (y.take e).drop i
    if i ≤ e ∧ e ≤ dsaOmega ∧ rising ps = true then (hintPlaces y n e).map (ps :: ·) else none

/-- The product of a row of the matrix A with z, less c · t1 · 2^13, as a polynomial. -/
def dsaRow (rho : List Byte) (row : Nat) (zs : List (List Nat)) (c t1 : List Nat) : List Nat :=
  let az := zs.zipIdx.foldl (fun acc p => List.zipWith (fun x y => (x + y) % dsaQ) acc
    (List.zipWith (fun x y => x * y % dsaQ) (matrixPoly rho row p.2) p.1)) (List.replicate 256 0)
  let ct := List.zipWith (fun x y => x * y % dsaQ) c (ntt (t1.map fun x => x * 8192))
  nttInv (List.zipWith (fun x y => (x + dsaQ - y) % dsaQ) az ct)

/-- A signature of a message verifies under a public key, with an empty context. -/
def mldsaVerify (key msg sig : List Byte) : Bool :=
  let rho := key.take 32
  let t1 := (List.range 6).map fun r => unpackBits 10 256 ((key.drop (32 + 320 * r)).take 320)
  let zs := (List.range 5).map fun r => unpackBits 20 256 ((sig.drop (48 + 640 * r)).take 640)
  let near := zs.all fun p => p.all fun v => decide (((dsaGamma1 : Int) - v).natAbs < dsaGamma1 - dsaBeta)
  match hintPlaces ((sig.drop 3248).map BitVec.toNat) 6 0 with
  | none => false
  | some hints =>
    let seed := sig.take 48
    let mu := shake256 (shake256 key 64 ++ [0, 0] ++ msg) 64
    let c := ntt (sampleBall seed)
    let z := zs.map fun p => ntt (p.map fun v => (dsaGamma1 + dsaQ - v) % dsaQ)
    let w1 := (List.range 6).flatMap fun r =>
      packNibbles ((dsaRow rho r z c (t1.getD r [])).zipIdx.map fun p => useHint ((hints.getD r []).contains p.2) p.1)
    decide (key.length = 1952 ∧ sig.length = 3309) && near && seed == shake256 (mu ++ w1) 48

end Sys2Proof.Machine
end

