-- ==== Sys2Proof/Machine/Coherence.lean ====
section
/-! DEFINITION. Steps of the tile directory and of logical time that no instruction of the core in focus makes (13 R279,
R286; 15 R308 to R322). An instruction's own access is performed whole at its own step; these are requests that stand
alone. -/

namespace Sys2Proof.Machine

/-! ## The health log (25 R414) -/

/-- Change basecamp. -/
def State.onBase (s : State) (f : Basecamp → Basecamp) : State := { s with base := f s.base }
/-- Write `n` 8-byte words of a number, as an agent without logical time (23 R420). -/
def State.outsideWords (s : State) (pa : Nat) : Nat → Nat → State
  | 0, _ => s
  | n + 1, v => State.outsideWords (s.outsideWrite pa 8 (v % 2 ^ 64)) (pa + 8) n (v / 2 ^ 64)
/-- MSI-X vector `v` of function `f` is raised. DESIGN CHOICE (log 42). -/
def State.msix (s : State) (f v : Nat) : State := s.onBase fun b => { b with msix := b.msix ++ [(f, v)] }
/-- The log's base and capacity in records. -/
def Basecamp.logBase (b : Basecamp) : Nat := b.hlog.toNat / 4096 * 4096
def Basecamp.logCapacity (b : Basecamp) : Nat := 4096 * 2 ^ (b.hlog.toNat % 16) / 32
/-- Kinds that raise MSI-X vector 1 of function 0. -/
def loudKind (kind : Nat) : Bool := [3, 5, 7, 10, 11, 12].contains kind
/-- Nothing: no die, no core. -/
def noPart : Nat := 0xFF
/-- Write a health record, which raises MSI-X if its kind does; where the log is not set, or lies in no populated region, the event
makes no record. -/
def State.health (s : State) (kind die core agent addr : Nat) (data : Word) : State :=
  let b := s.base
  let pa := b.logBase + 32 * (b.hlogPos % b.logCapacity)
  let v := kind + die * 2 ^ 8 + core * 2 ^ 16 + agent * 2 ^ 32 + b.cycle % 2 ^ 64 * 2 ^ 64 + addr * 2 ^ 128 + data.toNat * 2 ^ 192
  if b.logBase = 0 ∨ !s.reaches pa true then s
  else
    let s := (s.outsideWords pa 4 v).onBase fun b => { b with hlogPos := b.hlogPos + 1 }
    if loudKind kind then s.msix 0 1 else s

/-! ## Messages of an old incarnation (15 R319, 25 R412) -/

/-- A message of an old incarnation is discarded and counted; the first of each is recorded. -/
def State.countStale (s : State) (agent incarnation : Nat) : State :=
  let s := s.onBase fun b => { b with staleMsg := min (b.staleMsg + 1) (2 ^ 64 - 1) }
  if s.dir.staleSeen.contains (agent, incarnation) then s
  else
    { s with dir := { s.dir with staleSeen := (agent, incarnation) :: s.dir.staleSeen } }.health 6 noPart noPart (agent + incarnation * 2 ^ 16) 0 0
/-- An agent's messages carry the directory's incarnation from now on. -/
def State.renew (s : State) (agent : Nat) : State :=
  { s with dir := { s.dir with senders := Table.set 0 s.dir.senders agent (s.incarnationOf agent) } }
/-- The next request of an agent that has been declared dead while it was only slow is discarded; it learns its incarnation. -/
def State.discard (s : State) (agent incarnation : Nat) : State := (s.renew agent).countStale agent incarnation

/-! ## Requests at a home (15 R317) -/

/-- A request of an agent for an entry waits: another agent holds the tenure, or a queued request comes before it (15 R317). -/
def State.mustWait (s : State) (agent : Nat) (age : BitVec 32) (asid pa : Nat) : Bool :=
  let k := s.keyOfPa asid pa
  (match (s.tenure k pa).holder with | some h => agentCore agent != some h | none => false) ||
    s.goesFirst k pa agent age s.dir.forwards []
/-- The age of a request (15 R316): its core's LTIME, or the home die's time for an agent without logical time. DEDUCED (log 34): the
request of a die's own engine, which names no core, is taken to be for the core in focus where that is of the die. -/
def State.requestAge (s : State) (agent pa : Nat) : BitVec 32 :=
  match agentCore agent with
  | some n => (s.coreAt n).ltime
  | none => if 512 ≤ agent ∧ agent < 520 ∧ dieOf s.core.no = agent % 4 then s.core.ltime else s.dieTime (homeDie pa)
/-- The agent numbers of 15 R316. -/
def isAgent (agent : Nat) : Bool :=
  (agentCore agent).isSome || decide (512 ≤ agent ∧ agent < 524) || agent == 528 || decide (544 ≤ agent ∧ agent < 568)
/-- Queue a forward at the home. DESIGN CHOICE (log 34). -/
def State.queueForward (s : State) (f : Forward) : State := { s with dir := { s.dir with forwards := s.dir.forwards ++ [f] } }
/-- A request of an agent is performed: of a core or its engine (15 R309, R310), or of an agent without logical time (R322). -/
def State.perform (s : State) (f : Forward) : State :=
  match agentCore f.agent with
  | some n => s.asCore n fun s => s.asAgent f.agent fun s =>
      let k := s.keyOfPa f.asid f.pa
      if f.write then s.cohWrite k f.pa f.bytes f.data.toNat (k.keeps || decide (256 ≤ f.agent)) else (s.cohRead k f.pa 1).2
  | none => s.asAgent f.agent fun s =>
      if f.write then s.outsideWrite f.pa f.bytes f.data.toNat else (s.outsideRead f.pa 1).2
/-- A request arrives at a home: it is performed, or queued. -/
def State.request (s : State) (agent asid pa : Nat) (write : Bool) (bytes : Nat) (data : BitVec 512) : State :=
  let f : Forward :=
    { seat := none, key := none, agent := agent, age := s.requestAge agent pa, incarnation := s.senderOf agent, since := s.base.cycle, asid := asid, pa := pa, write := write,
      bytes := bytes, data := data }
  if !isAgent agent then s
  else if f.incarnation ≠ s.incarnationOf agent then s.discard agent f.incarnation
  else if s.mustWait agent f.age asid pa then s.queueForward f else s.perform f
/-- A write of `n` bytes is one access: 1, 2, 4 or 8 bytes, aligned. -/
def oneAccess (pa n : Nat) : Bool := (n == 1 || n == 2 || n == 4 || n == 8) && pa % n == 0

/-- HOME_READ_REQUEST (15 R309, R317), by the number of the agent that sends it. -/
def execHomeReadRequest (agent asid pa : Nat) (s : State) : Host.Outcome State Fault Refusal :=
  .next (if placeOf pa = .ddr then s.request agent asid pa false 0 0 else s)
/-- HOME_WRITE_REQUEST (15 R310, R317), by the number of the agent that sends it. -/
def execHomeWriteRequest (agent asid pa bytes : Nat) (data : Word) (s : State) : Host.Outcome State Fault Refusal :=
  .next (if placeOf pa = .ddr ∧ oneAccess pa bytes then s.request agent asid pa true bytes (data.setWidth 512) else s)
/-- RECALL (15 R311). -/
def execRecall (asid pa : Nat) (s : State) : Host.Outcome State Fault Refusal := .next (s.recallEntry (s.keyOfPa asid pa) pa)

/-- The forward that is served first among those of an entry. -/
def firstForward : List Forward → Option Forward
  | [] => none
  | f :: fs => match firstForward fs with
    | none => some f
    | some g => some (if f.precedes g.agent g.age then f else g)
/-- Take one forward from the queue. -/
def removeForward (f : Forward) : List Forward → List Forward
  | [] => []
  | g :: gs => if g = f then gs else g :: removeForward f gs
/-- Serve a forward, which is the first of its entry; one of an agent that has died since is discarded and counted (15 R319, 25
R412). One that holds a place for an access of a core is served when that has its turn. -/
def State.serveForward (s : State) (f : Forward) : State :=
  let rest := removeForward f s.dir.forwards
  let alone := fun (l : List Forward) (s : State) => { s with dir := { s.dir with forwards := l } }
  if f.seat.isSome then s
  else if f.incarnation ≠ s.incarnationOf f.agent then (alone rest s).countStale f.agent f.incarnation
  else alone rest ((alone [] s).perform f)
/-- The forwards of an entry. -/
def State.forwardsOf (s : State) (asid pa : Nat) : List Forward :=
  let k := s.keyOfPa asid pa
  s.dir.forwards.filter fun f => s.atEntry f k pa && s.waits f
/-- FORWARD_SERVED (15 R317). -/
def execForwardServed (asid pa : Nat) (s : State) : Host.Outcome State Fault Refusal :=
  match firstForward (s.forwardsOf asid pa) with
  | some f => .next (s.serveForward f)
  | none => .next s

/-- WINDOW_ACCESS (13 R279, R280): an access of the core in focus by device-physical address arrives at the target's
window; one that the part does not accept changes nothing, and faults at its requester. -/
def execWindowAccess (core pa bytes : Nat) (write : Bool) (data : Word) (s : State) : Host.Outcome State Fault Refusal :=
  match placeOf pa with
  | .window c _ _ =>
    .next (if c ≠ core ∨ !oneAccess pa bytes ∨ !s.reaches pa write ∨ !write then s
           else s.physWrite .block pa bytes (data.toNat % 2 ^ (8 * bytes)) false)
  | _ => .next s

/-- Clamp every entry of a table that a die homes; an entry that then reads as untouched is no longer listed. -/
def clampTable (now : BitVec 32) (at' : Nat → Bool) (t : Table Tenure) : Table Tenure :=
  t.foldl (fun x (k, v) => if at' k then Table.set Tenure.untouched x k (v.clamp now) else x) t
/-- A slice visits every entry of its die. -/
def State.sweep (s : State) (die : Nat) : State :=
  let now := s.dieTime die
  { s with dir := { s.dir with
    blocks := clampTable now (fun b => homeDie (64 * b) == die) s.dir.blocks,
    tiles := clampTable now (fun t => s.entryDie (.tile t) 0 == die) s.dir.tiles } }
/-- SLICE_CLAMP_SWEEP (15 R320). -/
def execSliceClampSweep (die : Nat) (s : State) : Host.Outcome State Fault Refusal := .next (s.sweep die)

/-- The self-increment of the core in focus is due (15 R308). -/
def State.tickDue (s : State) : Bool := decide (s.core.tickAt + s.core.csr.lttick ≤ s.base.cycle)
/-- LTIME_SELF_INCREMENT (15 R308). -/
def execLtimeSelfIncrement (s : State) : Host.Outcome State Fault Refusal :=
  .next (if s.tickDue then
    { s with core := { (s.core.note 17 1).later 1 with tickAt := s.core.tickAt + s.core.csr.lttick } } else s)
/-- The core in focus must drop its leases: LTIME has moved 2^29 ticks since it last did (15 R321). -/
def State.dropDue (s : State) : Bool := decide (0x2000_0000 ≤ (s.core.ltime - s.core.dropAt).toNat)
/-- LEASE_DROP (15 R321). -/
def execLeaseDrop (s : State) : Host.Outcome State Fault Refusal :=
  .next (if s.dropDue then { s with core := s.core.withoutLeases } else s)

/-- A core receives the module time; one that lags by more than 2^28 ticks is raised to it less 2^28 (15 R321). -/
def Core.hear (c : Core) (t : BitVec 32) : Core :=
  let lag := (t - c.ltime).toNat
  { c.later (if 0x1000_0000 < lag ∧ lag < 0x8000_0000 then lag - 0x1000_0000 else 0) with moduleTime := t }
/-- Basecamp sends the module time to every core. -/
def State.broadcast (s : State) : State :=
  let t := s.moduleTimeNow
  (List.range Config.cores).foldl (fun s n => s.onCore n fun c => c.hear t) s
/-- MODULE_TIME_BROADCAST (15 R321). DESIGN CHOICE (log 36). -/
def execModuleTimeBroadcast (s : State) : Host.Outcome State Fault Refusal := .next s.broadcast

/-- An access of the host, behind its writes that the lantern holds (24 R398): it is performed, or waits its turn (15 R317). -/
def State.hostAccess (s : State) (pa : Nat) (write : Bool) (bytes : Nat) (data : BitVec 512) : State :=
  s.asAgent 528 fun s => s.behindLantern.request 528 0 pa write bytes data
/-- HOST_CXL_READ (15 R322): host reads of 1 to 64 bytes in one block. -/
def execHostCxlRead (pa bytes : Nat) (s : State) : Host.Outcome State Fault Refusal :=
  .next (if placeOf pa = .ddr ∧ 1 ≤ bytes ∧ pa % 64 + bytes ≤ 64 then s.hostAccess pa false bytes 0 else s)
/-- HOST_CXL_WRITE (15 R322): host writes of 1 to 64 bytes in one block. -/
def execHostCxlWrite (pa bytes : Nat) (data : BitVec 512) (s : State) : Host.Outcome State Fault Refusal :=
  .next (if placeOf pa = .ddr ∧ 1 ≤ bytes ∧ pa % 64 + bytes ≤ 64 then s.hostAccess pa true bytes data else s)

end Sys2Proof.Machine
end

