-- ==== Sys2Proof/Machine/Preempt.lean ====
section
/-! DEFINITION. The slot table and dispatch, binding, pre-emption, the save record, and restore (02 R23, R24, R52; 22 R363
to R369; 23 R382, R383). -/

namespace Sys2Proof.Machine

/-! ## Slots (23 R382, R383) -/

/-- A bind or unmap write that the slot's state does not take: ignored and counted. -/
def State.ignoreSlot (s : State) : State := { s with disp := { s.disp with ignored := s.disp.ignored + 1 } }
/-- SLOT_CMD_BIND. -/
def execSlotCmdBind (core : Nat) (rec : BindRec) (s : State) : Host.Outcome State Fault Refusal :=
  .next (if (s.slot core).state = .free then s.setSlot core { Slot.free with state := .binding, bind := some rec } else s.ignoreSlot)
/-- SLOT_CMD_CLEAR. -/
def execSlotCmdClear (core : Nat) (s : State) : Host.Outcome State Fault Refusal :=
  .next (if (s.slot core).state = .binding then s.setSlot core Slot.free else s)
/-- A running slot is unmapped: a pre-emption becomes pending on its core (22 R363). -/
def State.unmap (s : State) (core : Nat) : State :=
  (s.setSlot core { s.slot core with state := .unmapping }).onCore core fun c =>
    { c with pendingSince := some s.base.cycle, stopForced := false, ready := false, noticeTaken := false }
/-- SLOT_CMD_UNMAP. -/
def execSlotCmdUnmap (core : Nat) (s : State) : Host.Outcome State Fault Refusal :=
  .next (if (s.slot core).state = .running then s.unmap core else s.ignoreSlot)

/-! ## Binding (02 R23, R24) -/

/-- Every barrier at COUNT = GANGSIZE (11 R258). -/
def boundBarriers (size : Nat) : Table Barrier :=
  (List.range 32).foldl (fun t b => Table.set Barrier.zero t b { Barrier.zero with count := BitVec.ofNat 16 size }) []
/-- satp at a bind (22 R353). -/
def satpOf (asid root : Nat) : Word := (10 : BitVec 4) ++ BitVec.ofNat 16 asid ++ BitVec.ofNat 44 root
/-- The vector side after a bind: zeroed by 02 R24; a new address space loses stash and flysheet as well. -/
def Vec.bound (v : Vec) (keep : Bool) (size : Nat) : Vec :=
  { v with regs := [], acc := [], masks := [(8, BitVec.allOnes 8192)], regDirty := 0, tileDirty := 0, high := 0, mts := [], fifo := [],
           queue := [], cmds := [], held := [], barriers := boundBarriers size, early := [], late := [], idle := [], pipe := [],
           stash := if keep then v.stash else [], fly := if keep then v.fly else [] }
/-- The CSRs after a bind; the supervisor's own keep what they hold. -/
def Csrs.bound (r : Csrs) (b : BindRec) : Csrs :=
  { r with vl := 0, nregs := 3, vqdepth := 31, vspace := 0, vresume := 0, vfflags := 0, vfrm := 0, vffirsta := 0, vffirstb := 0,
           fepol := 0, ltlease := 64, xnotify := 0, jobarg := b.arg, jobid := b.jobId, gangix := BitVec.ofNat 8 b.gangIx,
           gangsize := BitVec.ofNat 8 b.gangSize, xseq := 0, xissued := 0 }
/-- The x registers after a bind: a0, a1 and a2. -/
def boundX (b : BindRec) : Store 64 :=
  Store.set (Store.set (Store.set [] 10 b.arg) 11 (BitVec.ofNat 64 b.gangIx)) 12 (BitVec.ofNat 64 b.grant)
/-- A core bound to a job (02 R23). -/
def Core.bindTo (c : Core) (b : BindRec) : Core :=
  { c with
    phase := if b.restore then .restoring else .running,
    ct := { c.ct with x := boundX b, pc := b.entry, user := true, satp := satpOf b.asid b.rootPpn, reservation := none,
                      windowReservation := none, early := [], wait := none, pendingX := [], waitaStart := none },
    csr := c.csr.bound b, chain := [], missed := [],
    vec := c.vec.bound (c.prevAsid = some b.asid) b.gangSize,
    asid := some b.asid, grant := b.grant, curMt := 0, pendingSince := none, stopForced := false, noticeTaken := false, ready := false,
    triggered := false, perf := { c.perf with breakPending := none } }

/-- The slots in BINDING of a gang's commit, with their records. -/
def State.bindingOf (s : State) (gang commit : Nat) : List (Nat × BindRec) :=
  s.disp.slots.filterMap fun (n, x) =>
    match x.state, x.bind with
    | .binding, some b => if b.gangId = gang ∧ b.commit = commit then some (n, b) else none
    | _, _ => none
/-- No two of a list are equal. -/
def distinct : List Nat → Bool
  | [] => true
  | x :: xs => !xs.contains x && distinct xs
/-- A commit is whole: NCOMMIT slots with distinct gang indices. -/
def commitWhole (l : List (Nat × BindRec)) : Bool :=
  match l with
  | [] => false
  | (_, b) :: _ => l.length == b.ncommit && distinct (l.map fun x => x.2.gangIx)
/-- Commands of other cores that cover a core no longer make anything empty there: every register and tile is full at a bind (02
R23). -/
def State.unmark (s : State) (n : Nat) : State :=
  let full := fun (l : List Cmd) => l.map fun x => { x with marks := x.marks.filter fun m => m.core != n }
  let clear := fun (c : Core) => { c with vec := { c.vec with cmds := full c.vec.cmds } }
  { s with core := clear s.core, others := s.others.map fun (k, c) => (k, clear c),
           disp := { s.disp with parked := s.disp.parked.map fun p => { p with cmds := full p.cmds } } }
/-- What dispatch holds of a context. -/
def State.parkedAt (s : State) (ctx : Nat) : Parked := (s.disp.parked.find? fun p => p.ctx == ctx).getD (.nothing ctx)
/-- Replace what dispatch holds of a context. -/
def State.park (s : State) (ctx : Nat) (p : Option Parked) : State :=
  { s with disp := { s.disp with parked := p.toList ++ s.disp.parked.filter fun x => x.ctx != ctx } }
/-- One member starts; its address space becomes the most recently bound (22 R353), its die is no longer gated. -/
def State.startMember (s : State) (n : Nat) (b : BindRec) : State :=
  let s := (s.takeTag b.asid true).getD s
  let d := Table.get Die.zero s.base.dies (dieOf n)
  let d := { d with clockGated := false, powerGated := false, idleSince := none }
  let s := { s with base := { s.base with dies := Table.set Die.zero s.base.dies (dieOf n) d } }
  let s := (s.unmark n).clearLost n ((s.coreAt n).prevAsid = some b.asid)
  let s := if b.restore then s else s.park b.ctx none
  (s.setSlot n { Slot.free with state := .running, bind := some b }).onCore n fun c => c.bindTo b
/-- A tag is at hand for the address space of a gang (22 R353). -/
def State.tagFor (s : State) (l : List (Nat × BindRec)) : Bool := l.all fun x => (s.takeTag x.2.asid true).isSome
/-- GANG_START (23 R383): all of them run in one step. Without a tag the gang waits in BINDING: Sheepdog commits none that has no
tag (22 R353). -/
def execGangStart (gang commit : Nat) (s : State) : Host.Outcome State Fault Refusal :=
  let l := s.bindingOf gang commit
  .next (if commitWhole l ∧ s.tagFor l then l.foldl (fun s x => s.startMember x.1 x.2) s else s)

/-! ## The stop (22 R362, R363) -/

/-- GRACE cycles have passed since PENDING was set. -/
def Core.graceOver (c : Core) (cycle : Nat) : Bool :=
  match c.pendingSince with | some t => decide (t + c.csr.grace ≤ cycle) | none => false
/-- PREEMPT_FORCED_STOP: the stop is due whatever the kernel does. -/
def execPreemptForcedStop (core : Nat) (s : State) : Host.Outcome State Fault Refusal :=
  .next (s.onCore core fun c => if c.graceOver s.base.cycle && !c.ready then { c with stopForced := true } else c)
/-- A running command suspends at its progress point, with no record and no trap (10 R235). -/
def Cmd.suspend (c : Cmd) : Cmd := if c.phase = .running then { c with phase := .suspended, code := 0, addr := 0 } else c
/-- An element's trap that waits for the elements below it. -/
def Wait.isElemTrap : Wait → Bool
  | .elemTrap _ _ _ _ _ => true
  | _ => false
/-- The stop lands before the instruction at the pc; writes that an MTCONF held land; commands suspend; PENDING clears. The trap of
an element that has failed is still to come. -/
def Core.stopHere (c : Core) : Core :=
  let c := if c.vec.held = [] then c else c.landHeld
  { c with phase := .saving, pendingSince := none, awaiting := false,
           ct := { c.ct with wait := c.ct.wait.filter Wait.isElemTrap, waitaStart := none, early := [], reservation := none, windowReservation := none },
           vec := { c.vec with cmds := c.vec.cmds.map Cmd.suspend } }
/-- PREEMPT_STOP (22 R350, R363). -/
def execPreemptStop (core : Nat) (s : State) : Host.Outcome State Fault Refusal :=
  let c := s.coreAt core
  .next (if c.stopDue && c.ct.wait != some .wfi then s.asCore core fun s => let s := s.performAll; { s with core := s.core.stopHere } else s)

/-! ## The save record (22 R364 to R366) -/

/-- A micro-thread is in the middle of a block, or of a single word. -/
def Mt.midBlock (t : Mt) : Bool := t.dataWait || (t.phase == .ready && (t.carrier || t.ix != 0))
/-- No entry can perform more, or retire (02 R52). -/
def State.entriesStand (s : State) : Bool :=
  [VQueue.load, .compute, .store].all fun q =>
    (match s.toDistribute q with | some e => !s.canDistribute e | none => true) && (s.toRetire q).isNone
/-- The core in focus may be saved: every micro-thread stands at a block boundary, every entry has retired or waits for what has
stopped (02 R52). DEDUCED (log 61). -/
def State.savable (s : State) : Bool := (s.core.vec.mts.all fun (_, t) => !t.midBlock) && s.entriesStand

/-- `n` bytes of a part of core `c` as the save engine reads them: unreadable ones are zero (22 R369). -/
def State.savedBytes (s : State) (p : Part) (off n : Nat) : Nat := if s.partLost p off n then 0 else s.core.partRead p off n
/-- Pack 32-bit values, two to a word. -/
def pack32 : List Nat → List Nat
  | [] => []
  | [x] => [x]
  | x :: y :: l => (x + y * 2 ^ 32) :: pack32 l
/-- The `n` 8-byte words of a number. -/
def wordsOf : Nat → Nat → List Nat
  | 0, _ => []
  | n + 1, x => x % 2 ^ 64 :: wordsOf n (x / 2 ^ 64)
/-- Pad a section to 64 bytes. -/
def padWords (l : List Nat) : List Nat := l ++ List.replicate ((8 - l.length % 8) % 8) 0
/-- Values at byte offsets, as one number. -/
def packAt (l : List (Nat × Nat)) : Nat := (l.map fun (off, v) => v * 2 ^ (8 * off)).sum
/-- Values of 8 bytes each from a byte offset. -/
def packWords (off : Nat) (l : List Nat) : Nat := packAt (l.zipIdx.map fun (v, k) => (off + 8 * k, v))

/-- The ten masks in the order of 22 R364: k1 to k7, kv, km, kf. -/
def savedMasks : List (BitVec 4) := [1, 2, 3, 4, 5, 6, 7, 8, 9, 10]
/-- One more than the highest micro-thread that is not STOPPED with an empty queue. -/
def Vec.savedMts (v : Vec) : Nat := v.mts.foldl (fun u (m, t) => if t.phase == .stopped && t.queue == [] then u else max u (m + 1)) 0
/-- The set bits of a bitmap, in ascending order. -/
def bitsOf {w : Nat} (x : BitVec w) : List Nat := (List.range w).filter fun i => x.getLsbD i

/-- A barrier's 8 bytes. -/
def Barrier.saved (b : Barrier) : Nat :=
  b.count.toNat + b.arrived.toNat * 2 ^ 16 + b.phase.toNat * 2 ^ 32 + (b.arvPhase.getD 0).toNat * 2 ^ 40
/-- SCSR. -/
def Ct.savedCsrs (c : Ct) : List Nat :=
  [c.sstatus ||| BitVec.twoPow 64 33, c.sie, c.stvec, c.sscratch, c.sepc, c.scause, c.stval, c.satp, c.scounteren, c.senvcfg].map BitVec.toNat
/-- UCSR. -/
def Csrs.savedUser (r : Csrs) : List Nat :=
  [r.vl, r.mtcfg.toNat, r.vspace.toNat, r.vresume, r.vfflags.toNat, r.vfrm.toNat, r.vffirsta.toNat, r.vffirstb.toNat, r.fepol.toNat,
   r.ltlease.toNat, r.xnotify.toNat, r.jobarg.toNat]
/-- KCSR. -/
def Csrs.savedKernel (r : Csrs) : List Nat :=
  [r.mtfi.toNat, r.xfault.toNat, r.lttick, r.tilebase.toNat, r.framebase.toNat, r.panicmark.toNat]
/-- FLAGS of the fixed part. -/
def Core.savedFlags (c : Core) (lost outOfService : Bool) : Nat :=
  lost.toNat + 2 * c.noticeTaken.toNat + 4 * (c.stopForced || outOfService).toNat
/-- The fixed part of a core's record (22 R365): 1,024 bytes. -/
def Core.fixedPart (c : Core) (flags size lives liveb : Nat) : Nat :=
  let pend := (c.csr.mtfi && c.vec.maskOf kfCode != 0).toNat + 2 * c.perf.breakPending.isSome.toNat
  packAt [(0, 0x0002_0001), (4, flags), (8, size), (0x10, c.ct.pc.toNat), (0x18, (!c.ct.user).toNat), (0x19, pend)]
    + packWords 0x20 ((List.range 31).map fun r => (Store.get c.ct.x (r + 1)).toNat)
    + packWords 0x118 c.ct.savedCsrs + packWords 0x168 c.csr.savedUser
    + packWords 0x1C8 [c.ltime.toNat, c.csr.xseq, c.csr.xissued] + packWords 0x1E0 c.csr.savedKernel
    + packWords 0x210 ((List.range 32).map fun b => (c.barrier b).saved)
    + packAt (c.vec.fifo.zipIdx.map fun (v, k) => (0x310 + 4 * k, v.toNat))
    + packAt [(0x350, c.vec.fifo.length), (0x358, c.vec.high + c.vec.savedMts * 2 ^ 32), (0x360, c.vec.regDirty.toNat),
              (0x368, c.vec.tileDirty.toNat), (0x36C, c.vec.cmds.length), (0x370, lives), (0x378, liveb)]

/-- The A span of an item as it is saved. -/
def spanBytes (l : List MWord) : Nat := packAt (l.zipIdx.map fun (v, k) => (4 * k, v.toNat))
/-- An item of 24 bytes (22 R366). -/
def MtItem.saved : MtItem → Nat
  | .block _ a fr => packAt [(0, 1), (1, fr.toNat), (8, a.toNat)]
  | .word _ _ w fr sp => packAt [(0, 2), (1, fr.toNat), (4, w.toNat), (8, match sp with | some l => spanBytes l | none => 0)]
/-- The items of a micro-thread, a carrier word that has begun nothing before them. -/
def Mt.savedItems (t : Mt) : List MtItem :=
  (if t.phase = .waitEmpty ∧ t.carrier then t.words.map fun w => .word t.entry t.blk w t.vfrm t.span else []) ++ t.queue
/-- A micro-thread's record of 128 bytes (22 R366). -/
def Mt.saved (t : Mt) : Nat :=
  let starts := (t.phase = .ready ∨ t.phase = .waitEmpty ∨ t.phase = .waitLink) ∧ !t.carrier
  let code := if t.phase = .faulted then 3 else if t.phase = .linkPending then 2 else if starts then 1 else 0
  let next := if starts ∨ (t.phase = .linkPending ∧ t.words ≠ []) then t.blk.toNat else 0
  let items := if t.phase = .faulted then
      packWords 0x20 ([0, 1, 2, 3].map fun w => (t.recordWord w).toNat)
        + (if t.carrier then (MtItem.saved (.word 0 0 (t.words.headD 0) t.vfrm t.span)) * 2 ^ (8 * 0x50) else 0)
    else packAt ((t.savedItems.take 4).zipIdx.map fun (x, k) => (0x20 + 24 * k, x.saved))
  packAt [(0, code), (1, if t.phase = .faulted then 0 else (t.savedItems.take 4).length), (2, t.link.isSome.toNat + 2 * t.slot.isSome.toNat),
          (3, t.vfrm.toNat), (4, (t.link.getD 0).toNat), (8, next), (0x10, t.age), (0x18, (t.slot.getD 0).toNat)] + items
/-- A command's record with its state at byte 0x0C (22 R365). -/
def Cmd.saved (c : Cmd) : Nat :=
  let st := match c.phase with
    | .queued => 0
    | .faulted => if c.trapTaken then 3 else 2
    | _ => 1
  c.record + st * 2 ^ 96

/-- The sections after the fixed part (22 R365). -/
def State.savedSections (s : State) (lives liveb : Nat) : List Nat :=
  let v := s.core.vec
  let h := v.high
  let masks := savedMasks.flatMap fun k => wordsOf ((h + 63) / 64) ((v.maskOf k).toNat % 2 ^ h)
  let regs := (bitsOf v.regDirty).flatMap fun r => (List.range h).map fun m => s.savedBytes .regs (4 * regSlot s.core.csr.nregs r m) 4
  let mts := (List.range v.savedMts).flatMap fun m => wordsOf 16 (v.mt m).saved
  let tiles := (bitsOf v.tileDirty).flatMap fun t => (List.range 1024).map fun k => s.savedBytes .acc (8192 * t + 8 * k) 8
  let cmds := v.cmds.flatMap fun c => wordsOf 16 c.saved
  let stash := (List.range (lives / 8)).map fun k => s.savedBytes .stash (8 * k) 8
  let rows := (List.range (384 * liveb)).map fun k => s.savedBytes .fly (flyToColumn (8 * k)) 8
  padWords masks ++ padWords (pack32 regs) ++ padWords mts ++ padWords tiles ++ padWords cmds ++ padWords stash ++ padWords rows
/-- Some saved byte is unreadable. -/
def State.savedLost (s : State) (lives liveb : Nat) : Bool :=
  let v := s.core.vec
  s.base.lost != [] &&
    ((bitsOf v.regDirty).any (fun r => s.partLost .regs (4 * regSlot s.core.csr.nregs r 0) (4 * v.high) && v.high != 0) ||
     (bitsOf v.tileDirty).any (fun t => s.partLost .acc (8192 * t) 8192) || (lives != 0 && s.partLost .stash 0 lives) ||
     (List.range (384 * liveb)).any fun k => s.partLost .fly (flyToColumn (8 * k)) 8)
/-- The whole record, word by word. -/
def State.saveRecord (s : State) (lives liveb : Nat) : List Nat :=
  let sec := s.savedSections lives liveb
  let flags := s.core.savedFlags (s.savedLost lives liveb) false
  wordsOf 128 (s.core.fixedPart flags (1024 + 8 * sec.length) lives liveb) ++ sec

/-! ## The save (22 R363, 15 R311, R327) -/

/-- Every write tenure of a core ends in a write-back. -/
def State.giveUpAll (s : State) (n : Nat) : State :=
  let bs := (s.dir.blocks.filter fun x => x.2.holder == some n).map (·.1)
  let ts := (s.dir.tiles.filter fun x => x.2.holder == some n).map (·.1)
  ts.foldl (fun s t => s.giveBack (.tile t) 0) (bs.foldl (fun s b => s.giveBack .block (64 * b)) s)
/-- The save engine writes words at a device-physical address; no tenure is kept. -/
def State.putList (s : State) (pa : Nat) : List Nat → State
  | [] => s
  | v :: l => State.putList (s.physWrite .block pa 8 v false) (pa + 8) l
/-- What the core in focus leaves with dispatch for a context. -/
def State.toPark (s : State) (ctx : Nat) : Parked :=
  let v := s.core.vec
  { ctx := ctx, queue := v.queue, owed := s.core.ct.pendingX, wait := s.core.ct.wait, mts := v.mts, barriers := v.barriers,
    breakAt := s.core.perf.breakPending.map (·.1), cmds := v.cmds }
/-- Granules with a correctable error that the save reads are met (25 R406). -/
def State.saveMeets (s : State) (lives liveb : Nat) : State :=
  let v := s.core.vec
  let at' := fun (p : Part) (off n : Nat) => (windowAddr s.core.no p off, n)
  if s.base.soft = [] then s
  else s.meetAll ((bitsOf v.regDirty).map (fun r => at' .regs (4 * regSlot s.core.csr.nregs r 0) (4 * v.high)) ++
    (bitsOf v.tileDirty).map (fun t => at' .acc (8192 * t) 8192) ++ [at' .stash 0 lives] ++
    (List.range (384 * liveb)).map fun k => at' .fly (flyToColumn (8 * k)) 8)
/-- The core in focus is saved and unbound; a context that cannot be written fails the job (22 R369). -/
def State.saveHere (s : State) : State :=
  let (ctx, lives, liveb) := match (s.slot s.core.no).bind with | some b => (b.ctx, b.lives, b.liveb) | none => (0, 0, 0)
  let gang := s.gangNow
  let ix := s.core.csr.gangix.toNat
  let lost := s.savedLost lives liveb
  let s := ((if lost then s.countUe else s).saveMeets lives liveb).performAll.giveUpAll s.core.no
  let rec' := s.saveRecord lives liveb
  let ok := s.spanReaches ctx (8 * rec'.length) true
  let s := if ok then (s.asAgent (516 + dieOf s.core.no) fun s => s.putList ctx rec').park ctx (some (s.toPark ctx)) else s
  let s := s.setSlot s.core.no Slot.free
  let s := s.onVec fun v => { v with cmds := [], mts := [], fifo := [], queue := [] }
  let s := { s with core := s.core.unbound }
  s.report (if ok then .saved s.core.no gang ix lost else .failed gang 2)
/-- SAVE_COMPLETE (22 R363, 23 R383). -/
def execSaveComplete (core : Nat) (s : State) : Host.Outcome State Fault Refusal :=
  .next (s.asCore core fun s => if s.core.phase = .saving ∧ s.savable then s.saveHere else s)

/-! ## Restore (22 R368, R369) -/

/-- Read `n` words at a device-physical address, as the save engine. -/
def State.readList (s : State) (pa : Nat) : Nat → List Nat × State
  | 0 => ([], s)
  | n + 1 =>
    let (v, s) := match placeOf pa with
      | .ddr => s.homeRead pa 8
      | _ => s.physRead .block pa 8
    let (l, s) := State.readList s (pa + 8) n
    (v :: l, s)
/-- Words as one number. -/
def ofWords : List Nat → Nat
  | [] => 0
  | v :: l => v + 2 ^ 64 * ofWords l
/-- A field of a record. -/
def recWord (x off : Nat) : Word := BitVec.ofNat 64 (fieldAt x off 64)

/-- Split a list of words into its next section of `n` words, and the rest after the padding. -/
def takeSection (n : Nat) (l : List Nat) : List Nat × List Nat := (l.take n, l.drop ((n + 7) / 8 * 8))
/-- Lists of `n` words each. -/
def chunksOf (n : Nat) : Nat → List Nat → List (List Nat)
  | 0, _ => []
  | k + 1, l => l.take n :: chunksOf n k (l.drop n)

/-- The CSRs of a fixed part. -/
def Csrs.restored (r : Csrs) (x : Nat) : Csrs :=
  let u := fun (k : Nat) => recWord x (0x168 + 8 * k)
  let k := fun (k : Nat) => recWord x (0x1E0 + 8 * k)
  { r with vl := (u 0).toNat, nregs := (u 1).extractLsb' 0 2, vqdepth := (u 1).extractLsb' 8 5, vspace := (u 2).setWidth 4,
           vresume := (u 3).toNat, vfflags := (u 4).setWidth 5, vfrm := (u 5).setWidth 2, vffirsta := (u 6).setWidth 42,
           vffirstb := (u 7).setWidth 28, fepol := u 8, ltlease := (u 9).setWidth 12, xnotify := u 10, jobarg := u 11,
           xseq := fieldAt x 0x1D0 64, xissued := fieldAt x 0x1D8 64, mtfi := (k 0).getLsbD 0, xfault := k 1, lttick := (k 2).toNat,
           tilebase := k 3, framebase := k 4, panicmark := k 5 }
/-- The control thread of a fixed part. -/
def Ct.restored (c : Ct) (x : Nat) : Ct :=
  let k := fun (k : Nat) => recWord x (0x118 + 8 * k)
  { c with x := (List.range 31).foldl (fun t r => Store.set t (r + 1) (recWord x (0x20 + 8 * r))) [], pc := recWord x 0x10,
           user := fieldAt x 0x18 8 = 0, sstatus := k 0 &&& sstatusMask, sie := k 1, stvec := k 2, sscratch := k 3, sepc := k 4, scause := k 5,
           stval := k 6, satp := k 7, scounteren := k 8, senvcfg := k 9 }
/-- A barrier from its 8 bytes, and from what dispatch held of it: the times of its phases, whether ARVPH holds an arrival. -/
def Barrier.ofSaved (v : Nat) (p : Barrier) : Barrier :=
  { p with count := BitVec.ofNat 16 v, arrived := BitVec.ofNat 16 (v / 2 ^ 16), phase := BitVec.ofNat 8 (v / 2 ^ 32),
           arvPhase := p.arvPhase.map fun _ => BitVec.ofNat 8 (v / 2 ^ 40) }

/-- The entry of an item. -/
def MtItem.home : MtItem → Nat
  | .block e _ _ => e
  | .word e _ _ _ _ => e
/-- An item from its 24 bytes, and from what dispatch held of it: its entry, the carrier's address, whether it captured a span. It
belongs to entry `id`, and the address is a free value, where dispatch holds nothing. -/
def itemOf (x id fresh : Nat) (ids : List Nat) (p : Option MtItem) : Option MtItem :=
  let entry := match p with | some y => if ids.contains y.home then y.home else id | none => id
  let fr := BitVec.ofNat 2 (fieldAt x 1 8)
  match fieldAt x 0 8 with
  | 1 => some (.block entry (BitVec.ofNat 64 (fieldAt x 8 64)) fr)
  | 2 =>
    let sp := (List.range 4).map fun k => BitVec.ofNat 32 (fieldAt x (8 + 4 * k) 32)
    let (pc, has) := match p with
      | some (.word _ pc _ _ sp) => (pc, sp.isSome)
      | _ => (Config.restoredAddr fresh, fieldAt x 8 128 != 0)
    some (.word entry pc (BitVec.ofNat 32 (fieldAt x 4 32)) fr (if has then some sp else none))
  | _ => none
/-- The fault record of four words (22 R357). -/
def MtFault.ofWords (x : Nat) : MtFault :=
  let w := recWord x 0x20
  { code := (w.extractLsb' 0 8).toNat, mcode := w.extractLsb' 40 8, block := recWord x 0x28, wordIx := (w.extractLsb' 32 4).toNat,
    addr := recWord x 0x30, carrier := w.getLsbD 61, inReg := w.getLsbD 60, dropped := (w.extractLsb' 8 24).toNat }
/-- A micro-thread from its record, and from what dispatch held of it, `ids` being the entries that go on: what belongs to none of
them belongs to entry `id`. One that starts a block has yet to fetch it, and starts it at its first word (02 R52). -/
def Mt.ofSaved (x id fresh : Nat) (ids : List Nat) (p : Mt) : Mt :=
  let code := fieldAt x 0 8
  let flags := fieldAt x 2 8
  let held := p.savedItems
  let items := if code = 3 then [] else (List.range (fieldAt x 1 8)).filterMap fun k => itemOf (x / 2 ^ (8 * (0x20 + 24 * k))) id (fresh + k) ids held[k]?
  let f := MtFault.ofWords x
  let word := itemOf (x / 2 ^ (8 * 0x50)) id fresh ids (some (.word p.entry p.blk 0 0 p.span))
  let t : Mt :=
    { Mt.idle with
      queue := items ++ (if code = 3 then [] else held.drop 4), blk := BitVec.ofNat 64 (fieldAt x 8 64), vfrm := BitVec.ofNat 2 (fieldAt x 3 8),
      age := fieldAt x 0x10 64, entry := if ids.contains p.entry then p.entry else id, link := if flags % 2 = 1 then some (BitVec.ofNat 32 (fieldAt x 4 32)) else none,
      slot := if flags / 2 % 2 = 1 then some (BitVec.ofNat 32 (fieldAt x 0x18 32)) else none, origin := p.origin }
  match code with
  | 2 => { t with phase := .linkPending }
  | 3 =>
    let t := { t with phase := .faulted, blk := f.block, ix := f.wordIx, carrier := f.carrier, fault := some f }
    match f.carrier, word with
    | true, some (.word _ _ w _ sp) => { t with words := [w], span := sp }
    | _, _ => t
  | 1 => { t with phase := .ready }
  | _ => t
/-- Fetch the block that a restored micro-thread is to start, or that its chain goes on with. -/
def State.restartBlock (s : State) (m : Nat) : State :=
  let s := { s with core := { s.core with curMt := m } }
  let t := s.mt m
  if t.phase = .ready ∨ (t.phase = .linkPending ∧ t.blk ≠ 0) then
    match s.fetchBlock t.blk with
    | (.failed x, s) => s.mtFaultAt (accFault x .fetch) 0 t.blk 0 t.blk false
    | (.bad, s) => s.mtFaultAt 13 0 t.blk 0 0 false
    | (.block ws, s) =>
      s.onMt m fun t => let t := { t with words := ws }; if t.phase = .linkPending then t else t.enter (s.emptyFor t)
  else s
/-- Load micro-thread `m` from its record: its chain and items belong to the entries that they belonged to, or where those are not
at hand to an update of their own (03 R85). A FAULTED one has its kf bit set (02 R53). -/
def State.restoreMt (s : State) (p : Parked) (m x : Nat) : State :=
  let id := s.core.vec.nextEntry
  let t := Mt.ofSaved x id s.fresh (p.queue.map (·.id)) (Table.get Mt.idle p.mts m)
  let s := { (s.onMt m fun _ => t) with fresh := s.fresh + 5 }
  let s := if t.fault.isSome then s.onVec fun v => v.setMask kfCode (setBit (v.maskOf kfCode) m true) else s
  if t.quiet then s else (if t.busyWith id then s.pushResume m else s).restartBlock m

/-- The command of a KIND and its words. -/
def kindOfRecord (kind : Nat) (insn : Word) : CmdKind :=
  match kind with
  | 2 => .copyMatrix
  | 3 => .copyMatrix
  | _ =>
    match decodeCt (insn.extractLsb' 0 32) (insn.extractLsb' 32 32) with
    | some (.xfill _ _ _ _ _ _) => .fill
    | some (.xgather _ _ _ _ _ _) => .gather
    | some (.xscatter _ _ _ _ _ _) => .scatter
    | some (.xcollReduce _ _ _ _ _ _) => .reduce
    | some (.xcollBroadcast _ _ _ _ _ _) => .broadcast
    | some (.xcollAllgather _ _ _ _ _ _) => .allgather
    | some (.mma _ _ _ _ _) => .mma
    | some (.mmas _ _ _ _) => .mmas
    | some (.mzero _) => .mzero
    | some (.mload _ _ _) => .mload
    | some (.mdrain _ _ _ _ _) => .mdrain
    | _ => .copy
/-- The tile of a handle that was checked when its command was issued. -/
def State.tileOf (s : State) (h : BitVec 32) : Option TileRef :=
  (s.entryOf s.asidNow s.tableNow h).map fun e => { handle := h, desc := e.desc, asid := e.asid, table := e.table, index := e.index }
/-- A command's matrix word reads A, or mdrain writes D, through a tile. -/
def matTileOf (kind : CmdKind) (w : BitVec 32) : Bool :=
  (kind == .mma || kind == .mmas || kind == .copyMatrix || kind == .mdrain) && decide (2 ≤ mwSrc w)
/-- The tiles that a command needs are not all there any more. -/
def Cmd.tilesGone (c : Cmd) : Bool :=
  ((c.kind.isCopy || c.kind.isColl) && c.dst.isNone) || ((c.kind.isCopy || c.kind.isColl) && c.kind != .fill && c.src.isNone) ||
    ((c.kind == .gather || c.kind == .scatter || c.kind.isColl) && c.idx.isNone) || (matTileOf c.kind c.mword && c.matTile.isNone)
/-- A command from its record (22 R365, R368): what it covers is empty again. A faulted one's record is written again. -/
def State.restoreCmd (s : State) (p : Parked) (x : Nat) : State :=
  let insn := recWord x 0x20
  let kind := kindOfRecord (fieldAt x 0x0A 8) insn
  let flags := fieldAt x 0x0B 8
  let rs1 := recWord x 0x28
  let rs2 := recWord x 0x30
  let m1 := recWord x 0x40
  let mw : BitVec 32 := if kind = .copyMatrix then insn.extractLsb' 32 32 else insn.extractLsb' 0 32
  let moves := kind.isCopy || kind.isColl
  let src := if moves && kind != .fill then s.tileOf (lowHandle rs1) else none
  let dst := if moves then s.tileOf (lowHandle rs2) else none
  let idx := if kind = .gather ∨ kind.isColl then s.tileOf (highHandle rs1) else if kind = .scatter then s.tileOf (highHandle rs2) else none
  let mops := if kind = .copyMatrix then m1 else rs1
  let mat := if matTileOf kind mw then s.tileOf (lowHandle mops) else none
  let held : Option Cmd := p.cmds.find? fun y => y.seq == fieldAt x 0 64
  let (ms, s) := match kind.isColl, idx with
    | true, some g => if held.isSome then ((held.map Cmd.members).getD [], s) else match s.readMembers g g.desc.count 0 with
      | (.ok l, s) => (l, s)
      | (.error _, s) => ([], s)
    | _, _ => ([], s)
  let copyMarks := match dst with | some t => s.marksOf t | none => []
  let (mm, a) := if kind.isMatrix then s.matrixMarks kind mw mops else ([], 0)
  let st := fieldAt x 0x0C 8
  let c : Cmd :=
    { seq := fieldAt x 0 64, kind := kind, insn := insn, acq := flags.testBit 7, rel := flags.testBit 6, scope := BitVec.ofNat 3 (flags / 8),
      rs1 := rs1, rs2 := rs2, mrs1 := m1, mrs2 := recWord x 0x48, notify := recWord x 0x38,
      phase := if st = 0 then .queued else if st = 1 then .suspended else .faulted, matrixPart := fieldAt x 0x0A 8 = 3,
      progress := fieldAt x 0x18 64, code := fieldAt x 8 16, addr := recWord x 0x10, recorded := false, trapTaken := st = 3,
      src := src, dst := dst, idx := idx, matTile := mat, afterEntry := (held.map Cmd.afterEntry).getD s.core.vec.nextEntry, marks := copyMarks ++ mm,
      tiles := [src, idx].foldl (fun b r => match r with | some t => b ||| s.ownTiles (s.marksOf t) | none => b) (s.ownTiles copyMarks),
      own := moves && dst.any s.inOwn, aRegs := a, members := ms, status := (held.map Cmd.status).getD (ms.map fun _ => none), staged := false, failed := false,
      stamp := held.bind Cmd.stamp }
  let mine := s.dir.staged.filter fun y => c.sameColl y && y.member == memberWord s.core.no
  let c := { c with staged := mine.any fun y => y.data.isSome && !y.taken.contains s.core.no,
                    failed := mine.any fun y => y.data.isNone && y.taken.contains s.core.no }
  let c := if fieldAt x 0x0A 8 = 3 then s.landed c else c
  let c := if c.tilesGone ∧ c.phase ≠ .faulted then { c with phase := .faulted, code := 3 } else c
  let s := s.onVec fun v => { v with cmds := v.cmds ++ [c] }
  if c.phase = .faulted then
    match s.recordPlace c with
    | some pa => (s.asAgent (c.agent s.core.no) fun s => s.putWords pa 16 c.record).setCmd { c with recorded := true }
    | none => s
  else s

/-- The save engine writes 8 bytes of a part of the core in focus, stamped (15 R324): a reservation there is lost (11 R418), the
granule whole. -/
def State.restoreWord (s : State) (p : Part) (off v : Nat) : State :=
  let pa := windowAddr s.core.no p off
  ({ s with core := s.core.landWrite p off 8 v s.core.ltime }.loseReservations (pa / 64)).repair pa 8
/-- An element of an entry that stopped, on the core that goes on with it: its own spaces are that core's window. -/
def Elem.moveTo (x : Elem) (space : BitVec 4) (core : Nat) : Elem :=
  if 1 ≤ space.toNat ∧ space.toNat ≤ 4 then { x with pa := Config.windowBase + core * Config.windowBytes + (x.pa - Config.windowBase) % Config.windowBytes }
  else x
/-- An entry that stopped, on the core that goes on with it. -/
def Entry.moveTo (e : Entry) (core : Nat) : Entry :=
  let mv := fun (x : Elem) => x.moveTo e.space core
  let mx := fun (x : MxElem) => { x with e := mv x.e, sc := mv x.sc }
  { e with
    op := match e.op with
      | .load v n l => .load v n (l.map mv)
      | .store v n l => .store v n (l.map mv)
      | .loadMx v l => .loadMx v (l.map mx)
      | .storeMx v l => .storeMx v (l.map mx)
      | .amo v o sc l => .amo v o sc (l.map mv)
      | .append v l rd => .append v (l.map mv) rd
      | o => o }
/-- The entries that stopped go on with their numbers, which are their ages (02 R42): what is issued from now on, and what the
records `mts` of micro-threads do not name, is younger. Their scalar results are owed again, an element's trap waits again. -/
def State.goOnWith (s : State) (p : Parked) (mts : List Nat) : State :=
  let top := (p.queue.map (·.id) ++ mts.map fun x => fieldAt x 0x10 64).foldl max 0
  (s.onVec fun v => { v with queue := p.queue.map fun e => e.moveTo s.core.no, nextEntry := max v.nextEntry (top + 1) }).onCt fun c =>
    { c with pendingX := p.owed, wait := p.wait }
/-- Load the sections after the fixed part `x` (22 R368). DEDUCED (log 61). -/
def State.restoreSections (s : State) (p : Parked) (x : Nat) (l : List Nat) : State :=
  let h := fieldAt x 0x358 14
  let u := fieldAt x 0x35C 14
  let n := (h + 63) / 64
  let regs := bitsOf (recWord x 0x360)
  let tiles := bitsOf (BitVec.ofNat 32 (fieldAt x 0x368 32))
  let (masks, l) := takeSection (10 * n) l
  let (rw, l) := takeSection ((regs.length * h + 1) / 2) l
  let (mw, l) := takeSection (16 * u) l
  let (tw, l) := takeSection (1024 * tiles.length) l
  let (cw, l) := takeSection (16 * fieldAt x 0x36C 32) l
  let (sw, l) := takeSection (fieldAt x 0x370 64 / 8) l
  let rows := l.take (384 * fieldAt x 0x378 32)
  let s := (savedMasks.zip (chunksOf n 10 masks)).foldl (fun s (k, ws) => s.setMaskBelow k h (BitVec.ofNat 8192 (ofWords ws))) s
  let rv := ofWords rw
  let s := (List.range regs.length).foldl (fun s i =>
    (List.range h).foldl (fun s m => s.setVreg (regs.getD i 0) m (BitVec.ofNat 32 (rv / 2 ^ (32 * (i * h + m))))) s) s
  let s := (List.range tiles.length).foldl (fun s i =>
    (List.range 1024).foldl (fun s k => s.restoreWord .acc (8192 * tiles.getD i 0 + 8 * k) (tw.getD (1024 * i + k) 0)) s) s
  let s := sw.zipIdx.foldl (fun s (v, k) => s.restoreWord .stash (8 * k) v) s
  let s := rows.zipIdx.foldl (fun s (v, k) => s.restoreWord .fly (flyToColumn (8 * k)) v) s
  let s := s.onVec fun v => { v with high := h }
  let ms := (chunksOf 16 u mw).map ofWords
  let s := s.goOnWith p ms
  let s := (chunksOf 16 (fieldAt x 0x36C 32) cw).foldl (fun s ws => s.restoreCmd p (ofWords ws)) s
  ms.zipIdx.foldl (fun s (x, m) => s.restoreMt p m x) s
/-- The fixed part is loaded, then the rest; pending events are pending again; the core runs. -/
def State.restoreFrom (s : State) (p : Parked) (x : Nat) (l : List Nat) : State :=
  let lt := BitVec.ofNat 32 (fieldAt x 0x1C8 32)
  let s := { s with core := { s.core with ct := s.core.ct.restored x, csr := s.core.csr.restored x, chain := [] }.raiseTo (some lt) }
  let bars := (List.range 32).foldl (fun t b => Table.set Barrier.zero t b (Barrier.ofSaved (fieldAt x (0x210 + 8 * b) 64) (Table.get Barrier.zero p.barriers b))) []
  let fifo := (List.range (fieldAt x 0x350 32)).map fun k => BitVec.ofNat 32 (fieldAt x (0x310 + 4 * k) 32)
  let s := s.onVec fun v => { v with barriers := bars, fifo := fifo }
  let s := s.restoreSections p x l
  let s := if fieldAt x 0x19 8 / 2 % 2 = 1 then
      { (s.onPerf fun y => { y with breakPending := some (p.breakAt.getD (Config.restoredAddr s.fresh), s.core.ct.pc + 1) }) with fresh := s.fresh + 1 }
    else s
  { s with core := { s.core with phase := .running } }
/-- A restore that cannot start its job is an unrecovered fault (22 R369): its commands are no more. -/
def State.restoreFails (s : State) : State :=
  let gang := s.gangNow
  let s := (match (s.slot s.core.no).bind with | some b => s.park b.ctx none | none => s).setSlot s.core.no Slot.free
  ({ s with core := s.core.unbound }).report (.failed gang 2)
/-- `n` words of the record, as the save engine of the die reads them (15 R316). -/
def State.readRecord (s : State) (pa n : Nat) : List Nat × State :=
  let (l, t) := { s with agent := some (516 + dieOf s.core.no) }.readList pa n
  (l, { t with agent := s.agent })
/-- Restore the core in focus from the record at its context. Lost data that is met counts (25 R413). -/
def State.restoreHere (s : State) : State :=
  let ctx := match (s.slot s.core.no).bind with | some b => b.ctx | none => 0
  if !s.spanReaches ctx 1024 false then s.restoreFails
  else if s.lostAt ctx 1024 then s.countUe.restoreFails
  else
    let (f, s) := s.readRecord ctx 128
    let x := ofWords f
    let size := fieldAt x 8 64
    if fieldAt x 4 32 % 2 = 1 ∨ size < 1024 ∨ !s.spanReaches ctx size false then s.restoreFails
    else if s.lostAt ctx size then s.countUe.restoreFails
    else
      let (l, s) := s.readRecord (ctx + 1024) ((size - 1024) / 8)
      (s.restoreFrom (s.parkedAt ctx) x l).park ctx none
/-- RESTORE_COMPLETE (22 R368). -/
def execRestoreComplete (core : Nat) (s : State) : Host.Outcome State Fault Refusal :=
  .next (s.asCore core fun s => if s.core.phase = .restoring then s.restoreHere else s)

end Sys2Proof.Machine
end

