-- ==== Sys2Proof/Machine/Fleet.lean ====
section
/-! DEFINITION. The health log, lost cores and agents, scrubs and storage errors, guylines, heat, coolant and the power
cap (13 R279; 15 R319; 25 R406 to R416). What starts these steps is the environment: errors, temperatures, time. -/

namespace Sys2Proof.Machine

/-! ## The health log (25 R414) -/

/-- HLOG_WRITE (25 R413). -/
def execHlogWrite (value : Word) (s : State) : Host.Outcome State Fault Refusal :=
  .next (s.onBase fun b => { b with hlog := value &&& ~~~0xFF0, hlogPos := 0 })

/-! ## Collectives that lose a member (10 R231) -/

/-- Change every core's commands, and those of saved jobs, which have no core's number. -/
def State.mapCmds (s : State) (f : Nat → Cmd → Cmd) : State :=
  let g := fun (c : Core) => { c with vec := { c.vec with cmds := c.vec.cmds.map (f c.no) } }
  { s with core := g s.core, others := s.others.map fun (n, c) => (n, g c),
           disp := { s.disp with parked := s.disp.parked.map fun p => { p with cmds := p.cmds.map (f Config.cores) } } }
/-- Members for which a test holds, and that have not arrived, end with a status. -/
def Cmd.endMembers (c : Cmd) (status : Nat) (p : Nat → Bool) : Cmd :=
  if c.kind.isColl then { c with status := (c.members.zip c.status).map fun (w, v) => if p w then some (v.getD status) else v } else c
/-- What a core that stops for good leaves its collectives: those that it has not staged fail for the other members, and no
member waits for it any more (25 R409, 10 R231). -/
def State.leaveColls (s : State) (n : Nat) : State :=
  ((s.coreAt n).vec.cmds.foldl (fun s c => s.stageFailure n c) s).mapCmds fun _ c => c.endMembers 2 fun w => w == memberWord n

/-! ## Losing a core (25 R409 to R411, 15 R319) -/

/-- A core without the versions that it never wrote back. -/
def Core.withoutDirty (c : Core) : Core :=
  let drop := fun (t : Table (Option Copy)) (x : Nat × Option Copy) =>
    match x.2 with
    | some y => if y.dirty then Table.set none t x.1 none else t
    | none => t
  { c with copies := c.copies.foldl drop c.copies }
/-- The write tenures of a dead core end: each entry keeps its last write-back, with that version's wts; versions never
written back are lost (15 R319). -/
def State.endTenures (s : State) (n : Nat) : State :=
  let cut := fun (d : Table Tenure) =>
    d.foldl (fun t (k, x) => if x.holder = some n then Table.set Tenure.untouched t k { x with holder := none, wts := x.home, version := x.version + 1 } else t) d
  let s := { s with dir := { s.dir with blocks := cut s.dir.blocks, tiles := cut s.dir.tiles } }
  s.onCore n Core.withoutDirty
/-- A core stops at once without a save: its commands are withdrawn, its slot is free (23 R386, 25 R409). -/
def State.dropCore (s : State) (n : Nat) : State :=
  let s := (s.leaveColls n).setSlot n Slot.free
  s.onCore n fun c => ({ c with vec := { c.vec with cmds := [], queue := [], mts := [], fifo := [] } }).unbound
/-- The bound cores of a gang, those whose save is in progress included where `saving` says so. -/
def State.gangCores (s : State) (gang : Nat) (saving : Bool) : List Nat :=
  s.disp.slots.filterMap fun (n, x) =>
    if (x.state = .running ∨ x.state = .unmapping ∨ x.state = .binding) ∧ x.gang = gang ∧ x.bind.isSome ∧ (saving ∨ (s.coreAt n).phase ≠ .saving)
    then some n else none
/-- Cores that have been stopped take no contribution any more that has been staged for them: a job that runs there again begins
its collectives anew. -/
def State.leaveStaged (s : State) (cores : List Nat) : State :=
  { s with dir := { s.dir with
      staged := (s.dir.staged.map fun x => { x with taken := x.taken ++ cores }).filter fun x => !x.spent } }
/-- Some cores stop at once without a save. -/
def State.dropCores (s : State) (cores : List Nat) : State := (cores.foldl (fun s n => s.dropCore n) s).leaveStaged cores
/-- The gang of a slot is unmapped without a save, and its loss is reported (25 R409, steps 3 and 4); a save in progress completes
(R410). -/
def State.loseGang (s : State) (x : Slot) : State :=
  match x.bind with
  | none => s
  | some b => (s.dropCores (s.gangCores b.gangId false)).report (.lostCore b.gangId)
/-- Serve the forwards of a list, in the order of 15 R317; one behind the place of a core's access is left for its turn. -/
def State.serveAll (s : State) : Nat → List Forward → State
  | 0, _ => s
  | n + 1, fs =>
    match firstForward fs with
    | none => s
    | some f =>
      let k := f.key.getD (s.keyOfPa f.asid f.pa)
      let behind := s.dir.forwards.any fun g => g.seat.isSome && s.waits g && s.atEntry g k f.pa && g.precedes f.agent f.age
      State.serveAll (if behind then s else s.serveForward f) n (removeForward f fs)
/-- Queued forwards behind the tenures of a core. -/
def State.forwardsBehind (s : State) (n : Nat) : List Forward :=
  s.dir.forwards.filter fun f => f.seat.isNone && (s.tenure (s.keyOfPa f.asid f.pa) f.pa).holder == some n
/-- The directory's part of a death (15 R319, steps 1 to 3). -/
def State.declareDead (s : State) (agent : Nat) : State :=
  let bumped := fun (s : State) =>
    { s with dir := { s.dir with incarnation := Table.set 0 s.dir.incarnation agent ((s.incarnationOf agent + 1) % 2 ^ 16) } }
  match agentCore agent with
  | some n =>
    let fs := s.forwardsBehind n
    let s := bumped (s.endTenures n)
    s.serveAll fs.length fs
  | none => bumped s
/-- A core that starts as at reset, but for its logical time, which never moves backwards (15 R308). -/
def Core.anew (c : Core) (cycle : Nat) : Core :=
  { Core.reset c.no with ltime := c.ltime, moduleTime := c.moduleTime, dropAt := c.ltime, tickAt := cycle }
/-- Core `n` starts anew, and so do its messages (15 R319). -/
def State.startAnew (s : State) (n : Nat) : State := ((s.onCore n fun c => c.anew s.base.cycle).renew n).renew (256 + n)
/-- A core stops wherever it stands and goes offline; its gang goes (25 R409). -/
def State.stopCore (s : State) (n : Nat) : State :=
  let x := s.slot n
  let s := ((s.leaveColls n).setSlot n { Slot.free with state := .offline }).onCore n fun c => { c.anew s.base.cycle with phase := .offline }
  (s.loseGang x).leaveStaged [n]
/-- A core is retired (25 R409): its tenures end as a dead agent's. -/
def State.retireCore (s : State) (n : Nat) : State :=
  (((s.health 3 (dieOf n) n 0 0 0).declareDead n).stopCore n).onBase fun b =>
    { b with retired := Table.set 0 b.retired n 1, selfTest := b.selfTest.filter fun m => m != n,
             corrected := b.corrected.filter fun x => x.1 != n }
/-- A core's number is retired, and no spare has taken it. -/
def State.isRetired (s : State) (n : Nat) : Bool := Table.get 0 s.base.retired n == 1
/-- CORE_RETIRE (25 R409). -/
def execCoreRetire (core : Nat) (s : State) : Host.Outcome State Fault Refusal := .next (if s.isRetired core then s else s.retireCore core)

/-- Lost granules in a core's window are gone: its storage reads as zero (02 R24). -/
def State.clearWindow (s : State) (n : Nat) : State :=
  let base := (Config.windowBase + n * Config.windowBytes) / 8
  s.onBase fun b => { b with lost := b.lost.filter fun g => !decide (base ≤ g ∧ g < base + Config.windowBytes / 8) }
/-- Spares that a die has (01 R10). -/
def sparesPerDie : Nat := 2
/-- SPARE_MAPPED (25 R409): a retired number gets an unused spare, which starts with cleared state. DEDUCED (log 55). -/
def execSpareMapped (core : Nat) (s : State) : Host.Outcome State Fault Refusal :=
  let used := Table.get 0 s.base.sparesUsed (dieOf core)
  .next (
    if s.isRetired core ∧ used < sparesPerDie then
      let s := ((s.clearWindow core).startAnew core).setSlot core Slot.free
      let s := s.onBase fun b =>
        { b with retired := Table.set 0 b.retired core 0, sparesUsed := Table.set 0 b.sparesUsed (dieOf core) (used + 1) }
      s.health 4 (dieOf core) core 0 0 0
    else s)
/-- CORE_SELF_TEST_END (25 R411). -/
def execCoreSelfTestEnd (core : Nat) (pass : Bool) (s : State) : Host.Outcome State Fault Refusal :=
  if !s.base.selfTest.contains core then .next s
  else
    let s := s.onBase fun b => { b with selfTest := b.selfTest.filter fun n => n != core }
    .next (if pass then (s.startAnew core).setSlot core Slot.free else s.retireCore core)

/-- A save or a restore in progress on a die ends as one of a LOST record (25 R411). -/
def State.failSaves (s : State) (die : Nat) : State :=
  (s.coresListed.filter fun c => dieOf c.no == die && (c.phase == .saving || c.phase == .restoring)).foldl
    (fun s c => let g := (s.slot c.no).gang; (s.dropCores [c.no]).report (.failed g 2)) s
/-- A command is the first that a core holds of its collective. -/
def Vec.firstOf (v : Vec) (c : Cmd) : Bool :=
  v.cmds.all fun y => decide (c.seq ≤ y.seq) || !(y.kind == c.kind && highHandle y.rs2 == highHandle c.rs2 && y.members == c.members)
/-- A collective that some core of a die has begun and not ended: `x` is the command of any of its members. -/
def State.inFlightOn (s : State) (die : Nat) (x : Cmd) : Bool :=
  s.coresListed.any fun c => dieOf c.no == die && c.vec.cmds.any fun y =>
    y.kind.isColl && y.phase != .queued && y.kind == x.kind && highHandle y.rs2 == highHandle x.rs2 && y.members == x.members
/-- A collective's contributions have failed, those still to come as well: whoever takes part in it later finds status 2. -/
def State.failStaged (s : State) (c : Cmd) : State :=
  let failed := s.dir.staged.map fun x => if c.sameColl x then { x with data := none } else x
  let missing := c.members.filter fun w => !s.dir.staged.any fun x => c.sameColl x && x.member == w
  missing.foldl (fun s w => s.stage w c none) { s with dir := { s.dir with staged := failed } }
/-- Every collective in flight on a die ends with status 2 at every member (25 R411). -/
def State.endInFlight (s : State) (die : Nat) : State :=
  let s0 := s
  let flying := (s.coresListed.flatMap fun c => c.vec.cmds).filter fun c => c.kind.isColl && s.inFlightOn die c
  let s := s.mapCmds fun n c =>
    if c.kind.isColl ∧ s0.inFlightOn die c ∧ (c.phase ≠ .queued ∨ (s0.coreAt n).vec.firstOf c) then c.endMembers 2 fun _ => true else c
  flying.foldl State.failStaged s
/-- The core whose tenures the messages of an agent number hold up: its own core, or a core of its die for which a collective
engine or the save engine is at work. -/
def State.actsFor (s : State) (agent n : Nat) : Bool :=
  match agentCore agent with
  | some m => m == n
  | none =>
    let c := s.coreAt n
    (agent == 512 + dieOf n && c.vec.cmds.any fun y => y.kind.isColl && y.phase != .queued) ||
      (agent == 516 + dieOf n && (c.phase == .saving || c.phase == .restoring))
/-- Cycles that a home waits for the answer to a recall (15 R319). -/
def recallLimit : Nat := 2 ^ 22
/-- A home has waited 2^22 cycles for an agent's answer to the recall that a queued request made it send. What an agent that no
core's tenure stands for owes is the environment's. DEDUCED (log 28). -/
def State.recallOver (s : State) (agent : Nat) : Bool :=
  (agent == 528 || decide (544 ≤ agent ∧ agent < 568)) ||
    s.dir.forwards.any fun f => f.seat.isNone && decide (f.since + recallLimit ≤ s.base.cycle) &&
      (match (s.tenure (s.keyOfPa f.asid f.pa) f.pa).holder with | some n => s.actsFor agent n | none => false)
/-- A core that did not answer stops and is tested, unless its number is retired (25 R411). -/
def State.testCore (s : State) (n : Nat) : State :=
  if s.isRetired n then s
  else (s.stopCore n).onBase fun b => { b with selfTest := if b.selfTest.contains n then b.selfTest else n :: b.selfTest }
/-- RECALL_TIMEOUT (15 R319, 25 R411): an agent is declared dead. -/
def execRecallTimeout (agent : Nat) (s : State) : Host.Outcome State Fault Refusal :=
  if !s.recallOver agent then .next s
  else
    let s := s.declareDead agent
    let n := agentCore agent
    let die := match n with | some n => dieOf n | none => if 512 ≤ agent ∧ agent < 520 then agent % 4 else noPart
    let s := s.health 5 die (n.getD noPart) (agent + s.incarnationOf agent * 2 ^ 16) 0 0
    match n with
    | some n => .next (s.testCore n)
    | none =>
      if 512 ≤ agent ∧ agent < 516 then .next (s.endInFlight (agent - 512))
      else if 516 ≤ agent ∧ agent < 520 then .next (s.failSaves (agent - 516))
      else .next s
/-- STALE_MESSAGE (15 R319, 25 R412): a message of an old incarnation arrives. DEDUCED (log 28). -/
def execStaleMessage (agent incarnation : Nat) (s : State) : Host.Outcome State Fault Refusal :=
  .next (if incarnation = s.incarnationOf agent then s else s.countStale agent incarnation)

/-! ## Errors and scrubs (25 R406, R407) -/

/-- Cycles in one second. -/
def second : Nat := 1000000 * Config.cyclesPerMicro
/-- A corrected error counts; CECOUNT saturates (25 R413). -/
def State.countCe (s : State) : State := s.onBase fun b => { b with ceCount := min (b.ceCount + 1) (2 ^ 64 - 1) }
/-- A corrected error in a core's SRAM is kept for an hour; the sixteenth within one retires the core (25 R409). -/
def State.wearOut (s : State) (g : Nat) : State :=
  match placeOf (8 * g) with
  | .window n _ _ =>
    let s := s.onBase fun b => { b with corrected := (n, b.cycle) :: b.corrected.filter fun x => decide (b.cycle < x.2 + 3600 * second) }
    if 16 ≤ (s.base.corrected.filter fun x => x.1 == n).length ∧ !s.isRetired n then s.retireCore n else s
  | _ => s
/-- A correctable granule is repaired, counted and logged (25 R406); no timestamp changes, no tenure is taken. -/
def State.correct (s : State) (g : Nat) : State :=
  let s := s.onBase fun b => { b with soft := b.soft.filter fun x => x != g }
  ((s.countCe).health 1 noPart noPart 0 (8 * g) 0).wearOut g
/-- Granules that the turn's reads have met are corrected (25 R406). -/
def State.correctMet (s : State) : State :=
  if s.base.met = [] then s else s.base.met.foldl State.correct (s.onBase fun b => { b with met := [] })
/-- A correctable error arises; nothing has met it yet (25 R407). An uncorrectable granule is no less so. -/
def State.soften (s : State) (g : Nat) : State :=
  s.onBase fun b => { b with soft := if b.soft.contains g || b.lost.contains g then b.soft else g :: b.soft }
/-- STORAGE_ERROR: an uncorrectable granule stays until it is rewritten; a corrected one is repaired, counted and logged. -/
def execStorageError (granule : Nat) (uncorrectable : Bool) (s : State) : Host.Outcome State Fault Refusal :=
  if uncorrectable then
    .next (s.onBase fun b => { b with lost := if b.lost.contains granule then b.lost else granule :: b.lost,
                                      soft := b.soft.filter fun x => x != granule })
  else .next (s.correct granule)
/-- A scrub of a granule (25 R407): a correctable one is rewritten at its home; an uncorrectable one stays, counted and
recorded. -/
def State.scrub (s : State) (g : Nat) : State :=
  if s.base.lost.contains g then s.countUe.health 2 noPart noPart 0 (8 * g) 0
  else if s.base.soft.contains g then s.correct g
  else s
/-- SRAM_SCRUB (25 R407). -/
def execSramScrub (granule : Nat) (s : State) : Host.Outcome State Fault Refusal := .next (s.scrub granule)
/-- DDR_PATROL_SCRUB (25 R406). -/
def execDdrPatrolScrub (granule : Nat) (s : State) : Host.Outcome State Fault Refusal := .next (s.scrub granule)

/-! ## Guylines (25 R408) -/

/-- A peer member's data comes over a guyline; which it is, is a free value (log 15). -/
def carries (link w : Nat) : Bool := w % 65536 != 0xFFFF && Config.linkOf w % 24 == link
/-- GUYLINE_DOWN: items in flight end with status 1. -/
def execGuylineDown (link : Nat) (s : State) : Host.Outcome State Fault Refusal :=
  let s := s.onBase fun b => { b with linksDown := b.linksDown ||| BitVec.twoPow 24 link, linkRetry := Table.set 0 b.linkRetry link b.cycle }
  let s := s.mapCmds fun _ c => if c.phase = .queued then c else c.endMembers 1 (carries link)
  .next (s.health 7 noPart noPart link 0 0)
/-- GUYLINE_RETRAIN: once a second, unless the module is in FATAL, where the guylines stay down (24 R404). A retrained guyline
carries only commands issued after: what is left of the others ends with status 1. -/
def execGuylineRetrain (link : Nat) (s : State) : Host.Outcome State Fault Refusal :=
  .next (
    if s.base.linksDown.getLsbD link ∧ s.base.fw ≠ .fatal ∧ Table.get 0 s.base.linkRetry link + second ≤ s.base.cycle then
      ((s.mapCmds fun _ c => c.endMembers 1 (carries link)).onBase fun b => { b with linksDown := b.linksDown &&& ~~~BitVec.twoPow 24 link, linkRetry := Table.set 0 b.linkRetry link 0 }).health
        8 noPart noPart link 0 0
    else s)

/-! ## Heat, coolant and power (25 R413, R416; 01 R20, R21; 24 R398) -/

/-- A die. -/
def Basecamp.die (b : Basecamp) (d : Nat) : Die := Table.get Die.zero b.dies d
/-- Change a die. -/
def State.onDie (s : State) (d : Nat) (f : Die → Die) : State := s.onBase fun b => { b with dies := Table.set Die.zero b.dies d (f (b.die d)) }
/-- A die at a temperature: from 105 °C on its cores are held without issue, until it has fallen to 100 °C (25 R416, 01 R20);
a warning or a hold that begins is recorded. -/
def State.heat (s : State) (d temp : Nat) : State :=
  let warned := (s.base.die d).warn
  let s := s.onDie d fun x => { x with temp := temp, warn := decide (95 ≤ temp) }
  let s := if 95 ≤ temp ∧ !warned then s.health 9 d noPart 0 0 s.base.therm else s
  if 105 ≤ temp ∧ (s.base.die d).heldSince.isNone then
    let s := s.onDie d fun x => { x with heldSince := some s.base.cycle }
    s.health 10 d noPart 0 0 s.base.therm
  else if temp ≤ 100 then s.onDie d fun x => { x with heldSince := none }
  else s
/-- THERMAL_WARNING: 95 °C is reached. -/
def execThermalWarning (die temp : Nat) (s : State) : Host.Outcome State Fault Refusal :=
  let warned := (s.base.die die).warn
  let s := s.heat die temp
  .next (if 95 ≤ temp ∧ warned then s.health 9 die noPart 0 0 s.base.therm else s)
/-- THERMAL_HOLD: 105 °C is reached; the die's cores do not issue. -/
def execThermalHold (die temp : Nat) (s : State) : Host.Outcome State Fault Refusal := .next (s.heat die temp)
/-- THERMAL_RELEASE: a held die falls to 100 °C. -/
def execThermalRelease (die temp : Nat) (s : State) : Host.Outcome State Fault Refusal := .next (s.heat die temp)
/-- COOLANT_OUT_OF_LIMITS: inlet in °C, flow in tenths of a litre per minute, outside the limits for a second. -/
def execCoolantOutOfLimits (inlet flow : Nat) (s : State) : Host.Outcome State Fault Refusal :=
  let s := s.onBase fun b => { b with inlet := inlet, flow := flow }
  .next (if inlet < 15 ∨ 40 < inlet ∨ flow < 15 then s.health 11 noPart noPart 0 0 s.base.therm else s)

/-- A power cap as it is applied (01 R21). DESIGN CHOICE (log 58). -/
def boundCap (v : Nat) : Nat := max 600 (min 1800 v) / 25 * 25
/-- PWRCAP_WRITE (25 R413). -/
def execPwrcapWrite (value : Word) (s : State) : Host.Outcome State Fault Refusal :=
  .next (s.onBase fun b => { b with cap := boundCap (value.toNat % 2 ^ 16), capPending := true })
/-- CAP_APPLIED (01 R21, 25 R414). -/
def execCapApplied (s : State) : Host.Outcome State Fault Refusal :=
  .next (if s.base.capPending then (s.onBase fun b => { b with capPending := false }).health 13 noPart noPart 0 s.base.cap 0 else s)

/-- No slot of a die is bound. -/
def State.dieIdle (s : State) (d : Nat) : Bool :=
  s.disp.slots.all fun (n, x) => !(dieOf n == d && (x.state == .running || x.state == .unmapping || x.state == .binding))
/-- A die has been idle for `n` cycles. -/
def State.idleFor (s : State) (d n : Nat) : Bool := s.dieIdle d && match (s.base.die d).idleSince with | some t => decide (t + n ≤ s.base.cycle) | none => false
/-- DIE_CLOCK_GATE (24 R398): 1 ms without a bound slot. -/
def execDieClockGate (die : Nat) (s : State) : Host.Outcome State Fault Refusal :=
  .next (if s.idleFor die (second / 1000) then s.onDie die fun x => { x with clockGated := true } else s)
/-- DIE_POWER_GATE (24 R398): 100 ms more. -/
def execDiePowerGate (die : Nat) (s : State) : Host.Outcome State Fault Refusal :=
  .next (if (s.base.die die).clockGated ∧ s.idleFor die (second / 1000 + second / 10) then s.onDie die fun x => { x with powerGated := true } else s)
/-- Note since when a die has had no bound slot. -/
def State.noteIdle (s : State) (d : Nat) : State :=
  if s.dieIdle d then
    if (s.base.die d).idleSince.isNone then s.onDie d fun x => { x with idleSince := some s.base.cycle } else s
  else if (s.base.die d).idleSince.isSome then s.onDie d fun x => { x with idleSince := none } else s

end Sys2Proof.Machine
end

