-- ==== Sys2Proof/Machine/Sheepdog.lean ====
section
/-! DEFINITION. Sheepdog: queues, regions, the range matcher, graphs, jobs, budgets, anchoring, placement, management
tasks and the decision pass (23 R370 to R391, R420; 02 R55). Everything it reads and writes in memory goes through the
homes, without a logical time. -/

namespace Sys2Proof.Machine

/-! ## Memory and queues (23 R374, R375, R420) -/

/-- Change Sheepdog's state. -/
def State.onSheep (s : State) (f : Sheepdog → Sheepdog) : State := { s with sheep := f s.sheep }
/-- Read `n` 8-byte words as one number. -/
def State.outsideNat (s : State) (pa : Nat) : Nat → Nat × State
  | 0 => (0, s)
  | n + 1 =>
    let (v, s) := s.outsideRead pa 8
    let (r, s) := State.outsideNat s (pa + 8) n
    (v + 2 ^ 64 * r, s)
/-- `n` bytes are populated, each of them. -/
def State.populated (s : State) (pa n : Nat) : Bool := s.spanReaches pa n false
/-- `n` bytes can be read. -/
def State.readable (s : State) (pa n : Nat) : Bool := s.populated pa n && !s.lostAt pa n

/-- Lost data that Sheepdog has met there counts (25 R413). -/
def State.noteLost (s : State) (pa n : Nat) : State := if s.populated pa n && s.lostAt pa n then s.countUe else s
/-- A capability that Sheepdog derives: `k` is 0 for a ring, 1 for a status block, 2 for record pointers, 3 for a context region, 4 for a job
record, 5 for a graph descriptor (24 R392). -/
def deriveCap (k : Nat) (base : Word) (length : Nat) : Capability :=
  { base := base, length := length, perms := Config.capPerms k, otype := Config.capType k, tag := true }
/-- `n` bytes lie within a capability. -/
def Capability.covers (c : Capability) (a n : Nat) : Bool := c.tag && decide (c.base.toNat ≤ a ∧ a + n ≤ c.base.toNat + c.length)
/-- A capability to `n` bytes within another's: one that would reach beyond it is not valid. -/
def Capability.narrow (c : Capability) (k : Nat) (base : Word) (n : Nat) : Capability :=
  { deriveCap k base n with tag := c.covers base.toNat n }

/-- Records of a queue's ring. -/
def Queue.size (q : Queue) : Nat := 2 ^ q.logSize
/-- The queue of a number. -/
def State.queueOf (s : State) (gq : Nat) : Option Queue := s.sheep.queues.find? fun q => q.gq == gq
/-- STATE codes. -/
def QState.code : QState → Nat
  | .active => 0 | .error => 1 | .resetting => 2 | .reset => 3
/-- Replace a queue, and write its status block, reserved bytes and all (23 R375). -/
def State.putQueue (s : State) (q : Queue) : State :=
  let s := s.onSheep fun d => { d with queues := d.queues.map fun x => if x.gq = q.gq then q else x }
  s.outsideWords q.statusAddr 8
    (q.head + q.done * 2 ^ 32 + q.state.code * 2 ^ 64 + q.errCode * 2 ^ 72 + q.errIdx * 2 ^ 96 + q.errAddr.toNat * 2 ^ 128)
/-- ERRCODE values. -/
def errCap : Nat := 1
def errOverrun : Nat := 2
def errComp : Nat := 3
def errDomain : Nat := 4
def errRec : Nat := 5
/-- An active queue enters ERROR. -/
def State.queueError (s : State) (gq code idx : Nat) (addr : Word) : State :=
  match s.queueOf gq with
  | some q => if q.state = .active then s.putQueue { q with state := .error, errCode := code, errIdx := idx, errAddr := addr } else s
  | none => s
/-- An index plus a count, modulo 2^32. -/
def index32 (n : Nat) : Nat := n % 2 ^ 32
/-- The distance from one index to another, modulo 2^32. -/
def distance32 (a b : Nat) : Nat := (2 ^ 32 + b % 2 ^ 32 - a % 2 ^ 32) % 2 ^ 32
/-- A doorbell delivers TAIL to a queue that takes it (23 R374). R375 calls ERRIDX the index at fault: that of an OVERRUN is the TAIL
delivered. DESIGN CHOICE (log 71). -/
def State.deliverTail (s : State) (q : Queue) (tail : Nat) : State :=
  if q.state ≠ .active ∨ tail = q.tail then s
  else if q.size < distance32 q.done tail ∨ 2 ^ 31 ≤ distance32 q.tail tail then s.queueError q.gq errOverrun tail 0
  else s.onSheep fun d =>
    { d with queues := d.queues.map fun x => if x.gq = q.gq then { q with tail := tail } else x, doorbells := d.doorbells ++ [q.gq] }

/-- A leaf of a queue's address space with user permission, found by the management core's own walk (23 R374, R420); A is set, and D on a
write (22 R353). -/
def State.queueLeaf (s : State) (q : Queue) (va : Word) (write : Bool) : Option Nat × State :=
  let walk := fun (s : State) =>
    let (w, t) := { s with agent := some s.outsider }.walkFrom va 5 (q.rootPpn * 4096)
    (w, { t with agent := s.agent })
  if !canonical va then (none, s)
  else match walk s with
  | (.bad e, s) => (none, if e = .lost then s.countUe else s)
  | (.leaf a pte lvl, s) =>
    if !permits (BitVec.ofNat 8 pte) (if write then .store else .load) plainUser then (none, s)
    else
      let f := leafFlags pte write
      let s := if f = BitVec.ofNat 8 pte then s else s.outsideWrite a 8 (pte / 256 * 256 + f.toNat)
      let e := leafEntry q.asid va.toNat pte lvl f
      (some (e.pa + (va.toNat - e.va)), s)
/-- Read `n` 4-byte words by virtual address as one number, or the address that failed. -/
def State.queueRead (s : State) (q : Queue) (va : Word) : Nat → Except Word Nat × State
  | 0 => (.ok 0, s)
  | n + 1 =>
    match s.queueLeaf q va false with
    | (none, s) => (.error va, s)
    | (some pa, s) =>
      if !s.readable pa 4 then (.error va, s.noteLost pa 4)
      else
        let (v, s) := s.outsideRead pa 4
        match State.queueRead s q (va + 4) n with
        | (.error e, s) => (.error e, s)
        | (.ok r, s) => (.ok (v + 2 ^ 32 * r), s)

/-! ## Regions (23 R376 to R378) -/

/-- A region control block as last read. -/
def State.regionOf (s : State) (i : Nat) : Option Region := Table.get none s.sheep.regions i
/-- Replace a region. -/
def State.setRegion (s : State) (i : Nat) (r : Region) : State :=
  s.onSheep fun d => { d with regions := Table.set none d.regions i (some r) }
/-- A region and its ancestors, at most 8 levels. -/
def State.pathFrom (s : State) : Nat → Nat → List (Nat × Region)
  | 0, _ => []
  | n + 1, i =>
    match s.regionOf i with
    | none => []
    | some r => (i, r) :: (if r.parent = 0xFFFF then [] else State.pathFrom s n r.parent)
/-- The path of a region to its root. -/
def State.path (s : State) (i : Nat) : List (Nat × Region) := s.pathFrom 8 i
/-- The root of a region. -/
def State.rootOf (s : State) (i : Nat) : Nat := match (s.path i).getLast? with | some (r, _) => r | none => i
/-- A region lies in the subtree of another. -/
def State.inSubtree (s : State) (i top : Nat) : Bool := (s.path i).any fun x => x.1 == top
/-- The nearest ancestor that does not inherit a field. -/
def State.setter (s : State) (i : Nat) (get : Region → Nat) (inherit : Nat) : Option (Nat × Region) :=
  (s.path i).find? fun x => get x.2 != inherit
/-- Effective class, PERIOD and MAXCORES. DEDUCED (log 52). -/
def State.classOf (s : State) (i : Nat) : Nat := match s.setter i Region.cls 0xFF with | some (_, r) => r.cls | none => 2
def State.periodOf (s : State) (i : Nat) : Nat := match s.setter i Region.period 0 with | some (_, r) => r.period | none => 1000000
def State.maxCoresOf (s : State) (i : Nat) : Nat :=
  (s.path i).foldl (fun m x => if x.2.maxCores = 0 then m else min m x.2.maxCores) 192
/-- A region control block of 128 bytes; what Sheepdog itself keeps stays. -/
def Region.parse (x addr : Nat) (old : Option Region) : Region :=
  -- a region that becomes a root has the first doorbell of its root now (23 R378)
  let runs := if fieldAt x 0 16 = 0xFFFF then old.filter fun r => r.parent == 0xFFFF else old
  { parent := fieldAt x 0 16, level := fieldAt x 2 8, cls := fieldAt x 3 8, fdomain := fieldAt x 4 8, budget := fieldAt x 8 64,
    period := fieldAt x 0x10 32, maxCores := fieldAt x 0x14 16, cores := BitVec.ofNat 192 (fieldAt x 0x20 192),
    res := [0, 1, 2, 3].map fun c => fieldAt x (0x38 + 2 * c) 16, age := [0, 1, 2, 3].map fun c => fieldAt x (0x40 + 4 * c) 32,
    window := [0, 1, 2, 3].map fun c => fieldAt x (0x50 + 4 * c) 32, channels := fieldAt x 0x60 64, addr := addr,
    used := match old with | some r => r.used | none => 0, phase := runs.bind Region.phase, started := runs.bind Region.started, blocked := old.any Region.blocked }
/-- Cycles of a number of microseconds. -/
def micros (n : Nat) : Nat := n * Config.cyclesPerMicro
/-- Write USED in core-microseconds. -/
def State.writeUsed (s : State) (r : Region) : State := s.outsideWrite (r.addr + 0x18) 8 (r.used / Config.cyclesPerMicro % 2 ^ 64)

/-- Every bound core-cycle is charged to its job's region and every ancestor (23 R378). -/
def State.charge (s : State) (n : Nat) : State :=
  s.disp.slots.foldl (fun s (_, x) =>
    match x.state, x.bind with
    | .running, some b => (s.path b.region).foldl (fun s (i, r) => s.setRegion i { r with used := r.used + n }) s
    | .unmapping, some b => (s.path b.region).foldl (fun s (i, r) => s.setRegion i { r with used := r.used + n }) s
    | _, _ => s) s
/-- PERIOD_START (23 R378). -/
def execPeriodStart (root : Nat) (s : State) : Host.Outcome State Fault Refusal :=
  match s.regionOf root with
  | none => .next s
  | some r =>
    match r.started with
    | none => .next s
    | some t =>
      let p := micros (s.periodOf root)
      let r := { r with used := 0, blocked := false, started := some (t + p) }
      .next (if t + p ≤ s.base.cycle then (s.setRegion root r).writeUsed r else s)

/-! ## Partitions (23 R384) -/

/-- A slot that belongs to a gang. -/
def Slot.isBound (x : Slot) : Bool := x.state == .binding || x.state == .running || x.state == .unmapping
/-- A slot is still another partition's: its unmap has not ended (25 R415). -/
def State.stillElsewhere (s : State) (root : Nat) (x : Slot) : Bool :=
  x.isBound && match x.bind with | some b => s.rootOf b.region != root | none => false
/-- The enabled cores of a partition. -/
def State.partition (s : State) (root : Nat) : List Nat :=
  match s.regionOf root with
  | some r => (List.range Config.cores).filter fun n => r.cores.getLsbD n && (s.slot n).state != .offline && !s.stillElsewhere root (s.slot n)
  | none => []
/-- Its free slots; how many of those being unmapped are held for a class (23 R384), or will be free for it; how many of a class are
bound. -/
def State.freeSlots (s : State) (root : Nat) : List Nat := (s.partition root).filter fun n => (s.slot n).state == .free
def State.heldIn (s : State) (root cls : Nat) : Nat :=
  ((s.partition root).filter fun n => (s.slot n).state == .unmapping && (s.slot n).heldFor == some cls).length
def State.comingIn (s : State) (root cls : Nat) : Nat :=
  ((s.partition root).filter fun n => (s.slot n).state == .unmapping && ((s.slot n).heldFor.all fun c => c == cls)).length
def State.classSlots (s : State) (root cls : Nat) (unmapping : Bool) : Nat :=
  ((s.partition root).filter fun n =>
    let x := s.slot n
    x.isBound && (unmapping || x.state != .unmapping) && (match x.bind with | some b => b.cls == cls | none => false)).length
/-- Effective reservations: E[c] = min(RES[c], P − the sum of those before). -/
def reservations : List Nat → Nat → List Nat
  | [], _ => []
  | r :: rs, p => min r p :: reservations rs (p - min r p)
/-- E[c] of a partition. -/
def State.reserved' (s : State) (root cls : Nat) : Nat :=
  match s.regionOf root with
  | some r => (reservations r.res (s.partition root).length).getD cls 0
  | none => 0
/-- Slots bound in a region's subtree. -/
def State.subtreeSlots (s : State) (i : Nat) : Nat :=
  (s.disp.slots.filter fun (_, x) => x.isBound && (match x.bind with | some b => s.inSubtree b.region i | none => false)).length

/-! ## Job records (23 R370 to R373) -/

/-- The span of a range word; nothing for an empty one, or for a length that 23 R371 does not give. -/
def rangeSpan (w : Word) : Option (Nat × Nat) :=
  let l := (w.extractLsb' 0 6).toNat
  if l = 0 ∨ 40 < l then none
  else some ((((w.extractLsb' 6 51) ++ (0 : BitVec 6) : BitVec 57).signExtend 64).toNat, 64 * 2 ^ (l - 1))
/-- A job record. -/
def JobRec.parse (x : Nat) : JobRec :=
  let f := fieldAt x 0x1F 8
  { entry := recWord x 0, arg := recWord x 8, compAddr := recWord x 0x10, compVal := BitVec.ofNat 32 (fieldAt x 0x18 32),
    grant := fieldAt x 0x1C 16, gang := fieldAt x 0x1E 8, early := f.testBit 0, restartable := f.testBit 1, bypass := f.testBit 2,
    graph := f.testBit 3, region := fieldAt x 0x20 16, liveb := fieldAt x 0x22 16, lives := fieldAt x 0x24 32,
    reads := [0, 1, 2, 3].map fun k => recWord x (0x40 + 8 * k), writes := [0, 1, 2, 3].map fun k => recWord x (0x60 + 8 * k) }
/-- Statuses of 23 R373. -/
def stDone : Nat := 1
def stFailed : Nat := 2
def stDataLost : Nat := 3
def stShrunk : Nat := 4
def stCancelled : Nat := 5
def stBadRec : Nat := 6
def stDepFail : Nat := 7
def stTooBig : Nat := 8

/-- How a record passes the checks of 23 R372. -/
inductive Verdict where
  | ok
  | cap (addr : Word)
  | status (code : Nat)
deriving DecidableEq, Repr

/-- `n` bytes lie within a queue's capability bounds (24 R393). -/
def Queue.inCap (q : Queue) (a n : Nat) : Bool := q.recordCap.covers a n
/-- The first field of a record outside the bounds; `entryLen` is what ENTRY names. -/
def Queue.capFault (q : Queue) (r : JobRec) (entryLen : Nat) : Option Word :=
  if !q.inCap r.entry.toNat entryLen then some r.entry
  else if !q.inCap r.arg.toNat 1 then some r.arg
  else if r.compAddr ≠ 0 ∧ !q.inCap r.compAddr.toNat 4 then some r.compAddr
  else (r.reads ++ r.writes).find? fun w =>
    match rangeSpan w with
    | some (a, n) => !q.inCap a n
    | none => false
/-- Check 2: fields that are zero, and ranges. -/
def State.fieldsOk (s : State) (q : Queue) (x : Nat) (r : JobRec) : Bool :=
  fieldAt x 0x28 64 == 0 && fieldAt x 0x38 64 == 0 && fieldAt x 0x1F 8 / 16 == 0 && decide (1 ≤ r.grant ∧ r.grant ≤ 8192) &&
    decide (1 ≤ r.gang ∧ r.gang ≤ 192) && s.inSubtree r.region q.root && r.lives % 64 == 0 && decide (r.lives ≤ 0x20_0000) &&
    decide (r.liveb ≤ 8192) && ((r.reads ++ r.writes).all fun w => w.extractLsb' 57 7 == 0 && decide ((w.extractLsb' 0 6).toNat ≤ 40)) &&
    r.entry.toNat % 4 == 0 && r.compAddr.toNat % 4 == 0
/-- The checks of 23 R372, in order. -/
def State.checkRec (s : State) (q : Queue) (x : Nat) (r : JobRec) (entryLen : Nat) : Verdict :=
  match q.capFault r entryLen with
  | some a => .cap a
  | none =>
    if !s.fieldsOk q x r ∨ q.ctxStride < Config.saveFixed + r.lives + 3072 * r.liveb then .status stBadRec
    else if (s.partition (s.rootOf r.region)).length < r.gang ∨ s.maxCoresOf r.region < r.gang then .status stTooBig
    else .ok

/-! ## Jobs (02 R55, 23 R374, R379) -/

/-- A job that has not retired. -/
def Job.live (j : Job) : Bool := j.state != .retired
/-- Replace a job. -/
def State.setJob (s : State) (j : Job) : State := s.onSheep fun d => { d with jobs := d.jobs.map fun x => if x.uid = j.uid then j else x }
/-- The job of a number; the job of a gang. -/
def State.job (s : State) (uid : Nat) : Option Job := s.sheep.jobs.find? fun j => j.uid == uid
def State.jobOfGang (s : State) (g : Nat) : Option Job := s.sheep.jobs.find? fun j => j.live && j.gang == g && g != 0
/-- Two spans share a byte. -/
def spansMeet (a b : Word) : Bool :=
  match rangeSpan a, rangeSpan b with
  | some x, some y => rangesMeet x y
  | _, _ => false
/-- Some range of one list meets some range of another. -/
def listsMeet (a b : List Word) : Bool := a.any fun x => b.any fun y => spansMeet x y
/-- True, anti or write-after-write dependence of a new record on an earlier one (23 R379). -/
def JobRec.dependsOn (r e : JobRec) : Bool := listsMeet r.reads e.writes || listsMeet r.writes e.reads || listsMeet r.writes e.writes
/-- Matcher entries that a record needs. -/
def JobRec.ranges (r : JobRec) : Nat := ((r.reads ++ r.writes).filter fun w => (rangeSpan w).isSome).length
/-- Entries in use. -/
def Sheepdog.matcherUsed (d : Sheepdog) : Nat := (d.jobs.map fun j => if j.live && j.holds then j.jr.ranges else 0).sum
/-- The jobs of a region that a new one is compared with. -/
def Sheepdog.earlier (d : Sheepdog) (region : Nat) : List Job := d.jobs.filter fun j => j.live && !j.jr.graph && j.jr.region == region
/-- Add a job: matched, then WAITING or READY. A graph's replay record itself is not matched. -/
def State.addJob (s : State) (q : Queue) (index : Nat) (record : Capability) (node parent : Option Nat) (r : JobRec) : State :=
  let d := s.sheep
  let fits := decide (d.matcherUsed + r.ranges ≤ Config.matcherEntries)
  let near := if r.graph then [] else d.earlier r.region
  let on := if fits then near.filter fun e => r.dependsOn e.jr else near
  let deps := (if fits then on.filter fun e => !(e.everTriggered && e.jr.early) else on).map Job.uid
  let j : Job :=
    { uid := d.nextUid, queue := q.gq, index := index, node := node, parent := parent, jr := r, record := record,
      state := if deps = [] then .ready else .waiting, deps := deps, needs := on.map Job.uid, fullDep := !fits, holds := fits && !r.graph, status := 0, exits := [],
      trigs := [], gang := 0, commit := 0, members := [], saved := [], since := s.base.cycle, started := false, everTriggered := false, outgrown := false }
  s.onSheep fun d => { d with jobs := d.jobs ++ [j], nextUid := d.nextUid + 1 }

/-- EXIT: the status of the lowest gang index that exited with a nonzero one (23 R373). -/
def Job.exit (j : Job) : Nat :=
  match (List.range 192).findSome? fun ix => (j.exits.find? fun e => e.1 == ix && e.2 != 0).map (·.2) with
  | some v => v.toNat
  | none => 0
/-- Write `n` bytes at a virtual address of a queue's address space: whether they could be written (23 R374). -/
def State.queueWrite (s : State) (q : Queue) (a : Word) (n v : Nat) : Bool × State :=
  match s.queueLeaf q a true with
  | (some pa, s) => if s.reaches pa true then (true, s.outsideWrite pa n v) else (false, s)
  | (none, s) => (false, s)
/-- Write `n` bytes, each by itself. -/
def State.queueWriteBytes (s : State) (q : Queue) (a : Word) : Nat → Nat → Bool × State
  | 0, _ => (true, s)
  | n + 1, v =>
    match s.queueWrite q a 1 (v % 256) with
    | (true, s) => State.queueWriteBytes s q (a + 1) n (v / 256)
    | (false, s) => (false, s)
/-- Write RESULT, then the completion word; one that cannot be written is a COMPFAULT (23 R374). -/
def State.complete (s : State) (j : Job) (status : Nat) : State :=
  match s.queueOf j.queue with
  | none => s
  | some q =>
    let s := if j.node.isNone then s.outsideWrite (j.record.base.toNat + 0x30) 8 (status + j.exit * 2 ^ 32) else s
    if j.jr.compAddr = 0 then s
    else
      let a := j.jr.compAddr
      match if a.toNat % 4 = 0 then s.queueWrite q a 4 j.jr.compVal.toNat else s.queueWriteBytes q a 4 j.jr.compVal.toNat with
      | (true, s) => s
      | (false, s) => s.queueError q.gq errComp j.index a
/-- DONE over the contiguous prefix of retired indices. -/
def doneAfter (jobs : List Job) (gq : Nat) : Nat → Nat → Nat
  | 0, d => d
  | n + 1, d =>
    if jobs.any fun j => j.queue == gq && j.node.isNone && j.index == d && !j.live then doneAfter jobs gq n (index32 (d + 1)) else d
/-- Advance DONE; retired jobs that it has passed are forgotten. -/
def State.advanceDone (s : State) (gq : Nat) : State :=
  match s.queueOf gq with
  | none => s
  | some q =>
    let d := doneAfter s.sheep.jobs gq s.sheep.jobs.length q.done
    if d = q.done then s
    else
      let passed := fun (j : Job) => j.queue == gq && !j.live && decide (distance32 q.done j.index < distance32 q.done d)
      (s.onSheep fun x => { x with jobs := x.jobs.filter fun j => !passed j }).putQueue { q with done := d }
/-- The barrier state that dispatch holds of exited members goes with the job's run (23 R383). -/
def State.forgetHeld (s : State) (gang : Nat) : State :=
  { s with disp := { s.disp with held := s.disp.held.filter fun h => h.gang != gang || gang == 0 } }
/-- The context of a job's records: CTXBASE + CTXSTRIDE × (index mod SIZE) (23 R382). DEDUCED (log 63). -/
def Queue.context (q : Queue) (index : Nat) : Nat := q.ctxBase + q.ctxStride * (index % q.size)
/-- A job retires with a status: RESULT, completion, its barriers, anchors and what dispatch holds of its saves, DONE. -/
def State.retireOne (s : State) (j : Job) (status : Nat) : State :=
  let s := s.complete j status
  let s := s.setJob { j with state := .retired, status := status, holds := false, members := [] }
  let s := match s.queueOf j.queue with | some q => s.park (q.context j.index) none | none => s
  ((s.forgetHeld j.gang).onSheep fun d => { d with anchors := d.anchors.filter fun a => a.job != j.uid }).advanceDone j.queue
/-- A dependence of a job is met. -/
def Job.meet (j : Job) (uid : Nat) (now : Nat) : Job :=
  if j.deps.contains uid then
    let deps := j.deps.filter fun u => u != uid
    if deps = [] ∧ j.state = .waiting then { j with deps := deps, state := .ready, since := now } else { j with deps := deps }
  else j
/-- A job that has not been committed ends with DEPFAIL when a job that it depends on ends badly, a dependence that EARLY
has met included (23 R379). -/
def Job.fallsWith (j : Job) (uid : Nat) : Bool := j.live && !j.started && j.needs.contains uid
/-- What follows a retirement: dependants go on or end with DEPFAIL; a replay retires after its last node (23 R381). -/
def State.afterRetire (s : State) (j : Job) (status : Nat) : List (Nat × Nat) × State :=
  let next := match j.parent with
    | some p =>
      let nodes := s.sheep.jobs.filter fun x => x.parent == some p
      if nodes.all fun x => !x.live then [(p, match nodes.find? fun x => x.status != stDone with | some x => x.status | none => stDone)] else []
    | none => []
  if status = stDone then
    (next, s.onSheep fun d => { d with jobs := d.jobs.map fun x => x.meet j.uid s.base.cycle })
  else
    (next ++ ((s.sheep.jobs.filter fun x => x.fallsWith j.uid).map fun x => (x.uid, stDepFail)), s)
/-- Retire the jobs of a work list, and what follows from them. -/
def State.retireList (s : State) : Nat → List (Nat × Nat) → State
  | 0, _ => s
  | _, [] => s
  | n + 1, (uid, status) :: l =>
    match s.job uid with
    | none => State.retireList s n l
    | some j =>
      if !j.live then State.retireList s n l
      else
        let (more, s') := (s.retireOne j status).afterRetire j status
        State.retireList s' n (l ++ more)
/-- Retire a job. -/
def State.retireJob (s : State) (uid status : Nat) : State :=
  s.retireList (s.sheep.jobs.length * (s.sheep.jobs.length + 1) + 1) [(uid, status)]

/-- The further effect of a failure under the region's FDOMAIN (23 R387). ERRIDX, the index at fault (R375), is the failed job's, also in
another queue. DESIGN CHOICE (log 71). -/
def State.failDomain (s : State) (j : Job) : State :=
  match s.setter j.jr.region Region.fdomain 0 with
  | some (i, r) =>
    if r.fdomain = 2 then s.queueError j.queue errDomain j.index 0
    else if r.fdomain = 3 then
      s.sheep.queues.foldl (fun s q => if s.inSubtree q.root i then s.queueError q.gq errDomain j.index 0 else s) s
    else s
  | none => s
/-- An unrecovered fault, or lost data: the job runs again from its entry, or ends (23 R380, R387). One that a resize has left
without room ends as a job that waits does (R391). -/
def State.failJob (s : State) (j : Job) (status : Nat) : State :=
  if j.jr.restartable ∧ !(j.jr.early ∧ j.everTriggered) then
    let s := (s.forgetHeld j.gang).setJob
      { j with state := .ready, exits := [], trigs := [], gang := 0, members := [], saved := [], since := s.base.cycle, everTriggered := false }
    if j.outgrown then s.retireJob j.uid stTooBig else s
  else ((s.setJob j).retireJob j.uid (if j.jr.restartable then stFailed else status)).failDomain j

/-! ## Acceptance (23 R372, R374, R381, R386) -/

/-- Bytes of snapshot storage in use. -/
def Sheepdog.snapshotUsed (d : Sheepdog) : Nat :=
  (d.jobs.map fun j => if j.live && j.jr.graph then 64 + 128 * (d.jobs.filter fun x => x.parent == some j.uid).length else 0).sum
/-- HEAD passes a record. -/
def State.passHead (s : State) (gq : Nat) : State :=
  match s.queueOf gq with
  | some q => s.putQueue { q with head := index32 (q.head + 1) }
  | none => s
/-- Add a job and retire it at once where its record ends with a status. -/
def State.enrol (s : State) (q : Queue) (index : Nat) (record : Capability) (node parent : Option Nat) (r : JobRec) (v : Verdict) : State :=
  let uid := s.sheep.nextUid
  let s := s.addJob q index record node parent r
  match v with
  | .status c => s.retireJob uid c
  | _ => s
/-- The node records of a descriptor, with their verdicts (a node with GRAPH set is a BADREC after the capability check); the first capability fault among them. -/
def State.checkNodes (s : State) (q : Queue) (x : Nat) (region : Nat) : Nat → Nat → List (JobRec × Verdict)
  | 0, _ => []
  | n + 1, k =>
    let y := x / 2 ^ (8 * (64 + 128 * k)) % 2 ^ 1024
    let r := { JobRec.parse y with region := region }
    let v := s.checkRec q y r 4
    (r, match v with | .cap a => .cap a | v => if r.graph then .status stBadRec else v) :: State.checkNodes s q x region n (k + 1)
/-- Accept a record that names a graph; `none` when it waits for snapshot space, or the queue has entered ERROR. -/
def State.acceptGraph (s : State) (q : Queue) (index : Nat) (record : Capability) (x : Nat) (r : JobRec) : Option State :=
  let err := fun (s : State) (code : Nat) (a : Word) => some (s.queueError q.gq code index a)
  let header := q.recordCap.narrow 5 r.entry 64
  if !header.tag then err s errCap r.entry
  else match s.queueRead q r.entry 16 with
  | (.error a, s) => err s errRec a
  | (.ok h, s) =>
    let n := h % 2 ^ 16
    match s.checkRec q x r (64 + 128 * n) with
    | .cap a => err s errCap a
    | .status c => some ((s.enrol q index record none none r (.status c)).passHead q.gq)
    | .ok =>
      if h / 2 ^ 16 ≠ 0 ∨ n = 0 ∨ 256 < n then some ((s.enrol q index record none none r (.status stBadRec)).passHead q.gq)
      else match s.queueRead q r.entry (16 + 32 * n) with
      | (.error a, s) => err s errRec a
      | (.ok d, s) =>
        let nodes := s.checkNodes q d r.region n 0
        match nodes.findSome? fun x => match x.2 with | .cap a => some a | _ => none with
        | some a => err s errCap a
        | none =>
          if Config.snapshotBytes < s.sheep.snapshotUsed + 64 + 128 * n then none
          else
            let p := s.sheep.nextUid
            let s := s.enrol q index record none none r .ok
            let s := (nodes.zipIdx.foldl (fun s (x, k) => s.addJob q index { record with tag := false } (some k) (some p) x.1) s)
            -- nodes that end at acceptance retire once all are matched
            let s := nodes.zipIdx.foldl (fun s (x, k) => match x.2 with | .status c => s.retireJob (p + 1 + k) c | _ => s) s
            some (s.passHead q.gq)
/-- Accept the record at HEAD; `none` when it is not accepted yet. -/
def State.acceptOne (s : State) (q : Queue) : Option State :=
  let recAddr := q.ring + 128 * (q.head % q.size)
  let record := q.ringCap.narrow 4 (BitVec.ofNat 64 recAddr) 128
  if !s.readable recAddr 128 then some ((s.noteLost recAddr 128).queueError q.gq errRec q.head (BitVec.ofNat 64 recAddr))
  else
    let (x, s) := s.outsideNat recAddr 16
    let r := JobRec.parse x
    if r.graph then s.acceptGraph q q.head record x r
    else match s.checkRec q x r 4 with
    | .cap a => some (s.queueError q.gq errCap q.head a)
    | v => some ((s.enrol q q.head record none none r v).passHead q.gq)
/-- Accept records while HEAD ≠ TAIL. -/
def State.acceptLoop (s : State) (gq : Nat) : Nat → State
  | 0 => s
  | n + 1 =>
    match s.queueOf gq with
    | none => s
    | some q =>
      if q.state ≠ .active ∨ q.head = q.tail then s
      else match s.acceptOne q with
      | some s => State.acceptLoop s gq n
      | none => s
/-- Accept what a queue holds. -/
def State.acceptQueue (s : State) (gq : Nat) : State :=
  match s.queueOf gq with
  | some q => s.acceptLoop gq (distance32 q.head q.tail)
  | none => s

/-! ## Reports (23 R386) -/

/-- A gang is unmapped without a save. DEDUCED (log 51). -/
def State.dropGang (s : State) (g : Nat) : State := if g = 0 then s else s.dropCores (s.gangCores g true)
/-- Every core of a job has triggered or exited. -/
def Job.allTriggered (j : Job) : Bool := (List.range j.jr.gang).all fun ix => j.trigs.contains ix || j.exits.any fun e => e.1 == ix
/-- A running job whose cores have all triggered is TRIGGERED; EARLY meets what depends on its ranges (23 R379). -/
def State.noteTriggered (s : State) (j : Job) : State :=
  if !j.allTriggered ∨ j.everTriggered then s.setJob j
  else
    let s := s.setJob { j with state := if j.state = .running then .triggered else j.state, everTriggered := true }
    if j.jr.early then
      s.onSheep fun d => { d with jobs := d.jobs.map fun x => if x.fullDep then x else x.meet j.uid s.base.cycle }
    else s
/-- A job does not fit its partition any more (23 R391). -/
def State.tooBigNow (s : State) (j : Job) : Bool :=
  decide ((s.partition (s.rootOf j.jr.region)).length < j.jr.gang ∨ s.maxCoresOf j.jr.region < j.jr.gang)
/-- A job that is not running ends when the last resize has left it no room (23 R391). -/
def State.shrink (s : State) (j : Job) : State :=
  if (j.state = .preempted ∨ j.state = .ready ∨ j.state = .waiting) ∧ !j.jr.graph ∧ j.outgrown then
    s.retireJob j.uid (if j.state = .preempted then stShrunk else stTooBig)
  else s
/-- The last bound member of a job has been saved, or has exited beside saved ones: the job is PREEMPTED. -/
def State.settleJob (s : State) (j : Job) : State :=
  let j := if j.members = [] ∧ j.saved ≠ [] then { j with state := .preempted, since := s.base.cycle } else j
  (s.setJob j).shrink j
/-- The job of a gang that a report speaks of; the jobs of a queue that is being reset move no more (24 R399). -/
def State.reported (s : State) (g : Nat) : Option Job :=
  (s.jobOfGang g).filter fun j => (s.queueOf j.queue).all fun q => q.state != .resetting && q.state != .reset
/-- One report: the job moves by 02 R55. -/
def State.takeReport (s : State) (r : Report) : State :=
  match r with
  | .exited _ g ix status sup =>
    match s.reported g with
    | none => s
    | some j =>
      if sup ∧ (status = 0xFF00_0001 ∨ status = 0xFF00_0002) then
        (s.dropGang g).failJob { j with exits := j.exits ++ [(ix, status)] } (if status = 0xFF00_0002 then stDataLost else stFailed)
      else
        let j := { j with exits := j.exits ++ [(ix, status)], members := j.members.filter fun m => m.1 != ix }
        let s := s.noteTriggered j
        if j.jr.gang ≤ j.exits.length then s.retireJob j.uid stDone
        else if j.members = [] ∧ j.saved ≠ [] then (match s.job j.uid with | some j => s.settleJob j | none => s)
        else s
  | .triggered g ix =>
    match s.reported g with
    | some j => s.noteTriggered { j with trigs := if j.trigs.contains ix then j.trigs else ix :: j.trigs }
    | none => s
  | .saved _ g ix _ =>
    match s.reported g with
    | none => s
    | some j =>
      s.settleJob { j with saved := ix :: j.saved, members := j.members.filter fun m => m.1 != ix }
  | .failed g status =>
    match s.reported g with
    | some j => (s.dropGang g).failJob j status
    | none => s
  | .lostCore g =>
    match s.reported g with
    | some j => s.failJob j stFailed
    | none => s

/-! ## Forced unmap and budgets (23 R378, R384) -/

/-- A gang whose slots are still in BINDING is cleared: its job waits to be committed again (23 R383, R390). -/
def State.unbindGang (s : State) (g : Nat) : State :=
  let bs := s.disp.slots.filterMap fun (n, x) => match x.bind with
    | some b => if x.state = .binding ∧ b.gangId = g then some (n, b) else none
    | none => none
  if bs = [] then s
  else
    let s := bs.foldl (fun s x => s.setSlot x.1 Slot.free) s
    let kept := (bs.filter fun x => x.2.restore).map fun x => x.2.gangIx
    match s.jobOfGang g with
    | some j => s.setJob { j with state := if kept = [] then .ready else .preempted, members := [], saved := kept, since := s.base.cycle }
    | none => s
/-- Every running slot of a gang is unmapped; those that come free are held for a class that reclaims them (23 R384). -/
def State.unmapFor (s : State) (g : Nat) (cls : Option Nat) : State :=
  (s.disp.slots.foldl (fun s (n, x) =>
    if x.state = .running ∧ x.gang = g then let s := s.unmap n; s.setSlot n { s.slot n with heldFor := cls } else s) s).unbindGang g
/-- A gang is unmapped whole. -/
def State.unmapGang (s : State) (g : Nat) : State := s.unmapFor g none
/-- Put a gang before those that were committed earlier. -/
def putByCommit (x : Nat × Nat × Nat × Nat) : List (Nat × Nat × Nat × Nat) → List (Nat × Nat × Nat × Nat)
  | [] => [x]
  | y :: l => if y.1 ≤ x.1 then x :: y :: l else y :: putByCommit x l
/-- Gangs in falling order of their commits. -/
def newestFirst : List (Nat × Nat × Nat × Nat) → List (Nat × Nat × Nat × Nat)
  | [] => []
  | x :: l => putByCommit x (newestFirst l)
/-- Gangs of a partition that run or are committed to run, the most recently committed first: gang, class, slots. -/
def State.runningGangs (s : State) (root : Nat) : List (Nat × Nat × Nat) :=
  let js := s.sheep.jobs.filter fun j => (j.state == .running || j.state == .triggered) && s.rootOf j.jr.region == root
  let gs := js.map fun j => (j.commit, j.gang, s.classOf j.jr.region, (s.disp.slots.filter fun (_, x) => (x.state == .running || x.state == .binding) && x.gang == j.gang).length)
  (newestFirst (gs.filter fun x => x.2.2.2 != 0)).map fun x => x.2
/-- A region whose USED has reached BUDGET is blocked until its next period, and its gangs are unmapped. -/
def State.enforce (s : State) (i : Nat) (r : Region) : State :=
  let s := if r.used = 0 then s else s.writeUsed r
  if r.budget = 0 ∨ r.budget = 2 ^ 64 - 1 ∨ r.used < micros r.budget then s
  else
    let s := s.setRegion i { r with blocked := true }
    let gs := s.disp.slots.filterMap fun (_, x) => match x.bind with
      | some b => if x.isBound ∧ s.inSubtree b.region i then some b.gangId else none
      | none => none
    gs.eraseDups.foldl (fun s g => s.unmapGang g) s
/-- Enforce every budget. -/
def State.enforceBudgets (s : State) : State :=
  s.sheep.regions.foldl (fun s (i, r) => match r with | some r => s.enforce i r | none => s) s

/-! ## Candidates and placement (23 R384 to R386) -/

/-- The candidate of a queue: behind a job that waits, a READY one with BYPASS of the next 64 records. A queue that is being
reset has none (24 R399). -/
def State.candidate (s : State) (gq : Nat) : Option Job :=
  let js := if (s.queueOf gq).any fun q => q.state == .resetting || q.state == .reset then [] else s.sheep.jobs.filter fun j => j.queue == gq && !j.jr.graph && (j.state == .ready || j.state == .waiting || j.state == .preempted)
  match js with
  | [] => none
  | j :: rest =>
    if j.state = .waiting then rest.find? fun x => x.state == .ready && x.jr.bypass && decide (distance32 j.index x.index ≤ 64) else some j
/-- Slots that a job needs: its unexited members. -/
def Job.need (j : Job) : Nat := j.jr.gang - j.exits.length
/-- The candidates of a class in a partition. -/
def State.candidates (s : State) (root cls : Nat) : List Job :=
  (s.sheep.queues.filterMap fun q => s.candidate q.gq).filter fun j => s.rootOf j.jr.region == root && s.classOf j.jr.region == cls
/-- The one that has waited longest. -/
def oldest : List Job → Option Job
  | [] => none
  | j :: js => match oldest js with
    | none => some j
    | some k => some (if k.since < j.since then k else j)
/-- No anchored gang of the same or a higher class is set back (23 R385). -/
def State.backfillOk (s : State) (root cls : Nat) (j : Job) (free : Nat) : Bool :=
  s.sheep.anchors.all fun a =>
    a.root != root || decide (cls < a.cls) || a.job == j.uid ||
      (match s.job a.job with | some k => decide (k.need + j.need ≤ free) | none => true)
/-- A job fits: slots, MAXCORES on its path, budgets, backfill, and a hardware tag (22 R353). -/
def State.fits (s : State) (j : Job) : Bool :=
  let root := s.rootOf j.jr.region
  let free := (s.freeSlots root).length
  decide (j.need ≤ free) &&
    ((s.path j.jr.region).all fun (i, r) => !r.blocked && (r.maxCores == 0 || decide (s.subtreeSlots i + j.need ≤ r.maxCores))) &&
    s.backfillOk root (s.classOf j.jr.region) j free &&
    (match s.queueOf j.queue with | some q => (s.takeTag q.asid true).isSome | none => false)
/-- The slots that a commit takes: first those whose last job had the same address space, then the lowest numbers. -/
def State.chooseSlots (s : State) (root asid n : Nat) : List Nat :=
  let free := s.freeSlots root
  let near := free.filter fun c => (s.coreAt c).prevAsid == some asid
  (near ++ free.filter fun c => !near.contains c).take n
/-- JOBID (23 R374). -/
def jobIdOf (gq index : Nat) : Word := BitVec.ofNat 64 (gq * 2 ^ 52 + index)
/-- Commit a job: one bind record per member, with a fresh COMMIT. -/
def State.commitJob (s : State) (j : Job) : State :=
  match s.queueOf j.queue with
  | none => s
  | some q =>
    let d := s.sheep
    let gang := if j.gang = 0 then d.nextGang else j.gang
    let ixs := (List.range j.jr.gang).filter fun ix => !j.exits.any fun e => e.1 == ix
    let ms := ixs.zip (s.chooseSlots (s.rootOf j.jr.region) q.asid ixs.length)
    let rec' := fun (ix : Nat) =>
      ({ gangIx := ix, gangSize := j.jr.gang, cls := s.classOf j.jr.region, commit := d.nextCommit, gangId := gang, region := j.jr.region,
         asid := q.asid, entry := j.jr.entry, arg := j.jr.arg, jobId := jobIdOf q.gq j.index, grant := j.jr.grant,
         restore := j.saved.contains ix, ncommit := ms.length, lives := j.jr.lives, ctx := q.context j.index, liveb := j.jr.liveb,
         rootPpn := q.rootPpn } : BindRec)
    let s := ms.foldl (fun s (ix, n) => s.setSlot n { Slot.free with state := .binding, bind := some (rec' ix) }) s
    let s := s.setJob { j with
      state := if j.everTriggered then .triggered else .running, gang := gang, commit := d.nextCommit, members := ms, saved := [], started := true }
    s.onSheep fun d => { d with nextGang := if j.gang = 0 then d.nextGang + 1 else d.nextGang, nextCommit := d.nextCommit + 1,
                                anchors := d.anchors.filter fun a => a.job != j.uid }
/-- A candidate is within its class's reservation. -/
def State.withinReservation (s : State) (j : Job) : Bool :=
  let root := s.rootOf j.jr.region
  let c := s.classOf j.jr.region
  let held := (s.sheep.anchors.filter fun a => a.root == root && a.cls == c && a.job != j.uid).map fun a =>
    match s.job a.job with | some k => min k.need (s.freeSlots root).length | none => 0
  decide (s.classSlots root c true + held.sum + j.need ≤ s.reserved' root c)
/-- Unmap gangs of a list for a class until enough slots will be free; a gang whose class would fall below its reservation
stays. -/
def State.reclaimFrom (s : State) (root cls need : Nat) (spare : Bool) : List (Nat × Nat × Nat) → State
  | [] => s
  | (g, c, n) :: l =>
    if need ≤ (s.freeSlots root).length + (if spare then s.heldIn root cls else s.comingIn root cls) then s
    else if spare ∧ s.classSlots root c false < s.reserved' root c + n then State.reclaimFrom s root cls need spare l
    else State.reclaimFrom (s.unmapFor g (some cls)) root cls need spare l
/-- Reclaim for a candidate within its reservation: SCAVENGE first, the most recent commit first (23 R384). -/
def State.reclaim (s : State) (j : Job) : State :=
  let root := s.rootOf j.jr.region
  let c := s.classOf j.jr.region
  let gs := s.runningGangs root
  s.reclaimFrom root c j.need true ([3, 2, 1, 0].flatMap fun k => if k = c then [] else gs.filter fun x => x.2.1 == k)

/-- Whether a class is anchored in a partition. -/
def State.anchorOf (s : State) (root cls : Nat) : Option Anchor := s.sheep.anchors.find? fun a => a.root == root && a.cls == cls
/-- AGE and WINDOW of a class, in cycles. -/
def State.ageOf (s : State) (root cls : Nat) : Nat := match s.regionOf root with | some r => micros (r.age.getD cls 0) | none => 0
def State.windowOf (s : State) (root cls : Nat) : Nat := match s.regionOf root with | some r => micros (r.window.getD cls 0) | none => 0
/-- The oldest candidate that has waited AGE becomes the class's anchored gang (23 R385). -/
def State.anchor (s : State) (root cls : Nat) : State :=
  match s.anchorOf root cls, oldest (s.candidates root cls) with
  | none, some j =>
    if (j.state = .ready ∨ j.state = .preempted) ∧ j.since + s.ageOf root cls ≤ s.base.cycle then
      s.onSheep fun d => { d with anchors := d.anchors ++ [{ root := root, cls := cls, job := j.uid, anchoredAt := s.base.cycle }] }
    else s
  | _, _ => s
/-- GANG_ANCHOR (23 R385). -/
def execGangAnchor (root cls : Nat) (s : State) : Host.Outcome State Fault Refusal := .next (s.anchor root cls)
/-- An anchored gang whose window has passed: gangs of its class and of lower ones are unmapped, the most recent commit
first, until enough slots will be free (23 R385). -/
def State.expire (s : State) (root cls : Nat) : State :=
  match s.anchorOf root cls with
  | none => s
  | some a =>
    match s.job a.job with
    | none => s
    | some j =>
      if a.anchoredAt + s.windowOf root cls ≤ s.base.cycle then
        s.reclaimFrom root cls j.need false ((s.runningGangs root).filter fun x => decide (cls ≤ x.2.1))
      else s
/-- ANCHOR_WINDOW_EXPIRY (23 R385). -/
def execAnchorWindowExpiry (root cls : Nat) (s : State) : Host.Outcome State Fault Refusal := .next (s.expire root cls)
/-- Place a class's anchored gang if it fits. -/
def State.placeAnchored (s : State) (root cls : Nat) : State :=
  match s.anchorOf root cls with
  | some a =>
    match s.job a.job with
    | some j => if (j.state = .ready ∨ j.state = .preempted) ∧ s.fits j then s.commitJob j else s
    | none => s
  | none => s

/-- A list turned so that it begins after an element. -/
def turnAfter (x : Nat) (l : List Nat) : List Nat :=
  let after := (l.dropWhile fun y => y != x).drop 1
  after ++ l.filter fun y => !after.contains y
/-- One round over the queues of a class: whether something was committed. -/
def State.roundOf (s : State) (cls : Nat) : List Nat → Bool → Bool × State
  | [], b => (b, s)
  | gq :: l, b =>
    match s.candidate gq with
    | none => State.roundOf s cls l b
    | some j =>
      if s.classOf j.jr.region ≠ cls ∨ j.state = .waiting then State.roundOf s cls l b
      else if s.fits j then
        State.roundOf ((s.commitJob j).onSheep fun d => { d with rr := Table.set 0 d.rr cls (gq + 1) }) cls l true
      else if s.withinReservation j then State.roundOf (s.reclaim j) cls l b
      else State.roundOf s cls l b
/-- Rounds until one commits nothing. R386 begins after the last pass's last queue: the one that last committed a job of the class, also in an
earlier pass, and queue 0's place before any. DESIGN CHOICE (log 71). -/
def State.rounds (s : State) (cls : Nat) : Nat → State
  | 0 => s
  | n + 1 =>
    let qs := turnAfter (Table.get 0 s.sheep.rr cls - 1) (s.sheep.queues.map Queue.gq)
    match s.roundOf cls qs false with
    | (true, s) => State.rounds s cls n
    | (false, s) => s
/-- The partition roots that queues name. -/
def State.roots (s : State) : List Nat := (s.sheep.queues.map fun q => s.rootOf q.root).eraseDups
/-- The placement of one class. -/
def State.placeClass (s : State) (cls : Nat) : State :=
  let s := s.roots.foldl (fun s r => ((s.anchor r cls).expire r cls).placeAnchored r cls) s
  s.rounds cls (s.sheep.jobs.length + 1)

/-! ## Management tasks (23 R389) -/

/-- Put a copy of a task's record into its queue; while that is full, or takes no record (23 R375, 24 R399), the release stays pending. -/
def State.releaseTask (s : State) (k : Nat) (t : MgmtTask) : State :=
  match s.queueOf t.queue with
  | none => s
  | some q =>
    let set := fun (s : State) (t : MgmtTask) => s.onSheep fun d => { d with tasks := d.tasks.set k t }
    if q.size ≤ distance32 q.done q.tail ∨ q.state ≠ .active then set s { t with pending := true }
    else
      let s := s.outsideWords (q.ring + 128 * (q.tail % q.size)) 16 t.record
      let s := s.onSheep fun d =>
        { d with queues := d.queues.map fun x => if x.gq = q.gq then { q with tail := index32 (q.tail + 1) } else x, doorbells := d.doorbells ++ [q.gq] }
      set s { t with pending := false, last := some q.tail }
/-- The last release of a task has not retired: its record has yet to be accepted, or its job lives. -/
def State.taskBusy (s : State) (t : MgmtTask) : Bool :=
  match t.last, s.queueOf t.queue with
  | some i, some q =>
    decide (distance32 q.head i < distance32 q.head q.tail) ||
      s.sheep.jobs.any fun j => j.queue == q.gq && j.node.isNone && j.index == i && j.live
  | _, _ => false
/-- A trigger stands above its point now. What a share of withheld cycles is of, is DESIGN CHOICE (log 70): of all the module's
core-cycles since reset. -/
def State.triggerNow (s : State) (t : Trigger) : Bool :=
  match t with
  | .counter n i => ((s.coreAt n).perf.counters.any fun x => x.1 == i && x.2.tx)
  | .starvation q u => (s.candidate q).any fun j => (j.state == .ready || j.state == .preempted) && decide (j.since + micros u < s.base.cycle)
  | .thermal d => (s.base.die d).warn
  | .withheld p => decide (p * (Config.cores * s.base.cycle) < 100 * s.base.withheld)
/-- Task `k` is replaced. -/
def State.setTask (s : State) (k : Nat) (t : MgmtTask) : State := s.onSheep fun d => { d with tasks := d.tasks.set k t }
/-- A task's trigger is looked at (23 R389): a crossing while the last release is unretired is counted and coalesced, another is to release
the task; one that has fallen back can cross again. -/
def State.watchTask (s : State) (k : Nat) (t : MgmtTask) : State :=
  let now := s.triggerNow t.trigger
  if now = t.above then s
  else s.setTask k (if !now then { t with above := false }
                    else if s.taskBusy t ∨ t.pending ∨ t.crossed then { t with above := true, coalesced := t.coalesced + 1 }
                    else { t with above := true, crossed := true })
/-- Every task's trigger is looked at after each turn, so that no crossing is missed. -/
def State.watch (s : State) : State := s.sheep.tasks.zipIdx.foldl (fun s (t, k) => s.watchTask k t) s
/-- MGMT_TASK_RELEASE (23 R389): a trigger that has crossed its point releases its task. -/
def execMgmtTaskRelease (task : Nat) (s : State) : Host.Outcome State Fault Refusal :=
  match s.sheep.tasks[task]? with
  | none => .next s
  | some t =>
    let s := s.watchTask task t
    .next (match s.sheep.tasks[task]? with
      | some u => if u.crossed then s.releaseTask task { u with crossed := false } else s
      | none => s)
/-- The kernel registers a task (23 R389). DESIGN CHOICE (log 70): the manual gives no register for it. -/
def State.registerTask (s : State) (queue record : Nat) (t : Trigger) : State :=
  s.onSheep fun d =>
    { d with tasks := d.tasks ++ [{ queue := queue, record := record, trigger := t, above := false, last := none, coalesced := 0, crossed := false, pending := false }] }
/-- Releases that a full queue held back. -/
def State.pendingTasks (s : State) : State := s.sheep.tasks.zipIdx.foldl (fun s (t, k) => if t.pending then s.releaseTask k t else s) s

/-! ## The pass (23 R386) -/

/-- Sheepdog runs: firmware runs and nothing fatal has happened. -/
def Basecamp.serving (b : Basecamp) : Bool := b.fw == .running && b.fatalAt.isNone && b.powered
/-- One pass. -/
def State.pass (s : State) : State :=
  let bells := s.sheep.doorbells
  let s := s.onSheep fun d => { d with doorbells := [] }
  let s := bells.foldl (fun s g => s.acceptQueue g) s
  let s := s.sheep.queues.foldl (fun s q => s.acceptQueue q.gq) s
  let reps := s.sheep.reports
  let s := s.onSheep fun d => { d with reports := [] }
  let s := reps.foldl (fun s r => s.takeReport r) s
  let s := s.enforceBudgets.pendingTasks
  let s := [0, 1, 2, 3].foldl (fun s c => s.placeClass c) s
  s.onSheep fun d => { d with lastPass := s.base.cycle, workSince := none }
/-- SHEEPDOG_PASS (23 R386). DEDUCED (log 50). -/
def execSheepdogPass (s : State) : Host.Outcome State Fault Refusal := .next (if s.base.serving then s.pass else s)
/-- A pass has work: doorbells or reports. -/
def Sheepdog.hasWork (d : Sheepdog) : Bool := d.doorbells != [] || d.reports != []
/-- The management cores are not gated while Sheepdog has work (24 R398). -/
def State.wakeManagement (s : State) : State :=
  if s.sheep.hasWork ∧ s.base.mgmtGated ≠ 0 then s.onBase fun b => { b with mgmtGated := 0 } else s

/-- Reports of lost cores are taken before a resize (25 R410). -/
def State.takeLosses (s : State) : State :=
  let isLoss := fun (r : Report) => match r with | .lostCore _ => true | _ => false
  let ls := s.sheep.reports.filter isLoss
  ls.foldl (fun s r => s.takeReport r) (s.onSheep fun d => { d with reports := d.reports.filter fun r => !isLoss r })
/-- A CORES mask changes: gangs with a slot that leaves are unmapped, then jobs that no longer fit end (23 R390, R391). -/
def State.resize (s : State) (root : Nat) (old new : BitVec 192) : State :=
  if old = new then s
  else
    let s := s.takeLosses
    let leaves := fun (n : Nat) => old.getLsbD n && !new.getLsbD n
    let gone := s.disp.slots.filterMap fun (n, x) => if leaves n ∧ x.isBound then some x.gang else none
    let s := gone.eraseDups.foldl (fun s g => s.unmapGang g) s
    let s := s.onSheep fun d => { d with jobs := d.jobs.map fun j => if s.rootOf j.jr.region = root then { j with outgrown := s.tooBigNow j } else j }
    s.sheep.jobs.foldl (fun s j => match s.job j.uid with | some j => if s.rootOf j.jr.region = root then s.shrink j else s | none => s) s
/-- Another root's CORES meet a mask (25 R415). -/
def State.coresConflict (s : State) (root : Nat) (m : BitVec 192) : Bool :=
  s.sheep.regions.any fun (i, r) => match r with | some r => i != root && r.parent == 0xFFFF && (r.cores &&& m) != 0 | none => false
/-- A region takes the values of its control block (23 R376); a doorbell that would make two roots' CORES meet is ignored whole (25 R415). -/
def State.loadRegion (s : State) (i x addr : Nat) : State :=
  let old := s.regionOf i
  let r := Region.parse x addr old
  let was := match old with | some o => o.cores | none => 0
  if r.parent = 0xFFFF ∧ s.coresConflict i r.cores then
    (if old.isSome then s else s.setRegion i { r with cores := 0 }).health 12 noPart noPart 0 0 0
  else
    let s := s.setRegion i r
    if r.parent = 0xFFFF then s.resize i was r.cores else s
/-- A region whose periods run from `t`: the present one began a whole number of them later (23 R378). -/
def State.runPeriods (s : State) (i : Nat) (r : Region) (t : Nat) : State :=
  if r.phase = some t then s
  else
    let p := micros (s.periodOf i)
    s.setRegion i { r with phase := some t, started := some (s.base.cycle - (s.base.cycle - t) % p) }
/-- Periods run from the first doorbell of their root (23 R378): for a region that joins it later, too. -/
def State.startPeriods (s : State) (i : Nat) : State :=
  let root := s.rootOf i
  let from' := match s.regionOf root with | some r => if i = root then some (r.phase.getD s.base.cycle) else r.phase | none => none
  match from' with
  | none => s
  | some t => s.sheep.regions.foldl (fun s (k, r) => match r with | some r => if s.rootOf k = root then s.runPeriods k r t else s | none => s) s

end Sys2Proof.Machine
end

