-- ==== Sys2Proof/Machine/Basecamp.lean ====
section
/-! DEFINITION. Basecamp: function commands and doorbells, queue-level reset, firmware, attestation, the lantern, gating,
fatal errors and the dump, module reset and power loss (24 R394 to R404; 25 R417). -/

namespace Sys2Proof.Machine

/-! ## Function commands (24 R395, R396) -/

/-- RESULT codes of FSTAT. -/
def resDone : BitVec 8 := 0
def resBadArg : BitVec 8 := 1
def resDenied : BitVec 8 := 2
def resInUse : BitVec 8 := 3
def resCtxFault : BitVec 8 := 4
def resNoSpace : BitVec 8 := 5
def resNoQueue : BitVec 8 := 6
/-- A command that FCMD started is running on a function; none does in FATAL (24 R404). -/
def State.commandRuns (s : State) (fn op : Nat) (arg : Word) : Bool :=
  let p := s.fnPage fn
  s.base.fw != .fatal && p.busy && p.lastOp == BitVec.ofNat 8 op && p.arg == arg && p.resetting.isNone
/-- BUSY falls with a RESULT. -/
def State.commandDone (s : State) (fn : Nat) (r : BitVec 8) : State := s.onPage fn fun p => { p with busy := false, result := r, resetting := none }
/-- Run a command of a function; one that no write of FCMD started does nothing. -/
def State.command (s : State) (fn op : Nat) (arg : Word) (f : State → BitVec 8 × State) : State :=
  if s.commandRuns fn op arg then let (r, s) := f s; s.commandDone fn r else s

/-- A function may act on a region (24 R396). -/
def State.mayActOn (s : State) (fn region : Nat) : Bool :=
  fn == 0 || (match Table.get 0 s.base.assigned fn with | 0 => false | r + 1 => s.inSubtree region r)

/-- A registration record (24 R396). -/
structure RegRec where
  ring : Nat
  status : Nat
  capBase : Word
  capLen : Nat
  ctxBase : Nat
  ctxStride : Nat
  logSize : Nat
  flags : Nat
  localq : Nat
  asid : Nat
  root : Nat
  rootPpn : Nat
  reserved : Nat
deriving DecidableEq, Repr
/-- Its fields. -/
def RegRec.parse (x : Nat) : RegRec :=
  { ring := fieldAt x 0 64, status := fieldAt x 8 64, capBase := recWord x 0x10, capLen := fieldAt x 0x18 64, ctxBase := fieldAt x 0x20 64,
    ctxStride := fieldAt x 0x28 32, logSize := fieldAt x 0x2C 8, flags := fieldAt x 0x2D 8, localq := fieldAt x 0x2E 16,
    asid := fieldAt x 0x30 16, root := fieldAt x 0x32 16, rootPpn := fieldAt x 0x34 32, reserved := fieldAt x 0x3A 48 }
/-- Check 3 of REGQUEUE: alignment, ranges, reserved fields. -/
def RegRec.ok (r : RegRec) : Bool :=
  decide (4 ≤ r.logSize ∧ r.logSize ≤ 16) && r.ring % (128 * 2 ^ r.logSize) == 0 && r.status % 64 == 0 && decide (r.capLen ≤ 2 ^ 48) &&
    r.ctxStride % 4096 == 0 && r.flags / 2 == 0 && decide (r.localq ≤ 510) && r.reserved == 0 && decide (r.rootPpn < 2 ^ 27)
/-- A queue that counts as registered: one in RESET can be registered again. -/
def Queue.registered (q : Queue) : Bool := q.state != .reset
/-- The lowest free queue number. -/
def State.freeQueue (s : State) : Option Nat := (List.range 4096).find? fun g => !s.sheep.queues.any fun q => q.gq == g
/-- Checks 4 to 7, and the registration. -/
def State.register' (s : State) (fn arg : Nat) (r : RegRec) : BitVec 8 × State :=
  let size := 2 ^ r.logSize
  if !s.mayActOn fn r.root then (resDenied, s)
  else if s.sheep.queues.any fun q => q.registered && ((q.fn == fn && q.localq == r.localq) || (q.asid == r.asid && q.rootPpn != r.rootPpn)) then
    (resInUse, s)
  else if !(s.populated r.ring (128 * size) && s.populated r.status 64 && decide (0 < r.ctxBase + r.ctxStride * size) && s.reaches (r.ctxBase + r.ctxStride * size - 1) false) then (resCtxFault, s)
  else match s.freeQueue with
  | none => (resNoSpace, s)
  | some g =>
    let q : Queue :=
      { gq := g, fn := fn, localq := r.localq, ringCap := deriveCap 0 (BitVec.ofNat 64 r.ring) (128 * size),
        statusCap := deriveCap 1 (BitVec.ofNat 64 r.status) 64, recordCap := deriveCap 2 r.capBase r.capLen,
        ctxCap := deriveCap 3 (BitVec.ofNat 64 r.ctxBase) (r.ctxStride * size), ctxStride := r.ctxStride, logSize := r.logSize, task := r.flags = 1, asid := r.asid, root := r.root,
        rootPpn := r.rootPpn, head := 0, done := 0, tail := 0, state := .active, errCode := 0, errIdx := 0, errAddr := 0 }
    let keep := fun (x : Queue) => !(x.fn == fn && x.localq == r.localq)
    let s := s.onSheep fun d => { d with queues := d.queues.filter keep ++ [q] }
    (resDone, (s.outsideWrite (arg + 0x38) 2 g).putQueue q)
/-- REGQUEUE (24 R396). -/
def execRegqueue (fn : Nat) (arg : Word) (s : State) : Host.Outcome State Fault Refusal :=
  .next (s.command fn 1 arg fun s =>
    if arg.toNat % 64 ≠ 0 then (resBadArg, s)
    else if !s.readable arg.toNat 64 then (resCtxFault, s.noteLost arg.toNat 64)
    else
      let (x, s) := s.outsideNat arg.toNat 8
      let r := RegRec.parse x
      if !r.ok then (resBadArg, s) else s.register' fn arg.toNat r)

/-- ASSIGN (24 R396). -/
def execAssign (fn : Nat) (arg : Word) (s : State) : Host.Outcome State Fault Refusal :=
  .next (s.command fn 4 arg fun s =>
    let f := (arg.extractLsb' 16 9).toNat
    let root := (arg.extractLsb' 0 16).toNat
    if fn ≠ 0 then (resDenied, s)
    else if f = 0 ∨ 256 < f ∨ (s.regionOf root).isNone then (resBadArg, s)
    else (resDone, s.onBase fun b => { b with assigned := Table.set 0 b.assigned f (root + 1) }))

/-- Read `n` region control blocks from index `i`. -/
def State.loadRegions (s : State) (base : Nat) : Nat → Nat → State
  | 0, _ => s
  | n + 1, i =>
    let (x, s) := s.outsideNat (base + 128 * i) 16
    State.loadRegions (s.loadRegion i x (base + 128 * i)) base n (i + 1)
/-- REGIONTAB (24 R396). -/
def execRegiontab (fn : Nat) (arg : Word) (s : State) : Host.Outcome State Fault Refusal :=
  .next (s.command fn 5 arg fun s =>
    let base := (arg.extractLsb' 12 44).toNat * 4096
    let log := (arg.extractLsb' 0 4).toNat
    if fn ≠ 0 then (resDenied, s)
    else if log < 4 ∨ 12 < log then (resBadArg, s)
    else if !s.readable base (128 * 2 ^ log) then (resCtxFault, s.noteLost base (128 * 2 ^ log))
    else
      let s := (s.onBase fun b => { b with regionTab := some base, regionLog := log }).onSheep fun d => { d with regions := [] }
      (resDone, s.loadRegions base (2 ^ log) 0))

/-! ## Doorbells (24 R397) -/

/-- A doorbell that is ignored is counted. -/
def State.ignoreBell (s : State) : State := s.onBase fun b => { b with ignored := b.ignored + 1 }
/-- A doorbell write of a size and value that delivers. -/
def bellValue (bytes : Nat) (v : Word) : Option Nat :=
  if bytes = 4 ∨ (bytes = 8 ∧ v.extractLsb' 32 32 = 0) then some (v.toNat % 2 ^ 32) else none
/-- The last value accepted by a slot. -/
def State.noteBell (s : State) (fn slot : Nat) (v : Nat) : State :=
  s.onBase fun b => { b with aperture := Table.set 0 b.aperture (512 * fn + slot) (BitVec.ofNat 64 v) }
/-- A doorbell of a queue reaches Sheepdog. -/
def State.queueBell (s : State) (fn slot bytes : Nat) (value : Word) : State :=
  match s.sheep.queues.find? fun q => q.fn == fn && q.localq == slot, bellValue bytes value with
  | some q, some tail =>
    if s.base.fw = .fatal ∨ q.state = .resetting ∨ q.state = .reset ∨ q.task then s.ignoreBell
    else if q.state = .error then s
    else (s.noteBell fn slot tail).deliverTail q tail
  | _, _ => s.ignoreBell
/-- A region doorbell reaches Sheepdog. -/
def State.regionBell (s : State) (fn bytes : Nat) (value : Word) : State :=
  match bellValue bytes value with
  | none => s.ignoreBell
  | some v =>
    let i := v % 2 ^ 16
    let a := s.base.regionTab.getD 0 + 128 * i
    if s.base.fw = .fatal ∨ s.base.regionTab.isNone ∨ 2 ^ s.base.regionLog ≤ i ∨ !s.mayActOn fn i then s.ignoreBell
    else if !s.readable a 128 then (s.noteLost a 128).ignoreBell
    else
      let (x, s) := s.outsideNat a 16
      ((s.noteBell fn 511 v).loadRegion i x a).startPeriods i
/-- The lantern holds a write (24 R398): at most 64. With 64 held it drops none: the sender is held back, and has not moved. -/
def State.holdWrite (s : State) (w : HeldWrite) : State :=
  if s.base.lantern.length < 64 then s.onBase fun b => { b with lantern := b.lantern ++ [w] } else { s with stalled := true }
/-- A source whose writes the lantern holds waits with its next (24 R398). -/
def State.sourceHeld (s : State) (x : LanternSource) : Bool := s.base.lantern.any fun h => h.source == x
/-- The address of a slot of a function's aperture. -/
def bellAddr (fn slot : Nat) : Nat := Config.basecampBase + 0x100_0000 + 0x1000 * fn + 8 * slot
/-- QUEUE_DOORBELL (24 R397): while management core 0 is gated, the lantern catches it. -/
def execQueueDoorbell (fn slot bytes : Nat) (value : Word) (s : State) : Host.Outcome State Fault Refusal :=
  .next (if s.base.mgmtGated.getLsbD 0 then s.holdWrite { source := .function fn, pa := bellAddr fn slot, bytes := bytes, data := value }
         else s.queueBell fn slot bytes value)
/-- REGION_DOORBELL (24 R397). -/
def execRegionDoorbell (fn bytes : Nat) (value : Word) (s : State) : Host.Outcome State Fault Refusal :=
  .next (if s.base.mgmtGated.getLsbD 0 then s.holdWrite { source := .function fn, pa := bellAddr fn 511, bytes := bytes, data := value }
         else s.regionBell fn bytes value)

/-! ## Queue-level reset (24 R399) -/

/-- RESETQUEUE (24 R399, steps 1 and 2): bound gangs of the queue are unmapped without a save. -/
def execResetqueue (fn : Nat) (arg : Word) (s : State) : Host.Outcome State Fault Refusal :=
  if !s.commandRuns fn 2 arg then .next s
  else match s.sheep.queues.find? fun q => q.fn == fn && q.localq == (arg.extractLsb' 0 9).toNat with
  | none => .next (s.commandDone fn resNoQueue)
  | some q =>
    if q.state = .reset then .next (s.commandDone fn resDone)
    else
      let s := s.putQueue { q with state := .resetting }
      let gs := (s.sheep.jobs.filter fun j => j.live && j.queue == q.gq).map Job.gang
      let s := gs.foldl (fun s g => s.dropGang g) s
      .next (s.onPage fn fun p => { p with resetting := some q.gq })
/-- A queue has left RESETTING. -/
def State.endReset (s : State) (queue : Nat) : State :=
  let uids := (s.sheep.jobs.filter fun j => j.live && j.queue == queue && !j.jr.graph).map fun j => (j.uid, stCancelled)
  let graphs := (s.sheep.jobs.filter fun j => j.live && j.queue == queue && j.jr.graph).map fun j => (j.uid, stCancelled)
  let s := s.retireList (s.sheep.jobs.length * (s.sheep.jobs.length + 1) + 1) (graphs ++ uids)
  match s.queueOf queue with
  | some q => s.putQueue { q with state := .reset }
  | none => s
/-- QUEUE_RESET_COMPLETE (24 R399, steps 3 to 5). No write of the queue's work is in flight between steps. -/
def execQueueResetComplete (queue : Nat) (s : State) : Host.Outcome State Fault Refusal :=
  match s.queueOf queue with
  | none => .next s
  | some q =>
    if q.state ≠ .resetting then .next s
    else
      let s := s.endReset queue
      .next (if (s.fnPage q.fn).resetting = some queue then s.commandDone q.fn resDone else s)

/-! ## Firmware and attestation (24 R400 to R402) -/

/-- Bytes of memory as they stand. -/
def State.bytesAt (s : State) (pa n : Nat) : List Byte := (List.range n).map fun k => BitVec.ofNat 8 (s.peek (pa + k) 1)
/-- A little-endian number of `n` bytes of an image. -/
def bytesLE : List Byte → Nat
  | [] => 0
  | b :: l => b.toNat + 256 * bytesLE l
/-- A field of an image. -/
def imageField (l : List Byte) (off n : Nat) : Nat := bytesLE ((l.drop off).take n)
/-- Where the body begins. -/
def imageHeader : Nat := 0x2000
/-- The header fields of an image are valid (24 R400). -/
def imageHeaderOk (l : List Byte) : Bool :=
  imageField l 0 4 == 0x4F58_4657 && imageField l 4 2 == 1 && imageField l 6 1 / 2 == 0 && imageField l 7 1 == 0 &&
    imageField l 0xC 4 % 4096 == 0 && decide (imageField l 0xC 4 ≤ 0x400_0000) && l.length == imageHeader + imageField l 0xC 4 &&
    imageField l 0x14AD 2899 == 0
/-- SVN of an image, and its digest. -/
def imageSvn (l : List Byte) : Nat := imageField l 8 4
def imageDigest (l : List Byte) : List Byte := shake256 (l.take 0x7C0 ++ l.drop imageHeader) 64
/-- Why an image is not accepted, in the order of 24 R401: 1 no image, 3 key mismatch, 4 rollback, 2 bad signature; 0 when
it is. DEDUCED (log 53). -/
def imageReason (fused : Nat) (l : List Byte) : BitVec 8 :=
  let key := (l.drop 0x20).take 1952
  if !imageHeaderOk l then 1
  else if shake256 key 32 ≠ (List.range 32).map Config.fusedKeyHash then 3
  else if imageSvn l < fused then 4
  else if !mldsaVerify key (imageDigest l) ((l.drop 0x7C0).take 3309) then 2
  else 0
/-- An accepted image runs; RAISE raises the fused minimum. -/
def Basecamp.runImage (b : Basecamp) (l : List Byte) : Basecamp :=
  { b with fw := .running, reason := 0, svn := imageSvn l, running := l,
           fusedSvn := if imageField l 6 1 % 2 = 1 then imageSvn l else b.fusedSvn }
/-- The boot ROM: it begins with the flash's image, STATE is VERIFYING; then the image runs, or recovery waits (24 R401). -/
def State.boot (s : State) : State :=
  s.onBase fun b =>
    if b.fw = .rom then { b with fw := .verifying } else
    let r := imageReason b.fusedSvn b.flash
    if r = 0 then b.runImage b.flash else { b with fw := .recovery, reason := r }
/-- FWLOAD_WRITE (24 R401, steps 3 and 4). -/
def execFwloadWrite (value : Word) (s : State) : Host.Outcome State Fault Refusal :=
  let l := s.bytesAt 0 (value.toNat % 2 ^ 32)
  let r := imageReason s.base.fusedSvn l
  match s.base.fw with
  | .recovery => .next (s.onBase fun b => if r = 0 then { b with flash := l }.runImage l else { b with reason := r })
  | .running => .next (s.onBase fun b => { b with flash := if r = 0 then l else b.flash, reason := r })
  | _ => .next s

/-- `n` little-endian bytes of a number. -/
def leBytes : Nat → Nat → List Byte
  | 0, _ => []
  | n + 1, v => BitVec.ofNat 8 v :: leBytes n (v / 256)
/-- Write bytes at a device-physical address. -/
def State.outsideBytes (s : State) (pa : Nat) : List Byte → State
  | [] => s
  | b :: l => State.outsideBytes (s.outsideWrite pa 1 b.toNat) (pa + 1) l
/-- The signed part of an attestation report. -/
def State.report128 (s : State) (fn : Nat) (nonce : List Byte) : List Byte :=
  nonce ++ (List.range 16).map Config.serial ++ leBytes 4 s.base.svn ++ leBytes 4 s.base.fusedSvn ++ imageDigest s.base.running ++ leBytes 8 fn
/-- Bytes of an ML-DSA-65 signature. -/
def signatureBytes : Nat := 3309
/-- ATTEST (24 R402). -/
def execAttest (fn : Nat) (arg : Word) (s : State) : Host.Outcome State Fault Refusal :=
  .next (s.command fn 3 arg fun s =>
    let a := arg.toNat
    if a % 4096 ≠ 0 then (resBadArg, s)
    else if !(s.populated a (64 + 128 + signatureBytes) && !s.lostAt a 32) then (resCtxFault, if a % 4096 = 0 then s.noteLost a 32 else s)
    else
      let (x, s) := s.outsideNat a 4
      let body := s.report128 fn (leBytes 32 x)
      (resDone, s.outsideBytes (a + 64) (body ++ (List.range signatureBytes).map (Config.identitySign body))))

/-! ## The lantern and gating (24 R398) -/

/-- The die whose gating holds a write back. -/
def targetDie (pa : Nat) : Option Nat :=
  match placeOf pa with
  | .window c _ _ => some (dieOf c)
  | .ddr => some (homeDie pa)
  | _ => none
/-- The target of a write is gated. -/
def State.gatedTarget (s : State) (pa : Nat) : Bool :=
  match placeOf pa, targetDie pa with
  | .basecamp, _ => s.base.mgmtGated.getLsbD 0 && decide (0x100_0000 ≤ pa - Config.basecampBase)
  | _, some d => (s.base.die d).clockGated || (s.base.die d).powerGated
  | _, none => false
/-- LANTERN_CATCH: a write for a gated target is held, in arrival order, as is a later one of its source; with 64 held its sender
is held back. DESIGN CHOICE (log 35). -/
def execLanternCatch (source : LanternSource) (pa bytes : Nat) (data : Word) (s : State) : Host.Outcome State Fault Refusal :=
  .next (if s.gatedTarget pa ∨ s.sourceHeld source then s.holdWrite { source := source, pa := pa, bytes := bytes, data := data } else s)
/-- A held write arrives. -/
def State.replayWrite (s : State) (w : HeldWrite) : State :=
  match placeOf w.pa with
  | .basecamp =>
    match basecampEvent w.pa w.bytes w.data with
    | .queueDoorbell f q n v => s.queueBell f q n v
    | .regionDoorbell f n v => s.regionBell f n v
    | _ => s
  | _ =>
    let v := w.data.toNat % 2 ^ (8 * w.bytes)
    if !s.spanReaches w.pa w.bytes true then s
    else match w.source with
    | .agent n => if n < Config.cores then s.asCore n fun s => s.physWrite .block w.pa w.bytes v false else s.outsideWrite w.pa w.bytes v
    | .function _ => s.outsideWrite w.pa w.bytes v
/-- Ungate the target of a held write. -/
def State.ungate (s : State) (w : HeldWrite) : State :=
  match targetDie w.pa with
  | some d => s.onDie d fun x => { x with clockGated := false, powerGated := false }
  | none => s.onBase fun b => { b with mgmtGated := b.mgmtGated &&& 0xE }
/-- LANTERN_REPLAY: the targets are ungated, and the held writes replayed in arrival order. -/
def execLanternReplay (s : State) : Host.Outcome State Fault Refusal :=
  let l := s.base.lantern
  let s := s.onBase fun b => { b with lantern := [] }
  let s := l.foldl (fun s w => s.ungate w) s
  .next (l.foldl (fun s w => s.replayWrite w) s)
/-- MANAGEMENT_CORE_GATE (24 R398): core 0 when Sheepdog has no pending event, and cores 1 to 3, which serve it (R392), when they
are idle: then too. DESIGN CHOICE (log 69). -/
def execManagementCoreGate (mcore : Nat) (s : State) : Host.Outcome State Fault Refusal :=
  .next (if s.sheep.hasWork then s else s.onBase fun b => { b with mgmtGated := b.mgmtGated ||| BitVec.twoPow 4 mcore })

/-- Where an offset of a function's memory BAR lies (24 R394). -/
def barAddr (fn off : Nat) : Option Nat :=
  if fn = 0 then (if off < 0x200_0000 then some (Config.basecampBase + off) else none)
  else if 256 < fn then none
  else if off < 0x1000 then some (Config.basecampBase + 0x10_0000 + 0x1000 * fn + off)
  else if off < 0x2000 then some (Config.basecampBase + 0x100_0000 + 0x1000 * fn + (off - 0x1000))
  else none
/-- The host writes `n` bytes through a function's BAR; it waits behind that function's held writes. -/
def State.barWrite (s : State) (fn off n : Nat) (v : Word) : State :=
  match barAddr fn off with
  | some pa =>
    if !oneAccess pa n then s
    else if s.sourceHeld (.function fn) then { s with stalled := true }
    else s.postWrite (.function fn) pa n v.toNat
  | none => s

/-! ## Fatal errors (24 R404) -/

/-- REASON codes of FATAL. -/
def fatalLost : Nat := 1
def fatalWatchdog : Nat := 2
def fatalThermal : Nat := 3
/-- A core stands inside an instruction, not at a boundary. -/
def Core.midInstruction (c : Core) : Bool := (c.phase == .running || c.phase == .saving) && c.ct.noBoundary
/-- Bytes of a dump. -/
def dumpBytes : Nat := 200704
/-- The header of a dump. FORMAT, REASON and the module time stand at 0, 4 and 8, DESIGN CHOICE (log 62). -/
def State.dumpHeader (s : State) (reason : Nat) : List Nat :=
  let head := [0x0001_0001 + reason * 2 ^ 32, s.moduleTimeNow.toNat] ++ List.replicate 6 0
  let cores := (List.range Config.cores).flatMap fun n => [((s.coreAt n).controlWord 0).toNat, (s.coreAt n).csr.panicmark.toNat]
  let l := head ++ cores
  l ++ List.replicate (512 - l.length) 0
/-- The fixed parts of every core; a core taken out of service has bit 2 of FLAGS. -/
def State.dumpParts (s : State) (dead : List Nat) : List Nat :=
  (List.range Config.cores).flatMap fun n =>
    let c := s.coreAt n
    let (lives, liveb) := match (s.slot n).bind with | some b => (b.lives, b.liveb) | none => (0, 0)
    wordsOf 128 (c.fixedPart (c.savedFlags false (dead.contains n)) 1024 lives liveb)
/-- Write the dump where DUMPADDR names populated memory. -/
def State.dump (s : State) (reason : Nat) (dead : List Nat) : State :=
  let a := s.base.dumpAddr.toNat
  if a = 0 ∨ !s.spanReaches a dumpBytes true then s
  else (s.dumpHeader reason ++ s.dumpParts dead).zipIdx.foldl (fun s (v, k) => s.outsideWrite (a + 8 * k) 8 v) s
/-- Steps 2 to 4 of a fatal error. -/
def State.finishFatal (s : State) (reason : Nat) (dead : List Nat) : State :=
  let s := (s.dump reason dead).onBase fun b => { b with fw := .fatal, reason := BitVec.ofNat 8 reason, linksDown := BitVec.allOnes 24 }
  s.msix 0 0
/-- A fatal error: every core stops at its next boundary; once all have, the dump is written. -/
def State.fatal (s : State) (reason : Nat) : State :=
  if s.base.fw = .fatal then s
  else
    let s := s.onBase fun b => { b with fatalAt := some (b.fatalAt.getD (b.cycle, reason)) }
    let why := match s.base.fatalAt with | some (_, r) => r | none => reason
    if s.coresListed.any Core.midInstruction then s else s.finishFatal why []
/-- FATAL_ERROR (24 R404). -/
def execFatalError (reason : Nat) (s : State) : Host.Outcome State Fault Refusal := .next (s.fatal reason)
/-- A core taken out of service where it stands keeps its state; it never runs again before module reset. -/
def State.outOfService (s : State) (n : Nat) : State :=
  (s.setSlot n { s.slot n with state := .offline }).onCore n fun c => { c with phase := .offline }
/-- FATAL_CORE_TIMEOUT (24 R404): 1 ms later. -/
def execFatalCoreTimeout (s : State) : Host.Outcome State Fault Refusal :=
  match s.base.fatalAt with
  | some (t, reason) =>
    if s.base.fw = .fatal ∨ s.base.cycle < t + second / 1000 then .next s
    else
      let dead := (s.coresListed.filter Core.midInstruction).map Core.no
      let s := dead.foldl (fun s n => s.outOfService n) s
      .next (s.finishFatal reason dead)
  | none => .next s
/-- A pass has been due for 10 ms, and none has completed. -/
def State.passLate (s : State) : Bool :=
  s.sheep.hasWork && match s.sheep.workSince with | some t => decide (t + second / 100 ≤ s.base.cycle) | none => false
/-- Note since when a pass has been due. -/
def State.noteWork (s : State) : State :=
  if s.sheep.hasWork ∧ s.sheep.workSince.isNone then s.onSheep fun d => { d with workSince := some s.base.cycle } else s
/-- SHEEPDOG_WATCHDOG (24 R404): a pass that is due has not completed for 10 ms. -/
def execSheepdogWatchdog (s : State) : Host.Outcome State Fault Refusal :=
  .next (if s.base.serving ∧ s.passLate then s.fatal fatalWatchdog else s)
/-- A die that has been held for 10 s is fatal (25 R416). -/
def State.holdLimit (s : State) (die : Nat) : State :=
  match (s.base.die die).heldSince with
  | some t => if t + 10 * second ≤ s.base.cycle then s.fatal fatalThermal else s
  | none => s
/-- THERMAL_HOLD_LIMIT (25 R416). -/
def execThermalHoldLimit (die : Nat) (s : State) : Host.Outcome State Fault Refusal := .next (s.holdLimit die)

/-! ## Module reset and power loss (24 R398, R401; 25 R417) -/

/-- The module after a reset: low-power DDR, host memory, flash, the fused minimum and the used spares stay.
DEDUCED (log 54). -/
def State.resetModule (s : State) : State :=
  { State.reset with
    mem := s.mem, host := s.host, agenda := s.agenda, fresh := s.fresh,
    base := { Basecamp.reset with flash := s.base.flash, fusedSvn := s.base.fusedSvn, sparesUsed := s.base.sparesUsed,
                                  lost := s.base.lost.filter fun g => decide (8 * g < Config.ddrBytes),
                                  soft := s.base.soft.filter fun g => decide (8 * g < Config.ddrBytes) } }
/-- MODULE_RESET. -/
def execModuleReset (s : State) : Host.Outcome State Fault Refusal := .next s.resetModule
/-- The reset key (24 R398). -/
def resetKey : Word := 0x5EB0_0001
/-- MRESET_WRITE (24 R398). -/
def execMresetWrite (value : Word) (s : State) : Host.Outcome State Fault Refusal := .next (if value = resetKey then s.resetModule else s)
/-- POWER_LOSS (24 R401, 25 R417): memory is lost; a flash write in progress leaves no valid image. -/
def execPowerLoss (flashWrite : Bool) (s : State) : Host.Outcome State Fault Refusal :=
  let r := s.resetModule
  .next { r with mem := [], base := { r.base with powered := false, lost := [], soft := [], flash := if flashWrite then [] else r.base.flash } }

end Sys2Proof.Machine
end

