-- ==== Sys2Proof/Machine/Frames.lean ====
section
/-! DEFINITION. Frame records and conversion between frames (03 R65 to R70, 08 R175 to R179): reading records at
one logical time, the climb, the link steps and the range rule. -/

namespace Sys2Proof.Machine

/-- A frame record (03 R66). -/
structure FrameRec where
  parent : BitVec 32
  level : Nat
  exp : Int
  state : Nat
  splitAxis : Nat
  gen : BitVec 8
  version : BitVec 32
  rot : List Int
  trans : List Int
  extent : Nat
  splitThr : Int
  succLo : BitVec 32
  succHi : BitVec 32
deriving DecidableEq, Repr

/-- `n` bits of a record at a byte offset. -/
def recField (x off n : Nat) : Nat := x / 2 ^ (8 * off) % 2 ^ n
/-- A signed field of a record. -/
def recInt (x off n : Nat) : Int := (BitVec.ofNat n (recField x off n)).toInt
/-- A record from its 128 bytes (03 R66). -/
def FrameRec.ofBytes (x : Nat) : FrameRec :=
  { parent := BitVec.ofNat 32 (recField x 0 32), level := recField x 4 8, exp := recInt x 5 8, state := recField x 6 8,
    splitAxis := recField x 7 8, gen := BitVec.ofNat 8 (recField x 8 8), version := BitVec.ofNat 32 (recField x 0x0C 32),
    rot := (List.range 9).map fun k => recInt x (0x10 + 4 * k) 32, trans := (List.range 3).map fun k => recInt x (0x38 + 8 * k) 64,
    extent := recField x 0x50 32, splitThr := recInt x 0x54 32, succLo := BitVec.ofNat 32 (recField x 0x58 32),
    succHi := BitVec.ofNat 32 (recField x 0x5C 32) }

/-- A field placed at a byte offset. -/
def placeField (off n : Nat) (v : Int) : Nat := (v % 2 ^ n).toNat * 2 ^ (8 * off)
/-- The 128 bytes of a record; reserved bytes are zero (03 R66). -/
def FrameRec.toBytes (r : FrameRec) : Nat :=
  placeField 0 32 r.parent.toNat + placeField 4 8 r.level + placeField 5 8 r.exp + placeField 6 8 r.state
    + placeField 7 8 r.splitAxis + placeField 8 8 r.gen.toNat + placeField 0x0C 32 r.version.toNat
    + ((List.range 9).map fun k => placeField (0x10 + 4 * k) 32 (r.rot.getD k 0)).sum
    + ((List.range 3).map fun k => placeField (0x38 + 8 * k) 64 (r.trans.getD k 0)).sum
    + placeField 0x50 32 r.extent + placeField 0x54 32 r.splitThr + placeField 0x58 32 r.succLo.toNat
    + placeField 0x5C 32 r.succHi.toNat

/-- STATE codes (03 R66). -/
def frLive : Nat := 0
def frSplit : Nat := 1
def frDeleted : Nat := 2

/-- A malformed record (08 R176, step 2). -/
def FrameRec.malformed (r : FrameRec) : Bool :=
  decide (2 < r.state ∨ 15 < r.level ∨ (r.state = frSplit ∧ 2 < r.splitAxis) ∨ 2 ^ 31 ≤ r.extent)

/-- A tag's index and generation (03 R65). -/
def tagIndex (t : BitVec 32) : Nat := (t.extractLsb' 0 24).toNat
def tagGen (t : BitVec 32) : BitVec 8 := t.extractLsb' 24 8
/-- The record is LIVE and current for a tag. -/
def FrameRec.liveFor (r : FrameRec) (t : BitVec 32) : Bool := r.state == frLive && tagGen t == r.gen
/-- The record is SPLIT and one generation ahead of a tag (08 R179). -/
def FrameRec.behind (r : FrameRec) (t : BitVec 32) : Bool := r.state == frSplit && tagGen t == r.gen - 1

/-- A fault of a frame word: its code, and the tag or address of its record. -/
structure FrameErr where
  code : Nat
  addr : Word
deriving DecidableEq, Repr
/-- Frame fault codes (02 R51). -/
def frStale : Nat := 7
def frForeign : Nat := 8
def frRange : Nat := 9
def frMix : Nat := 10
/-- A frame fault with a tag, zero-extended. -/
def tagErr (code : Nat) (t : BitVec 32) : FrameErr := ⟨code, t.setWidth 64⟩

/-- The records of the frame table: 2^LOG2N, a LOG2N above 24 acting as 24 (11 R263). -/
def Csrs.frameCount (c : Csrs) : Nat := 2 ^ min (c.framebase.extractLsb' 0 5).toNat 24
/-- The virtual address of record `i` (03 R66, 11 R263: BASE is FRAMEBASE [63:7]). -/
def State.frameAddr (s : State) (i : Nat) : Word := (s.core.csr.framebase &&& ~~~ 127) + BitVec.ofNat 64 (128 * i)
/-- A malformed record, as an index at or above the table size reads (11 R263). -/
def FrameRec.bad : FrameRec := { FrameRec.ofBytes 0 with state := 255 }

/-! ## The frame-chain cache (12 R267) -/

/-- The earlier of two ends of leases. -/
def ltMin (a b : LTime) : LTime := if ltBefore a b then a else b
/-- The link entry of a record, under its lease, with no lost byte, where the record may be read as a miss would read it (08 R175). -/
def State.chainHit (s : State) (i : Nat) : Option ChainEntry :=
  s.core.chain.find? fun e =>
    e.asid == s.asidNow && e.index == i && ltGe e.lease (some s.core.ltime) && !s.lostAt e.pa 128 &&
      (match s.placeBare (s.frameAddr i) .load s.superMode with | (.ok pa, _) => pa == e.pa | _ => false)
/-- A link entry becomes the latest used; the cache holds 512. -/
def State.chainPut (s : State) (e : ChainEntry) : State :=
  { s with core := { s.core with chain := (e :: s.core.chain.filter fun x => !(x.asid == e.asid && x.index == e.index)).take 512 } }
/-- The record just read becomes a link entry, where both its blocks are copies of DDR under a lease. -/
def State.chainFill (s : State) (i pa data : Nat) : State :=
  match placeOf pa, s.core.copy (blockOf pa), s.core.copy (blockOf pa + 1) with
  | .ddr, some x, some y =>
    s.chainPut { asid := s.asidNow, index := i, pa := pa, data := data, wts := ltMax x.wts y.wts,
                 lease := ltMin (s.core.leaseEnd x) (s.core.leaseEnd y) }
  | _, _, _ => s

/-- Read a record with supervisor permission (08 R175): from the frame-chain cache, or its two blocks. DEDUCED (log 17). -/
def State.readFrame (s : State) (i : Nat) : Except AccErr FrameRec × State :=
  let a := s.frameAddr i
  if s.core.csr.frameCount ≤ i then (.ok FrameRec.bad, s)
  else
    -- a store of the micro-thread to the record comes first, and drops the entry
    let s := match s.chainHit i with | some e => s.inTurn (.mt s.core.curMt) (virtSpot a e.pa 128) | none => s
    match s.chainHit i with
    | some e => (.ok (FrameRec.ofBytes e.data), s.chainPut e)
    | none =>
      match (s.note 11).checkOwn (.mt s.core.curMt) a 64 s.superMode with
      | (.error e, s) => (.error e, s)
      | (.ok pa, s) =>
        let (lo, s) := (s.inTurn (.mt s.core.curMt) (virtSpot a pa 64)).physRead (s.keyFor (some a.toNat)) pa 64
        match s.checkOwn (.mt s.core.curMt) (a + 64) 64 s.superMode with
        | (.error e, s) => (.error e, s)
        | (.ok pb, s) =>
          let (hi, s) := (s.inTurn (.mt s.core.curMt) (virtSpot (a + 64) pb 64)).physRead (s.keyFor (some (a + 64).toNat)) pb 64
          (.ok (FrameRec.ofBytes (lo + 2 ^ 512 * hi)), s.chainFill i pa (lo + 2 ^ 512 * hi))

/-- Read the record of a tag for a frame word; a failed read is fault 4, 6 or 14 with the record's address. -/
def State.recOf (s : State) (t : BitVec 32) : Except FrameErr FrameRec × State :=
  match s.readFrame (tagIndex t) with
  | (.error .page, s') => (.error ⟨4, s.frameAddr (tagIndex t)⟩, s')
  | (.error .access, s') => (.error ⟨6, s.frameAddr (tagIndex t)⟩, s')
  | (.error .lost, s') => (.error ⟨14, s.frameAddr (tagIndex t)⟩, s')
  | (.ok r, s) => (.ok r, s)

/-- Steps 2 and 3 of 08 R176 on the tags in order: every record well formed, then every tag current. -/
def State.checkTags (s : State) (ok : FrameRec → BitVec 32 → Bool) : List (BitVec 32) → Except FrameErr (List FrameRec) × State
  | [] => (.ok [], s)
  | t :: ts =>
    match s.recOf t with
    | (.error e, s) => (.error e, s)
    | (.ok r, s) =>
      if r.malformed then (.error (tagErr frForeign t), s)
      else
        match State.checkTags s ok ts with
        | (.error e, s) =>
          -- a later tag that is malformed is found before an earlier one is found stale
          if e.code = frStale ∧ !ok r t then (.error (tagErr frStale t), s) else (.error e, s)
        | (.ok rs, s) => if ok r t then (.ok (r :: rs), s) else (.error (tagErr frStale t), s)

/-- The two sides of a climb: each side's records, the latest first, with their indices (08 R176). -/
structure Climb where
  src : List (Nat × FrameRec)
  tgt : List (Nat × FrameRec)
deriving DecidableEq, Repr

/-- The head of a side. -/
def sideHead (l : List (Nat × FrameRec)) : Nat × FrameRec := l.headD (0, FrameRec.ofBytes 0)

/-- The climb from both sides until they meet (08 R176, steps 4 to 6). At most 15 moves of each side reach
LEVEL 0, so the fuel given is never used up. -/
def State.climb (s : State) (target : BitVec 32) : Nat → Climb → Except FrameErr Climb × State
  | 0, c => (.ok c, s)
  | fuel + 1, c =>
    let (si, sr) := sideHead c.src
    let (ti, tr) := sideHead c.tgt
    if si = ti then (.ok c, s)
    else if sr.level = 0 ∧ tr.level = 0 then (.error (tagErr frForeign target), s)
    else
      let srcMoves := decide (tr.level ≤ sr.level)
      let child := if srcMoves then sr else tr
      let p := child.parent
      match s.recOf p with
      | (.error e, s) => (.error e, s)
      | (.ok r, s) =>
        if r.malformed then (.error (tagErr frForeign p), s)
        else if !r.liveFor p then (.error (tagErr frStale p), s)
        else if r.level + 1 ≠ child.level then (.error (tagErr frForeign p), s)
        else
          State.climb s target fuel
            (if srcMoves then { c with src := (tagIndex p, r) :: c.src } else { c with tgt := (tagIndex p, r) :: c.tgt })

/-- RoundNE(u × 2^k) to an integer (03 R69). -/
def roundScaled (u : Int) (k : Int) : Int :=
  let (r, _) := roundTo rne (decide (u < 0)) u.natAbs k 0
  if u < 0 then -r else r

/-- Child to parent (03 R69). -/
def linkUp (pos : Bool) (c p : FrameRec) (v : List Int) : List Int :=
  (List.range 3).map fun i =>
    let u := c.rot.getD (3 * i) 0 * v.getD 0 0 + c.rot.getD (3 * i + 1) 0 * v.getD 1 0 + c.rot.getD (3 * i + 2) 0 * v.getD 2 0
    roundScaled u (c.exp - p.exp - 30) + (if pos then c.trans.getD i 0 else 0)
/-- Parent to child (03 R69). -/
def linkDown (pos : Bool) (c p : FrameRec) (v : List Int) : List Int :=
  let d := (List.range 3).map fun j => v.getD j 0 - (if pos then c.trans.getD j 0 else 0)
  (List.range 3).map fun i =>
    let u := c.rot.getD i 0 * d.getD 0 0 + c.rot.getD (3 + i) 0 * d.getD 1 0 + c.rot.getD (6 + i) 0 * d.getD 2 0
    roundScaled u (p.exp - c.exp - 30)

/-- Every component lies in int64 (03 R68). -/
def inInt64 (v : List Int) : Bool := v.all fun x => decide (-(2 ^ 63) ≤ x ∧ x < 2 ^ 63)

/-- Apply link steps in order; every value at an intermediate frame is an int64 triple, the final one is left
to 03 R70. DEDUCED (log 16). -/
def applyLinks (target : BitVec 32) : List (List Int → List Int) → List Int → Except FrameErr (List Int)
  | [], v => .ok v
  | f :: fs, v =>
    let v := f v
    if fs = [] ∨ inInt64 v then applyLinks target fs v else .error (tagErr frRange target)

/-- The link steps along a list of records, upwards from its first. -/
def linksUp (pos : Bool) : List (Nat × FrameRec) → List (List Int → List Int)
  | (_, c) :: (i, p) :: rest => linkUp pos c p :: linksUp pos ((i, p) :: rest)
  | _ => []
/-- The link steps along a list of records, downwards from its first. -/
def linksDown (pos : Bool) : List (Nat × FrameRec) → List (List Int → List Int)
  | (_, p) :: (i, c) :: rest => linkDown pos c p :: linksDown pos ((i, c) :: rest)
  | _ => []

/-- The exact conversion of a triple from the frame of one tag to that of another, whose records have passed
their checks (03 R68, 08 R176). `target` is the tag that step 6 and step 7 name. -/
def State.convert (s : State) (pos : Bool) (ft gt : BitVec 32) (fr gr : FrameRec) (target : BitVec 32) (v : List Int) :
    Except FrameErr (List Int) × State :=
  match s.climb target 40 ⟨[(tagIndex ft, fr)], [(tagIndex gt, gr)]⟩ with
  | (.error e, s) => (.error e, s)
  | (.ok c, s) => (applyLinks target (linksUp pos c.src.reverse ++ linksDown pos c.tgt) v, s)

/-- The range rule (03 R70) on exact final components: each in int32 and within `bound`, where one is given;
under .sat an offending one becomes ±`lim` and raises OF. -/
def finalRange (sat : Bool) (bound : Option Nat) (target : BitVec 32) (v : List Int) : Except FrameErr (List Int × Flags) :=
  let lim : Int := match bound with | some b => b | none => 2 ^ 31 - 1
  let fits := fun x : Int => decide (-(2 ^ 31) ≤ x ∧ x < 2 ^ 31) && (match bound with | some b => decide (x.natAbs ≤ b) | none => true)
  if v.all fits then .ok (v, 0)
  else if sat then .ok (v.map fun x => if fits x then x else if 0 < x then lim else -lim, flOF)
  else .error (tagErr frRange target)

/-- Perform a computation again until no record it reads raises LTIME, so that all its records are read at one
logical time (08 R175). Each repetition finds every lease renewed; the fuel given is never used up. -/
def atOneTime {α : Type} (f : State → α × State) : Nat → State → α × State
  | 0, s => f s
  | n + 1, s => let (a, t) := f s; if t.core.ltime = s.core.ltime then (a, t) else atOneTime f n t

end Sys2Proof.Machine
end

