-- ==== Sys2Proof/Machine/FrameCt.lean ====
section
/-! DEFINITION. The frame instructions of the control thread: FNEW, FSET, FSPLIT, FDEL (11 R238, R251, R252). -/

namespace Sys2Proof.Machine

/-- Read `n` pieces of 16 bytes as user loads (11 R251). -/
def State.loadPieces (s : State) (a : Word) : Nat → Except AccErr Nat × State
  | 0 => (.ok 0, s)
  | n + 1 =>
    match s.loadPlain .ct none a 16 s.userMode [] with
    | (.error e, s) => (.error e, s)
    | (.ok x, s) =>
      match State.loadPieces s (a + 16) n with
      | (.error e, s) => (.error e, s)
      | (.ok y, s) => (.ok (x + 2 ^ 128 * y), s)

/-- Read a template or a split descriptor; a misaligned one is cause 4, a failed read names its address. -/
def State.withTemplate (s : State) (a : Word) (pieces : Nat) (f : Nat → State → State) : State :=
  if a.toNat % 16 ≠ 0 then s.trap 4 a
  else match s.begins.loadPieces a pieces with
  | (.error e, s) => s.accTrap e .load a 0
  | (.ok x, s) => f x s

/-- The raw bytes of record `i` at their home, for a check: supervisor permission, no lease, nothing written (11 R237, R251). An index
at or above the table size reads as a malformed record (11 R263). -/
def State.homeRecord (s : State) (i : Nat) : Except AccErr Nat × State :=
  let a := s.frameAddr i
  if s.core.csr.frameCount ≤ i then (.ok FrameRec.bad.toBytes, s)
  else match s.checkBare a 128 s.superMode with
  | (.error e, s) => (.error e, s)
  | (.ok pa, s) =>
    let half := fun (va : Word) (pa : Nat) (s : State) =>
      if placeOf pa = .ddr then s.homeReadBy (s.keyFor (some va.toNat)) pa 64 else s.physRead .block pa 64
    let (lo, s) := half a pa (s.inTurn .ct (virtSpot a pa 128))
    let (hi, s) := half (a + 64) (pa + 64) s
    (.ok (lo + 2 ^ 512 * hi), s)
/-- Run a check on a record; a failed read is cause 13, 5 or 31 with the record's address. -/
def State.withRecord (s : State) (i : Nat) (f : Nat → State → State) : State :=
  match s.homeRecord i with
  | (.error e, s) => s.accTrap e .load (s.frameAddr i) 0
  | (.ok x, s) => f x s

/-- stval of cause 28 (11 R238). -/
def frameTval (code : Nat) (tag : BitVec 32) : Word := BitVec.ofNat 64 (code * 2 ^ 32 + tag.toNat)
/-- A frame fault at the control thread. -/
def State.frameTrap (s : State) (code : Nat) (tag : BitVec 32) : State := s.trap 28 (frameTval code tag)

/-- Replace `n` bits of a record at a byte offset. -/
def setRec (x off n : Nat) (v : Int) : Nat := x - recField x off n * 2 ^ (8 * off) + placeField off n v
/-- Copy a field from a template. -/
def copyRec (t x off n : Nat) : Nat := setRec x off n (recField t off n)

/-- Write a record's two blocks as one version, after the end of every lease on either (12 R268), and give the tenures up. -/
def State.writeRecord (s : State) (k k' : TKey) (pa x : Nat) : State :=
  let s := ((s.clampEntry k pa).recallFrom s.core.no k pa).clampEntry k' (pa + 64)
  let s := s.recallFrom s.core.no k' (pa + 64)
  let s := s.raiseTime (ltAdd (ltMax (s.tenure k pa).rts (s.tenure k' (pa + 64)).rts) 1)
  let s := s.takeWrite k pa false
  let s := s.putBlock k pa (BitVec.ofNat 512 x)
  let s := if k = k' ∧ k ≠ .block then s else s.takeWrite k' (pa + 64) false
  let s := (s.putBlock k' (pa + 64) (BitVec.ofNat 512 (x / 2 ^ 512))).repair pa 128
  (s.giveBack k pa).giveBack k' (pa + 64)

/-- Change record `i`: VERSION rises by one; both blocks are written under write tenure, which is released at module
scope (11 R251). -/
def State.changeRecord (s : State) (i x : Nat) (rd : XReg) (v : Word) : State :=
  let a := s.frameAddr i
  match s.checkVirt a 128 .store s.superMode with
  | (.error e, s) => s.accTrap e .store a 0
  | (.ok pa, s) =>
    let x := setRec x 0x0C 32 (recField x 0x0C 32 + 1)
    let s := (s.release 3).acquired
    let s := if placeOf pa = .ddr then s.writeRecord (s.keyFor (some a.toNat)) (s.keyFor (some (a + 64).toNat)) pa x
      else (s.physWrite .block pa 64 x false).physWrite .block (pa + 64) 64 (x / 2 ^ 512) false
    s.result rd v

/-- ROT and EXTENT of a template are in range (11 R251). -/
def shapeOk (t : Nat) : Bool :=
  let r := FrameRec.ofBytes t
  (r.rot.all fun x => decide (-(2 ^ 30) ≤ x ∧ x ≤ 2 ^ 30)) && decide (r.extent < 2 ^ 31)
/-- ROT, TRANS and EXTENT from a template. -/
def takeShape (t x : Nat) : Nat :=
  let x := (List.range 9).foldl (fun x k => copyRec t x (0x10 + 4 * k) 32) x
  let x := (List.range 3).foldl (fun x k => copyRec t x (0x38 + 8 * k) 64) x
  copyRec t x 0x50 32

/-- The record that FNEW writes: everything from the template but STATE, LEVEL and what is zero; GEN and VERSION are
the target's. -/
def newRecord (t old level : Nat) : Nat :=
  let x := copyRec old (copyRec old 0 8 8) 0x0C 32
  takeShape t (setRec (copyRec t (copyRec t x 0 32) 5 8) 4 8 level)

/-- FNEW's last checks and change. -/
def State.makeFrame (s : State) (rd : XReg) (i t old level : Nat) : State :=
  if 15 < level ∨ !shapeOk t then s.status3 rd stBadrec
  else s.changeRecord i (newRecord t old level) rd (BitVec.ofNat 64 (recField old 8 8 * 2 ^ 24 + i))

/-- fnew (11 R251). -/
def execFnew (rd rs1 : XReg) (s : State) : Host.Outcome State Fault Refusal :=
  .next (s.withTemplate (s.getX rs1) 8 fun t s =>
    let i := recField t 0x60 32
    if i = 0 ∨ s.core.csr.frameCount ≤ i then s.status3 rd stBadrec
    else s.withRecord i fun old s =>
      if recField old 6 8 ≠ frDeleted then s.status3 rd stBusy
      else if recField t 4 8 = 0 then s.makeFrame rd i t old 0
      else
        let p := BitVec.ofNat 32 (recField t 0 32)
        s.withRecord (tagIndex p) fun x s =>
          let r := FrameRec.ofBytes x
          if r.malformed then s.frameTrap frForeign p
          else if !r.liveFor p then s.frameTrap frStale p
          else s.makeFrame rd i t old (r.level + 1))

/-- The record of a tag that must be well formed, and pass a test of currency (11 R251). -/
def State.withFrame (s : State) (tag : BitVec 32) (ok : FrameRec → Bool) (f : Nat → State → State) : State :=
  s.withRecord (tagIndex tag) fun x s =>
    let r := FrameRec.ofBytes x
    if r.malformed then s.frameTrap frForeign tag
    else if !ok r then s.frameTrap frStale tag
    else f x s

/-- fset (11 R251). DEDUCED (log 18). -/
def execFset (rd rs1 rs2 : XReg) (s : State) : Host.Outcome State Fault Refusal :=
  let v := s.getX rs1
  let tag : BitVec 32 := v.setWidth 32
  .next (s.withTemplate (s.getX rs2) 8 fun t s =>
    s.withFrame tag (fun r => r.liveFor tag) fun x s =>
      if !shapeOk t then s.status3 rd stBadrec
      else s.changeRecord (tagIndex tag) (takeShape t x) rd v)

/-- A successor of a split: well formed, current, and neither the frame nor one of its children; a root's
PARENT is ignored (03 R66). DEDUCED (log 19). -/
def State.withSuccessor (s : State) (rd : XReg) (frame u : BitVec 32) (f : State → State) : State :=
  s.withFrame u (fun r => r.liveFor u) fun x s =>
    let r := FrameRec.ofBytes x
    if tagIndex u = tagIndex frame ∨ (r.level ≠ 0 ∧ tagIndex r.parent = tagIndex frame) then s.status3 rd stBadrec else f s

/-- fsplit (11 R251). -/
def execFsplit (rd rs1 rs2 : XReg) (s : State) : Host.Outcome State Fault Refusal :=
  let v := s.getX rs1
  let tag : BitVec 32 := v.setWidth 32
  .next (s.withTemplate (s.getX rs2) 1 fun d s =>
    s.withFrame tag (fun r => r.liveFor tag) fun x s =>
      if 2 < recField d 0 8 then s.status3 rd stBadrec
      else
        s.withSuccessor rd tag (BitVec.ofNat 32 (recField d 8 32)) fun s =>
          s.withSuccessor rd tag (BitVec.ofNat 32 (recField d 12 32)) fun s =>
            let x := setRec (setRec x 6 8 frSplit) 7 8 (recField d 0 8)
            let x := setRec (setRec x 0x54 32 (recField d 4 32)) 0x58 32 (recField d 8 32)
            let x := setRec (setRec x 0x5C 32 (recField d 12 32)) 8 8 (recField x 8 8 + 1)
            s.changeRecord (tagIndex tag) x rd v)

/-- fdel (11 R251). -/
def execFdel (rd rs1 : XReg) (s : State) : Host.Outcome State Fault Refusal :=
  let v := s.getX rs1
  let tag : BitVec 32 := v.setWidth 32
  .next (s.begins.withFrame tag (fun r => r.liveFor tag || r.behind tag) fun x s =>
    let x := setRec (setRec x 6 8 frDeleted) 8 8 (recField x 8 8 + 1)
    s.changeRecord (tagIndex tag) (setRec (setRec (setRec x 0x54 32 0) 0x58 32 0) 0x5C 32 0) rd v)

end Sys2Proof.Machine
end

