-- ==== Sys2Proof/Machine/MtEvents.lean ====
section
/-! DEFINITION. Steps of the vector queues and of the micro-thread array of the core in focus (02 R31, R38, R41,
R53). A step whose condition does not hold changes nothing (log 4). -/

namespace Sys2Proof.Machine

/-- The registers that an entry has touched itself in a turn that left `t`: those of the elements that it has performed, the sources
that a lane modifier captures. -/
def State.touchedBy (s : State) (e : Entry) (t : State) : State :=
  let regs := fun (b : BitVec 64) => (List.range 64).filter fun r => b.getLsbD r
  let left := match t.core.vec.queue.find? fun x => x.id == e.id with | some x => if x.distributed then [] else x.elems | none => []
  let pairsOf := fun (ms rs : List Nat) => ms.flatMap fun m => rs.map fun r => (r, m)
  match e.op with
  | .fetch _ => t
  | .carrier w lane => if lane = 0 then t else t.touched (pairsOf (List.range e.vl) (span (fieldA w) (spanAWord w))) []
  | _ =>
    let x := Entry.touch { e with space := 0 } s.nregs
    let ms := e.elems.filter fun m => !left.contains m
    t.touched (pairsOf ms (regs x.regReads)) (pairsOf ms (regs x.regWrites))
/-- The oldest entry of a queue that has not distributed has its turn. -/
def State.distributeOne (s : State) (q : VQueue) (limit : Option Nat) : State :=
  match s.toDistribute q with
  | some e =>
    if s.canDistribute e then
      let t := s.distribute e limit
      if t.base.soft = [] then t else s.touchedBy e t
    else s
  | none => s
/-- VQ_DISTRIBUTE (02 R31, R37). -/
def execVqDistribute (q : VQueue) (s : State) : Host.Outcome State Fault Refusal := .next (s.distributeOne q none)

/-- VQ_RETIRE (02 R31, 03 R85). -/
def execVqRetire (q : VQueue) (s : State) : Host.Outcome State Fault Refusal :=
  match s.toRetire q with
  | some e => .next (s.retire e)
  | none => .next s

/-- MT_TAKE_ITEM (02 R31, R38). -/
def execMtTakeItem (m : Nat) (s : State) : Host.Outcome State Fault Refusal :=
  .next (if (s.mt m).phase = .stopped ∧ s.itemReady m then s.takeItem m else s)

/-- A waiting micro-thread whose condition now holds. -/
def Mt.startable (t : Mt) (empty : BitVec 64) : Bool :=
  (t.phase == .waitEmpty || t.phase == .waitLink) && (t.enter empty).phase != t.phase

/-- BLOCK_START (02 R41, R44, R53). -/
def execBlockStart (m : Nat) (s : State) : Host.Outcome State Fault Refusal :=
  .next (if (s.mt m).startable (s.emptyFor (s.mt m)) then s.onMt m fun t => t.enter (s.emptyFor t) else s)

/-- Where micro-thread `m` delivers, at the moment of delivery (06 R138): `none` is the link-out FIFO. -/
def State.linkTarget (s : State) (m : Nat) : Option Nat := if s.core.csr.vl ≤ m + 1 then none else some (m + 1)
/-- The target has room: an empty slot, or fewer than 16 values in the FIFO (02 R40). -/
def State.linkRoom (s : State) (m : Nat) : Bool :=
  match s.linkTarget m with
  | none => decide (s.core.vec.fifo.length < 16)
  | some t => (s.mt t).slot.isNone
/-- Deliver, after every earlier access of the micro-thread (14 R303), and let the chain continue or end (02 R41). -/
def State.deliver (s : State) (m : Nat) (v : MWord) : State :=
  let s := s.drainBy (Late.ofMt m)
  let s := match s.linkTarget m with
    | none => s.onVec fun w => { w with fifo := w.fifo ++ [v] }
    | some t => s.onMt t fun x => { x with slot := some v }
  s.onMt m fun t => Mt.enter { t with link := none } (s.emptyFor t)

/-- LINK_DELIVER (02 R41, 06 R138). -/
def execLinkDeliver (m : Nat) (s : State) : Host.Outcome State Fault Refusal :=
  match (s.mt m).link with
  | some v => .next (if (s.mt m).phase = .linkPending ∧ s.linkRoom m then s.deliver m v else s)
  | none => .next s

/-- MT_DATA_RETURN (08 R170): the load's word ends. -/
def execMtDataReturn (m : Nat) (s : State) : Host.Outcome State Fault Refusal :=
  .next (if (s.mt m).dataWait then s.onMt m fun t => Mt.next { t with dataWait := false } else s)

/-- PAGE_WALK_COMPLETE (22 R352) of a page in the miss queue of the core in focus: it leaves the queue, and who waited for it or for room may
go on; the walk, where the die's translation cache lacks the page, fills that cache and the TLB and sets A, but no D: nothing is written
yet (R353). A walk that fails leaves its report to the access. -/
def execPageWalkComplete (va : Word) (kind : Access) (s : State) : Host.Outcome State Fault Refusal :=
  let p := va.toNat / 4096
  if !s.core.misses.contains p then .next s
  else
    let left := s.core.misses.filter (· != p)
    let s := { s with core := { s.core with misses := left, missed := s.core.missed.filter fun x => left.contains x.2 } }
    .next (s.translate va (if kind = .fetch then .fetch else .load) s.ctMode).2
/-- A page that the TLB lacks enters the miss queue, which holds 256; a miss on a queued page joins it (22 R352). -/
def State.queueMiss (s : State) (va : Word) : State :=
  let p := va.toNat / 4096
  if s.core.misses.contains p ∨ 256 ≤ s.core.misses.length ∨ s.core.tlb.any (fun e => e.asid == s.asidNow && decide (e.va ≤ va.toNat ∧ va.toNat < e.va + e.bytes))
  then s else { s with core := { s.core with misses := s.core.misses ++ [p] } }

/-! ## Micro-threads that can issue (02 R42) -/

/-- Words that access memory: loads, stores and atomics, and frame words, which read records (14 R293). -/
def isMemoryWord (w : MWord) : Bool := let m := (bits w 0 6).toNat; decide (0x28 ≤ m ∧ m ≤ 0x2D) || isFrameWord w

/-- The register or pair that an atomic of micro-thread `m` which was left is still to write. -/
def Late.owedBy (m : Nat) (l : Late) : List Nat :=
  match l.who, l.op with
  | .mt k, .amoMt _ _ _ d => if k = m then span d (if l.spot.n = 8 then 2 else 1) else []
  | _, _ => []
/-- A word may run while atomics of its micro-thread are left: it names none of their registers, and it is not the last of its
block. -/
def State.owesNothing (s : State) (m : Nat) (t : Mt) (w : MWord) : Bool :=
  let rs := s.core.vec.late.flatMap (Late.owedBy m)
  rs == [] || (decide (t.ix + 1 < t.words.length) && (namesOf w).all fun r => !rs.contains r)
/-- Micro-thread `m` waits for a page of the miss queue, or for room there (22 R352). -/
def State.awaitsPage (s : State) (m : Nat) : Bool :=
  s.core.missed.any fun x => x.1 == m && (s.core.misses.contains x.2 || decide (256 ≤ s.core.misses.length))
/-- Micro-thread `m` is ready to issue its next word: a special-function word's operand has been accepted (07 R156). A memory word of an entry that was issued after a vlnkget
waits for it (14 R303). -/
def State.mtReady (s : State) (m : Nat) : Bool :=
  let t := s.mt m
  t.phase == .ready && !t.dataWait && !s.awaitsPage m && !s.core.vec.pipe.contains m &&
    match t.words[t.ix]? with
    | some w => (!isMemoryWord w || !s.linkGetBefore t.age) && s.owesNothing m t w
    | none => false

end Sys2Proof.Machine
end

