-- ==== Sys2Proof/Machine/MtFrame.lean ====
section
/-! DEFINITION. Micro-thread frame words (08 R175 to R180). -/

namespace Sys2Proof.Machine

/-- A framed value: its tag and three offsets (03 R65). -/
structure Framed where
  tag : BitVec 32
  offs : List Int
deriving DecidableEq, Repr

/-- The framed value of quad A. -/
def State.quadA (s : State) (a : VReg) : Framed := ⟨s.regA a 0, (List.range 3).map fun k => (s.regA a (k + 1)).toInt⟩
/-- The framed value of a quad. -/
def State.quad (s : State) (r : VReg) : Framed := ⟨s.reg r.toNat, (List.range 3).map fun k => (s.reg (r.toNat + k + 1)).toInt⟩
/-- Write a framed value to quad D. -/
def State.setQuad (s : State) (d : VReg) (v : Framed) : State :=
  (List.range 3).foldl (fun s k => s.setReg (d.toNat + k + 1) (BitVec.ofInt 32 (v.offs.getD k 0))) (s.setReg d.toNat v.tag)

/-- A frame word: its records at one logical time, then its fault, or D written whole and OF recorded. -/
def frameWord (i : Instr) (d : VReg) (f : State → Except FrameErr (Framed × Flags) × State) (s : State) :
    Host.Outcome State Fault Refusal :=
  s.word i fun s =>
    match atOneTime f 64 s with
    | (.error e, s) => s.mtFault e.code e.addr
    | (.ok (v, fl), s) => ((s.setQuad d v).raiseFlags fl).wordDone

/-- Convert a framed value to the frame of a tag with the checks of pxf and prot (08 R176, R177). -/
def State.toFrame (s : State) (pos sat : Bool) (x : Framed) (g : BitVec 32) : Except FrameErr (Framed × Flags) × State :=
  match s.checkTags FrameRec.liveFor [x.tag, g] with
  | (.error e, s) => (.error e, s)
  | (.ok rs, s) =>
    let fr := rs.getD 0 (FrameRec.ofBytes 0)
    let gr := rs.getD 1 (FrameRec.ofBytes 0)
    match s.convert pos x.tag g fr gr g x.offs with
    | (.error e, s) => (.error e, s)
    | (.ok v, s) =>
      match finalRange sat (some gr.extent) g v with
      | .error e => (.error e, s)
      | .ok (v, fl) => (.ok (⟨g, v⟩, fl), s)

/-- pxf (08 R177). -/
def execPxf (sat : Bool) (d a b : VReg) (s : State) : Host.Outcome State Fault Refusal :=
  frameWord (.pxf sat d a b) d (fun s => s.toFrame true sat (s.quadA a) (s.reg b.toNat)) s
/-- prot (08 R177). -/
def execProt (sat : Bool) (d a b : VReg) (s : State) : Host.Outcome State Fault Refusal :=
  frameWord (.prot sat d a b) d (fun s => s.toFrame false sat (s.quadA a) (s.reg b.toNat)) s

/-- The operand B of padd and psub brought into A's frame (08 R178): as it stands when the tags are equal, else
converted as prot (padd) or pxf (psub) does, with the range rule against A's EXTENT. Also A's EXTENT. -/
def State.sameFrame (s : State) (pos sat x : Bool) (va vb : Framed) : Except FrameErr (List Int × Nat × Flags) × State :=
  if va.tag = vb.tag then
    match s.checkTags FrameRec.liveFor [va.tag] with
    | (.error e, s) => (.error e, s)
    | (.ok rs, s) => (.ok (vb.offs, (rs.getD 0 (FrameRec.ofBytes 0)).extent, 0), s)
  else if !x then (.error (tagErr frMix vb.tag), s)
  else
    match s.checkTags FrameRec.liveFor [va.tag, vb.tag] with
    | (.error e, s) => (.error e, s)
    | (.ok rs, s) =>
      let ar := rs.getD 0 (FrameRec.ofBytes 0)
      let br := rs.getD 1 (FrameRec.ofBytes 0)
      match s.convert pos vb.tag va.tag br ar va.tag vb.offs with
      | (.error e, s) => (.error e, s)
      | (.ok v, s) =>
        match finalRange sat (some ar.extent) va.tag v with
        | .error e => (.error e, s)
        | .ok (v, fl) => (.ok (v, ar.extent, fl), s)

/-- padd (08 R178): the exact sum, in int32 and within A's EXTENT. -/
def execPadd (sat x : Bool) (d a b : VReg) (s : State) : Host.Outcome State Fault Refusal :=
  frameWord (.padd sat x d a b) d (fun s =>
    let va := s.quadA a
    match s.sameFrame false sat x va (s.quad b) with
    | (.error e, s) => (.error e, s)
    | (.ok (v, ext, fl), s) =>
      match finalRange sat (some ext) va.tag (List.zipWith (· + ·) va.offs v) with
      | .error e => (.error e, s)
      | .ok (v, fl2) => (.ok (⟨va.tag, v⟩, fl ||| fl2), s)) s
/-- psub (08 R178): the exact difference, in int32. -/
def execPsub (sat x : Bool) (d a b : VReg) (s : State) : Host.Outcome State Fault Refusal :=
  frameWord (.psub sat x d a b) d (fun s =>
    let va := s.quadA a
    match s.sameFrame true sat x va (s.quad b) with
    | (.error e, s) => (.error e, s)
    | (.ok (v, _, fl), s) =>
      match finalRange sat none va.tag (List.zipWith (· - ·) va.offs v) with
      | .error e => (.error e, s)
      | .ok (v, fl2) => (.ok (⟨va.tag, v⟩, fl ||| fl2), s)) s

/-- pretag's loop (08 R179): up to 8 forwards through split records. A successor that is out of date is found so at the next forward,
after the conversion to it (R176 step 3). A tag that would be found after the 8th forward is not
read: the loop of R179 ends STALE there, though its comment speaks of more than 8 splits, and 12 R273 of up to 8. DESIGN
CHOICE (log 67). -/
def State.forward (s : State) (sat : Bool) : Nat → Framed → Flags → Except FrameErr (Framed × Flags) × State
  | 0, x, _ => (.error (tagErr frStale x.tag), s)
  | n + 1, x, fl =>
    match s.recOf x.tag with
    | (.error e, s) => (.error e, s)
    | (.ok r, s) =>
      if r.malformed then (.error (tagErr frForeign x.tag), s)
      else if r.liveFor x.tag then (.ok (x, fl), s)
      else if !r.behind x.tag then (.error (tagErr frStale x.tag), s)
      else
        let u := if x.offs.getD r.splitAxis 0 < r.splitThr then r.succLo else r.succHi
        match s.checkTags (fun _ _ => true) [u] with
        | (.error e, s) => (.error e, s)
        | (.ok us, s) =>
          let ur := us.getD 0 (FrameRec.ofBytes 0)
          match s.convert true x.tag u r ur u x.offs with
          | (.error e, s) => (.error e, s)
          | (.ok v, s) =>
            match finalRange sat (some ur.extent) u v with
            | .error e => (.error e, s)
            | .ok (v, fl2) => State.forward s sat n ⟨u, v⟩ (fl ||| fl2)

/-- pretag (08 R179). -/
def execPretag (sat : Bool) (d a : VReg) (s : State) : Host.Outcome State Fault Refusal :=
  frameWord (.pretag sat d a) d (fun s => s.forward sat 8 (s.quadA a) 0) s

/-- pchk's status word (08 R180). -/
def pchkWord (r : FrameRec) (t : BitVec 32) : MWord :=
  let info := ((r.exp % 256).toNat * 2 ^ 16 + r.level * 2 ^ 8 : Nat)
  if r.malformed then 3
  else if r.liveFor t then BitVec.ofNat 32 info
  else if r.behind t then BitVec.ofNat 32 (info + 1)
  else 2
/-- pchk (08 R180). -/
def execPchk (d a : VReg) (s : State) : Host.Outcome State Fault Refusal :=
  s.word (.pchk d a) fun s =>
    let t := s.regA a 0
    match atOneTime (fun s => s.recOf t) 64 s with
    | (.error e, s) => s.mtFault e.code e.addr
    | (.ok r, s) => (s.setReg d.toNat (pchkWord r t)).wordDone

end Sys2Proof.Machine
end

