-- ==== Sys2Proof/Machine/Dispatch.lean ====
section
/-! DEFINITION. One arm for each constructor of `Instr`: the meaning of each instruction and of each step. -/

namespace Sys2Proof.Machine

/-- What an instruction, or the step of another agent, does to the module. -/
def exec (i : Instr) (s : State) : Host.Outcome State Fault Refusal :=
  match i with
  | .add w d a b => Sys2Proof.Machine.execAdd w d a b s
  | .sub w d a b => Sys2Proof.Machine.execSub w d a b s
  | .and w d a b => Sys2Proof.Machine.execAnd w d a b s
  | .or w d a b => Sys2Proof.Machine.execOr w d a b s
  | .xor w d a b => Sys2Proof.Machine.execXor w d a b s
  | .andn w d a b => Sys2Proof.Machine.execAndn w d a b s
  | .sll w d a b => Sys2Proof.Machine.execSll w d a b s
  | .srl w d a b => Sys2Proof.Machine.execSrl w d a b s
  | .sra w d a b => Sys2Proof.Machine.execSra w d a b s
  | .min w d a b => Sys2Proof.Machine.execMin w d a b s
  | .max w d a b => Sys2Proof.Machine.execMax w d a b s
  | .minu w d a b => Sys2Proof.Machine.execMinu w d a b s
  | .maxu w d a b => Sys2Proof.Machine.execMaxu w d a b s
  | .slt w d a b => Sys2Proof.Machine.execSlt w d a b s
  | .sltu w d a b => Sys2Proof.Machine.execSltu w d a b s
  | .seq w d a b => Sys2Proof.Machine.execSeq w d a b s
  | .mul w d a b => Sys2Proof.Machine.execMul w d a b s
  | .mulh w d a b => Sys2Proof.Machine.execMulh w d a b s
  | .mulhu w d a b => Sys2Proof.Machine.execMulhu w d a b s
  | .div w d a b => Sys2Proof.Machine.execDiv w d a b s
  | .divu w d a b => Sys2Proof.Machine.execDivu w d a b s
  | .rem w d a b => Sys2Proof.Machine.execRem w d a b s
  | .remu w d a b => Sys2Proof.Machine.execRemu w d a b s
  | .clz w d a => Sys2Proof.Machine.execClz w d a s
  | .ctz w d a => Sys2Proof.Machine.execCtz w d a s
  | .popc w d a => Sys2Proof.Machine.execPopc w d a s
  | .sel d a b c => Sys2Proof.Machine.execSel d a b c s
  | .bfx sign d a pos len => Sys2Proof.Machine.execBfx sign d a pos len s
  | .bfi d a pos len => Sys2Proof.Machine.execBfi d a pos len s
  | .rget d a b => Sys2Proof.Machine.execRget d a b s
  | .rput d a b => Sys2Proof.Machine.execRput d a b s
  | .mtid d => Sys2Proof.Machine.execMtid d s
  | .lnkrd d => Sys2Proof.Machine.execLnkrd d s
  | .lnkwr a => Sys2Proof.Machine.execLnkwr a s
  | .addi d a imm => Sys2Proof.Machine.execAddi d a imm s
  | .andi d a imm => Sys2Proof.Machine.execAndi d a imm s
  | .ori d a imm => Sys2Proof.Machine.execOri d a imm s
  | .xori d a imm => Sys2Proof.Machine.execXori d a imm s
  | .slli d a sh => Sys2Proof.Machine.execSlli d a sh s
  | .srli d a sh => Sys2Proof.Machine.execSrli d a sh s
  | .srai d a sh => Sys2Proof.Machine.execSrai d a sh s
  | .lui d imm => Sys2Proof.Machine.execLui d imm s
  | .fadd w d a b => Sys2Proof.Machine.execFadd w d a b s
  | .fsub w d a b => Sys2Proof.Machine.execFsub w d a b s
  | .fmul w d a b => Sys2Proof.Machine.execFmul w d a b s
  | .fdiv w d a b => Sys2Proof.Machine.execFdiv w d a b s
  | .fsqrt w d a => Sys2Proof.Machine.execFsqrt w d a s
  | .fmin w d a b => Sys2Proof.Machine.execFmin w d a b s
  | .fmax w d a b => Sys2Proof.Machine.execFmax w d a b s
  | .feq w d a b => Sys2Proof.Machine.execFeq w d a b s
  | .flt w d a b => Sys2Proof.Machine.execFlt w d a b s
  | .fle w d a b => Sys2Proof.Machine.execFle w d a b s
  | .fsgnj w d a b => Sys2Proof.Machine.execFsgnj w d a b s
  | .fsgnjn w d a b => Sys2Proof.Machine.execFsgnjn w d a b s
  | .fsgnjx w d a b => Sys2Proof.Machine.execFsgnjx w d a b s
  | .fclass w d a => Sys2Proof.Machine.execFclass w d a s
  | .fma w d a b c => Sys2Proof.Machine.execFma w d a b c s
  | .fms w d a b c => Sys2Proof.Machine.execFms w d a b c s
  | .fnma w d a b c => Sys2Proof.Machine.execFnma w d a b c s
  | .frcp bf d a => Sys2Proof.Machine.execFrcp bf d a s
  | .frsq bf d a => Sys2Proof.Machine.execFrsq bf d a s
  | .fexp2 bf d a => Sys2Proof.Machine.execFexp2 bf d a s
  | .flog2 bf d a => Sys2Proof.Machine.execFlog2 bf d a s
  | .fsinpi bf d a => Sys2Proof.Machine.execFsinpi bf d a s
  | .fcospi bf d a => Sys2Proof.Machine.execFcospi bf d a s
  | .ftanh bf d a => Sys2Proof.Machine.execFtanh bf d a s
  | .fsigm bf d a => Sys2Proof.Machine.execFsigm bf d a s
  | .cvtN w nf d a b => Sys2Proof.Machine.execCvtN w nf d a b s
  | .cvtW w part nf d a => Sys2Proof.Machine.execCvtW w part nf d a s
  | .cvtFi w d a => Sys2Proof.Machine.execCvtFi w d a s
  | .cvtIf w d a => Sys2Proof.Machine.execCvtIf w d a s
  | .cvtq4 d a b => Sys2Proof.Machine.execCvtq4 d a b s
  | .mxscale bf part sf d a b => Sys2Proof.Machine.execMxscale bf part sf d a b s
  | .pnix q d a b => Sys2Proof.Machine.execPnix q d a b s
  | .pnit q d a b => Sys2Proof.Machine.execPnit q d a b s
  | .ld size d a off => Sys2Proof.Machine.execLd size d a off s
  | .st size d a off => Sys2Proof.Machine.execSt size d a off s
  | .lds size d a off => Sys2Proof.Machine.execLds size d a off s
  | .sts size d a off => Sys2Proof.Machine.execSts size d a off s
  | .amo size op ord scope d a => Sys2Proof.Machine.execAmo size op ord scope d a s
  | .amos size op ord scope d a => Sys2Proof.Machine.execAmos size op ord scope d a s
  | .mfence scope pred succ => Sys2Proof.Machine.execMfence scope pred succ s
  | .pxf sat d a b => Sys2Proof.Machine.execPxf sat d a b s
  | .padd sat x d a b => Sys2Proof.Machine.execPadd sat x d a b s
  | .psub sat x d a b => Sys2Proof.Machine.execPsub sat x d a b s
  | .pretag sat d a => Sys2Proof.Machine.execPretag sat d a s
  | .prot sat d a b => Sys2Proof.Machine.execProt sat d a b s
  | .pchk d a => Sys2Proof.Machine.execPchk d a s
  | .mfetch imm => Sys2Proof.Machine.execMfetch imm s
  | .mfetchr a => Sys2Proof.Machine.execMfetchr a s
  | .mtrap code => Sys2Proof.Machine.execMtrap code s
  | .vectorCarrier mask dt lane word => Sys2Proof.Machine.execVectorCarrier mask dt lane word s
  | .mtconf rd rs1 => Sys2Proof.Machine.execMtconf rd rs1 s
  | .setvl rd rs1 => Sys2Proof.Machine.execSetvl rd rs1 s
  | .vlnkput rs1 => Sys2Proof.Machine.execVlnkput rs1 s
  | .vlnkget rd => Sys2Proof.Machine.execVlnkget rd s
  | .vfetch mask rs1 => Sys2Proof.Machine.execVfetch mask rs1 s
  | .vget v rs1 rd => Sys2Proof.Machine.execVget v rs1 rd s
  | .vput v rs1 rx => Sys2Proof.Machine.execVput v rs1 rx s
  | .kcmp cond kd a b => Sys2Proof.Machine.execKcmp cond kd a b s
  | .klog tt kd ka kb => Sys2Proof.Machine.execKlog tt kd ka kb s
  | .ksbf kd ka => Sys2Proof.Machine.execKsbf kd ka s
  | .ksif kd ka => Sys2Proof.Machine.execKsif kd ka s
  | .ksof kd ka => Sys2Proof.Machine.execKsof kd ka s
  | .kpop rd ka => Sys2Proof.Machine.execKpop rd ka s
  | .kfirst rd ka => Sys2Proof.Machine.execKfirst rd ka s
  | .kget rd k rs1 => Sys2Proof.Machine.execKget rd k rs1 s
  | .kput k rs1 rs2 => Sys2Proof.Machine.execKput k rs1 rs2 s
  | .vld mask v size rs1 => Sys2Proof.Machine.execVld mask v size rs1 s
  | .vlds mask v size rs1 xs => Sys2Proof.Machine.execVlds mask v size rs1 xs s
  | .vst mask v size rs1 => Sys2Proof.Machine.execVst mask v size rs1 s
  | .vsts mask v size rs1 xs => Sys2Proof.Machine.execVsts mask v size rs1 xs s
  | .vldx mask v size rs1 vi => Sys2Proof.Machine.execVldx mask v size rs1 vi s
  | .vstx mask v size rs1 vi => Sys2Proof.Machine.execVstx mask v size rs1 vi s
  | .vldff mask v size rs1 xs => Sys2Proof.Machine.execVldff mask v size rs1 xs s
  | .vldmx mask v wide rs1 xc => Sys2Proof.Machine.execVldmx mask v wide rs1 xc s
  | .vstmx mask v wide rs1 xc => Sys2Proof.Machine.execVstmx mask v wide rs1 xc s
  | .vamo mask v op scope x => Sys2Proof.Machine.execVamo mask v op scope x s
  | .vappend mask v rs1 rd => Sys2Proof.Machine.execVappend mask v rs1 rd s
  | .vclaim rd rs1 rs2 => Sys2Proof.Machine.execVclaim rd rs1 rs2 s
  | .ldsc dbl rd rs1 => Sys2Proof.Machine.execLdsc dbl rd rs1 s
  | .stsc dbl rs2 rs1 => Sys2Proof.Machine.execStsc dbl rs2 rs1 s
  | .xcopy acq rel scope rd rs1 rs2 => Sys2Proof.Machine.execXcopy acq rel scope rd rs1 rs2 s
  | .xcopyM acq rel scope rd rs1 rs2 mword => Sys2Proof.Machine.execXcopyM acq rel scope rd rs1 rs2 mword s
  | .xfill acq rel scope rd rs1 rs2 => Sys2Proof.Machine.execXfill acq rel scope rd rs1 rs2 s
  | .xgather acq rel scope rd rs1 rs2 => Sys2Proof.Machine.execXgather acq rel scope rd rs1 rs2 s
  | .xscatter acq rel scope rd rs1 rs2 => Sys2Proof.Machine.execXscatter acq rel scope rd rs1 rs2 s
  | .xcollReduce acq rel scope rd rs1 rs2 => Sys2Proof.Machine.execXcollReduce acq rel scope rd rs1 rs2 s
  | .xcollBroadcast acq rel scope rd rs1 rs2 => Sys2Proof.Machine.execXcollBroadcast acq rel scope rd rs1 rs2 s
  | .xcollAllgather acq rel scope rd rs1 rs2 => Sys2Proof.Machine.execXcollAllgather acq rel scope rd rs1 rs2 s
  | .xresume rd rs1 => Sys2Proof.Machine.execXresume rd rs1 s
  | .xcancel rd rs1 => Sys2Proof.Machine.execXcancel rd rs1 s
  | .mma fmt asrc t rs1 rs2 => Sys2Proof.Machine.execMma fmt asrc t rs1 rs2 s
  | .mmas fmt t rs1 rs2 => Sys2Proof.Machine.execMmas fmt t rs1 rs2 s
  | .mdrain fmt dkind t rs1 rs2 => Sys2Proof.Machine.execMdrain fmt dkind t rs1 rs2 s
  | .mzero t => Sys2Proof.Machine.execMzero t s
  | .mload t rs1 rs2 => Sys2Proof.Machine.execMload t rs1 rs2 s
  | .tnew rd rs1 => Sys2Proof.Machine.execTnew rd rs1 s
  | .tfree rd rs1 => Sys2Proof.Machine.execTfree rd rs1 s
  | .tsplit rd rs1 rs2 => Sys2Proof.Machine.execTsplit rd rs1 rs2 s
  | .tacq rd rs1 rs2 => Sys2Proof.Machine.execTacq rd rs1 rs2 s
  | .trel rd rs1 => Sys2Proof.Machine.execTrel rd rs1 s
  | .tinfo rd rs1 rs2 => Sys2Proof.Machine.execTinfo rd rs1 rs2 s
  | .fnew rd rs1 => Sys2Proof.Machine.execFnew rd rs1 s
  | .fset rd rs1 rs2 => Sys2Proof.Machine.execFset rd rs1 rs2 s
  | .fsplit rd rs1 rs2 => Sys2Proof.Machine.execFsplit rd rs1 rs2 s
  | .fdel rd rs1 => Sys2Proof.Machine.execFdel rd rs1 s
  | .ofence pred succ scope => Sys2Proof.Machine.execOfence pred succ scope s
  | .waitaEq rd rs1 rs2 rs3 => Sys2Proof.Machine.execWaitaEq rd rs1 rs2 rs3 s
  | .waitaNe rd rs1 rs2 rs3 => Sys2Proof.Machine.execWaitaNe rd rs1 rs2 rs3 s
  | .waitaGeu rd rs1 rs2 rs3 => Sys2Proof.Machine.execWaitaGeu rd rs1 rs2 rs3 s
  | .waitaLtu rd rs1 rs2 rs3 => Sys2Proof.Machine.execWaitaLtu rd rs1 rs2 rs3 s
  | .notify scope rs1 rs2 => Sys2Proof.Machine.execNotify scope rs1 rs2 s
  | .barinit rs1 rs2 => Sys2Proof.Machine.execBarinit rs1 rs2 s
  | .bararv rs1 => Sys2Proof.Machine.execBararv rs1 s
  | .barwait rs1 => Sys2Proof.Machine.execBarwait rs1 s
  | .ltsync rd rs1 => Sys2Proof.Machine.execLtsync rd rs1 s
  | .jexit rs1 => Sys2Proof.Machine.execJexit rs1 s
  | .tmark rs1 => Sys2Proof.Machine.execTmark rs1 s
  | .fence fm pred succ => Sys2Proof.Machine.execFence fm pred succ s
  | .sfenceVma rs1 rs2 => Sys2Proof.Machine.execSfenceVma rs1 rs2 s
  | .lr dbl aq rl rd rs1 => Sys2Proof.Machine.execLr dbl aq rl rd rs1 s
  | .sc dbl aq rl rd rs1 rs2 => Sys2Proof.Machine.execSc dbl aq rl rd rs1 rs2 s
  | .riscvAmo op dbl aq rl rd rs1 rs2 => Sys2Proof.Machine.execRiscvAmo op dbl aq rl rd rs1 rs2 s
  | .registerWrite target rd value => Sys2Proof.Machine.execRegisterWrite target rd value s
  | .mtcfgWrite rd value => Sys2Proof.Machine.execMtcfgWrite rd value s
  | .vlWrite rd value => Sys2Proof.Machine.execVlWrite rd value s
  | .vspaceWrite rd value => Sys2Proof.Machine.execVspaceWrite rd value s
  | .flagCsrAccess which op rd src => Sys2Proof.Machine.execFlagCsrAccess which op rd src s
  | .satpWrite rd value => Sys2Proof.Machine.execSatpWrite rd value s
  | .panicmarkWrite rd value => Sys2Proof.Machine.execPanicmarkWrite rd value s
  | .savectlReady rd value => Sys2Proof.Machine.execSavectlReady rd value s
  | .perfselSelect rd idx arg => Sys2Proof.Machine.execPerfselSelect rd idx arg s
  | .perfselProgram rd idx arg => Sys2Proof.Machine.execPerfselProgram rd idx arg s
  | .perfselWriteValue rd idx arg => Sys2Proof.Machine.execPerfselWriteValue rd idx arg s
  | .perfselSetThreshold rd idx arg => Sys2Proof.Machine.execPerfselSetThreshold rd idx arg s
  | .perfselClearFlags rd idx arg => Sys2Proof.Machine.execPerfselClearFlags rd idx arg s
  | .perfselSetTraceBuffer rd idx arg => Sys2Proof.Machine.execPerfselSetTraceBuffer rd idx arg s
  | .perfselSetSamplePeriod rd idx arg => Sys2Proof.Machine.execPerfselSetSamplePeriod rd idx arg s
  | .perfselSetBreakpoint rd idx arg => Sys2Proof.Machine.execPerfselSetBreakpoint rd idx arg s
  | .perfselClearBreakpoint rd idx arg => Sys2Proof.Machine.execPerfselClearBreakpoint rd idx arg s
  | .mtfinfoSelect rd word rsv mt => Sys2Proof.Machine.execMtfinfoSelect rd word rsv mt s
  | .mtfinfoResume rd word rsv mt => Sys2Proof.Machine.execMtfinfoResume rd word rsv mt s
  | .mtfinfoSkip rd word rsv mt => Sys2Proof.Machine.execMtfinfoSkip rd word rsv mt s
  | .mtfinfoClear rd word rsv mt => Sys2Proof.Machine.execMtfinfoClear rd word rsv mt s
  | .mtfinfoSelectLowest rd word rsv mt => Sys2Proof.Machine.execMtfinfoSelectLowest rd word rsv mt s
  | .regqueue fn arg => Sys2Proof.Machine.execRegqueue fn arg s
  | .resetqueue fn arg => Sys2Proof.Machine.execResetqueue fn arg s
  | .queueResetComplete queue => Sys2Proof.Machine.execQueueResetComplete queue s
  | .attest fn arg => Sys2Proof.Machine.execAttest fn arg s
  | .assign fn arg => Sys2Proof.Machine.execAssign fn arg s
  | .regiontab fn arg => Sys2Proof.Machine.execRegiontab fn arg s
  | .fwloadWrite value => Sys2Proof.Machine.execFwloadWrite value s
  | .mresetWrite value => Sys2Proof.Machine.execMresetWrite value s
  | .pwrcapWrite value => Sys2Proof.Machine.execPwrcapWrite value s
  | .hlogWrite value => Sys2Proof.Machine.execHlogWrite value s
  | .queueDoorbell fn slot bytes value => Sys2Proof.Machine.execQueueDoorbell fn slot bytes value s
  | .regionDoorbell fn bytes value => Sys2Proof.Machine.execRegionDoorbell fn bytes value s
  | .periodStart root => Sys2Proof.Machine.execPeriodStart root s
  | .gangAnchor root cls => Sys2Proof.Machine.execGangAnchor root cls s
  | .anchorWindowExpiry root cls => Sys2Proof.Machine.execAnchorWindowExpiry root cls s
  | .mgmtTaskRelease task => Sys2Proof.Machine.execMgmtTaskRelease task s
  | .slotCmdBind core rec => Sys2Proof.Machine.execSlotCmdBind core rec s
  | .slotCmdClear core => Sys2Proof.Machine.execSlotCmdClear core s
  | .slotCmdUnmap core => Sys2Proof.Machine.execSlotCmdUnmap core s
  | .gangStart gang commit => Sys2Proof.Machine.execGangStart gang commit s
  | .preemptForcedStop core => Sys2Proof.Machine.execPreemptForcedStop core s
  | .preemptStop core => Sys2Proof.Machine.execPreemptStop core s
  | .saveComplete core => Sys2Proof.Machine.execSaveComplete core s
  | .vqDistribute q => Sys2Proof.Machine.execVqDistribute q s
  | .vqRetire q => Sys2Proof.Machine.execVqRetire q s
  | .mtTakeItem m => Sys2Proof.Machine.execMtTakeItem m s
  | .blockStart m => Sys2Proof.Machine.execBlockStart m s
  | .linkDeliver m => Sys2Proof.Machine.execLinkDeliver m s
  | .mtDataReturn m => Sys2Proof.Machine.execMtDataReturn m s
  | .pageWalkComplete va kind => Sys2Proof.Machine.execPageWalkComplete va kind s
  | .engineCommandStart seq => Sys2Proof.Machine.execEngineCommandStart seq s
  | .engineCommandComplete seq => Sys2Proof.Machine.execEngineCommandComplete seq s
  | .engineFault seq => Sys2Proof.Machine.execEngineFault seq s
  | .collectiveContribution seq member => Sys2Proof.Machine.execCollectiveContribution seq member s
  | .homeReadRequest core asid pa => Sys2Proof.Machine.execHomeReadRequest core asid pa s
  | .homeWriteRequest core asid pa bytes data => Sys2Proof.Machine.execHomeWriteRequest core asid pa bytes data s
  | .recall asid pa => Sys2Proof.Machine.execRecall asid pa s
  | .forwardServed asid pa => Sys2Proof.Machine.execForwardServed asid pa s
  | .recallTimeout agent => Sys2Proof.Machine.execRecallTimeout agent s
  | .windowAccess core pa bytes write data => Sys2Proof.Machine.execWindowAccess core pa bytes write data s
  | .sliceClampSweep die => Sys2Proof.Machine.execSliceClampSweep die s
  | .counterWrap idx => Sys2Proof.Machine.execCounterWrap idx s
  | .counterThreshold idx => Sys2Proof.Machine.execCounterThreshold idx s
  | .breakpointFire block m => Sys2Proof.Machine.execBreakpointFire block m s
  | .coreRetire core => Sys2Proof.Machine.execCoreRetire core s
  | .spareMapped core => Sys2Proof.Machine.execSpareMapped core s
  | .coreSelfTestEnd core pass => Sys2Proof.Machine.execCoreSelfTestEnd core pass s
  | .lanternCatch source pa bytes data => Sys2Proof.Machine.execLanternCatch source pa bytes data s
  | .fatalError reason => Sys2Proof.Machine.execFatalError reason s
  | .ctScalarLoad kind rd rs1 off => Sys2Proof.Machine.execCtScalarLoad kind rd rs1 off s
  | .ctScalarStore kind rs2 rs1 off => Sys2Proof.Machine.execCtScalarStore kind rs2 rs1 off s
  | .restoreComplete core => Sys2Proof.Machine.execRestoreComplete core s
  | .staleMessage agent incarnation => Sys2Proof.Machine.execStaleMessage agent incarnation s
  | .hostCxlRead pa bytes => Sys2Proof.Machine.execHostCxlRead pa bytes s
  | .hostCxlWrite pa bytes data => Sys2Proof.Machine.execHostCxlWrite pa bytes data s
  | .sramScrub granule => Sys2Proof.Machine.execSramScrub granule s
  | .ddrPatrolScrub granule => Sys2Proof.Machine.execDdrPatrolScrub granule s
  | .guylineDown link => Sys2Proof.Machine.execGuylineDown link s
  | .guylineRetrain link => Sys2Proof.Machine.execGuylineRetrain link s
  | .dieClockGate die => Sys2Proof.Machine.execDieClockGate die s
  | .diePowerGate die => Sys2Proof.Machine.execDiePowerGate die s
  | .thermalWarning die temp => Sys2Proof.Machine.execThermalWarning die temp s
  | .thermalHold die temp => Sys2Proof.Machine.execThermalHold die temp s
  | .thermalRelease die temp => Sys2Proof.Machine.execThermalRelease die temp s
  | .thermalHoldLimit die => Sys2Proof.Machine.execThermalHoldLimit die s
  | .coolantOutOfLimits inlet flow => Sys2Proof.Machine.execCoolantOutOfLimits inlet flow s
  | .managementCoreGate mcore => Sys2Proof.Machine.execManagementCoreGate mcore s
  | .powerLoss flashWrite => Sys2Proof.Machine.execPowerLoss flashWrite s
  | .storageError granule uncorrectable => Sys2Proof.Machine.execStorageError granule uncorrectable s
  | .vsync => Sys2Proof.Machine.execVsync s
  | .jtrig => Sys2Proof.Machine.execJtrig s
  | .fenceI => Sys2Proof.Machine.execFenceI s
  | .wfi => Sys2Proof.Machine.execWfi s
  | .moduleReset => Sys2Proof.Machine.execModuleReset s
  | .capApplied => Sys2Proof.Machine.execCapApplied s
  | .sheepdogPass => Sys2Proof.Machine.execSheepdogPass s
  | .trapTaken => Sys2Proof.Machine.execTrapTaken s
  | .ctWaitComplete => Sys2Proof.Machine.execCtWaitComplete s
  | .waitaWake => Sys2Proof.Machine.execWaitaWake s
  | .waitaTimeout => Sys2Proof.Machine.execWaitaTimeout s
  | .ltimeSelfIncrement => Sys2Proof.Machine.execLtimeSelfIncrement s
  | .leaseDrop => Sys2Proof.Machine.execLeaseDrop s
  | .moduleTimeBroadcast => Sys2Proof.Machine.execModuleTimeBroadcast s
  | .perfSample => Sys2Proof.Machine.execPerfSample s
  | .lanternReplay => Sys2Proof.Machine.execLanternReplay s
  | .sheepdogWatchdog => Sys2Proof.Machine.execSheepdogWatchdog s
  | .fatalCoreTimeout => Sys2Proof.Machine.execFatalCoreTimeout s
  | .sret => Sys2Proof.Machine.execSret s

end Sys2Proof.Machine
end

