-- ==== Sys2Proof/Machine/Run.lean ====
section
/-! DEFINITION. Fetching, and what an agent does when it moves: the control thread, a micro-thread, another agent's step,
time; the default order when nothing is on the agenda (02 R33, R38, R42, R52, R53; 05 R118, R123; 22 R350; log 4). -/

namespace Sys2Proof.Machine

/-! ## Fetching control-thread instructions (05 R118, R121, R123) -/

/-- What stands at the pc. -/
inductive Fetched where
  | fail (e : AccErr) (va : Word)
  | row (i : Instr)
  | base (len : Nat) (i : Rv)
  | illegal (bits : Word)
deriving DecidableEq, Repr

/-- The 16-bit parcel at an address, with execute permission. -/
def State.fetchHalf (s : State) (va : Word) : Except AccErr Nat × State :=
  match s.checkVirt va 2 .fetch s.ctMode with
  | (.error e, s) => (.error e, s)
  | (.ok pa, s) => (.ok (s.fetchRead pa 2), s.meet pa 2)
/-- `n` parcels as one number, or the address of the first that cannot be fetched. -/
def State.fetchParcels (s : State) (va : Word) : Nat → Except (AccErr × Word) Nat × State
  | 0 => (.ok 0, s)
  | n + 1 =>
    match s.fetchHalf va with
    | (.error e, s) => (.error (e, va), s)
    | (.ok h, s) =>
      match State.fetchParcels s (va + 2) n with
      | (.error e, s) => (.error e, s)
      | (.ok t, s) => (.ok (h + 2 ^ 16 * t), s)

/-- Parcels of an instruction by its first one: 1 compressed, 4 a carrier, else 2; of the lengths that no instruction has,
two are fetched. -/
def parcelsOf (first : Nat) : Nat := if first % 4 ≠ 3 then 1 else if first % 128 = 0x3F then 4 else 2
/-- A length that no instruction has (05 R123): 48 bits, or 80 and more. DEDUCED (log 31). -/
def badLength (first : Nat) : Bool := first % 64 == 0x1F || first % 128 == 0x7F

/-- What two words are: a row of the table, or an instruction of the base. -/
def readWords (lo hi : BitVec 32) : Fetched :=
  if badLength lo.toNat then .illegal (lo.setWidth 64)
  else match decodeCt lo hi with
  | some i => .row i
  | none =>
    if bits lo 0 7 == 0x3F then .illegal (hi ++ lo)
    else if isXcopyM lo then .illegal (lo.setWidth 64)
    else match decodeBase lo with
    | some i => .base 4 i
    | none => .illegal (lo.setWidth 64)
/-- What one parcel is. -/
def readHalf (x : BitVec 16) : Fetched :=
  match decodeC x with
  | some i => .base 2 i
  | none => .illegal (x.setWidth 64)
/-- Where stval places a failing fetch: at the second word, whatever parcel of it failed (05 R121). -/
def fetchTval (pc va : Word) : Word := if va = pc + 6 then pc + 4 else va
/-- Fetch and decode the instruction at the pc. -/
def State.fetchCt (s : State) : Fetched × State :=
  let pc := s.core.ct.pc
  match s.fetchHalf pc with
  | (.error e, s) => (.fail e pc, s)
  | (.ok h, s) =>
    let n := parcelsOf h
    if n = 1 then (readHalf (BitVec.ofNat 16 h), s)
    else match s.fetchParcels (pc + 2) (n - 1) with
    | (.error (e, va), s) => (.fail e (fetchTval pc va), s)
    | (.ok t, s) =>
      let x := h + 2 ^ 16 * t
      if n = 4 ∨ !isXcopyM (BitVec.ofNat 32 x) then (readWords (BitVec.ofNat 32 x) (BitVec.ofNat 32 (x / 2 ^ 32)), s)
      else match s.fetchParcels (pc + 4) 2 with
      | (.error (e, _), s) => (.fail e (pc + 4), s)
      | (.ok hi, s) => (readWords (BitVec.ofNat 32 x) (BitVec.ofNat 32 hi), s)

/-! ## The control thread's turn (22 R350) -/

/-- CSR instructions of the control thread. -/
def isCsrRow (i : Instr) : Bool :=
  match i with
  | .registerWrite (.csr _) _ _ => true
  | .mtcfgWrite _ _ => true
  | .vlWrite _ _ => true
  | .vspaceWrite _ _ => true
  | .flagCsrAccess _ _ _ _ => true
  | .satpWrite _ _ => true
  | .panicmarkWrite _ _ => true
  | .savectlReady _ _ => true
  | .perfselSelect _ _ _ => true
  | .perfselProgram _ _ _ => true
  | .perfselWriteValue _ _ _ => true
  | .perfselSetThreshold _ _ _ => true
  | .perfselClearFlags _ _ _ => true
  | .perfselSetTraceBuffer _ _ _ => true
  | .perfselSetSamplePeriod _ _ _ => true
  | .perfselSetBreakpoint _ _ _ => true
  | .perfselClearBreakpoint _ _ _ => true
  | .mtfinfoSelect _ _ _ _ => true
  | .mtfinfoResume _ _ _ _ => true
  | .mtfinfoSkip _ _ _ _ => true
  | .mtfinfoClear _ _ _ _ => true
  | .mtfinfoSelectLowest _ _ _ _ => true
  | _ => false

/-- An instruction of the base runs; a CSR instruction is the row that it is. -/
def State.runBase (s : State) (len : Nat) (i : Rv) : Host.Outcome State Fault Refusal :=
  match i with
  | .csr op rd src n =>
    match s.csrDo op rd src n with
    | .row r => exec r s
    | .read => .next (s.runRv len i)
    | .illegal => .next s.illegalHere
  | _ => .next (s.runRv len i)
/-- How a row carries loaded values between registers (14 R297): what an atomic or a CSR yields counts as a load's value; a plain
load has done so itself, other rows yield nothing that a plain load returned. -/
def rowCarries (i : Instr) (l : List Early) : List Early :=
  match i with
  | .setvl rd rs1 => carry false [.x rs1.toNat] [.x rd.toNat] l
  | .lr _ _ _ rd _ => carry true [] [.x rd.toNat] l
  | .sc _ _ _ rd _ _ => carry true [] [.x rd.toNat] l
  | .riscvAmo _ _ _ _ rd _ _ => carry true [] [.x rd.toNat] l
  | i => if isCsrRow i then carry true [] ((ctUses i).map fun r => .x r.toNat) l else l
/-- The same of an instruction of the base. -/
def Rv.carries (i : Rv) (l : List Early) : List Early :=
  match i with
  | .lui rd _ => carry false [] [.x rd.toNat] l
  | .auipc rd _ => carry false [] [.x rd.toNat] l
  | .jal rd _ => carry false [] [.x rd.toNat] l
  | .jalr rd _ _ => carry false [] [.x rd.toNat] l
  | .alu _ rd rs1 rs2 => carry false [.x rs1.toNat, .x rs2.toNat] [.x rd.toNat] l
  | .alui _ rd rs1 _ => carry false [.x rs1.toNat] [.x rd.toNat] l
  | .unary _ rd rs1 => carry false [.x rs1.toNat] [.x rd.toNat] l
  | .csr _ rd _ _ => carry true [] [.x rd.toNat] l
  | _ => l
/-- Change the list of loads performed early, where an agent has left one. -/
def carried (who : Reader) (f : State → List Early → List Early) (o : Host.Outcome State Fault Refusal) : Host.Outcome State Fault Refusal :=
  match o with
  | .next t => .next (if t.earlies who = [] then t else t.onEarlies who (f t))
  | o => o
/-- What was fetched runs; a register that still waits for an entry's scalar result stalls it (02 R31). -/
def State.runFetched (s : State) (f : Fetched) : Host.Outcome State Fault Refusal :=
  match f with
  | .fail e va => .next (s.accTrap e .fetch va 0)
  | .row i => if s.owes (ctUses i) then .next s else carried .ct (fun _ => rowCarries i) (exec i s)
  | .base len i => if s.owes i.uses then .next s else carried .ct (fun _ => i.carries) (s.runBase len i)
  | .illegal x => .next (s.trap 2 x)
/-- Fetch the instruction at the pc, and run it. -/
def State.runCt (s : State) : Host.Outcome State Fault Refusal :=
  let (f, s) := s.fetchCt
  s.runFetched f
/-- A fresh execution of the instruction at the PC breakpoint fires it (21 R346); the record's VALUE, which R345 does not give, is 0.
DESIGN CHOICE (log 71). -/
def State.arm (s : State) : State := if s.pcBreakHit then s.fireBreak s.core.ct.pc s.core.ct.pc 0 else s

/-- Basecamp lets a core go on: it is powered, and after a fatal error only to its next boundary (24 R404). -/
def State.letsRun (s : State) (c : Core) : Bool := s.base.powered && (s.base.fatalAt.isNone || c.midInstruction)
/-- The control thread of the core in focus can move. -/
def State.ctRuns (s : State) : Bool := s.core.phase == .running && s.letsRun s.core && !s.held s.core.no

/-- At an instruction boundary, the first that applies: a due stop, a due trap, a wait that goes on, a breakpoint that
holds issue back, the next instruction. -/
def State.ctMoves (s : State) : Host.Outcome State Fault Refusal :=
  if s.core.stopDue && s.core.ct.wait != some .wfi then execPreemptStop s.core.no s
  else match s.trapDue with
  | some d => .next (s.takeDue d)
  | none =>
    if s.breakHolds && !s.core.ct.noBoundary then .next s
    else if s.core.ct.wait.isSome then execCtWaitComplete s
    else s.arm.runCt
/-- The control thread's turn. -/
def State.ctTurn (s : State) : Host.Outcome State Fault Refusal := if s.ctRuns then s.ctMoves else .next s

/-! ## A micro-thread's turn (02 R38, R41, R52, R53) -/

/-- Micro-thread `m` may move: its core runs, or stops and it has not come to a block boundary (02 R52). -/
def State.mtRuns (s : State) (m : Nat) : Bool :=
  s.letsRun s.core && !s.held s.core.no &&
    (s.core.phase == .running || (s.core.phase == .saving && ((s.mt m).midBlock || s.core.vec.pipe.contains m)))
/-- The micro-threads of a lane (02 R27). -/
def laneOfMt (m : Nat) : Nat := m % 64
/-- What competes for a slot of a lane (02 R42, R43): a ready micro-thread, or the slot of a carrier's group whose element there is not
active; its age, its element, the slots that it has waited. -/
structure Contender where
  age : Nat
  m : Nat
  waits : Nat
  idle : Bool
deriving DecidableEq, Repr
/-- The older, or of one age that of the lower index (02 R42). -/
def Contender.before (x y : Contender) : Bool := decide (x.age < y.age ∨ (x.age = y.age ∧ x.m ≤ y.m))
/-- What competes for the lane of micro-thread `m`. -/
def State.contenders (s : State) (m : Nat) : List Contender :=
  let here := fun (k : Nat) => laneOfMt k == laneOfMt m
  (s.core.vec.mts.filter fun (k, _) => here k && s.mtRuns k && s.mtReady k).map (fun (k, t) => ⟨t.age, k, t.waits, false⟩) ++
    (s.core.vec.idle.filter fun x => here x.m).map fun x => ⟨x.age, x.m, x.waits, true⟩
/-- Slots that one is ready before it goes ahead of older ones: 16 for each micro-thread of the lane that is not stopped with an empty
queue (02 R42). -/
def State.patience (s : State) (m : Nat) : Nat :=
  16 * (s.core.vec.mts.filter fun (k, t) => laneOfMt k == laneOfMt m && !(t.phase == .stopped && t.queue == [])).length
/-- The lane of micro-thread `m` picks the oldest, or the oldest of those that have waited their slots (02 R42). -/
def State.pick (s : State) (m : Nat) : Option Contender :=
  let l := s.contenders m
  let late := l.filter fun x => decide (s.patience m ≤ x.waits)
  let l := if late = [] then l else late
  l.find? fun x => l.all x.before
/-- It picks micro-thread `m` itself. -/
def State.picks (s : State) (m : Nat) : Bool := match s.pick m with | some x => !x.idle && x.m == m | none => false
/-- A slot of the lane of `m` goes to a contender: the others have waited one more. -/
def State.slotTo (s : State) (m : Nat) (x : Option Contender) : State :=
  let ks := s.core.vec.mts.filterMap fun (k, _) => if laneOfMt k = laneOfMt m then some k else none
  let n := fun (k : Nat) => if x ≠ some ⟨(s.mt k).age, k, (s.mt k).waits, false⟩ ∧ s.mtRuns k ∧ s.mtReady k then (s.mt k).waits + 1 else 0
  let ws := ks.map fun k => (k, n k)
  let idle := s.core.vec.idle.filterMap fun y =>
    if laneOfMt y.m ≠ laneOfMt m then some y else if x = some ⟨y.age, y.m, y.waits, true⟩ then none else some { y with waits := y.waits + 1 }
  (ws.foldl (fun s (k, n) => s.onMt k fun t => { t with waits := n }) s).onVec fun v => { v with idle := idle }
/-- The lane of `m` spends its slot on an inactive element, where that is what it picks (02 R43). -/
def State.idleSlot (s : State) (m : Nat) : State :=
  match s.pick m with
  | some x => if x.idle && s.letsRun s.core && !s.held s.core.no then s.slotTo m (some x) else s
  | none => s
/-- The pipe position of micro-thread `m` accepts its operand, when it is the oldest that waits there (07 R156). -/
def State.pipeTurn (s : State) (m : Nat) : State :=
  let age := fun (k : Nat) => (⟨(s.mt k).age, k, 0, false⟩ : Contender)
  if (s.core.vec.pipe.filter fun k => k % 8 == m % 8).all fun k => (age m).before (age k) then
    s.onVec fun v => { v with pipe := v.pipe.filter fun k => k != m }
  else s
/-- How a word of the micro-thread that runs in `s` carries loaded values between registers (14 R297): a plain load has done so
itself; what another word reads of memory, or a link delivers, counts as a load's value; one that faults carries nothing. -/
def State.wordCarries (s : State) (i : Instr) (t : State) (l : List Early) : List Early :=
  let m := s.core.curMt
  let v := fun (rs : List Nat) => rs.map fun r => Holder.v r m
  let src := v (s.readsNow i) ++ if s.me.span.isSome then [.span s.me.entry m] else []
  let dst := v (mtRegsOf i).writes
  if (t.mt m).phase = .faulted then l
  else match i with
  | .ld _ _ _ _ => l
  | .lds _ _ _ _ => l
  | .amo _ _ _ _ _ _ => carry true src dst l
  | .amos _ _ _ _ _ _ => carry true src dst l
  | .lnkrd _ => carry true src dst l
  | .rget _ a _ => carry false (src ++ v (regsFrom s.nregs a.toNat)) dst l
  | .rput d _ _ => l.map fun e => if src.any fun h => e.after.contains h then e.taint (v (regsFrom s.nregs d.toNat)) else e
  | i => carry (((encode i)[0]?).any isFrameWord) src dst l
/-- The registers that a word has read and written, where some granule has a correctable error; one that faults has written none. -/
def State.wordTouches (s : State) (i : Instr) (o : Host.Outcome State Fault Refusal) : Host.Outcome State Fault Refusal :=
  match o with
  | .next t =>
    let m := s.core.curMt
    let ps := fun (rs : List Nat) => rs.map fun r => (r, m)
    .next (if t.base.soft = [] then t else t.touched (ps (s.readsNow i)) (if (t.mt m).phase = .faulted then [] else ps (mtRegsOf i).writes))
  | o => o
/-- Run the next word of the micro-thread that runs: an illegal word is fault 1 (02 R51). -/
def State.runWord (s : State) : Host.Outcome State Fault Refusal :=
  match (s.me.words[s.me.ix]?).bind decodeMt with
  | some i => s.wordTouches i (carried (.mt s.core.curMt) (s.wordCarries i) (exec i s))
  | none => .next (s.mtFault 1 0)
/-- Micro-thread `m` runs its next word; a block at the breakpoint fires it first (21 R346). -/
def State.issueWord (s : State) (m : Nat) : Host.Outcome State Fault Refusal :=
  let s := if s.blockBreakHit m then s.fireBreak (s.mt m).blk (s.mt m).origin (s.mt m).blk else s
  let s := s.slotTo m (s.pick m)
  State.runWord { s with core := { s.core with curMt := m } }
/-- What micro-thread `m` does next, by its state. -/
def State.mtMoves (s : State) (m : Nat) : Host.Outcome State Fault Refusal :=
  if s.core.vec.pipe.contains m then .next (s.pipeTurn m)
  else match (s.mt m).phase with
  | .stopped => if (s.mt m).queue = [] then .next s else execMtTakeItem m s
  | .waitEmpty => execBlockStart m s
  | .waitLink => execBlockStart m s
  | .linkPending => execLinkDeliver m s
  | .faulted => .next s
  | .ready => if (s.mt m).dataWait then execMtDataReturn m s else if s.picks m then s.issueWord m else .next s
/-- Micro-thread `m`'s turn. -/
def State.mtTurn (s : State) (m : Nat) : Host.Outcome State Fault Refusal := if s.mtRuns m then s.mtMoves m else .next s

/-! ## Time and other agents -/

/-- Do something as every other core to which a job is bound. -/
def State.eachOther (s : State) (f : State → State) : State :=
  s.others.foldl (fun s (n, c) => if c.phase.bound then s.asCore n f else s) s
/-- Count the noted events of a core that has any (21 R343). -/
def State.countCore (s : State) (n : Nat) : State := if (s.coreAt n).events = [] then s else s.asCore n State.countNoted
/-- Count what has been noted on every core. -/
def State.countAll (s : State) : State :=
  if s.coresListed.all fun c => c.events == [] then s else (s.coresListed.map Core.no).foldl State.countCore s
/-- The self-increments of a core that were due before a cycle; one due in that cycle has still its own turn (15 R308). -/
def Core.ticksBefore (c : Core) (cycle : Nat) : Nat :=
  if c.phase = .offline ∨ c.csr.lttick = 0 ∨ cycle ≤ c.tickAt then 0 else (cycle - 1 - c.tickAt) / c.csr.lttick
/-- A core has made `n` self-increments. -/
def Core.tick (c : Core) (n : Nat) : Core :=
  { (c.note 17 n).later n with tickAt := c.tickAt + n * c.csr.lttick }
/-- Every core of the module increments its LTIME once every PERIOD cycles, whatever it waits on (15 R308). -/
def State.tickAll (s : State) : State :=
  if s.base.cycle ≤ 1024 ∧ (s.coresListed.all fun c => c.ticksBefore s.base.cycle == 0) then s
  else (List.range Config.cores).foldl (fun s n =>
    let k := (s.coreAt n).ticksBefore s.base.cycle
    if k = 0 then s else s.onCore n fun c => c.tick k) s
/-- Basecamp sends the module time once every 65,536 cycles, and each slice visits its entries once every 2^24 (15 R320, R321), at
the cycle numbers that these divide. DESIGN CHOICE (log 36). -/
def State.keepTime (s : State) (before : Nat) : State :=
  let due := fun (p : Nat) => before / p != s.base.cycle / p
  let s := if due 65536 then s.broadcast else s
  if due (2 ^ 24) then [0, 1, 2, 3].foldl State.sweep s else s
/-- Every core takes the samples of its periods (21 R345). -/
def State.sampleAll (s : State) : State :=
  (s.coresListed.filter fun c => c.perf.period != 0).foldl (fun s c => s.asCore c.no State.sample) s
/-- `n` cycles pass, the power cap withholding issue from a set of cores: every bound core's cycles are counted and charged, idle
dies and waiting work noted, self-increments made, the module time sent (15 R308, R321, 21 R341, 23 R378, 01 R21). -/
def State.passTime (s : State) (capped : BitVec 192) (n : Nat) : State :=
  let before := s.base.cycle
  let s := s.noteWork.elapse capped n
  let s := (((s.eachOther fun s => s.countCycles (capped.getLsbD s.core.no) n).charge n).tickAll).sampleAll
  ([0, 1, 2, 3].foldl (fun s d => s.noteIdle d) (s.keepTime before)).countAll.watch.wakeManagement

/-- A step of an agent that fetches no instruction. DESIGN CHOICE (log 56). -/
def isEvent (i : Instr) : Bool := i.wellFormed && !i.isMtWord && encode i == [] && !isCsrRow i
/-- The entries of the core in focus act: it runs, or stops and they are to come to an end first (02 R52). -/
def State.entriesAct (s : State) : Bool := (s.core.phase == .running || s.core.phase == .saving) && s.letsRun s.core
/-- The core in focus runs and issues: no power loss, no fatal error, no thermal hold (01 R20, 24 R404). -/
def State.issues (s : State) : Bool := s.core.phase == .running && s.letsRun s.core && !s.held s.core.no
/-- A step of the core in focus has its turn only while the core runs and issues (01 R20, 22 R363); one of a micro-thread while
that may move. -/
def State.mayStep (s : State) (i : Instr) : Bool :=
  match i with
  | .vqDistribute _ => s.entriesAct && !s.held s.core.no
  | .vqRetire _ => s.entriesAct
  | .mtTakeItem m => s.mtRuns m
  | .blockStart m => s.mtRuns m
  | .linkDeliver m => s.mtRuns m
  | .mtDataReturn m => s.mtRuns m
  | .engineCommandStart _ => s.issues
  | .engineCommandComplete _ => s.core.phase == .running && s.letsRun s.core
  | .engineFault _ => s.core.phase == .running && s.letsRun s.core
  | .collectiveContribution _ _ => s.core.phase == .running && s.letsRun s.core
  | .ctWaitComplete => s.ctRuns
  | .trapTaken => s.ctRuns
  | .queueDoorbell fn _ _ _ => !s.sourceHeld (.function fn)
  | .regionDoorbell fn _ _ => !s.sourceHeld (.function fn)
  | _ => true
/-- Another agent's turn. -/
def State.eventTurn (s : State) (i : Instr) : Host.Outcome State Fault Refusal :=
  if !isEvent i then .refused .badTurn
  else if !s.base.powered ∧ i ≠ .moduleReset then .next s
  else if s.mayStep i then exec i s
  else .next s
/-- A turn of an entry or of a command that is cut short (log 12, log 39). -/
def State.partTurn (s : State) (i : Instr) (n : Nat) : Host.Outcome State Fault Refusal :=
  match i with
  | .vqDistribute q => .next (if s.entriesAct && !s.held s.core.no then s.distributeOne q (some n) else s)
  | .engineCommandStart seq => .next (if s.issues then s.startSeq seq (some n) else s)
  | _ => .refused .badTurn

/-! ## Plain accesses out of their turn (14 R296 to R298; log 11) -/

/-- A load of the control thread at an address, performed ahead of its instruction. -/
def State.earlyLoadCt (s : State) (va : Word) (n : Nat) : State :=
  if !s.ctRuns ∨ !oneAccess va.toNat n ∨ s.scalarBlocked va n false then s
  else match s.checkOwn .ct va n s.ctMode with
  | (.error _, _) => s
  | (.ok pa, t) =>
    let x := virtSpot va pa n
    if !t.mayLeave pa ∨ t.hasEarly .ct x then s else t.loadEarly .ct (t.keyFor (some va.toNat)) x
/-- A load of micro-thread `m` at an address, or at an offset of its own stash, performed ahead of its word, whatever chain of it
the word belongs to. -/
def State.earlyLoadMt (s : State) (m : Nat) (stash : Bool) (va : Word) (n : Nat) : State :=
  let who := Reader.mt m
  if !s.issues ∨ s.vlmax ≤ m ∨ !oneAccess va.toNat n then s
  else if stash then
    let x : Spot := { space := 1, addr := va.toNat, pa := windowAddr s.core.no .stash va.toNat, n := n }
    let t := s.drainFor who x
    if Config.stashBytes < va.toNat + n ∨ t.partLost .stash va.toNat n ∨ t.hasEarly who x then s else t.loadEarly who .block x
  else match s.checkOwn who va n s.userMode with
  | (.error _, _) => s
  | (.ok pa, t) =>
    let x := virtSpot va pa n
    if !t.mayLeave pa ∨ t.hasEarly who x then s else t.loadEarly who (t.keyFor (some va.toNat)) x
/-- A turn in which plain accesses are left to be performed later. -/
def State.leaving (s : State) (f : State → Host.Outcome State Fault Refusal) : Host.Outcome State Fault Refusal :=
  match f { s with defers := true } with
  | .next t => .next { t with defers := false }
  | o => o

/-! ## Turns (log 4) -/

/-- What stands at the pc is a load or an atomic, so that a control thread that has not moved is stalled on its data (21
R341). -/
def State.loadsHere (s : State) : Bool :=
  match s.fetchCt.1 with
  | .row i =>
    match i with
    | .ctScalarLoad _ _ _ _ => true
    | .riscvAmo _ _ _ _ _ _ _ => true
    | .lr _ _ _ _ _ => true
    | .sc _ _ _ _ _ _ => true
    | .ldsc _ _ _ => true
    | .vclaim _ _ _ => true
    | .waitaEq _ _ _ _ => true
    | .waitaNe _ _ _ _ => true
    | .waitaGeu _ _ _ _ => true
    | .waitaLtu _ _ _ _ => true
    | _ => false
  | .base _ (.load _ _ _ _) => true
  | _ => false
/-- A request is to wait at its home (15 R317): it keeps the place of its seat, or takes one. One of an old incarnation is discarded
and counted (R319). -/
def State.keepPlace (s : State) (f : Forward) : State :=
  let l := s.dir.forwards
  if f.incarnation ≠ s.incarnationOf f.agent then s.discard f.agent f.incarnation
  else if f.seat.isNone then s
  else
    let l := if l.any (fun g => g.seat == f.seat) then l.map (fun g => if g.seat = f.seat then f else g) else l ++ [f]
    { s with dir := { s.dir with forwards := l } }
/-- Who had the turn has been served, and holds no place any more. -/
def State.leavePlace (s : State) (x : Option Seat) : State :=
  { s with seat := none,
           dir := { s.dir with forwards := s.dir.forwards.filter fun g => s.waits g && (g.seat.isNone || g.seat != x) } }
/-- The page that a micro-thread's word has missed is kept: it is not ready while that is queued, or the queue full (22 R352). -/
def State.keepMiss (s : State) (who : Option Waiter) (page : Option Nat) : State :=
  match who, page with
  | some (.mt m), some p => { s with core := { s.core with missed := (m, p) :: s.core.missed.filter fun x => x.1 != m } }
  | _, _ => s
/-- The end of a turn: granules with a correctable error that it has met are corrected (25 R406), what it noted is counted, triggers of
management tasks are looked at (23 R389), and work wakes the management cores (24 R398). -/
def State.turnEnd (s : State) : State := s.correctMet.countAll.watch.wakeManagement
/-- An agent moves. Its move comes to nothing while an access of it cannot be served (15 R317, 22 R352, 24 R398), but its place is
kept; else the turn ends. -/
def State.acting (s : State) (who : Option Waiter) (f : State → Host.Outcome State Fault Refusal) : Host.Outcome State Fault Refusal :=
  let seat := who.map fun w => { core := s.core.no, who := w : Seat }
  match f { s with seat := seat } with
  | .next t => .next (if t.stalled then (match t.asks with | some g => s.keepPlace g | none => s).keepMiss who t.missed else (t.leavePlace seat).turnEnd)
  | o => o
/-- The control thread moves: a move that comes to nothing may leave it stalled on data (21 R341). -/
def State.ctStep (s : State) (f : State → Host.Outcome State Fault Refusal) : Host.Outcome State Fault Refusal :=
  let awaits := fun (s : State) (b : Bool) => { s with core := { s.core with awaiting := b } }
  match f { (awaits s false) with seat := some { core := s.core.no, who := .ct } } with
  | .next t =>
    .next (if t.stalled then (match t.asks with | some g => (awaits s s.loadsHere).keepPlace g | none => awaits s s.loadsHere)
           else (t.leavePlace (some { core := s.core.no, who := .ct })).turnEnd)
  | o => o
/-- Who of the core in focus an event is a step of. -/
def eventSeat (i : Instr) : Option Waiter :=
  match i with
  | .vqDistribute q => some (.queue q)
  | .mtTakeItem m => some (.mt m)
  | .blockStart m => some (.mt m)
  | .linkDeliver m => some (.mt m)
  | .engineCommandStart seq => some (.cmd seq)
  | .engineCommandComplete seq => some (.cmd seq)
  | .engineFault seq => some (.cmd seq)
  | .collectiveContribution seq _ => some (.cmd seq)
  | .ctWaitComplete => some .ct
  | .trapTaken => some .ct
  | _ => none
/-- An agent moves. -/
def State.turn (s : State) (t : Turn) : Host.Outcome State Fault Refusal :=
  match t with
  | .ct => s.ctStep State.ctTurn
  | .mt m => s.acting (some (.mt m)) fun s => s.mtTurn m
  | .slot m => .next (s.idleSlot m)
  | .event i => s.acting (eventSeat i) fun s => s.eventTurn i
  | .part i n => s.acting (eventSeat i) fun s => s.partTurn i n
  | .focus n => if n < Config.cores then .next (s.focusOn n) else .fault .noSuchCore
  | .elapse n => .next (s.passTime 0 n)
  | .withhold cores n => .next (s.passTime cores n)
  | .earlyCt va n => s.acting none fun s => .next (s.earlyLoadCt va n)
  | .earlyMt m stash va n => s.acting none fun s => .next (s.earlyLoadMt m stash va n)
  | .earlyElem entry k => s.acting none fun s => .next (if s.issues then s.earlyElement entry k else s)
  | .lateCt => s.ctStep fun s => s.leaving State.ctTurn
  | .lateMt m => s.acting (some (.mt m)) fun s => s.leaving fun s => s.mtTurn m
  | .lateStores =>
    s.acting (some (.queue .store)) fun s => s.leaving fun s => .next (if s.entriesAct && !s.held s.core.no then s.distributeOne .store none else s)
  | .drain => s.acting (some .left) fun s => .next s.performAll
  | .perform k => s.acting (some .left) fun s => .next (s.performNth k)
  | .notifyEarly seq => s.acting none fun s => .next (s.notifyEarly seq)
  | .miss va => .next (s.queueMiss va)
  | .softError g => .next (s.soften g)
  | .flitFixed => .next s.countCe
  | .retrain link => s.acting none (execGuylineRetrain link)
  | .task q r t => .next (s.registerTask q r t)
  | .bar fn off n v => s.acting none fun s => .next (s.barWrite fn off n v)

/-! ## The default order -/

/-- Put a micro-thread among others by its age, then its index (02 R42). -/
def putByAge (x : Nat × Nat) : List (Nat × Nat) → List (Nat × Nat)
  | [] => [x]
  | y :: l => if x.1 < y.1 ∨ (x.1 = y.1 ∧ x.2 ≤ y.2) then x :: y :: l else y :: putByAge x l
/-- Micro-threads with something to do, the oldest first. -/
def Vec.byAge (v : Vec) : List Nat :=
  ((v.mts.filter fun x => !x.2.quiet || v.pipe.contains x.1).foldl (fun l (m, t) => putByAge (t.age, m) l) []).map (·.2)
/-- Turns of basecamp, Sheepdog and dispatch. -/
def State.moduleTurns (s : State) : List Turn :=
  let slots := s.disp.slots
  let gangs := slots.filterMap fun (_, x) => if x.state = .binding then x.bind.map fun b => (b.gangId, b.commit) else none
  let due := s.base.serving && (s.sheep.hasWork || (s.sheep.jobs != [] && decide (s.sheep.lastPass + micros 10 ≤ s.base.cycle)))
  let events : List Instr :=
    [.capApplied, .fatalCoreTimeout, .sheepdogWatchdog] ++ s.dir.forwards.map (fun f => .forwardServed f.asid f.pa) ++ (if s.base.lantern = [] then [] else [.lanternReplay])
      ++ gangs.map (fun (g, c) => .gangStart g c)
      ++ s.coresListed.flatMap (fun c => [.preemptForcedStop c.no, .saveComplete c.no, .restoreComplete c.no])
      ++ s.sheep.queues.filterMap (fun q => if q.state = .resetting then some (.queueResetComplete q.gq) else none)
      ++ s.sheep.regions.map (fun (i, _) => .periodStart i)
      ++ (List.range s.sheep.tasks.length).map (fun k => .mgmtTaskRelease k)
      ++ (if due then [.sheepdogPass] else [])
  events.map .event ++ ((List.range 24).filter fun l => s.base.linksDown.getLsbD l).map .retrain
/-- Turns of the core in focus but for its control thread. -/
def State.coreTurns (s : State) : List Turn :=
  let v := s.core.vec
  let events : List Instr :=
    [.ltimeSelfIncrement, .leaseDrop, .perfSample, .vqRetire .load, .vqRetire .compute, .vqRetire .store, .vqDistribute .load,
     .vqDistribute .compute, .vqDistribute .store]
      ++ v.cmds.flatMap (fun c => [.engineFault c.seq, .engineCommandComplete c.seq, .engineCommandStart c.seq])
      ++ v.cmds.flatMap (fun c => (List.range c.members.length).map fun k => .collectiveContribution c.seq k)
      ++ (s.core.misses.take 1).map fun p => .pageWalkComplete (BitVec.ofNat 64 (4096 * p)) .load
  let parts : List Turn := [.part (.vqDistribute .load) 1, .part (.vqDistribute .store) 1] ++ v.cmds.map fun c => .part (.engineCommandStart c.seq) 1
  (if v.late = [] then [] else [.drain]) ++ events.map .event ++ parts ++ v.byAge.map .mt ++ v.idle.map fun x => .slot x.m
/-- The state after the first turn of a list that changes something. -/
def State.firstMove (s : State) : List Turn → Option State
  | [] => none
  | t :: ts =>
    match s.turn t with
    | .next s' => if s' = s then State.firstMove s ts else some s'
    | _ => State.firstMove s ts
/-- The next core, round-robin, that a job is bound to. -/
def State.nextCore (s : State) : Nat :=
  let ns := (s.others.filter fun x => x.2.phase == .running || x.2.phase == .saving || x.2.phase == .restoring).map (·.1)
  ((ns.find? fun n => decide (s.core.no < n)).or ns.head?).getD s.core.no
/-- A module that no agenda drives: a cycle passes; the boot ROM runs after reset (24 R401); a fatal error ends when every
core has come to a boundary (24 R404); else agents and control threads move by turns, core by core. -/
def State.idleTurn (s : State) : Host.Outcome State Fault Refusal :=
  if !s.base.powered then .next s
  else
    let s := s.passTime 0 1
    if s.base.fw = .rom ∨ s.base.fw = .verifying then .next s.boot
    else if s.base.cycle % 2 = 1 then s.turn .ct
    else
      let s := s.focusOn s.nextCore
      let s := [0, 1, 2, 3].foldl (fun s d => s.holdLimit d) s
      let s := match s.base.fatalAt with | some (_, r) => s.fatal r | none => s
      match s.firstMove (s.moduleTurns ++ s.coreTurns) with
      | some s => .next s
      | none => s.turn .ct

/-! ## Loading one instruction (log 6) -/

/-- Where withFetchWord places an instruction, and the page table that maps it. -/
def loadPc : Nat := 0x2000
def loadRoot : Nat := 0x1000
/-- A leaf of level 4 that maps the low 256 TiB to themselves: V, R, W, X, U, A, D. -/
def loadPte : Nat := 0xDF
/-- A core that runs a job at user level from the instruction at `loadPc`, and nothing else. -/
def Core.loaded (c : Core) : Core :=
  { c with phase := .running, pendingSince := none, misses := [], missed := [],
           ct := { c.ct with pc := BitVec.ofNat 64 loadPc, user := true, satp := satpOf 0 (loadRoot / 4096), wait := none, pendingX := [] } }
/-- The module with nothing that would come before the turn. -/
def State.loaded (s : State) : State :=
  { s with base := { s.base with powered := true, fatalAt := none, lantern := [] }, posted := [], agent := none, stalled := false, missed := none, asks := none, seat := none, defers := false,
           dir := { s.dir with forwards := [], senders := s.dir.incarnation } }
/-- A ready micro-thread 0 whose block is one word. -/
def loadMt (w : MWord) : Mt := { Mt.idle with phase := .ready, words := [w], blk := BitVec.ofNat 64 loadPc, entry := 0 }
/-- The bytes of one instruction, where the control thread fetches it. -/
def State.loadCt (s : State) (w : Nat) : State :=
  { s.loaded with mem := Memory.writeLE (Memory.writeLE s.mem loadRoot 8 loadPte) loadPc 8 (w % 2 ^ 64), core := s.core.loaded,
                  agenda := .ct :: s.agenda }
/-- The same for a micro-thread word: micro-thread 0 is ready to run it. -/
def State.loadWord (s : State) (w : Nat) : State :=
  { s.loaded with core := { s.core.loaded with vec := { s.core.vec with mts := [] }.setMt 0 (loadMt (BitVec.ofNat 32 w)) },
                  agenda := .mt 0 :: s.agenda }
/-- A word of the table is a micro-thread word, as decodeTableWord reads it. -/
def isTableMt (nbits w : Nat) : Bool := match decodeTableWord nbits w with | some i => i.isMtWord | none => false

end Sys2Proof.Machine
end

