-- ==== Sys2Proof/Machine/Step.lean ====
section
/-! DEFINITION. One step of the module: the first turn of the agenda, or the default turn; and the loading of one
instruction for the host. -/

namespace Sys2Proof.Machine

/-- One step (log 4): a write that has come to basecamp acts first; with the lantern full it waits until the held ones are
replayed (24 R398). -/
def step (s : State) : Host.Outcome State Fault Refusal :=
  match s.posted with
  | i :: l =>
    match exec i { s with posted := l } with
    | .next t => if t.stalled then s.acting none execLanternReplay else .next t.turnEnd
    | o => o
  | [] =>
    match s.agenda with
    | t :: ts => State.turn { s with agenda := ts } t
    | [] => s.idleTurn

/-- `s` with an instruction whose bits are `w` where the next step fetches (log 6). -/
def State.withFetchWord (s : State) (nbits w : Nat) : State := if isTableMt nbits w then s.loadWord w else s.loadCt w

end Sys2Proof.Machine
end

