-- ==== Sys2Proof/Safety.lean ====
section
/-! DEFINITION. The words that claims are stated in: when a step completes, lanes of an operand, what a word or an
instruction leaves alone, and the invariants. -/

namespace Sys2Proof.Machine

/-! ## Lanes (06 R126) -/

/-- The width of a lane under a width class. -/
def laneBits (w : BitVec 2) : Nat := match w.toNat with | 0 => 32 | 1 => 16 | 2 => 8 | _ => 64
/-- Lanes of an operand under a width class. -/
def laneCount (w : BitVec 2) : Nat := match w.toNat with | 0 => 1 | 1 => 2 | 2 => 4 | _ => 1
/-- Lane `l` of an operand. -/
def laneOf (w : BitVec 2) (l : Nat) (x : Word) : BitVec (laneBits w) := x.extractLsb' (laneBits w * l) (laneBits w)

/-! ## What a micro-thread word leaves alone -/

/-- No source register of a word is uncorrectable (22 R360). -/
def State.intact (s : State) (i : Instr) : Prop := s.lostSource i = none

/-- The state but for register storage, its marks and stamps, masks, the vector queue's entries and the micro-threads, early loads,
operands on their way into the special-function pipe, and what performance counters have still to count. -/
def State.besideWord (s : State) : State :=
  { s with core := { s.core with
      events := [],
      vec := { s.core.vec with regs := [], regDirty := 0, high := 0, stamps := [], masks := [], mts := [], queue := [], early := [], pipe := [] } } }

/-- `t` follows `s` by a word of the micro-thread that runs: it writes its registers `ds` and no other storage (13 R278),
whose dirty bits, high-water mark and stamps follow (02 R45, R46; 15 R324); it performs no load early; it raises the flags `fl` in its entry at its own index (03 R85);
it clears its kv bit or not; its own state becomes `f` of what it was; of the events of 21 R343 at most special-function results happen, and at
most its own operand goes to their pipe (07 R156); and everything else is as it was. -/
structure WordDoes (s t : State) (ds : List Nat) (fl : Flags) (clear : Bool) (f : Mt → Mt) : Prop where
  regs : ∀ k, (∀ d ∈ ds, k ≠ regSlot s.core.csr.nregs d s.core.curMt) → Store.get t.core.vec.regs k = Store.get s.core.vec.regs k
  dirty : ∀ r < 64, t.core.vec.regDirty.getLsbD r = (s.core.vec.regDirty.getLsbD r || ds.contains r)
  high : t.core.vec.high = if ds = [] then s.core.vec.high else max s.core.vec.high (s.core.curMt + 1)
  stamps : ∀ k, (∀ d ∈ ds, k ≠ stampKey .regs (4 * regSlot s.core.csr.nregs d s.core.curMt)) →
    Store.get t.core.vec.stamps k = Store.get s.core.vec.stamps k
  early : ∀ e ∈ t.core.vec.early, ∃ f ∈ s.core.vec.early, e = { f with after := e.after }
  pipe : t.core.vec.pipe = s.core.vec.pipe ∨ t.core.vec.pipe = s.core.vec.pipe ++ [s.core.curMt]
  counted : ∀ e, e ≠ 6 → Table.get 0 t.core.events e = Table.get 0 s.core.events e
  masks : ∀ k, t.mask k = if clear ∧ k = kvCode then setBit (s.mask k) s.core.curMt false else s.mask k
  queue : t.core.vec.queue =
    s.core.vec.queue.map fun e => if e.id = s.me.entry then { e with flags := e.flags.raise s.core.curMt fl } else e
  mts : ∀ m, t.mt m = if m = s.core.curMt then f (s.mt m) else s.mt m
  rest : t.besideWord = s.besideWord

/-- A word that writes registers, raises no flag and goes on to the next word. -/
abbrev WordWrites (s t : State) (ds : List Nat) : Prop := WordDoes s t ds 0 false Mt.next

/-! ## What a control-thread instruction leaves alone -/

/-- The state but for the x registers and the early loads whose address they give, the pc, what the control thread waits for, and
what performance counters have still to count. -/
def State.besideCt (s : State) : State :=
  { s with core := { s.core with events := [], ct := { s.core.ct with x := [], pc := 0, early := [], wait := none, waitaStart := none } } }
/-- `t` follows `s` by a control-thread instruction of `n` bytes that writes `v` to `rd`, a write to x0 being discarded
(00 R2), goes on to the next instruction, which is its retirement (21 R343, event 2), and changes nothing else. -/
structure CtDoes (s t : State) (rd : XReg) (v : Word) (n : Nat) : Prop where
  x : ∀ r, t.getX r = if r = rd ∧ r ≠ 0 then v else s.getX r
  pc : t.core.ct.pc = s.core.ct.pc + BitVec.ofNat 64 n
  waits : t.core.ct.wait = none ∧ t.core.ct.waitaStart = none
  early : ∀ e ∈ t.core.ct.early, ∃ f ∈ s.core.ct.early, e = { f with after := e.after }
  counted : t.core.events = (s.note 2).core.events
  rest : t.besideCt = s.besideCt

/-! ## What an access to memory leaves alone -/

/-- A core but for its copies, leases, logical time, TLB and miss queue, frame-chain cache, early loads and late stores, the
events still to be counted, and whether a sleeping WAITA has been woken. -/
def Core.besideRead (c : Core) : Core :=
  { c with copies := [], leases := [], ltime := 0, dropAt := 0, tlb := [], misses := [], chain := [], events := [],
           ct := { c.ct with wait := none, early := [] }, vec := { c.vec with early := [], late := [] } }
/-- The module but for memory, tenure entries, marks of lost data and of errors, met ones among them, the dies' translation caches, an
access that cannot be served yet, and the cores not in focus. -/
def State.besideRead (s : State) : State :=
  { s with core := s.core.besideRead, others := [], mem := [], dir := { s.dir with blocks := [], tiles := [] },
           base := { s.base with lost := [], soft := [], met := [], dies := [] }, stalled := false, missed := none, asks := none }
/-- A die but for its translation cache. -/
def Die.besideCache (d : Die) : Die := { d with cache := [] }
/-- `t` follows `s` by translations and reads of the core in focus: walks set A and D bits and recall what other cores
hold, leases are taken, caches of translations filled; nothing else changes. -/
structure ReadBy (s t : State) : Prop where
  here : t.besideRead = s.besideRead
  cores : ∀ n, (t.coreAt n).besideRead = (s.coreAt n).besideRead
  dies : ∀ d, (Table.get Die.zero t.base.dies d).besideCache = (Table.get Die.zero s.base.dies d).besideCache

/-- A core but for what a write into its window can change too. -/
def Core.besideWrite (c : Core) : Core :=
  { c.besideRead with
    ct := { c.ct with wait := none, early := [], windowReservation := none },
    vec := { c.vec with regs := [], acc := [], stash := [], fly := [], stamps := [], regDirty := 0, tileDirty := 0, high := 0, held := [],
                        early := [], late := [] } }
/-- The module but for what a write can change; a write to a basecamp register is an event to come. -/
def State.besideWrite (s : State) : State :=
  { s.besideRead with core := s.core.besideWrite, host := [], posted := [] }
/-- A die but for its translation cache and its gating, which a write ends (24 R398). -/
def Die.besideGate (d : Die) : Die := { d with cache := [], clockGated := false, powerGated := false }
/-- `t` follows `s` by a write of the core in focus: nothing but stored bytes and what keeps them coherent changes. -/
structure WriteBy (s t : State) : Prop where
  here : t.besideWrite = s.besideWrite
  cores : ∀ n, (t.coreAt n).besideWrite = (s.coreAt n).besideWrite
  dies : ∀ d, (Table.get Die.zero t.base.dies d).besideGate = (Table.get Die.zero s.base.dies d).besideGate

/-- The byte at a device-physical address: the latest version of a byte of DDR, a byte of a core's window, a byte of host
memory; 0 elsewhere. -/
def State.byteAt (s : State) (a : Nat) : Nat :=
  match placeOf a with
  | .ddr => s.peek a 1
  | .window c p off => ((s.coreAt c).partByte p off).toNat
  | .host => (Memory.get s.host (a - Config.hostBase)).toNat
  | _ => 0
/-- Every byte outside `n` bytes at `pa` is what it was. -/
def KeepsBytes (s t : State) (pa n : Nat) : Prop := ∀ a, a < pa ∨ pa + n ≤ a → t.byteAt a = s.byteAt a
/-- The `n` bytes at `pa` are those of `v`, least significant first (00 R3). -/
def State.holds (s : State) (pa n v : Nat) : Prop := ∀ j < n, s.byteAt (pa + j) = v / 256 ^ j % 256

/-- One writer at a time (15 R310): cores are listed once, each under its number; a dirty copy of a block belongs to the
holder of the write tenure of its entry, and no two cores hold dirty copies of one block. -/
structure State.Coherent (s : State) : Prop where
  listed : (s.others.map (·.1)).Nodup ∧ ∀ p ∈ s.others, p.2.no = p.1 ∧ p.1 ≠ s.core.no
  copies : ∀ c ∈ s.coresListed, c.copies.wf none = true
  writer : ∀ c ∈ s.coresListed, ∀ b x, c.copy b = some x → x.dirty = true →
    (s.tenure x.key (64 * b)).holder = some c.no ∧
      ∀ c' ∈ s.coresListed, ∀ x', c'.copy b = some x' → x'.dirty = true → c'.no = c.no
/-- Whoever holds a dirty copy of the block of an address holds it under this entry. -/
def State.underKey (s : State) (k : TKey) (pa : Nat) : Prop :=
  ∀ c ∈ s.coresListed, ∀ x, c.copy (blockOf pa) = some x → x.dirty = true → x.key = k
/-- A write there waits at its target for an MTCONF to end (09 R187). -/
def State.holdsWrite (s : State) (pa : Nat) : Prop :=
  ∃ c p off, placeOf pa = .window c p off ∧ c ≠ s.core.no ∧ (p = .regs ∨ p = .acc) ∧ (s.coreAt c).mtconfWaits = true

/-- An instruction that holds a word of another stream holds a legal one (05 R118, R121). -/
def HoldsLegal (i : Instr) : Prop :=
  (∀ m dt l w, i = .vectorCarrier m dt l w → carrierWordOk l w = true) ∧
    ∀ a r sc rd r1 r2 w, i = .xcopyM a r sc rd r1 r2 w → isMatrixWord w = true

end Sys2Proof.Machine
end

