-- ==== Sys2Proof/Certificates/Slice0/Obligations.lean ====
section
/-! DEFINITION. What is claimed of the machine. Each statement's docstring names the rules of spec/ that it formalises, by
chapter and number; a clause that rests on a choice of the model names its log entry. -/

open Sys2Proof Sys2Proof.Machine

/-! ## Micro-thread integer words -/

/-- The words of 06 R127 that take A and B, each with what it does to one lane. -/
def Sys2Proof.Machine.laneOps : List ((BitVec 2 → VReg → VReg → VReg → Instr) × ((n : Nat) → BitVec n → BitVec n → BitVec n)) :=
  [(.add, fun _ a b => a + b), (.sub, fun _ a b => a - b), (.and, fun _ a b => a &&& b), (.or, fun _ a b => a ||| b),
   (.xor, fun _ a b => a ^^^ b), (.andn, fun _ a b => a &&& ~~~b), (.sll, fun n a b => a <<< (b.toNat % n)),
   (.srl, fun n a b => a >>> (b.toNat % n)), (.sra, fun n a b => BitVec.ofInt n (a.toInt / 2 ^ (b.toNat % n))),
   (.min, fun _ a b => if a.toInt ≤ b.toInt then a else b), (.max, fun _ a b => if a.toInt ≤ b.toInt then b else a),
   (.minu, fun _ a b => if a.toNat ≤ b.toNat then a else b), (.maxu, fun _ a b => if a.toNat ≤ b.toNat then b else a),
   (.slt, fun _ a b => if a.toInt < b.toInt then 1 else 0), (.sltu, fun _ a b => if a.toNat < b.toNat then 1 else 0),
   (.seq, fun _ a b => if a = b then 1 else 0), (.mul, fun n a b => BitVec.ofInt n (a.toInt * b.toInt)),
   (.mulh, fun n a b => BitVec.ofInt n (a.toInt * b.toInt / 2 ^ n)),
   (.mulhu, fun n a b => BitVec.ofNat n (a.toNat * b.toNat / 2 ^ n)),
   (.div, fun n a b => if b = 0 then -1 else if a = BitVec.intMin n ∧ b = -1 then a else BitVec.ofInt n (a.toInt.tdiv b.toInt)),
   (.divu, fun n a b => if b = 0 then -1 else BitVec.ofNat n (a.toNat / b.toNat)),
   (.rem, fun n a b => if b = 0 then a else if a = BitVec.intMin n ∧ b = -1 then 0
      else BitVec.ofInt n (a.toInt - b.toInt * a.toInt.tdiv b.toInt)),
   (.remu, fun n a b => if b = 0 then a else BitVec.ofNat n (a.toNat - b.toNat * (a.toNat / b.toNat)))]

/-- 06 R126 to R128: each integer word of A and B completes; every lane of D is the operation of the same lanes of A and
B, division included, and nothing else changes but the word's own progress. Lanes of A come through a lane modifier where
one captured them. -/
def Obligations.IntegerLanes : Prop :=
  ∀ x ∈ laneOps, ∀ (s : State) (w : BitVec 2) (d a b : VReg), s.intact (x.1 w d a b) →
    ∃ t, exec (x.1 w d a b) s = .next t ∧
      (∀ l < laneCount w, laneOf w l (t.opnd w d) = x.2 _ (laneOf w l (s.opndA w a)) (laneOf w l (s.opnd w b))) ∧
      WordWrites s t (span d (widthSpan w))

/-- 06 R127: clz, ctz and popc complete; every lane of D holds the number of zero bits above the highest one bit of A's
lane, below the lowest one bit, or of one bits. The count `k` is said by what it counts: bit n − 1 − k, or k, is the first
one bit met from the top, or from the bottom, and n where there is none. -/
def Sys2Proof.Machine.bitCountsClaim : Prop :=
  ∀ (s : State) (w : BitVec 2) (d a : VReg),
    (s.intact (.clz w d a) → ∃ t, exec (.clz w d a) s = .next t ∧ WordWrites s t (span d (widthSpan w)) ∧
      ∀ l < laneCount w, ∃ k ≤ laneBits w, laneOf w l (t.opnd w d) = BitVec.ofNat _ k ∧
        (∀ j < k, (laneOf w l (s.opndA w a)).getMsbD j = false) ∧
        (k < laneBits w → (laneOf w l (s.opndA w a)).getMsbD k = true)) ∧
    (s.intact (.ctz w d a) → ∃ t, exec (.ctz w d a) s = .next t ∧ WordWrites s t (span d (widthSpan w)) ∧
      ∀ l < laneCount w, ∃ k ≤ laneBits w, laneOf w l (t.opnd w d) = BitVec.ofNat _ k ∧
        (∀ j < k, (laneOf w l (s.opndA w a)).getLsbD j = false) ∧
        (k < laneBits w → (laneOf w l (s.opndA w a)).getLsbD k = true)) ∧
    (s.intact (.popc w d a) → ∃ t, exec (.popc w d a) s = .next t ∧ WordWrites s t (span d (widthSpan w)) ∧
      ∀ l < laneCount w, laneOf w l (t.opnd w d) =
        BitVec.ofNat _ ((List.range (laneBits w)).countP fun k => (laneOf w l (s.opndA w a)).getLsbD k))

/-- Words whose result is one register, each with that register and its value (06 R129 to R131, R136). -/
def Sys2Proof.Machine.oneRegister (s : State) (d a b c : VReg) (i14 : BitVec 14) (i20 : BitVec 20) (sh : BitVec 5) : List (Instr × MWord) :=
  [(.sel d a b c, if s.regA a 0 ≠ 0 then s.reg b.toNat else s.reg c.toNat),
   (.mtid d, BitVec.ofNat 32 s.core.curMt),
   (.addi d a i14, s.regA a 0 + i14.signExtend 32), (.andi d a i14, s.regA a 0 &&& i14.signExtend 32),
   (.ori d a i14, s.regA a 0 ||| i14.signExtend 32), (.xori d a i14, s.regA a 0 ^^^ i14.signExtend 32),
   (.slli d a sh, s.regA a 0 * BitVec.ofNat 32 (2 ^ sh.toNat)),
   (.srli d a sh, BitVec.ofNat 32 ((s.regA a 0).toNat / 2 ^ sh.toNat)),
   (.srai d a sh, BitVec.ofInt 32 ((s.regA a 0).toInt / 2 ^ sh.toNat)),
   (.lui d i20, BitVec.ofNat 32 (i20.toNat * 2 ^ 12))]

/-- 06 R129, R130, R131, R136: sel, mtid, the immediate words and lui complete; D holds the value that the rule gives and
nothing else changes but the word's own progress. -/
def Sys2Proof.Machine.oneRegisterWordsClaim : Prop :=
  ∀ (s : State) (d a b c : VReg) (i14 : BitVec 14) (i20 : BitVec 20) (sh : BitVec 5),
    ∀ x ∈ oneRegister s d a b c i14 i20 sh, s.intact x.1 →
      ∃ t, exec x.1 s = .next t ∧ t.reg d.toNat = x.2 ∧ WordWrites s t [d.toNat]

/-- Bit `j` of A as bfx reads it: bits above 31 are 0, or copies of bit 31 under ext=sign. -/
def Sys2Proof.Machine.fieldBit (sign : Bool) (x : MWord) (j : Nat) : Bool := if j < 32 then x.getLsbD j else sign && x.getLsbD 31

/-- 06 R132, R133: bfx and bfi complete. bfx's D is the field of `len + 1` bits of A from bit `pos`, zero- or
sign-extended; bfi's D is D with that field replaced by the low bits of A, bits above 31 dropped. -/
def Sys2Proof.Machine.bitFieldsClaim : Prop :=
  ∀ (s : State) (sign : Bool) (d a : VReg) (pos len : BitVec 6),
    (Instr.wellFormed (.bfx sign d a pos len) = true → s.intact (.bfx sign d a pos len) →
      ∃ t, exec (.bfx sign d a pos len) s = .next t ∧ WordWrites s t [d.toNat] ∧
        ∀ k < 32, (t.reg d.toNat).getLsbD k = if k ≤ len.toNat then fieldBit sign (s.regA a 0) (pos.toNat + k)
          else sign && fieldBit sign (s.regA a 0) (pos.toNat + len.toNat)) ∧
    (Instr.wellFormed (.bfi d a pos len) = true → s.intact (.bfi d a pos len) →
      ∃ t, exec (.bfi d a pos len) s = .next t ∧ WordWrites s t [d.toNat] ∧
        ∀ k < 32, (t.reg d.toNat).getLsbD k =
          if pos.toNat ≤ k ∧ k ≤ pos.toNat + len.toNat then (s.regA a 0).getLsbD (k - pos.toNat) else (s.reg d.toNat).getLsbD k)

/-- A fault of the word that runs (02 R50, 22 R357): the micro-thread is FAULTED with this record, its queue dropped, its
kf bit set; the fault counts as an event (21 R343); nothing else changes. -/
def Sys2Proof.Machine.FaultsWith (s t : State) (f : MtFault) : Prop :=
  t = { s with core := { s.core with events := (s.note 16).core.events, vec := { s.core.vec with
    mts := Table.set Mt.idle s.core.vec.mts s.core.curMt
      { s.me with phase := .faulted, queue := [], dataWait := false, ix := f.wordIx, blk := f.block, fault := some f },
    masks := Table.set 0 s.core.vec.masks 10 (s.mask kfCode ||| BitVec.twoPow 8192 s.core.curMt) } } }
/-- The record of a fault at the word that runs. -/
def Sys2Proof.Machine.recordHere (s : State) (code : Nat) (mcode : BitVec 8) (addr : Word) : MtFault :=
  { code := code, mcode := mcode, block := s.me.blk, wordIx := s.me.ix, addr := addr, carrier := s.me.carrier, inReg := false,
    dropped := s.me.queue.length }

/-- 06 R134: rget and rput reach register A + B, or D + B, by the full index; at or beyond NREGS they fault with code 2,
the register number in the record, and write nothing. -/
def Sys2Proof.Machine.indexedRegistersClaim : Prop :=
  ∀ (s : State) (d a b : VReg),
    (s.intact (.rget d a b) →
      (a.toNat + (s.reg b.toNat).toNat < s.nregs → s.lostReg s.core.curMt [a.toNat + (s.reg b.toNat).toNat] = none →
        ∃ t, exec (.rget d a b) s = .next t ∧ t.reg d.toNat = s.reg (a.toNat + (s.reg b.toNat).toNat) ∧ WordWrites s t [d.toNat]) ∧
      (s.nregs ≤ a.toNat + (s.reg b.toNat).toNat → ∃ t, exec (.rget d a b) s = .next t ∧
        FaultsWith s t (recordHere s 2 0 (BitVec.ofNat 64 (a.toNat + (s.reg b.toNat).toNat))))) ∧
    (s.intact (.rput d a b) →
      (d.toNat + (s.reg b.toNat).toNat < s.nregs →
        ∃ t, exec (.rput d a b) s = .next t ∧ t.reg (d.toNat + (s.reg b.toNat).toNat) = s.regA a 0 ∧
          WordWrites s t [d.toNat + (s.reg b.toNat).toNat]) ∧
      (s.nregs ≤ d.toNat + (s.reg b.toNat).toNat → ∃ t, exec (.rput d a b) s = .next t ∧
        FaultsWith s t (recordHere s 2 0 (BitVec.ofNat 64 (d.toNat + (s.reg b.toNat).toNat)))))

/-- 06 R137, R138, R143: lnkrd takes the slot's value into D and empties the slot; lnkwr puts A into the delivery buffer
and writes no register; mtrap faults with code 12 and its own code in the record. -/
def Sys2Proof.Machine.linkAndTrapWordsClaim : Prop :=
  ∀ (s : State) (d : VReg) (code : BitVec 8),
    (∀ v, s.me.slot = some v → s.intact (.lnkrd d) → ∃ t, exec (.lnkrd d) s = .next t ∧ t.reg d.toNat = v ∧
      WordDoes s t [d.toNat] 0 false fun m => { m with slot := none }.next) ∧
    (s.intact (.lnkwr d) → ∃ t, exec (.lnkwr d) s = .next t ∧
      WordDoes s t [] 0 false fun m => { m with link := some (s.regA d 0) }.next) ∧
    ∃ t, exec (.mtrap code) s = .next t ∧ FaultsWith s t (recordHere s 12 code 0)

/-! ## Micro-thread floating point -/

/-- The floating-point words of 07 R149 to R155, cvt.fi and cvt.if: each with the width class of its lanes and the code and
flags of one lane, from the lanes of A, B and C, in the lane's format under a rounding mode. -/
def Sys2Proof.Machine.floatOps (w : BitVec 2) (bf : Bool) (d a b c : VReg) (rm : RMode) : List (Instr × BitVec 2 × (Nat → Nat → Nat → Nat × Flags)) :=
  let f := fmtOf w
  let v := if bf then (1 : BitVec 2) else 0
  let g := fmtOf v
  [(.fadd w d a b, w, fun x y _ => f.add rm x y), (.fsub w d a b, w, fun x y _ => f.sub rm x y),
   (.fmul w d a b, w, fun x y _ => f.mul rm x y), (.fdiv w d a b, w, fun x y _ => f.div rm x y),
   (.fsqrt w d a, w, fun x _ _ => f.sqrt rm x),
   (.fmin w d a b, w, fun x y _ => f.minmax false x y), (.fmax w d a b, w, fun x y _ => f.minmax true x y),
   (.feq w d a b, w, fun x y _ => ((f.compare 0 x y).1.toNat, (f.compare 0 x y).2)),
   (.flt w d a b, w, fun x y _ => ((f.compare 1 x y).1.toNat, (f.compare 1 x y).2)),
   (.fle w d a b, w, fun x y _ => ((f.compare 2 x y).1.toNat, (f.compare 2 x y).2)),
   (.fsgnj w d a b, w, fun x y _ => (f.withSign x (f.signOf y), 0)),
   (.fsgnjn w d a b, w, fun x y _ => (f.withSign x (!f.signOf y), 0)),
   (.fsgnjx w d a b, w, fun x y _ => (f.withSign x (f.signOf x != f.signOf y), 0)),
   (.fclass w d a, w, fun x _ _ => (2 ^ f.classOf x, 0)),
   (.fma w d a b c, w, fun x y z => f.fma rm false false x y z), (.fms w d a b c, w, fun x y z => f.fma rm false true x y z),
   (.fnma w d a b c, w, fun x y z => f.fma rm true false x y z),
   (.cvtFi w d a, w, fun x _ _ => toIntBits rm f.width (f.decode x)),
   (.cvtIf w d a, w, fun x _ _ => f.ofInt rm (BitVec.ofNat f.width x).toInt),
   (.frcp bf d a, v, fun x _ _ => g.frcp x), (.frsq bf d a, v, fun x _ _ => g.frsq x), (.fexp2 bf d a, v, fun x _ _ => g.fexp2 x),
   (.flog2 bf d a, v, fun x _ _ => g.flog2 x), (.fsinpi bf d a, v, fun x _ _ => g.fsinpi x),
   (.fcospi bf d a, v, fun x _ _ => g.fcospi x), (.ftanh bf d a, v, fun x _ _ => g.ftanh x), (.fsigm bf d a, v, fun x _ _ => g.fsigm x)]

/-- The special functions (07 R154). -/
def Sys2Proof.Machine.specialWord (i : Instr) : Bool :=
  match i with
  | .frcp _ _ _ => true | .frsq _ _ _ => true | .fexp2 _ _ _ => true | .flog2 _ _ _ => true
  | .fsinpi _ _ _ => true | .fcospi _ _ _ => true | .ftanh _ _ _ => true | .fsigm _ _ _ => true
  | _ => false

/-- 07 R147, R149 to R155, R158: each floating-point word completes; every lane of D holds the code that its operation gives
for the same lanes of A, B and C under the rounding mode of the entry, the flags of all lanes are raised in the entry, and
nothing else changes but the word's own progress. The mode of the special functions is RNE whatever VFRM holds (03 R80); their
micro-thread then waits for the pipe to take the operand (R156). -/
def Obligations.FloatWords : Prop :=
  ∀ (s : State) (w : BitVec 2) (bf : Bool) (d a b c : VReg), ∀ x ∈ floatOps w bf d a b c s.rmode, s.intact x.1 →
    ∃ t fl, exec x.1 s = .next t ∧ WordDoes s t [d.toNat] fl false Mt.next ∧
      t.core.vec.pipe = s.core.vec.pipe ++ (if specialWord x.1 then [s.core.curMt] else []) ∧
      (x.2.1 = 0 → t.reg d.toNat = BitVec.ofNat 32 (x.2.2 (s.regA a 0).toNat (s.reg b.toNat).toNat (s.reg c.toNat).toNat).1 ∧
        fl = (x.2.2 (s.regA a 0).toNat (s.reg b.toNat).toNat (s.reg c.toNat).toNat).2) ∧
      (x.2.1 ≠ 0 →
        let r := fun l => x.2.2 (half (s.regA a 0) l) (half (s.reg b.toNat) l) (half (s.reg c.toNat) l)
        (∀ l < 2, (t.reg d.toNat).extractLsb' (16 * l) 16 = BitVec.ofNat 16 (r l).1) ∧ fl = (r 0).2 ||| (r 1).2)

/-- The arithmetic words that 03 R74 speaks of: their lane results for a format. -/
def Sys2Proof.Machine.arithmetic (f : Fmt) (rm : RMode) (x y z : Nat) : List (List Nat × (Nat × Flags)) :=
  [([x, y], f.add rm x y), ([x, y], f.sub rm x y), ([x, y], f.mul rm x y), ([x, y], f.div rm x y), ([x], f.sqrt rm x),
   ([x, y, z], f.fma rm false false x y z), ([x, y, z], f.fma rm false true x y z), ([x, y, z], f.fma rm true false x y z),
   ([x], f.frcp x), ([x], f.frsq x), ([x], f.fexp2 x), ([x], f.flog2 x), ([x], f.fsinpi x), ([x], f.fcospi x), ([x], f.ftanh x),
   ([x], f.fsigm x)]

/-- 03 R74: in FP32, FP16 and BF16 a NaN operand gives the canonical NaN, with no payload or sign bit of it, and a signalling
one raises NV. -/
def Sys2Proof.Machine.nanIsCanonicalClaim : Prop :=
  (Fmt.fp32.nan = 0x7FC0_0000 ∧ Fmt.fp16.nan = 0x7E00 ∧ Fmt.bf16.nan = 0x7FC0) ∧
  ∀ f ∈ [Fmt.fp32, Fmt.fp16, Fmt.bf16], ∀ (rm : RMode) (x y z : Nat), ∀ o ∈ arithmetic f rm x y z,
    (∃ v ∈ o.1, (f.decode v).isNan = true) →
      o.2.1 = f.nan ∧ ((∃ v ∈ o.1, (f.decode v).isSig = true) → o.2.2.getLsbD 4 = true)

/-- 03 R56, R71, R73: in every format a code that is no NaN decodes to a value that every mode rounds to the same code, exactly
and with no flag: no code is lost and none has a second reading. -/
def Sys2Proof.Machine.roundingIsExactOnCodesClaim : Prop :=
  ∀ f ∈ [Fmt.fp32, Fmt.fp16, Fmt.bf16, Fmt.e4, Fmt.e5, Fmt.e2], ∀ (rm : RMode) (x : Nat), x < 2 ^ f.width →
    (f.decode x).isNan = false → f.round rm (f.decode x) = (x, 0)

/-- 03 R76: narrowing into a finite-only format. A NaN gives +0 with NV and clears kv; an infinity gives the largest finite
value of its sign with OF and NX; a finite value never gives more than the largest finite magnitude and keeps its sign bit,
and kv is left alone. -/
def Sys2Proof.Machine.narrowingSaturatesClaim : Prop :=
  ∀ f ∈ [Fmt.e4, Fmt.e5, Fmt.e2], ∀ (rm : RMode),
    (∀ g, f.narrow rm (.nan g) = (0, flNV, true)) ∧
    (∀ n, f.narrow rm (.inf n) = (f.signed n f.maxCode, flOF ||| flNX, false)) ∧
    ∀ n m e, ∃ c fl, f.narrow rm (.fin n m e) = (f.signed n c, fl, false) ∧ c ≤ f.maxCode

/-- 07 R158 to R160: cvt.n, cvt.w, cvtq4 and mxscale complete. Element `k` of D is the conversion of the element that the
rule names; the flags of all elements are raised in the entry; cvt.n and cvtq4 clear the micro-thread's kv bit when an
element asks for it (03 R76), and the widening forms out of finite-only formats give NaN where it is clear (03 R79). -/
def Obligations.ConversionWords : Prop :=
  ∀ (s : State) (w : BitVec 2) (nf sf part : BitVec 3) (p1 : BitVec 1) (bf : Bool) (d a b : VReg),
    (s.intact (.cvtN w nf d a b) →
      let es := (wideElems w (s.regA a 0) ++ wideElems w (s.reg b.toNat)).map (narrowElem w nf s.rmode)
      ∃ t, exec (.cvtN w nf d a b) s = .next t ∧ es.length = 32 / narrowBits w ∧
        (∀ k (h : k < es.length), ((t.reg d.toNat).toNat / 2 ^ (narrowBits w * k)) % 2 ^ narrowBits w = es[k].1 % 2 ^ narrowBits w) ∧
        WordDoes s t [d.toNat] (es.foldl (fun f e => f ||| e.2.1) 0) (es.any (·.2.2)) Mt.next) ∧
    (s.intact (.cvtW w p1 nf d a) →
      let n := narrowBits w
      let lanes := if w = 0 then 1 else 2
      let es := (List.range lanes).map fun l =>
        if narrowKind nf = .finite ∧ !s.kvBit then ((fmtOf w).nan, (0 : Flags))
        else widenElem w nf s.rmode ((s.regA a 0).toNat / 2 ^ (n * (p1.toNat * lanes + l)) % 2 ^ n)
      ∃ t, exec (.cvtW w p1 nf d a) s = .next t ∧
        (∀ k (h : k < es.length), ((t.reg d.toNat).toNat / 2 ^ (2 * n * k)) % 2 ^ (2 * n) = es[k].1 % 2 ^ (2 * n)) ∧
        WordDoes s t [d.toNat] (es.foldl (fun f e => f ||| e.2) 0) false Mt.next) ∧
    (s.intact (.cvtq4 d a b) →
      let es := (List.range 8).map fun k =>
        Fmt.e2.narrow rne ((Fmt.fp32.decode (s.reg (a.toNat + k)).toNat).scale (-(s.reg b.toNat).toInt))
      ∃ t, exec (.cvtq4 d a b) s = .next t ∧
        (∀ k (h : k < es.length), ((t.reg d.toNat).toNat / 2 ^ (4 * k)) % 2 ^ 4 = es[k].1 % 2 ^ 4) ∧
        WordDoes s t [d.toNat] (es.foldl (fun f e => f ||| e.2.1) 0) (es.any (·.2.2)) Mt.next) ∧
    (s.intact (.mxscale bf part sf d a b) →
      let f := if bf then Fmt.bf16 else Fmt.fp32
      let lanes := if bf then 2 else 1
      let n := (mxFmt sf).width
      let sc := (s.reg b.toNat).toNat % 256
      let es := (List.range lanes).map fun l =>
        if sc = 255 ∨ !s.kvBit then (f.nan, (0 : Flags))
        else f.round s.rmode (((mxFmt sf).decode ((s.regA a 0).toNat / 2 ^ (n * (part.toNat * lanes + l)) % 2 ^ n)).scale ((sc : Int) - 127))
      ∃ t, exec (.mxscale bf part sf d a b) s = .next t ∧
        (∀ k (h : k < es.length), ((t.reg d.toNat).toNat / 2 ^ (f.width * k)) % 2 ^ f.width = es[k].1 % 2 ^ f.width) ∧
        WordDoes s t [d.toNat] (es.foldl (fun f e => f ||| e.2) 0) false Mt.next)

/-- Plane `p` of element `k` of the plane group in two registers (07 R161). -/
def Sys2Proof.Machine.planeBit (a b : MWord) (p k : Nat) : Bool := if p < 4 then a.getLsbD (8 * p + k) else b.getLsbD (8 * (p - 4) + k)
/-- 07 R161 to R163: pnix and pnit complete. Byte lane `k` of pnix's D holds the first `q` planes of element `k`, sign-extended:
bit `j` is plane q − 1 − j, and plane 0 above. Bit 8p + k of pnit's D is bit 7 − p of element `k` of A and B, 0 from plane `q`
on. -/
def Obligations.PlaneWords : Prop :=
  ∀ (s : State) (q : BitVec 6) (d a b : VReg), 2 ≤ q.toNat → q.toNat ≤ 8 →
    (s.intact (.pnix q d a b) → ∃ t, exec (.pnix q d a b) s = .next t ∧ WordWrites s t [d.toNat] ∧
      ∀ k < 4, ∀ j < 8, (t.reg d.toNat).getLsbD (8 * k + j) = planeBit (s.regA a 0) (s.reg b.toNat) (q.toNat - 1 - j) k) ∧
    (s.intact (.pnit q d a b) → ∃ t, exec (.pnit q d a b) s = .next t ∧ WordWrites s t [d.toNat] ∧
      ∀ p < 4, ∀ k < 8, (t.reg d.toNat).getLsbD (8 * p + k) =
        (decide (p < q.toNat) && if k < 4 then (s.regA a 0).getLsbD (8 * k + (7 - p)) else (s.reg b.toNat).getLsbD (8 * (k - 4) + (7 - p))))


/-! ## Micro-thread memory -/

/-- A run of `n` bytes in host memory, or in one data part of one core's window. -/
def Sys2Proof.Machine.plainPlace (pa n : Nat) : Prop :=
  (∀ j < n, placeOf (pa + j) = .host) ∨ ∃ c p o, p ≠ .control ∧ ∀ j < n, placeOf (pa + j) = .window c p (o + j)
/-- The core in focus may read its copy of a block under an entry: it holds the write tenure, or a lease that has not ended
at its LTIME (15 R309). -/
def Sys2Proof.Machine.mayReuse (s : State) (k : TKey) (pa : Nat) (x : Copy) : Prop :=
  s.core.copy (blockOf pa) = some x ∧ x.key = k ∧
    ((s.tenure k pa).holder = some s.core.no ∨ ltGe (s.core.leaseEnd x) (some s.core.ltime) = true)
/-- What a read of `n` bytes gives (13 R279, 15 R309): bytes of host memory or of a window as they are; of DDR, those of a
copy under tenure or lease, else the latest version. -/
def Sys2Proof.Machine.Reads (s : State) (k : TKey) (pa n v : Nat) : Prop :=
  (plainPlace pa n → s.holds pa n v) ∧
  (placeOf pa = .ddr → (∀ x, mayReuse s k pa x → v = x.data.toNat / 2 ^ (8 * (pa % 64)) % 2 ^ (8 * n)) ∧
    ((∀ x, ¬ mayReuse s k pa x) → s.Coherent → s.underKey k pa → pa % 64 + n ≤ 64 → s.holds pa n v))

/-- 08 R167 to R170, 14 R296, R298: ld of an aligned address that translates and is readable, and lds of an aligned offset in the
stash, complete. D holds the bytes read, bytes and halves zero-extended; no byte of memory changes; the micro-thread is not ready until
its data returns. `u` is the state after translation, whose walk may set A and D bits of the page's entry, and after the stores that
were left (log 11) and that the load must come after. A load that has been performed early gives the value that it read then. -/
def Obligations.Loads : Prop :=
  ∀ (s : State) (size : BitVec 2) (d a : VReg) (off : BitVec 12),
    let n := 2 ^ size.toNat
    let va := s.pairA a + off.signExtend 64
    let o := (s.regA a 0).toNat + off.toInt
    (∀ pa u, s.intact (.ld size d a off) → va.toNat % n = 0 → s.checkOwn (.mt s.core.curMt) va n s.userMode = (.ok pa, u) →
      let k := u.keyFor (some va.toNat)
      ∃ t s2, exec (.ld size d a off) s = .next t ∧ WriteBy s u ∧ (s.core.vec.late = [] → ReadBy s u) ∧ ReadBy u s2 ∧
        WordDoes s2 t (span d (sizeSpan size)) 0 false (fun m => { m with dataWait := true }) ∧
        match u.earlyValue (.mt s.core.curMt) (s.addressFrom a 2) (virtSpot va pa n) with
        | some v => v < 2 ^ (8 * n) → t.data size d.toNat = v
        | none => Reads u k pa n (t.data size d.toNat) ∧ (u.Coherent → u.underKey k pa → ∀ a, s2.byteAt a = u.byteAt a)) ∧
    (s.intact (.lds size d a off) → o % (n : Int) = 0 → 0 ≤ o → o + n ≤ 0x20_0000 → s.core.no < 192 →
      let x := s.stashSpot o.toNat n
      let u := s.drainFor (.mt s.core.curMt) x
      u.partLost .stash o.toNat n = false →
      ∃ t s2, exec (.lds size d a off) s = .next t ∧ WriteBy s u ∧ (s.core.vec.late = [] → u = s) ∧ ReadBy u s2 ∧
        WordDoes s2 t (span d (sizeSpan size)) 0 false (fun m => { m with dataWait := true }) ∧ (∀ a, s2.byteAt a = u.byteAt a) ∧
        match u.earlyValue (.mt s.core.curMt) (u.addressFrom a 1) x with
        | some v => v < 2 ^ (8 * n) → t.data size d.toNat = v
        | none => u.holds x.pa n (t.data size d.toNat))

/-- `n` bytes of `v` are written at an address and no other byte changes. -/
def Sys2Proof.Machine.WritesAt (u t : State) (k : TKey) (pa n v : Nat) : Prop :=
  (placeOf pa = .ddr → pa % 64 + n ≤ 64 → u.Coherent → u.underKey k pa → KeepsBytes u t pa n ∧ t.holds pa n v) ∧
  (plainPlace pa n → KeepsBytes u t pa n ∧ (¬ u.holdsWrite pa → t.holds pa n v))
/-- What a plain store of `n` bytes of `v` leaves: at its address, or, where this turn leaves stores
to be performed later (log 11), no byte changed and the store at the end of those left. -/
def Sys2Proof.Machine.StoresAt (u s2 t : State) (who : Reader) (x : Spot) (k : TKey) (v : Nat) : Prop :=
  (u.defers = false ∨ u.mayLeave x.pa = false → WritesAt u t k x.pa x.n v) ∧
  (u.defers = true → u.mayLeave x.pa = true → ReadBy u s2 ∧ (∀ a, t.byteAt a = u.byteAt a) ∧
    t.core.vec.late = u.core.vec.late ++ [{ who := who, spot := x, op := .store v }])

/-- 08 R167 to R169, 13 R279, 14 R296: st of an aligned address that translates, and sts of an aligned offset in the stash, complete
and the micro-thread goes on. The bytes at the address become those of D; every other byte is as before, and no register of
the micro-thread is written by the word. Stores that were left and that this one must come after are performed first (`u`). -/
def Obligations.Stores : Prop :=
  ∀ (s : State) (size : BitVec 2) (d a : VReg) (off : BitVec 12),
    let n := 2 ^ size.toNat
    let va := s.pairA a + off.signExtend 64
    let o := (s.regA a 0).toNat + off.toInt
    (∀ pa s1, s.intact (.st size d a off) → va.toNat % n = 0 → s.checkVirt va n .store s.userMode = (.ok pa, s1) →
      let x := virtSpot va pa n
      let u := s1.drainFor (.mt s.core.curMt) x
      ∃ t s2, exec (.st size d a off) s = .next t ∧ ReadBy s s1 ∧ WriteBy s1 u ∧ (s1.core.vec.late = [] → u = s1) ∧ WriteBy u s2 ∧
        WordDoes s2 t [] 0 false Mt.next ∧
        StoresAt u s2 t (.mt s.core.curMt) x (s1.keyFor (some va.toNat)) (s.data size d.toNat)) ∧
    (s.core.no < 192 → s.intact (.sts size d a off) → o % (n : Int) = 0 → 0 ≤ o → o + n ≤ 0x20_0000 →
      let x := s.stashSpot o.toNat n
      let u := s.drainFor (.mt s.core.curMt) x
      ∃ t s2, exec (.sts size d a off) s = .next t ∧ WriteBy s u ∧ (s.core.vec.late = [] → u = s) ∧ WriteBy u s2 ∧
        WordDoes s2 t [] 0 false Mt.next ∧ StoresAt u s2 t (.mt s.core.curMt) x .block (s.data size d.toNat))

/-- What an atomic makes of the old value and its sources (08 R172), by its code. -/
def Sys2Proof.Machine.atomicNew (op : BitVec 4) (n : Nat) (old s1 s2 : BitVec n) : BitVec n :=
  match op.toNat with
  | 0 => s1 | 1 => old + s1 | 2 => old &&& s1 | 3 => old ||| s1 | 4 => old ^^^ s1
  | 5 => if old.toInt ≤ s1.toInt then old else s1
  | 6 => if s1.toInt ≤ old.toInt then old else s1
  | 7 => if old.toNat ≤ s1.toNat then old else s1
  | 8 => if s1.toNat ≤ old.toNat then old else s1
  | _ => if old = s1 then s2 else old

/-- The state in which an atomic of micro-thread `m` finds memory: stores of its own that were left have been performed where its
release (ORD bit 1, at an effective scope of .co or wider: 14 R295) or an overlap (R296) asks for it; a release at .di or wider has
written back. -/
def Sys2Proof.Machine.State.beforeAtomic (s : State) (m : Nat) (ord : BitVec 2) (scope : Nat) (x : Spot) : State :=
  (if ord.getLsbD 1 then s.releaseBy (Late.ofMt m) scope else s).inTurn (.mt m) x

/-- What an atomic on `x` does between `u` and `t`: where it is plain and the turn leaves accesses to be performed later (log 11), it
stands at the end of those left, and nothing else changes but the micro-thread's progress; else D receives the old bytes and the
bytes become what the operation makes of them and its sources, every other byte as before. -/
def Sys2Proof.Machine.AtomicAt (u t : State) (m : Nat) (size : BitVec 2) (op : BitVec 4) (ord : BitVec 2) (d : VReg) (k : TKey) (x : Spot) (s1 s2 : Nat) : Prop :=
  let new := fun old : Nat => (atomicNew op (8 * x.n) (BitVec.ofNat _ old) (BitVec.ofNat _ s1) (BitVec.ofNat _ s2)).toNat
  if ord = 0 ∧ u.defers = true ∧ u.mayLeave x.pa = true then
    ∃ v, ReadBy u v ∧ (∀ a, v.byteAt a = u.byteAt a) ∧
      v.core.vec.late = u.core.vec.late ++ [{ who := .mt m, spot := x, op := .amoMt (AmoOp.ofCode op) s1 s2 d }] ∧
      WordDoes v t [] 0 false Mt.next
  else
    ∃ v, WriteBy u v ∧ WordDoes v t (span d (sizeSpan size)) 0 false Mt.next ∧
      (placeOf x.pa = .ddr → x.pa % 64 + x.n ≤ 64 → u.Coherent → u.underKey k x.pa →
        KeepsBytes u v x.pa x.n ∧ u.holds x.pa x.n (t.data size d.toNat) ∧ v.holds x.pa x.n (new (t.data size d.toNat))) ∧
      (plainPlace x.pa x.n → u.Coherent →
        KeepsBytes u v x.pa x.n ∧ u.holds x.pa x.n (t.data size d.toNat) ∧ v.holds x.pa x.n (new (t.data size d.toNat)))

/-- 08 R171 to R173, 14 R295 to R298: amo and amos complete. D receives the old bytes and the bytes become what the operation makes
of them and its sources, or the atomic is left to be performed later; every other byte is as before, and the registers above D keep
their values. -/
def Obligations.Atomics : Prop :=
  ∀ (s : State) (size : BitVec 2) (op : BitVec 4) (ord : BitVec 2) (scope : BitVec 3) (d a : VReg), op.toNat ≤ 9 →
    2 ≤ size.toNat →
    let n := 2 ^ size.toNat
    let va := s.pairA a
    let o := (s.regA a 0).toNat
    let m := s.core.curMt
    let cas := d.toNat + sizeSpan size
    (∀ pa s1, s.intact (.amo size op ord scope d a) → va.toNat % n = 0 → s.checkAtomic (.mt m) va n s.userMode false = (.ok pa, s1) →
      let k := s1.keyFor (some va.toNat)
      let x := virtSpot va pa n
      let u := s1.beforeAtomic m ord (max scope.toNat (s1.homeScope k pa)) x
      ∃ t, exec (.amo size op ord scope d a) s = .next t ∧ WriteBy s s1 ∧ (s.core.vec.late = [] → ReadBy s s1) ∧
        WriteBy s1 u ∧ (s1.core.vec.late = [] → ReadBy s1 u) ∧
        AtomicAt u t m size op ord d k x (s1.data size d.toNat) (s1.data size cas)) ∧
    (s.core.no < 192 → s.intact (.amos size op ord scope d a) → o % n = 0 → o + n ≤ 0x20_0000 →
      let x := s.stashSpot o n
      let s1 := s.drainFor (.mt m) x
      let u := s1.beforeAtomic m ord scope.toNat x
      s1.partLost .stash o n = false →
      ∃ t, exec (.amos size op ord scope d a) s = .next t ∧ WriteBy s u ∧ (s.core.vec.late = [] → ReadBy s u) ∧
        AtomicAt u t m size op ord d .block x (s1.data size d.toNat) (s1.data size cas))

/-- 08 R168, R169, R172: where the memory words fault, with nothing done: a misaligned address is fault 3, a stash access
outside the 2 MiB is fault 6, a failed page check is fault 4 for ld and fault 5 for st and amo, bytes that do not exist are
fault 6; the record holds the address. -/
def Sys2Proof.Machine.memoryWordFaultsClaim : Prop :=
  ∀ (s : State) (size : BitVec 2) (op : BitVec 4) (ord : BitVec 2) (scope : BitVec 3) (d a : VReg) (off : BitVec 12),
    let n : Nat := 2 ^ size.toNat
    let va := fun x : BitVec 12 => s.pairA a + x.signExtend 64
    let o := fun x : BitVec 12 => (s.regA a 0).toNat + x.toInt
    let far := fun x => o x % (n : Int) ≠ 0 ∨ o x < 0 ∨ 0x20_0000 < o x + (n : Int)
    (∀ x ∈ [(Instr.ld size d a off, off), (Instr.st size d a off, off), (Instr.amo size op ord scope d a, 0)],
      s.intact x.1 → (va x.2).toNat % n ≠ 0 → ∃ t, exec x.1 s = .next t ∧ FaultsWith s t (recordHere s 3 0 (va x.2))) ∧
    (∀ x ∈ [(Instr.lds size d a off, off), (Instr.sts size d a off, off), (Instr.amos size op ord scope d a, 0)],
      s.intact x.1 → far x.2 → ∃ t, exec x.1 s = .next t ∧
        FaultsWith s t (recordHere s (if o x.2 % (n : Int) ≠ 0 then 3 else 6) 0 (BitVec.ofInt 64 (o x.2)))) ∧
    (∀ s1, s.intact (.ld size d a off) → (va off).toNat % n = 0 →
      (s.checkOwn (.mt s.core.curMt) (va off) n s.userMode = (.error .page, s1) →
        ∃ t, exec (.ld size d a off) s = .next t ∧ FaultsWith s1 t (recordHere s 4 0 (va off)) ∧ ReadBy s s1) ∧
      (s.checkOwn (.mt s.core.curMt) (va off) n s.userMode = (.error .access, s1) →
        ∃ t, exec (.ld size d a off) s = .next t ∧ FaultsWith s1 t (recordHere s 6 0 (va off)) ∧ ReadBy s s1)) ∧
    (∀ s1, s.intact (.st size d a off) → (va off).toNat % n = 0 →
      (s.checkVirt (va off) n .store s.userMode = (.error .page, s1) →
        ∃ t, exec (.st size d a off) s = .next t ∧ FaultsWith s1 t (recordHere s 5 0 (va off)) ∧ ReadBy s s1) ∧
      (s.checkVirt (va off) n .store s.userMode = (.error .access, s1) →
        ∃ t, exec (.st size d a off) s = .next t ∧ FaultsWith s1 t (recordHere s 6 0 (va off)) ∧ ReadBy s s1)) ∧
    (∀ s1, s.intact (.amo size op ord scope d a) → (s.pairA a).toNat % n = 0 →
      s.checkAtomic (.mt s.core.curMt) (s.pairA a) n s.userMode false = (.error .page, s1) →
        ∃ t, exec (.amo size op ord scope d a) s = .next t ∧ FaultsWith s1 t (recordHere s 5 0 (s.pairA a)) ∧ ReadBy s s1)

/-- The flags of a leaf (V R W X U G A D in bits 0 to 7) let an access through (08 R169; RISC-V): U for an access at user level; at
supervisor level no U, or SUM and no fetch; X for a fetch, R for a load, or X under MXR, W for a store. -/
def Sys2Proof.Machine.LeafLets (f : Nat) (kind : Access) (md : AccMode) : Prop :=
  (if md.user = true then f.testBit 4 = true else f.testBit 4 = false ∨ (md.sum = true ∧ kind ≠ .fetch)) ∧
    match kind with
    | .fetch => f.testBit 3 = true
    | .load => f.testBit 1 = true ∨ (md.mxr = true ∧ f.testBit 3 = true)
    | .store => f.testBit 2 = true
/-- `r` is what the Sv57 walk for an address comes to, from a table at `base` whose entries are of level `n - 1` (22 R352; RISC-V): a leaf, by its
place, its value and its level, or a failure. An entry outside the low-power DDR is an access fault; one that is not valid, says W
without R, or sets a reserved bit, a leaf whose frame is not aligned to its page, an entry that is no leaf and sets U, A or D, and a
table below level 0, fail the page check. -/
def Sys2Proof.Machine.WalksTo (s : State) (va : Word) (r : Except AccErr (Nat × Nat × Nat)) : Nat → Nat → Prop
  | 0, _ => r = .error .page
  | n + 1, base =>
    let a := base + va.toNat / 2 ^ (12 + 9 * n) % 512 * 8
    (Config.ddrBytes ≤ a → r = .error .access) ∧ (a < Config.ddrBytes → s.lostAt a 8 = true → r = .error .lost) ∧
      (a < Config.ddrBytes → s.lostAt a 8 = false → ∀ v < 2 ^ 64, s.holds a 8 v →
        let ppn := v / 2 ^ 10 % 2 ^ 44
        let invalid := v.testBit 0 = false ∨ (v.testBit 1 = false ∧ v.testBit 2 = true) ∨ v / 2 ^ 54 ≠ 0
        let isLeaf := v.testBit 1 = true ∨ v.testBit 3 = true
        let bad := v.testBit 4 = true ∨ v.testBit 6 = true ∨ v.testBit 7 = true
        (invalid → r = .error .page) ∧
        (¬ invalid → isLeaf → r = if ppn % 2 ^ (9 * n) = 0 then .ok (a, v, n) else .error .page) ∧
        (¬ invalid → ¬ isLeaf → bad → r = .error .page) ∧
        (¬ invalid → ¬ isLeaf → ¬ bad → WalksTo s va r n (ppn * 4096)))

/-- 08 R169, 22 R352, R353, 13 R277, 22 R360: a translation fails the page check for an address whose bits [63:57] differ from bit 56. A TLB
entry of the address space that covers the address, permits the access, and has D for a store, gives the frame, with no walk; so does
one of the die's cache. Else the walk of satp's table decides: where it fails, so does the translation; a leaf that does not permit the
access fails the page check, and nothing is written; one that does gives the place in its page of 4 KiB times 512 to the level, and A is set in
it, and D on a store, and no other byte changes. An access then fails where the place does not exist for it, and a read where
its data is lost. -/
def Sys2Proof.Machine.translationsClaim : Prop :=
  ∀ (s : State) (va : Word) (n : Nat) (kind : Access) (md : AccMode),
    let serves := fun (e : TlbEntry) => e.asid = s.asidNow ∧ e.va ≤ va.toNat ∧ va.toNat < e.va + e.bytes ∧ LeafLets e.flags.toNat kind md ∧
      (kind = .store → e.flags.toNat.testBit 7 = true)
    let tr := s.translate va kind md
    let isCanonical := ∀ k, 57 ≤ k → k < 64 → va.getLsbD k = va.getLsbD 56
    ReadBy s tr.2 ∧ (¬ isCanonical → tr.1 = .error .page) ∧
    (isCanonical → ∀ e, s.core.tlb.find? (fun e => e.serves s.asidNow va.toNat kind md) = some e →
      serves e ∧ tr.1 = .ok (e.pa + (va.toNat - e.va)) ∧ (∀ a, tr.2.byteAt a = s.byteAt a) ∧ tr.2.core.tlb.head? = some e) ∧
    (isCanonical → (∀ e ∈ s.core.tlb, ¬ serves e) →
      (∀ e, (s.dieCache (dieOf s.core.no)).find? (fun e => e.serves s.asidNow va.toNat kind md) = some e →
        serves e ∧ tr.1 = .ok (e.pa + (va.toNat - e.va)) ∧ ∀ a, tr.2.byteAt a = s.byteAt a) ∧
      ((∀ e ∈ s.dieCache (dieOf s.core.no), ¬ serves e) → s.Coherent → (∀ a, s.underKey .block a) →
        ∀ r, WalksTo s va r 5 ((s.core.ct.satp.extractLsb' 0 44).toNat * 4096) →
          (∀ e, r = .error e → tr.1 = .error e ∧ ∀ a, tr.2.byteAt a = s.byteAt a) ∧
          (∀ a v lvl, r = .ok (a, v, lvl) →
            (¬ LeafLets v kind md → tr.1 = .error .page ∧ ∀ a, tr.2.byteAt a = s.byteAt a) ∧
            (LeafLets v kind md → tr.1 = .ok (v / 2 ^ 10 % 2 ^ 44 * 4096 + va.toNat % (4096 * 512 ^ lvl)) ∧
              KeepsBytes s tr.2 a 8 ∧ tr.2.holds a 8 (v ||| 0x40 ||| if kind = .store then 0x80 else 0))))) ∧
    (∀ e, tr.1 = .error e → s.checkVirt va n kind md = (.error e, tr.2)) ∧
    (∀ pa, tr.1 = .ok pa → s.checkVirt va n kind md =
      (if tr.2.reaches pa (decide (kind = .store)) = false then .error .access
       else if kind ≠ .store ∧ tr.2.lostAt pa n = true then .error .lost else .ok pa, tr.2))

/-- 08 R174, 14 R295, 15 R311, 06 R140 to R142: mfence completes. At .co or wider, with writes in PRED every store of its micro-thread
that was left is performed (`u`), no access of PRED of it is left while it has moved, and with reads in SUCC no early load of it is
left; at .di or wider nothing that its core wrote is still unwritten at home; no byte of memory changes but by those stores. mfetch and
mfetchr go on at the target block, where it is aligned, fetched and valid; a misaligned target is fault 3. -/
def Obligations.FenceAndChainWords : Prop :=
  ∀ (s : State) (scope : BitVec 3) (pred succ : BitVec 2) (imm : BitVec 20) (a : VReg),
    (let m := s.core.curMt
     let u := if pred.getLsbD 0 ∧ 1 ≤ scope.toNat then s.drainBy (Late.ofMt m) else s
     ∃ t s2, exec (.mfence scope pred succ) s = .next t ∧ WriteBy s u ∧ (s.core.vec.late = [] → u = s) ∧ ReadBy u s2 ∧
      WordDoes s2 t [] 0 false Mt.next ∧
      (pred.getLsbD 0 = true → 1 ≤ scope.toNat → ∀ l ∈ t.core.vec.late, l.who = .mt m → l.op.isStore = false) ∧
      (pred ≠ 0 → 1 ≤ scope.toNat → (∃ l ∈ s.core.vec.late, l.who = .mt m ∧ l.op.isStore = false) → t.stalled = true) ∧
      (succ.getLsbD 1 = true → 1 ≤ scope.toNat → ∀ e ∈ t.core.vec.early, e.reader ≠ .mt m) ∧
      (u.Coherent → (∀ a, t.byteAt a = u.byteAt a) ∧
        (pred.getLsbD 0 = true → 2 ≤ scope.toNat → ∀ b x, t.core.copy b = some x → x.dirty = false))) ∧
    (∀ x ∈ [(Instr.mfetch imm, s.me.blk + imm.signExtend 64 * 4), (Instr.mfetchr a, s.pairA a)], s.intact x.1 →
      (x.2.toNat % 4 ≠ 0 → ∃ t, exec x.1 s = .next t ∧ FaultsWith s t (recordHere s 3 0 x.2)) ∧
      ∀ ws s1, x.2.toNat % 4 = 0 → s.fetchBlock x.2 = (.block ws, s1) →
        ∃ t, exec x.1 s = .next t ∧ (∀ m ≠ s.core.curMt, t.mt m = s.mt m) ∧ t.me.blk = x.2 ∧ t.me.link = s.me.link ∧
          t.me.queue = s.me.queue ∧ t.me.slot = s.me.slot ∧ t.me.words = ws ∧ t.me.ix = 0 ∧
          (s.me.link.isSome = true → t.me.phase = .linkPending))

/-! ## Frame words -/

/-- The record of a tag is at hand: its link entry, under its lease, is in the frame-chain cache, which holds at most 512 (12 R267), and
the micro-thread that runs has left no access to the record's bytes to be performed later (log 11). -/
def Sys2Proof.Machine.ReadsRecord (s : State) (t : BitVec 32) (r : FrameRec) : Prop :=
  tagIndex t < s.core.csr.frameCount ∧ s.core.chain.length ≤ 512 ∧
    ∃ e, s.chainHit (tagIndex t) = some e ∧ r = FrameRec.ofBytes e.data ∧
      ∀ l ∈ s.core.vec.late, mustFollow l.who l.spot (.mt s.core.curMt) (virtSpot (s.frameAddr (tagIndex t)) e.pa 128) = false
/-- The state but for which link entries were used last, and for early loads that the reads of records come after. -/
def Sys2Proof.Machine.SameLinks (s s1 : State) : Prop :=
  ∃ l p, s1 = { s with core := { s.core with
    chain := l, ct := { s.core.ct with early := s.core.ct.early.filter p }, vec := { s.core.vec with early := s.core.vec.early.filter p } } }
/-- A record that passes steps 2 and 3 of 08 R176 for a tag: STATE LIVE, of the tag's generation, well formed. -/
def Sys2Proof.Machine.Current (r : FrameRec) (t : BitVec 32) : Prop := r.state = 0 ∧ t.extractLsb' 24 8 = r.gen ∧ r.level ≤ 15 ∧ r.extent < 2 ^ 31

/-- `r` is RoundNE(u × 2^k) to an integer (03 R69). -/
def Sys2Proof.Machine.RoundsTo (u k r : Int) : Prop :=
  if 0 ≤ k then r = u * 2 ^ k.toNat
  else 2 * (u - r * 2 ^ (-k).toNat).natAbs ≤ 2 ^ (-k).toNat ∧ (2 * (u - r * 2 ^ (-k).toNat).natAbs = 2 ^ (-k).toNat → r % 2 = 0)
/-- One link step from a child to its parent, component `i` (03 R69). -/
def Sys2Proof.Machine.StepsUp (pos : Bool) (c p : FrameRec) (v : List Int) (i : Nat) (q : Int) : Prop :=
  ∃ r, RoundsTo (((List.range 3).map fun j => c.rot.getD (3 * i + j) 0 * v.getD j 0).sum) (c.exp - p.exp - 30) r ∧
    q = r + if pos then c.trans.getD i 0 else 0
/-- One link step from a parent to its child, component `i` (03 R69). -/
def Sys2Proof.Machine.StepsDown (pos : Bool) (c p : FrameRec) (v : List Int) (i : Nat) (q : Int) : Prop :=
  RoundsTo (((List.range 3).map fun j => c.rot.getD (3 * j + i) 0 * (v.getD j 0 - if pos then c.trans.getD j 0 else 0)).sum)
    (p.exp - c.exp - 30) q

/-- The range rule on a frame word's exact result `v` in the frame of a tag (03 R70, 08 R176 step 7): within `bound` and int32,
D is the framed value; else a fault 9 with the tag, or under .sat ±`lim` in each component that does not fit, and OF. -/
def Sys2Proof.Machine.RangeRule (s t : State) (d : VReg) (sat : Bool) (tag : BitVec 32) (v : List Int) (bound : Nat) (lim : Int) : Prop :=
  let fits := fun x : Int => x.natAbs ≤ bound ∧ -(2 ^ 31) ≤ x ∧ x < 2 ^ 31
  if ∀ x ∈ v, fits x then t.quad d = ⟨tag, v⟩ ∧ WordWrites s t (span d 4)
  else if sat then t.quad d = ⟨tag, v.map fun x => if fits x then x else if 0 < x then lim else -lim⟩ ∧
    WordDoes s t (span d 4) flOF false Mt.next
  else FaultsWith s t (recordHere s 9 0 (tag.setWidth 64))

/-- 08 R177, 03 R68 to R70: pxf and prot across one link. From a child's frame to its parent's, or back, each component of D
is one link step of A's, rounded once, with the translation for a position and without it for a displacement; then the range
rule against the target's EXTENT. From a frame to itself the offsets are unchanged. -/
def Sys2Proof.Machine.frameLinksClaim : Prop :=
  ∀ (s : State) (sat pos : Bool) (d a b : VReg) (fr gr : FrameRec),
    let i : Instr := if pos then .pxf sat d a b else .prot sat d a b
    let tg := s.reg b.toNat
    s.intact i → ReadsRecord s (s.quadA a).tag fr → ReadsRecord s tg gr → Current fr (s.quadA a).tag → Current gr tg →
      ∃ t s1, exec i s = .next t ∧ SameLinks s s1 ∧
        (tagIndex (s.quadA a).tag = tagIndex tg → RangeRule s1 t d sat tg (s.quadA a).offs gr.extent gr.extent) ∧
        (tagIndex (s.quadA a).tag ≠ tagIndex tg → fr.parent = tg → gr.level + 1 = fr.level →
          ∃ v, v.length = 3 ∧ (∀ k < 3, StepsUp pos fr gr (s.quadA a).offs k (v.getD k 0)) ∧ RangeRule s1 t d sat tg v gr.extent gr.extent) ∧
        (tagIndex (s.quadA a).tag ≠ tagIndex tg → gr.parent = (s.quadA a).tag → fr.level + 1 = gr.level →
          ∃ v, v.length = 3 ∧ (∀ k < 3, StepsDown pos gr fr (s.quadA a).offs k (v.getD k 0)) ∧ RangeRule s1 t d sat tg v gr.extent gr.extent)

/-- 08 R178 to R180: padd and psub of values in one frame give the exact sum within A's EXTENT, and the exact difference in
int32, or what the range rule makes of them; pretag of a current tag gives A back; pchk gives its status word. Without .x,
unequal tags are fault 10 with B's tag. -/
def Sys2Proof.Machine.frameWordsClaim : Prop :=
  ∀ (s : State) (sat x : Bool) (d a b : VReg) (r : FrameRec), ReadsRecord s (s.quadA a).tag r →
    (s.intact (.padd sat x d a b) → Current r (s.quadA a).tag → (s.quadA a).tag = (s.quad b).tag →
      ∃ t s1, exec (.padd sat x d a b) s = .next t ∧ SameLinks s s1 ∧
        RangeRule s1 t d sat (s.quadA a).tag (List.zipWith (· + ·) (s.quadA a).offs (s.quad b).offs) r.extent r.extent) ∧
    (s.intact (.psub sat x d a b) → Current r (s.quadA a).tag → (s.quadA a).tag = (s.quad b).tag →
      ∃ t s1, exec (.psub sat x d a b) s = .next t ∧ SameLinks s s1 ∧
        RangeRule s1 t d sat (s.quadA a).tag (List.zipWith (· - ·) (s.quadA a).offs (s.quad b).offs) (2 ^ 31) (2 ^ 31 - 1)) ∧
    (∀ i ∈ [Instr.padd sat false d a b, Instr.psub sat false d a b], s.intact i → (s.quadA a).tag ≠ (s.quad b).tag →
      ∃ t, exec i s = .next t ∧ FaultsWith s t (recordHere s 10 0 ((s.quad b).tag.setWidth 64))) ∧
    (s.intact (.pretag sat d a) → Current r (s.quadA a).tag →
      ∃ t s1, exec (.pretag sat d a) s = .next t ∧ SameLinks s s1 ∧ t.quad d = s.quadA a ∧ WordWrites s1 t (span d 4)) ∧
    (s.intact (.pchk d a) → ∃ t s1, exec (.pchk d a) s = .next t ∧ SameLinks s s1 ∧ WordWrites s1 t [d.toNat] ∧
      let w := t.reg d.toNat
      let bad := 2 < r.state ∨ 15 < r.level ∨ (r.state = 1 ∧ 2 < r.splitAxis) ∨ 2 ^ 31 ≤ r.extent
      let known := ¬bad ∧ ((r.state = 0 ∧ (s.regA a 0).extractLsb' 24 8 = r.gen) ∨
        (r.state = 1 ∧ (s.regA a 0).extractLsb' 24 8 = r.gen - 1))
      (bad → w = 3) ∧ (¬bad → ¬known → w = 2) ∧
      (known → w.toNat = (r.exp % 256).toNat * 2 ^ 16 + r.level * 2 ^ 8 + r.state))

/-! ## Vector instructions: issue -/

/-- `s` with an entry at the end of its queue; its scalar result, if it has one, is owed to `rd` (02 R31). -/
def Sys2Proof.Machine.State.withEntry (s : State) (e : Entry) (rd : Option XReg) : State :=
  { s with core := { s.core with
      vec := { s.core.vec with queue := s.core.vec.queue ++ [e], nextEntry := s.core.vec.nextEntry + 1 },
      ct := { s.core.ct with pendingX := s.core.ct.pendingX ++ match rd with | some r => [(e.id, r)] | none => [] } } }
/-- The entry that an instruction issues: it records VL, VSPACE, the mask select, VFRM and a carrier's dt of this moment (02 R31). -/
def Sys2Proof.Machine.State.entryFor (s : State) (q : VQueue) (op : VOp) (mask : BitVec 4) (dt : Bool) : Entry :=
  { id := s.core.vec.nextEntry, q := q, op := op, vl := s.core.csr.vl, space := s.core.csr.vspace, mask := mask,
    vfrm := s.core.csr.vfrm, pc := s.core.ct.pc, resumed := false, distributed := false, after := s.core.csr.xissued, dt := dt,
    value := 0, flags := .none }
/-- What a vector instruction that reads no memory issues: its queue, its entry's operation and mask, the x register of its
result, the vector registers it names, its length (09 R189 to R197). -/
structure Sys2Proof.Machine.Issue where
  i : Instr
  q : VQueue
  op : VOp
  mask : BitVec 4
  rd : Option XReg
  regs : List Nat
  len : Nat
  dt : Bool
/-- The vector instructions of 09 R189 to R197 but for vfetch, with what they issue. -/
def Sys2Proof.Machine.issues (s : State) (k kd ka kb tt : BitVec 4) (dt : Bool) (lane : BitVec 2) (w : MWord) (cond : BitVec 5) (a b : VReg)
    (r1 r2 rd : XReg) : List Issue :=
  [⟨.vectorCarrier k dt lane w, .compute, .carrier w lane, k, none, namesOf w, 8, dt⟩,
   ⟨.vlnkput r1, .load, .linkPut ((s.getX r1).setWidth 32), 0, none, [], 4, false⟩, ⟨.vlnkget rd, .store, .linkGet rd, 0, some rd, [], 4, false⟩,
   ⟨.vget a r1 rd, .compute, .vget a (s.getX r1).toNat rd, 0, some rd, [a.toNat], 4, false⟩,
   ⟨.vput a r1 r2, .compute, .vput a (s.getX r2).toNat ((s.getX r1).setWidth 32), 0, none, [a.toNat], 4, false⟩,
   ⟨.kcmp cond kd a b, .compute, .kcmp cond kd a b, 0, none, [a.toNat, b.toNat], 4, false⟩,
   ⟨.klog tt kd ka kb, .compute, .klog tt kd ka kb, 0, none, [], 4, false⟩, ⟨.ksbf kd ka, .compute, .kpre 0 kd ka, 0, none, [], 4, false⟩,
   ⟨.ksif kd ka, .compute, .kpre 1 kd ka, 0, none, [], 4, false⟩, ⟨.ksof kd ka, .compute, .kpre 2 kd ka, 0, none, [], 4, false⟩,
   ⟨.kpop rd ka, .compute, .kpop rd ka, 0, some rd, [], 4, false⟩, ⟨.kfirst rd ka, .compute, .kfirst rd ka, 0, some rd, [], 4, false⟩,
   ⟨.kget rd k r1, .compute, .kget rd k (s.getX r1).toNat, 0, some rd, [], 4, false⟩,
   ⟨.kput k r1 r2, .compute, .kput k (s.getX r1) (s.getX r2).toNat, 0, none, [], 4, false⟩]

/-- 02 R29, R31, R44: a vector instruction whose registers exist, and none of them empty with its FEPOL bit set, issues its
entry into its queue and the control thread goes on at once, a scalar result being owed to rd; on a full queue the control
thread stalls, with nothing changed. A register that does not exist is cause 2. -/
def Sys2Proof.Machine.vectorIssueClaim : Prop :=
  ∀ (s : State) (k kd ka kb tt : BitVec 4) (dt : Bool) (lane : BitVec 2) (w : MWord) (cond : BitVec 5) (a b : VReg) (r1 r2 rd : XReg),
    ∀ x ∈ issues s k kd ka kb tt dt lane w cond a b r1 r2 rd,
      ((∀ r ∈ x.regs, r < s.nregs) → (∀ r ∈ x.regs, r < 64 → s.regEmpty.getLsbD r = true → s.core.csr.fepol.getLsbD r = false) →
        (s.queueFull x.q = false → ∃ t, exec x.i s = .next t ∧ CtDoes (s.withEntry (s.entryFor x.q x.op x.mask x.dt) x.rd) t 0 0 x.len) ∧
        (s.queueFull x.q = true → exec x.i s = .next s)) ∧
      ((∃ r ∈ x.regs, s.nregs ≤ r) → exec x.i s = .next (s.illegal x.i))

/-- 09 R189, 02 R37: vfetch of an aligned block whose header can be fetched issues an entry of the compute queue that runs the
block at its address; a misaligned address is cause 4, with the address in stval. -/
def Sys2Proof.Machine.vectorFetchClaim : Prop :=
  ∀ (s : State) (k : BitVec 4) (r1 : XReg),
    ((s.getX r1).toNat % 4 ≠ 0 → exec (.vfetch k r1) s = .next (s.trap 4 (s.getX r1))) ∧
    ∀ h s1, (s.getX r1).toNat % 4 = 0 → s.fetchMWord (s.getX r1) = (.ok h, s1) →
      s1.fepolTrap (List.range ((h.extractLsb' 4 6).toNat + 1)) = none → s1.queueFull .compute = false →
      ∃ t, exec (.vfetch k r1) s = .next t ∧ ReadBy s s1 ∧
        CtDoes (s1.withEntry (s.entryFor .compute (.fetch (s.getX r1)) k false) none) t 0 0 4

/-! ## Vector memory -/

/-- The loads and stores of 09 R198: whether it stores, its mask, register, size, address registers, and the exact address of
element `m`. -/
structure Sys2Proof.Machine.VecMem where
  i : Instr
  write : Bool
  mask : BitVec 4
  v : VReg
  size : BitVec 2
  ix : List Nat
  addr : Nat → Int
/-- vld, vlds, vst, vsts, vldx and vstx with their addresses (09 R198). -/
def Sys2Proof.Machine.vecMems (s : State) (k : BitVec 4) (v : VReg) (size : BitVec 2) (r1 xs : XReg) (vi : BitVec 4) : List VecMem :=
  let unit := fun m : Nat => ((s.getX r1).toNat : Int) + 2 ^ size.toNat * m
  let strided := fun m : Nat => ((s.getX r1).toNat : Int) + (s.getX xs).toInt * m
  let indexed := fun m : Nat => ((s.getX r1).toNat : Int) + (s.vreg vi.toNat m).toInt
  [⟨.vld k v size r1, false, k, v, size, [], unit⟩, ⟨.vlds k v size r1 xs, false, k, v, size, [], strided⟩,
   ⟨.vst k v size r1, true, k, v, size, [], unit⟩, ⟨.vsts k v size r1 xs, true, k, v, size, [], strided⟩,
   ⟨.vldx k v size r1 vi, false, k, v, size, [vi.toNat], indexed⟩, ⟨.vstx k v size r1 vi, true, k, v, size, [vi.toNat], indexed⟩]

/-- The condition on which a vector memory instruction performs its checks: space 5 is for supervisor level (09 R185), its
registers exist and none is empty with its FEPOL bit set (02 R29, R44), no unretired entry writes its mask, its queue has room
(02 R31), and where it has an active element from `start` on, its address registers are full and no unretired entry writes them
(R31, R44; R28, 09 R184). -/
def Sys2Proof.Machine.VecReady (s : State) (q : VQueue) (mask : BitVec 4) (start : Nat) (regs addrRegs : List Nat) : Prop :=
  (s.core.csr.vspace = 5 → s.core.ct.user = false) ∧ (∀ r ∈ regs, r < s.nregs) ∧ s.fepolTrap regs = none ∧
    s.maskPending mask = false ∧ s.queueFull q = false ∧
    (s.activeFrom mask start ≠ [] → s.regPending addrRegs mask = false ∧ ∀ r ∈ addrRegs, s.regEmpty.getLsbD r = false)
/-- Two lists of one length whose members correspond. -/
def Sys2Proof.Machine.EachElem {α : Type} (p : Nat → α → Prop) (ms : List Nat) (xs : List α) : Prop :=
  xs.length = ms.length ∧ ∀ x ∈ ms.zip xs, p x.1 x.2
/-- The element `x` is that of micro-thread `m` at an exact address of `n` bytes: in the core's own spaces, at that offset
(09 R200, 13 R278). -/
def Sys2Proof.Machine.ElemAt (s : State) (n : Nat) (m : Nat) (a : Int) (x : Elem) : Prop :=
  x.m = m ∧ x.va = BitVec.ofInt 64 a ∧
    (1 ≤ s.core.csr.vspace.toNat → s.core.csr.vspace.toNat ≤ 4 →
      a % (n : Int) = 0 ∧ 0 ≤ a ∧ a + (n : Int) ≤ spaceBytes s.core.csr.vspace ∧ x.pa = spaceAddr s.core.no s.core.csr.vspace a.toNat)
/-- `t` follows `s` by the checks of a vector memory instruction, which come after stores to its bytes that were left (log 11), its
entry, VRESUME 0, and the move past it. -/
def Sys2Proof.Machine.IssuesMem (s t : State) (q : VQueue) (op : VOp) (mask : BitVec 4) : Prop :=
  ∃ s1, WriteBy s s1 ∧ (s.core.vec.late = [] → ReadBy s s1) ∧
    CtDoes { s1.withEntry { s.entryFor q op mask false with resumed := s.core.csr.vresume != 0 } none with
      core := { (s1.withEntry { s.entryFor q op mask false with resumed := s.core.csr.vresume != 0 } none).core with
        csr := { s1.core.csr with vresume := 0 } } } t 0 0 4

/-- 09 R198 to R200, 02 R48: a vector load or store whose active elements from VRESUME on all pass their checks issues one
entry for its queue that holds them, in ascending index, each at the address of its form; VRESUME is 0 and the control thread
goes on. Where an element fails, the entry holds those below it and the control thread waits to take the trap of the first
that fails. -/
def Obligations.VectorMemoryIssue : Prop :=
  ∀ (s : State) (k : BitVec 4) (v : VReg) (size : BitVec 2) (r1 xs : XReg) (vi : BitVec 4),
    ∀ x ∈ vecMems s k v size r1 xs vi, VecReady s (if x.write then .store else .load) k s.core.csr.vresume (span v (sizeSpan size) ++ x.ix) x.ix →
      let act := s.activeFrom k s.core.csr.vresume
      let c := s.checkElems (2 ^ size.toNat) x.write x.addr act
      (c.2.1 = none → ∃ t, exec x.i s = .next t ∧ EachElem (fun m e => ElemAt s (2 ^ size.toNat) m (x.addr m) e) act c.1 ∧
        IssuesMem s t (if x.write then .store else .load) (if x.write then .store v size c.1 else .load v size c.1) k) ∧
      (∀ f, c.2.1 = some f → c.1 ≠ [] → ∃ t, exec x.i s = .next t ∧
        t.core.ct.wait = some (.elemTrap f.cause f.va f.m s.core.vec.nextEntry (if f.lost then 1 else 0)) ∧
        (∃ e, t.core.vec.queue = s.core.vec.queue ++ [e] ∧ e.op = (if x.write then .store v size c.1 else .load v size c.1)) ∧
        (∀ r, t.getX r = s.getX r) ∧ t.core.ct.pc = s.core.ct.pc)

/-- 09 R202 to R205: vldff, vldmx, vstmx and vamo whose elements pass their checks issue their entry in the same way; vldff
starts at element 0 whatever VRESUME holds, and one that fails above the lowest active element lowers VL to it and does not
trap. -/
def Obligations.VectorSpecialIssue : Prop :=
  ∀ (s : State) (k op : BitVec 4) (v : VReg) (size : BitVec 2) (wide : Bool) (scope : BitVec 3) (x : BitVec 5) (r1 xs : XReg),
    (VecReady s .load k 0 (span v (sizeSpan size)) [] →
      let s0 := s.onCsr fun c => { c with vresume := 0 }
      let addr := fun m : Nat => ((s.getX r1).toNat : Int) + (if xs = 0 then 2 ^ size.toNat else (s.getX xs).toInt) * m
      let act := s0.activeFrom k 0
      let c := s0.checkElems (2 ^ size.toNat) false addr act
      (c.2.1 = none → ∃ t, exec (.vldff k v size r1 xs) s = .next t ∧ IssuesMem s0 t .load (.load v size c.1) k ∧
        EachElem (fun m e => ElemAt s0 (2 ^ size.toNat) m (addr m) e) act c.1) ∧
      (∀ f, c.2.1 = some f → c.1 ≠ [] → ∃ t t0, exec (.vldff k v size r1 xs) s = .next t ∧
        IssuesMem s0 t0 .load (.load v size c.1) k ∧ t = t0.onCsr fun c => { c with vl := f.m })) ∧
    (∀ write : Bool, VecReady s (if write then .store else .load) k s.core.csr.vresume (span v 2) [] →
      let i : Instr := if write then .vstmx k v wide r1 xs else .vldmx k v wide r1 xs
      let act := s.activeFrom k s.core.csr.vresume
      let c := s.checkMx write wide (s.getX r1).toNat (s.getX xs).toNat (s.activeFrom k 0) none act
      c.2.1 = none → ∃ t, exec i s = .next t ∧
        IssuesMem s t (if write then .store else .load) (if write then .storeMx v c.1 else .loadMx v c.1) k ∧
        EachElem (fun m e => ElemAt s 4 m (((s.getX r1).toNat : Int) + 4 * m) e.e ∧
          (e.first = true → ElemAt s 1 m (((s.getX xs).toNat : Int) + (m / (if wide then 8 else 4) : Nat)) e.sc)) act c.1) ∧
    (let sp := s.core.csr.vspace
     let regs := if sp = 0 ∨ sp = 5 then [x.toNat, x.toNat + 1] else [x.toNat]
     let addr := fun m : Nat => ((s.vreg x.toNat m).toNat : Int) + if sp = 1 then 0 else 2 ^ 32 * ((s.vreg (x.toNat + 1) m).toNat : Int)
     let i : Instr := .vamo k v op scope x
     ((2 ≤ sp.toNat ∧ sp.toNat ≤ 4) ∨ ((sp = 0 ∨ sp = 5) ∧ x.toNat % 2 = 1) → exec i s = .next (s.illegal i)) ∧
     (sp = 1 ∨ ((sp = 0 ∨ sp = 5) ∧ x.toNat % 2 = 0) →
      VecReady s .store k s.core.csr.vresume (span v (if op = 9 then 2 else 1) ++ regs) regs →
        let act := s.activeFrom k s.core.csr.vresume
        let c := s.checkAmos scope addr act
        c.2.1 = none → ∃ t, exec i s = .next t ∧ IssuesMem s t .store (.amo v op scope c.1) k ∧
          EachElem (fun m e => ElemAt s 4 m (addr m) e) act c.1))

/-! ## Vector queues: performance and retirement -/

/-- The state but for entries, registers with what follows their writes, masks, micro-threads, the link-out FIFO and the slots of
inactive elements of the core in focus, early loads, marks of correctable errors, what performance counters have still to count, and an
access that cannot be served yet. -/
def Sys2Proof.Machine.State.besideEntry (s : State) : State :=
  { s with stalled := false, asks := none, missed := none, base := { s.base with soft := [], met := [] }, core := { s.core with
      events := [], ct := { s.core.ct with early := [] },
      vec := { s.core.vec with
        queue := [], regs := [], regDirty := 0, high := 0, stamps := [], early := [], masks := [], mts := [], fifo := [], idle := [] } } }
/-- `t` follows `s` by the effect of an entry in every element that it performs itself: it is marked distributed, with its
scalar result; flags that it raised are its own. -/
def Sys2Proof.Machine.Performs (s t : State) (e : Entry) (value : Word) : Prop :=
  t.besideEntry = s.besideEntry ∧
    t.core.vec.queue.map (fun x => { x with flags := .none }) =
      s.core.vec.queue.map fun x => { (if x.id = e.id then { x with distributed := true, value := value } else x) with flags := .none }
/-- An entry's effect on masks: bits of kd below its VL become `p`, no other bit of a mask changes, and k0 is never written
(09 R184, 05 R116); registers, micro-threads and the FIFO are as they were. -/
def Sys2Proof.Machine.WritesMask (s t : State) (e : Entry) (kd : BitVec 4) (p : Nat → Prop) : Prop :=
  (∀ k ≠ kd, t.mask k = s.mask k) ∧
    (kd ≠ 0 → ∀ m < 8192, ((t.mask kd).getLsbD m = true ↔ if m < e.vl then p m else (s.mask kd).getLsbD m = true)) ∧
    t.core.vec.regs = s.core.vec.regs ∧ t.core.vec.mts = s.core.vec.mts ∧ t.core.vec.fifo = s.core.vec.fifo
/-- An entry that changes no register, mask, micro-thread or FIFO. -/
def Sys2Proof.Machine.OnlyAnswers (s t : State) : Prop := (∀ k, t.mask k = s.mask k) ∧ t.core.vec.regs = s.core.vec.regs ∧
  t.core.vec.mts = s.core.vec.mts ∧ t.core.vec.fifo = s.core.vec.fifo
/-- The conditions of kcmp (09 R194). -/
def Sys2Proof.Machine.Compares (cond : BitVec 5) (a b : MWord) : Prop :=
  match cond.toNat with
  | 0 => a = b | 1 => a ≠ b | 2 => a.toInt < b.toInt | 3 => b.toInt ≤ a.toInt | 4 => a.toNat < b.toNat | 5 => b.toNat ≤ a.toNat
  | 8 => (Fmt.fp32.compare 0 a.toNat b.toNat).1 = true | 9 => (Fmt.fp32.compare 1 a.toNat b.toNat).1 = true
  | _ => (Fmt.fp32.compare 2 a.toNat b.toNat).1 = true

/-- 09 R194 to R197, R191, R192: what an entry of the compute queue, or of a link, does when it distributes. Masks are said bit
by bit; kpop, kfirst, kget and vget give the scalar result that the entry holds. A vlnkput comes after every store of the control thread
and of earlier entries that was left (14 R303). -/
def Obligations.EntryEffects : Prop :=
  ∀ (s : State) (q : VQueue) (e : Entry), s.toDistribute q = some e → s.canDistribute e = true →
    ∃ t, exec (.vqDistribute q) s = .next t ∧
      match e.op with
      | .kcmp c kd a b => Performs s t e 0 ∧ WritesMask s t e kd fun m => Compares c (s.vreg a.toNat m) (s.vreg b.toNat m)
      | .klog tt kd ka kb => Performs s t e 0 ∧ WritesMask s t e kd fun m =>
          tt.getLsbD (2 * ((s.mask ka).getLsbD m).toNat + ((s.mask kb).getLsbD m).toNat) = true
      | .kpre 0 kd ka => Performs s t e 0 ∧ WritesMask s t e kd fun m => ∀ j ≤ m, (s.mask ka).getLsbD j = false
      | .kpre 1 kd ka => Performs s t e 0 ∧ WritesMask s t e kd fun m => ∀ j < m, (s.mask ka).getLsbD j = false
      | .kpre 2 kd ka => Performs s t e 0 ∧ WritesMask s t e kd fun m =>
          (s.mask ka).getLsbD m = true ∧ ∀ j < m, (s.mask ka).getLsbD j = false
      | .kpop _ ka => OnlyAnswers s t ∧
          Performs s t e (BitVec.ofNat 64 ((List.range e.vl).countP fun m => (s.mask ka).getLsbD m))
      | .kfirst _ ka => OnlyAnswers s t ∧
          (∀ m < e.vl, (s.mask ka).getLsbD m = true → (∀ j < m, (s.mask ka).getLsbD j = false) → Performs s t e (BitVec.ofNat 64 m)) ∧
          ((∀ m < e.vl, (s.mask ka).getLsbD m = false) → Performs s t e (-1))
      | .kget _ k i => OnlyAnswers s t ∧ ∃ v : Word, Performs s t e v ∧
          ∀ j < 64, v.getLsbD j = (decide (64 * i + j < e.vl ∧ i < 128) && (s.mask k).getLsbD (64 * i + j))
      | .kput k v i => Performs s t e 0 ∧ WritesMask s t e k fun m =>
          (if m / 64 = i then v.getLsbD (m % 64) else (s.mask k).getLsbD m) = true
      | .vget v i _ => OnlyAnswers s t ∧ Performs s t e (if i < e.vl then (s.vreg v.toNat i).setWidth 64 else 0)
      | .vput v i x => Performs s t e 0 ∧ (∀ k, t.mask k = s.mask k) ∧ t.core.vec.mts = s.core.vec.mts ∧
          (i < e.vl → t.vreg v.toNat i = x) ∧
          ∀ k, (i < e.vl → k ≠ regSlot s.core.csr.nregs v.toNat i) → Store.get t.core.vec.regs k = Store.get s.core.vec.regs k
      | .linkPut x =>
          let u := s.drainBy fun l => l.ofCt || l.ofElem e.id
          WriteBy s u ∧ (s.core.vec.late = [] → u = s) ∧ Performs u t e 0 ∧ (t.mt 0).slot = some x ∧ ∀ m ≠ 0, t.mt m = s.mt m
      | .linkGet _ => ∃ x l, s.core.vec.fifo = x :: l ∧ t.core.vec.fifo = l ∧ Performs s t e (x.setWidth 64) ∧ t.core.vec.mts = s.core.vec.mts
      | _ => True

/-- Element `m` is an active one of an entry. -/
def Sys2Proof.Machine.State.activeOf (s : State) (e : Entry) (m : Nat) : Prop := m < e.vl ∧ (s.mask e.mask).getLsbD m = true
/-- 02 R31, R37, R43, R50, 09 R193: an entry of vfetch or of a carrier that distributes places its item at the end of the queue of
every micro-thread below VL whose mask bit is 1, with VFRM of its issue; a FAULTED one drops it and counts it; the A span that
a lane modifier captures is that of the element below or above, or of element 0, and zero where there is none; it is nothing
where a register of it is uncorrectable (log 64). Without .dt every inactive element of the groups below VL takes a slot of its own, at
the entry's age, and no other does (log 4). -/
def Sys2Proof.Machine.itemsArePlacedClaim : Prop :=
  ∀ (s : State) (q : VQueue) (e : Entry), s.toDistribute q = some e → s.canDistribute e = true → e.isItem = true →
    ∃ t, exec (.vqDistribute q) s = .next t ∧ Performs s t e 0 ∧ t.core.vec.regs = s.core.vec.regs ∧ (∀ k, t.mask k = s.mask k) ∧
      (∀ x ∈ t.core.vec.idle, x ∈ s.core.vec.idle ∨ (x.age = e.id ∧ ¬s.activeOf e x.m)) ∧
      (∀ w lane, e.op = .carrier w lane → e.dt = false → ∀ m, m / 64 < (e.vl + 63) / 64 → ¬s.activeOf e m →
        ∃ x ∈ t.core.vec.idle, x.age = e.id ∧ x.m = m) ∧
      ∀ m, (¬s.activeOf e m → t.mt m = s.mt m) ∧
        (m < e.vl → (s.mask e.mask).getLsbD m = true →
          (∀ f, (s.mt m).fault = some f → t.mt m = { s.mt m with fault := some { f with dropped := min (f.dropped + 1) (2 ^ 24 - 1) } }) ∧
          ((s.mt m).fault = none → ∃ x, t.mt m = { s.mt m with queue := (s.mt m).queue ++ [x] } ∧
            match e.op with
            | .fetch a => x = .block e.id a e.vfrm
            | .carrier w lane => ∃ sp, x = .word e.id e.pc w e.vfrm sp ∧ (lane = 0 → sp = none) ∧
                (lane ≠ 0 → ∀ i, decodeMt w = some i →
                  let src : Int := if lane = 1 then (m : Int) - 1 else if lane = 2 then m + 1 else 0
                  let a := (w.extractLsb' 12 6).toNat
                  (0 ≤ src ∧ src < e.vl ∧ s.lostReg src.toNat ((List.range (spanAOf i)).map (a + ·)) ≠ none → sp = some []) ∧
                  (¬(0 ≤ src ∧ src < e.vl ∧ s.lostReg src.toNat ((List.range (spanAOf i)).map (a + ·)) ≠ none) →
                    ∃ l, sp = some l ∧ l.length = spanAOf i ∧
                      ∀ k < spanAOf i, l.getD k 0 = if 0 ≤ src ∧ src < e.vl then s.vreg (a + k) src.toNat else 0))
            | _ => False))

/-- The registers of `t` are those of `s` but for `span v` of the micro-threads `ms`. -/
def Sys2Proof.Machine.RegsBeside (s t : State) (v : VReg) (n : Nat) (ms : List Nat) : Prop :=
  ∀ r m, m < s.vlmax → ¬(r ∈ span v n ∧ m ∈ ms) → t.vreg r m = s.vreg r m
/-- Every byte but those of the core's own register storage is what it was. -/
def Sys2Proof.Machine.KeepsMemory (s t : State) (kept : Nat → Prop) : Prop :=
  ∀ a, kept a → (∀ o, placeOf a ≠ .window s.core.no .regs o) → t.byteAt a = s.byteAt a
/-- Bytes that a vector element can be performed at in place: host memory, or a part of a window other than register storage. -/
def Sys2Proof.Machine.inPlace (pa n : Nat) : Prop := plainPlace pa n ∧ ∀ c o, placeOf pa ≠ .window c .regs o

/-- 02 R31, 09 R199, R204, R205: an entry of vector memory whose elements all have their turn performs them in ascending order
and is done; one whose first elements have it performs those and keeps the rest. Said where no store was left, no load has been
performed early and the turn leaves no store (log 11): then an element that was performed early gives the value it read, and a store
that the turn leaves changes no byte and joins those left. A load gives each
element of its register the bytes at its address, zero-extended; a store leaves at each address the bytes of the last element
that meets them, and every other byte as it was; an atomic on a stash word gives its element the old word, or, under a scope
narrower than its home's, does nothing but set the km bit. -/
def Obligations.VectorMemoryEffects : Prop :=
  ∀ (s : State) (q : VQueue) (e : Entry) (v : VReg) (size : BitVec 2) (l rest : List Elem) (op : BitVec 4) (scope : BitVec 3) (x : Elem),
    s.toDistribute q = some e → s.canDistribute e = true →
    let n : Nat := 2 ^ size.toNat
    s.core.vec.late = [] →
    (e.op = .load v size [x] → s.elemReady e n x = true → s.elemRefused x n false = none → ∀ val,
      s.earlyValue (.elem e.id x.m) (some []) (e.spot x n) = some val → val < 2 ^ (8 * n) →
      ∃ t, exec (.vqDistribute q) s = .next t ∧ Performs s t e 0 ∧
        val = (t.vreg v.toNat x.m).toNat + if size = 3 then (t.vreg (v.toNat + 1) x.m).toNat * 2 ^ 32 else 0) ∧
    (e.op = .store v size [x] → s.elemReady e n x = true → s.elemRefused x n true = none → s.defers = true → s.mayLeave x.pa = true →
      ∃ t, exec (.vqDistribute q) s = .next t ∧ (∀ a, t.byteAt a = s.byteAt a) ∧ (∀ r m, t.vreg r m = s.vreg r m) ∧
        t.core.vec.late = [{
          who := .elem e.id x.m, spot := e.spot x n,
          op := .store ((s.vreg v.toNat x.m).toNat + if size = 3 then (s.vreg (v.toNat + 1) x.m).toNat * 2 ^ 32 else 0) }]) ∧
    (s.core.vec.early = [] → s.defers = false →
    (e.op = .load v size (l ++ x :: rest) → (∀ y ∈ l, s.elemReady e n y = true) → s.elemReady e n x = false →
      (∀ y ∈ l, s.elemRefused y n false = none ∧ y.m < s.vlmax) →
      ∃ t, exec (.vqDistribute q) s = .next t ∧ RegsBeside s t v (sizeSpan size) (l.map (·.m)) ∧
        t.core.vec.queue = s.core.vec.queue.map fun y => if y.id = e.id then { y with op := .load v size (x :: rest) } else y) ∧
    (e.op = .load v size l → (∀ x ∈ l, s.elemReady e n x = true) → (∀ x ∈ l, s.elemRefused x n false = none ∧ inPlace x.pa n ∧ x.m < s.vlmax) → (l.map (·.m)).Nodup →
      ∃ t, exec (.vqDistribute q) s = .next t ∧ Performs s t e 0 ∧ RegsBeside s t v (sizeSpan size) (l.map (·.m)) ∧
        KeepsMemory s t (fun _ => True) ∧
        ∀ x ∈ l, s.holds x.pa n ((t.vreg v.toNat x.m).toNat + if size = 3 then (t.vreg (v.toNat + 1) x.m).toNat * 2 ^ 32 else 0)) ∧
    (e.op = .store v size l → (∀ x ∈ l, s.elemReady e n x = true) →
      (∀ x ∈ l, s.elemRefused x n true = none ∧ inPlace x.pa n ∧ ¬ s.holdsWrite x.pa) →
      ∃ t, exec (.vqDistribute q) s = .next t ∧ (∀ r m, t.vreg r m = s.vreg r m) ∧
        (∀ a, (∀ x ∈ l, a < x.pa ∨ x.pa + n ≤ a) → t.byteAt a = s.byteAt a) ∧
        ∀ l1 x l2, l = l1 ++ x :: l2 → (∀ y ∈ l2, y.pa + n ≤ x.pa ∨ x.pa + n ≤ y.pa) →
          t.holds x.pa n ((s.vreg v.toNat x.m).toNat + if size = 3 then (s.vreg (v.toNat + 1) x.m).toNat * 2 ^ 32 else 0)) ∧
    (e.op = .amo v op scope [x] → s.elemReady e 4 x = true →
      (scope.toNat < s.homeScope (s.elemKey e x) x.pa → ∃ t, exec (.vqDistribute q) s = .next t ∧ Performs s t e 0 ∧
        t.core.vec.regs = s.core.vec.regs ∧ (t.mask kmCode).getLsbD x.m = decide (x.m < 8192)) ∧
      (s.homeScope (s.elemKey e x) x.pa ≤ scope.toNat → op.toNat ≤ 9 → s.reaches x.pa true = true → s.lostAt x.pa 4 = false →
        (∃ c o, ∀ j < 4, placeOf (x.pa + j) = .window c .stash (o + j)) → x.m < s.vlmax →
        ∃ t, exec (.vqDistribute q) s = .next t ∧ RegsBeside s t v 1 [x.m] ∧
          KeepsMemory s t (fun a => a < x.pa ∨ x.pa + 4 ≤ a) ∧
          s.holds x.pa 4 (t.vreg v.toNat x.m).toNat ∧ (t.mask kmCode).getLsbD x.m = false ∧
          t.holds x.pa 4 (atomicNew op 32 (t.vreg v.toNat x.m) (s.vreg v.toNat x.m) (s.vreg (v.toNat + 1) x.m)).toNat)))

/-- The first-index record of each flag: valid bit and index, NV, DZ, OF, UF, NX (03 R84). -/
def Sys2Proof.Machine.firstIndexes (c : Csrs) : List (Bool × Nat) :=
  [(c.vffirsta.getLsbD 39, (c.vffirsta.extractLsb' 0 13).toNat), (c.vffirsta.getLsbD 40, (c.vffirsta.extractLsb' 13 13).toNat),
   (c.vffirsta.getLsbD 41, (c.vffirsta.extractLsb' 26 13).toNat), (c.vffirstb.getLsbD 26, (c.vffirstb.extractLsb' 0 13).toNat),
   (c.vffirstb.getLsbD 27, (c.vffirstb.extractLsb' 13 13).toNat)]
/-- The lowest element that raised each flag, in the same order. -/
def Sys2Proof.Machine.FlagIx.list (f : FlagIx) : List (Option Nat) := [f.nv, f.dz, f.ov, f.uf, f.nx]

/-- 02 R31, 03 R83 to R85: an entry that may retire leaves its queue; its scalar result reaches the register that it is owed to;
if it can raise a flag, VFFLAGS takes each flag that it raised and the first-index records are replaced by its own, or merged
with them, the lower index kept, when it resumes one that trapped; and nothing else changes. -/
def Sys2Proof.Machine.entriesRetireClaim : Prop :=
  ∀ (s : State) (q : VQueue) (e : Entry), s.toRetire q = some e → (∀ m, some m ∈ e.flags.list → m < 8192) →
    ∃ t, exec (.vqRetire q) s = .next t ∧ t.core.vec.queue = s.core.vec.queue.filter (fun x => x.id != e.id) ∧
      t.core.ct.pendingX = s.core.ct.pendingX.filter (fun p => p.1 != e.id) ∧
      (∀ r, t.getX r = match s.core.ct.pendingX.find? (fun p => p.1 == e.id) with
        | some (_, rd) => if r = rd ∧ r ≠ 0 then e.value else s.getX r
        | none => s.getX r) ∧
      (e.flagging = false → t.core.csr = s.core.csr) ∧
      (e.flagging = true →
        (∀ k < 5, t.core.csr.vfflags.getLsbD (4 - k) = (s.core.csr.vfflags.getLsbD (4 - k) || ((e.flags.list.getD k none).isSome))) ∧
        ∀ k < 5, ∀ new, e.flags.list[k]? = some new → ∀ old, (firstIndexes s.core.csr)[k]? = some old →
          ∃ now, (firstIndexes t.core.csr)[k]? = some now ∧ now.1 = (new.isSome || (e.resumed && old.1)) ∧
            ∀ m, new = some m → now.2 = if e.resumed && old.1 then min m old.2 else m) ∧
      (∀ x ∈ t.core.ct.early, ∃ y ∈ s.core.ct.early, x = { y with after := x.after }) ∧ (∀ x ∈ t.core.vec.early, x ∈ s.core.vec.early) ∧
      { t with core := { t.core with
          events := s.core.events,
          ct := { t.core.ct with x := s.core.ct.x, early := s.core.ct.early, pendingX := s.core.ct.pendingX },
          csr := { t.core.csr with vfflags := s.core.csr.vfflags, vffirsta := s.core.csr.vffirsta, vffirstb := s.core.csr.vffirstb },
          vec := { t.core.vec with queue := s.core.vec.queue, early := s.core.vec.early } } } = s

/-! ## Micro-threads -/

/-- 02 R38, R41, R53, 06 R138, 08 R170, 22 R352: the steps of a micro-thread between its words. A stopped one takes the item at
the head of its queue once earlier entries have finished there (02 R31); a waiting one becomes ready when every register that its words name is full and its link has a value;
a delivery fills the slot of the micro-thread above, or joins the link-out FIFO; returned data ends its word; a page walk
of a queued page takes it from the miss queue and fills the TLB, and one of no queued page does nothing. -/
def Obligations.MicroThreadSteps : Prop :=
  ∀ (s : State) (m : Nat),
    (∀ e pc w fr sp q, (s.mt m).phase = .stopped → s.itemReady m = true → (s.mt m).queue = .word e pc w fr sp :: q →
      ∃ t, exec (.mtTakeItem m) s = .next t ∧ (∀ k ≠ m, t.mt k = s.mt k) ∧ (t.mt m).queue = q ∧ (t.mt m).words = [w] ∧
        (t.mt m).blk = pc ∧ (t.mt m).ix = 0 ∧ (t.mt m).carrier = true ∧ (t.mt m).span = sp ∧ (t.mt m).vfrm = fr ∧
        (t.mt m).entry = e ∧ (t.mt m).slot = (s.mt m).slot ∧
        (t.mt m).phase = if ∀ r ∈ namesOf w, (s.emptyFor { s.mt m with entry := e }).getLsbD r = false then .ready else .waitEmpty) ∧
    (∀ e a fr q ws s1, (s.mt m).phase = .stopped → s.itemReady m = true → (s.mt m).queue = .block e a fr :: q → a.toNat % 4 = 0 →
      State.fetchBlock ({ s with core := { s.core with curMt := m } }.onMt m fun t =>
        { t with
          queue := q, blk := a, words := [], ix := 0, carrier := false, span := none, vfrm := fr, age := e, entry := e,
          origin := match s.core.vec.queue.find? fun (y : Entry) => y.id == e with | some x => x.pc | none => s.core.ct.pc }) a =
          (.block ws, s1) →
      ∃ t, exec (.mtTakeItem m) s = .next t ∧ (∀ k ≠ m, t.mt k = s.mt k) ∧ (t.mt m).queue = q ∧ (t.mt m).words = ws ∧
        (t.mt m).blk = a ∧ (t.mt m).ix = 0 ∧ (t.mt m).carrier = false ∧ (t.mt m).entry = e ∧ (t.mt m).slot = (s.mt m).slot) ∧
    ((s.mt m).phase = .waitEmpty ∨ (s.mt m).phase = .waitLink → (s.mt m).words ≠ [] →
      (∀ w ∈ (s.mt m).words, ∀ r ∈ namesOf w, (s.emptyFor (s.mt m)).getLsbD r = false) →
      (s.mt m).slot.isSome = true → ∃ t, exec (.blockStart m) s = .next t ∧ t.mt m = { s.mt m with phase := .ready } ∧
        (∀ k ≠ m, t.mt k = s.mt k) ∧ t.besideWord = s.besideWord) ∧
    (∀ v, (s.mt m).phase = .linkPending → (s.mt m).link = some v → s.linkRoom m = true →
      ∃ t, exec (.linkDeliver m) s = .next t ∧ (t.mt m).link = none ∧
        (m + 1 < s.core.csr.vl → (t.mt (m + 1)).slot = some v ∧ t.core.vec.fifo = s.core.vec.fifo ∧
          (∀ k, k ≠ m → k ≠ m + 1 → t.mt k = s.mt k)) ∧
        (s.core.csr.vl ≤ m + 1 → t.core.vec.fifo = s.core.vec.fifo ++ [v] ∧ ∀ k ≠ m, t.mt k = s.mt k)) ∧
    ((s.mt m).dataWait = true → ∃ t, exec (.mtDataReturn m) s = .next t ∧ t.mt m = Mt.next { s.mt m with dataWait := false } ∧
      (∀ k ≠ m, t.mt k = s.mt k) ∧ t.besideWord = s.besideWord) ∧
    (∀ va kind,
      let p := va.toNat / 4096
      let left := s.core.misses.filter (· != p)
      let s0 := { s with core := { s.core with misses := left, missed := s.core.missed.filter fun x => left.contains x.2 } }
      ∃ t, exec (.pageWalkComplete va kind) s = .next t ∧ (p ∉ s.core.misses → t = s) ∧
        (p ∈ s.core.misses → ReadBy s0 t ∧ (∀ q, q ∈ t.core.misses ↔ q ∈ s.core.misses ∧ q ≠ p) ∧
          ∀ pa s1, s0.translate va (if kind = .fetch then .fetch else .load) s.ctMode = (.ok pa, s1) →
            ∃ e ∈ t.core.tlb, e.asid = s.asidNow ∧ e.va ≤ va.toNat ∧ va.toNat < e.va + e.bytes ∧ pa = e.pa + (va.toNat - e.va)))

/-! ## Configuration -/

/-- Registers per micro-thread for a code of MTCFG.NREGS (02 R26). -/
def Sys2Proof.Machine.nregsCode (c : BitVec 2) : Nat := match c.toNat with | 0 => 8 | 1 => 16 | 2 => 32 | _ => 64
/-- `s` with another VL. -/
def Sys2Proof.Machine.State.withVl (s : State) (n : Nat) : State := { s with core := { s.core with csr := { s.core.csr with vl := n } } }
/-- The core after MTCONF of a value, before writes that it held land (09 R187): MTCFG from bits [12:8] and [1:0], registers,
accumulators, masks but kv, dirty bits, links and queues zero, VL 0. -/
def Sys2Proof.Machine.configured (c : Core) (v : Word) : Core :=
  { c with csr := { c.csr with nregs := v.extractLsb' 0 2, vqdepth := v.extractLsb' 8 5, vl := 0 },
           vec := { c.vec with regs := [], acc := [], masks := [(8, BitVec.allOnes 8192)], regDirty := 0, tileDirty := 0, high := 0,
                               fifo := [], mts := [], early := [], idle := [], pipe := [] } }
/-- A granule of the registers or accumulators of a core. -/
def Sys2Proof.Machine.ownArray (no g : Nat) : Bool := match placeOf (8 * g) with | .window c p _ => c == no && (p == .regs || p == .acc) | _ => false

/-- 02 R24, R26 to R28, 09 R185, R187, R188: setvl and a write of VL set VL to the least of the request, VLMAX = 65536 / NREGS and the
grant; mtconf and a write of MTCFG, once everything has drained and no fault is recorded, make the new configuration, whose
zeroed arrays hold no bad granule, and writes that they held land after it, and stores that were left (log 11) before it; a write of VSPACE sets it. setvl and mtconf give rd the new VL and the new VLMAX, CSR
writes the old value. While work is not drained the control thread waits; with a fault recorded it takes cause 24. -/
def Obligations.Configuration : Prop :=
  ∀ (s : State) (rd r1 : XReg) (v : Word),
    let n := fun req : Nat => min req (min (65536 / nregsCode s.core.csr.nregs) s.core.grant)
    (∃ t, exec (.setvl rd r1) s = .next t ∧
      CtDoes (s.withVl (n (s.getX r1).toNat)) t rd (BitVec.ofNat 64 (n (s.getX r1).toNat)) 4) ∧
    (∃ t, exec (.vlWrite rd v) s = .next t ∧ CtDoes (s.withVl (n v.toNat)) t rd (BitVec.ofNat 64 s.core.csr.vl) 4) ∧
    (v.toNat % 16 ≤ 4 ∨ (v.toNat % 16 = 5 ∧ s.core.ct.user = false) → ∃ t, exec (.vspaceWrite rd v) s = .next t ∧
      CtDoes { s with core := { s.core with csr := { s.core.csr with vspace := BitVec.ofNat 4 v.toNat } } } t rd
        (s.core.csr.vspace.setWidth 64) 4) ∧
    ∀ x ∈ [(Instr.mtconf rd r1, s.getX r1, BitVec.ofNat 64 (65536 / nregsCode ((s.getX r1).extractLsb' 0 2))),
        (Instr.mtcfgWrite rd v, v, BitVec.ofNat 64 (s.core.csr.nregs.toNat + 2 ^ 8 * s.core.csr.vqdepth.toNat))],
      ((s.drained && s.enginesDoneOrFaulted) = false →
        exec x.1 s = .next { s with core := { s.core with ct := { s.core.ct with wait := some (.instr x.1) } } }) ∧
      ((s.drained && s.enginesDoneOrFaulted) = true → s.mask kfCode ≠ 0 → exec x.1 s = .next (s.trap 24 s.kfTval)) ∧
      ((s.drained && s.enginesDoneOrFaulted) = true → s.mask kfCode = 0 → ∃ t, exec x.1 s = .next t ∧
        let u := s.drain
        let fresh := fun l : List Nat => l.filter fun g => !ownArray s.core.no g
        WriteBy s u ∧ (s.core.vec.late = [] → u = s) ∧
        CtDoes { u with base := { u.base with lost := fresh u.base.lost, soft := fresh u.base.soft }, core := (configured u.core x.2.1).landHeld }
          t rd x.2.2 4)

/-! ## Control and status registers -/

/-- The CSRs that a write without a row of its own reaches: number, and what reads back after a write of `v` over `old`
(00 R5, 11 R260 to R263, 22 R347). The RISC-V masks are PRESUMED (log 22). -/
def Sys2Proof.Machine.plainCsrs : List (BitVec 12 × (Word → Word → Word)) :=
  [(0x100, fun v _ => (v &&& 0xC_0122) ||| 0x2_0000_0000), (0x104, fun v _ => v &&& 0x3_0222), (0x105, fun v _ => v &&& ~~~2),
   (0x106, fun v _ => v &&& 0xFFFF_FFFF), (0x10A, fun v _ => v &&& 1), (0x140, fun v _ => v), (0x141, fun v _ => v &&& ~~~1),
   (0x142, fun v _ => v), (0x143, fun v _ => v), (0x144, fun v old => (v &&& 2) ||| (old &&& ~~~2)),
   (0x804, fun v _ => v &&& 0x3FFF), (0x806, fun v _ => v &&& 3), (0x809, fun v _ => v),
   (0x80A, fun v old => if v &&& 0xFFF = 0 then old else v &&& 0xFFF), (0x80B, fun v _ => v &&& 0xFFFF_FFFF_003F_FFFC), (0x80C, fun v _ => v),
   (0x5C0, fun v _ => v &&& 1), (0x5C2, fun v _ => v &&& ~~~0x7FF),
   (0x5C3, fun v old => (old &&& ~~~0x1F_FFFF) ||| (if v &&& 0x1F_FFFF ≤ 0x10_0000 then v &&& 0x1F_FFFF else 0x10_0000)),
   (0x5C4, fun v _ => if v &&& 0x1_FFFF ≤ 256 then 256 else if v &&& 0x1_FFFF ≤ 65536 then v &&& 0x1_FFFF else 65536),
   (0x5C5, fun v _ => v &&& ~~~0xFE0), (0x5C6, fun v _ => v &&& ~~~0x60)]

/-- 00 R5, 11 R260 to R263: a write of a CSR without a row of its own, at a level that may make it, completes: the CSR reads back
the fields that the write reaches, no other CSR reads otherwise, rd takes the old value, and nothing else changes but that a new
frame table empties the frame-chain cache (12 R267). -/
def Sys2Proof.Machine.plainCsrWritesClaim : Prop :=
  ∀ x ∈ plainCsrs, ∀ (s : State) (rd : XReg) (v old : Word), (s.core.ct.user = true → 0x800 ≤ x.1.toNat) →
    s.csrRead x.1 = some old →
    ∃ t, exec (.registerWrite (.csr x.1) rd v) s = .next t ∧ t.csrRead x.1 = some (x.2 v old) ∧
      (∀ n, n ≠ x.1 → t.csrRead n = s.csrRead n) ∧ (∀ r, t.getX r = if r = rd ∧ r ≠ 0 then old else s.getX r) ∧
      t.core.ct.pc = s.core.ct.pc + 4 ∧ t.core.events = (s.note 2).core.events ∧
      t.core.chain = (if x.1 = 0x5C6 then [] else s.core.chain) ∧
      { t with core := { t.core with ct := s.core.ct, csr := s.core.csr, events := s.core.events, chain := s.core.chain } } = s

/-- 05 R123, 00 R5, 22 R347: a CSR instruction of user level that names a supervisor CSR, a write of a read-only CSR, and one of
a CSR that does not exist are cause 2, with the instruction's bits in stval. -/
def Sys2Proof.Machine.csrsAreGuardedClaim : Prop :=
  ∀ (s : State) (n : BitVec 12) (rd : XReg) (v : Word) (rsv : BitVec 45) (w : BitVec 2) (mt : BitVec 13) (idx : BitVec 4) (arg : BitVec 56),
    ((n.extractLsb' 8 2 ≠ 0 ∧ s.core.ct.user = true) ∨ n.extractLsb' 10 2 = 3 ∨ s.csrRead n = none →
      exec (.registerWrite (.csr n) rd v) s = .next (s.trap 2 s.insnHere)) ∧
    (s.core.ct.user = true → ∀ i ∈ [Instr.satpWrite rd v, .panicmarkWrite rd v, .savectlReady rd v, .perfselSelect rd idx arg,
        .perfselProgram rd idx arg, .perfselWriteValue rd idx arg, .perfselSetThreshold rd idx arg, .perfselClearFlags rd idx arg,
        .perfselSetTraceBuffer rd idx arg, .perfselSetSamplePeriod rd idx arg, .perfselSetBreakpoint rd idx arg,
        .perfselClearBreakpoint rd idx arg, .mtfinfoSelect rd w rsv mt, .mtfinfoResume rd w rsv mt, .mtfinfoSkip rd w rsv mt,
        .mtfinfoClear rd w rsv mt, .mtfinfoSelectLowest rd w rsv mt],
      exec i s = .next (s.trap 2 s.insnHere))

/-- CAPCTL after an event whose action is `act` (24 R403): while FROZEN is set, and under actions 0 and 3, nothing changes; a start
sets ACTIVE; a freeze clears ACTIVE and sets FROZEN. -/
def Sys2Proof.Machine.Captures (before after : Word) (act : BitVec 2) : Prop :=
  (before.getLsbD 1 = true ∨ act = 0 ∨ act = 3 → after = before) ∧
  (before.getLsbD 1 = false → act = 1 → ∀ k < 64, after.getLsbD k = (before.getLsbD k || k == 0)) ∧
  (before.getLsbD 1 = false → act = 2 → ∀ k < 64, after.getLsbD k = if k = 0 then false else if k = 1 then true else before.getLsbD k)

/-- 03 R85, 11 R263, 22 R353, R362, 24 R403: an access to a flag CSR waits for every earlier entry that can raise a flag, then
reads and writes it. satp takes a value of MODE Sv57, after the accesses of the old address space that were left (log 11), and ignores
another; its ASID keeps the tag that it has or takes a free one, or that of the least recently bound space without a bound core or a
live tile, whose translations are dropped, and with no such space the write is cause 2; which binds and writes count for that order is
log 32. A write of PANICMARK takes its value. Both act on CAPCTL: satp by ASIDACT where the ASID matches, PANICMARK by MARKACT. READY
takes effect while a pre-emption is pending. rd takes the old value. -/
def Obligations.OwnRowCsrs : Prop :=
  ∀ (s : State) (rd : XReg) (v : Word) (which : FlagCsr) (op : CsrOp) (src : Option Word),
    (s.flagsPending = true → exec (.flagCsrAccess which op rd src) s = .next s) ∧
    (s.flagsPending = false → ∃ t c, exec (.flagCsrAccess which op rd src) s = .next t ∧
      CtDoes { s with core := { s.core with csr := c } } t rd (s.core.csr.flagCsr which) 4 ∧
      (src = none → c = s.core.csr) ∧
      ∀ x, src = some x → (∀ w, w ≠ which → c.flagCsr w = s.core.csr.flagCsr w) ∧
        ({ c with vfflags := 0, vffirsta := 0, vffirstb := 0 } : Csrs) = { s.core.csr with vfflags := 0, vffirsta := 0, vffirstb := 0 } ∧
        ∀ k < (match which with | .vfflags => 5 | .vffirsta => 42 | .vffirstb => 28),
          (c.flagCsr which).getLsbD k = match op with
            | .write => x.getLsbD k
            | .set => ((s.core.csr.flagCsr which).getLsbD k || x.getLsbD k)
            | .clear => ((s.core.csr.flagCsr which).getLsbD k && !x.getLsbD k)) ∧
    (s.core.ct.user = false →
      (v.extractLsb' 60 4 ≠ 10 → ∃ t, exec (.satpWrite rd v) s = .next t ∧ CtDoes s t rd s.core.ct.satp 4) ∧
      (let a := (v.extractLsb' 44 16).toNat
       let tags := s.disp.tags
       v.extractLsb' 60 4 = 10 →
        (a ∈ tags ∨ tags.length < 4096 → ∃ t b, exec (.satpWrite rd v) s = .next t ∧
          let u : State := { s with disp := { s.disp with tags := if a ∈ tags then tags else a :: tags }, base := { s.base with capctl := b } }
          Captures s.base.capctl b (if s.base.capctl.extractLsb' 48 16 = v.extractLsb' 44 16 then s.base.capctl.extractLsb' 16 2 else 0) ∧
          WriteBy u u.drain ∧ (s.core.vec.late = [] → u.drain = u) ∧
          CtDoes { u.drain with core := { u.drain.core with ct := { u.drain.core.ct with satp := v }, vec := { u.drain.core.vec with early := [] } } }
            t rd s.core.ct.satp 4) ∧
        (a ∉ tags → 4096 ≤ tags.length →
          ((∀ x ∈ tags, s.asidBusy x = true) → exec (.satpWrite rd v) s = .next (s.trap 2 s.insnHere)) ∧
          ∀ l old l', tags = l ++ old :: l' → s.asidBusy old = false → (∀ x ∈ l', s.asidBusy x = true) →
            ∃ t, exec (.satpWrite rd v) s = .next t ∧ t.disp.tags = a :: tags.filter (· != old) ∧ t.core.ct.satp = v ∧
              (∀ e ∈ t.core.tlb, e.asid ≠ old) ∧ (∀ e ∈ t.core.chain, e.asid ≠ old) ∧
              ∀ r, t.getX r = if r = rd ∧ r ≠ 0 then s.core.ct.satp else s.getX r)) ∧
      (∃ t b, exec (.panicmarkWrite rd v) s = .next t ∧ Captures s.base.capctl b (s.base.capctl.extractLsb' 12 2) ∧
        CtDoes { s with base := { s.base with capctl := b }, core := { s.core with csr := { s.core.csr with panicmark := v } } }
          t rd s.core.csr.panicmark 4) ∧
      (∃ t, exec (.savectlReady rd v) s = .next t ∧ CtDoes { s with core := { s.core with
          csr := { s.core.csr with grace := min (v.toNat % 2 ^ 21) 0x10_0000 },
          ready := s.core.ready || (v.getLsbD 38 && s.core.pendingSince.isSome) } } t rd s.savectl 4))

/-- 22 R356 to R358: at supervisor level, with reserved bits 0 and an index below VLMAX, an MTFINFO command completes, sets WORD and
gives rd what a read gave before. Op 0 selects the micro-thread, op 4 the lowest FAULTED one at or above it. Op 1 resumes a
FAULTED one at its faulting word and op 2 after it, its kf bit clear and its record gone, a value of an earlier block's lnkwr
being delivered first (06 R139); op 3 makes it STOPPED, keeping only
its link slot. On a micro-thread that is not FAULTED, ops 1 to 3 only select. -/
def Obligations.MicroThreadFaultCommands : Prop :=
  ∀ (s : State) (rd : XReg) (w : BitVec 2) (mt : BitVec 13), s.core.ct.user = false → mt.toNat < s.vlmax →
    let m := mt.toNat
    let sel := fun k => s.onCsr fun c => { c with mtWord := w, mtNone := false, mtSel := k }
    (∃ t, exec (.mtfinfoSelect rd w 0 mt) s = .next t ∧ CtDoes (sel m) t rd s.mtfinfo 4) ∧
    ((s.mt m).fault = none → ∀ i ∈ [Instr.mtfinfoResume rd w 0 mt, .mtfinfoSkip rd w 0 mt, .mtfinfoClear rd w 0 mt],
      ∃ t, exec i s = .next t ∧ CtDoes (sel m) t rd s.mtfinfo 4) ∧
    (∀ k, s.faultedFrom m = some k → ∃ t, exec (.mtfinfoSelectLowest rd w 0 mt) s = .next t ∧ CtDoes (sel k) t rd s.mtfinfo 4) ∧
    (s.faultedFrom m = none → ∃ t, exec (.mtfinfoSelectLowest rd w 0 mt) s = .next t ∧
      CtDoes (s.onCsr fun c => { c with mtWord := w, mtNone := true }) t rd s.mtfinfo 4 ∧ t.mtfinfo = 0) ∧
    (∀ f, (s.mt m).fault = some f →
      (∃ t, exec (.mtfinfoClear rd w 0 mt) s = .next t ∧ t.mt m = { Mt.idle with slot := (s.mt m).slot } ∧
        (∀ k ≠ m, t.mt k = s.mt k) ∧ (∀ k, t.mask k = if k = kfCode then setBit (s.mask k) m false else s.mask k) ∧
        t.getX rd = if rd = 0 then 0 else s.mtfinfo) ∧
      ∀ skip : Bool, f.carrier = false → f.code ≠ 13 → f.block = (s.mt m).blk → f.wordIx + skip.toNat < (s.mt m).words.length →
        ∃ t, exec (if skip then .mtfinfoSkip rd w 0 mt else .mtfinfoResume rd w 0 mt) s = .next t ∧
          (t.mt m).fault = none ∧ (t.mt m).ix = f.wordIx + skip.toNat ∧ (t.mt m).words = (s.mt m).words ∧
          (if (s.mt m).link.isSome ∧ f.wordIx = 0 then (t.mt m).phase = .linkPending
           else (t.mt m).phase = .ready ∨ (t.mt m).phase = .waitEmpty ∨ (t.mt m).phase = .waitLink) ∧
          (∀ k ≠ m, t.mt k = s.mt k) ∧ (∀ k, t.mask k = if k = kfCode then setBit (s.mask k) m false else s.mask k) ∧
          t.getX rd = if rd = 0 then 0 else s.mtfinfo)

/-! ## Profiling -/

/-- 21 R342, R344: at supervisor level, a PERFSEL command that its table accepts completes: what the cycle counts is counted first,
its own retirement with it (`u`); then it selects IDX, changes what its row says and no other counter, and gives rd what a read gave
before. A counter keeps the event and the threshold that it had in this cycle, and OV stays set in the cycle of a wrap. -/
def Sys2Proof.Machine.perfCommandsClaim : Prop :=
  ∀ (s : State) (rd : XReg) (idx : BitVec 4) (arg : BitVec 56), s.core.ct.user = false →
    let u := (s.note 2).countNoted
    let p := u.core.perf
    let prior := fun c : Counter => some (s.base.cycle, c.inForce s.base.cycle)
    let counters : List (Instr × Bool × Counter) := let c := p.counter idx.toNat
      [(.perfselProgram rd idx arg, decide (idx.toNat ≤ 11 ∧ arg.toNat < 512 ∧ arg.toNat % 256 ≤ 17 ∧ (8 ≤ idx.toNat → arg.toNat % 256 = 0)),
          { c with event := arg.toNat % 256, inten := arg.getLsbD 8, prior := prior c }),
       (.perfselWriteValue rd idx arg, decide (idx.toNat ≤ 11 ∧ arg.toNat < 2 ^ 48), { c with value := arg.toNat }),
       (.perfselSetThreshold rd idx arg, decide (idx.toNat ≤ 11 ∧ arg.toNat < 2 ^ 48), { c with threshold := arg.toNat, prior := prior c }),
       (.perfselClearFlags rd idx arg, decide (idx.toNat ≤ 11 ∧ arg = 0), { c with ov := c.ov && c.wrapped == some s.base.cycle, tx := false })]
    let others : List (Instr × Bool × Perf) := let p := { p with idx := idx.toNat, view := 0 }
      [(.perfselSelect rd idx arg, decide (idx.toNat ≤ 11 ∧ arg.toNat ≤ 2), { p with view := arg.toNat }),
       (.perfselSetTraceBuffer rd idx arg,
          decide (idx.toNat ≤ 13 ∧ arg.toNat / 16 % 256 = 0) && (arg == 0 || placeOf (arg.toNat / 4096 * 4096) != .nowhere),
          { p with traceBase := arg.toNat / 4096 * 4096, traceLog := arg.toNat % 16, tracePos := 0 }),
       (.perfselSetSamplePeriod rd idx arg, decide (idx.toNat ≤ 13 ∧ arg.toNat < 2 ^ 32),
          { p with period := if arg = 0 then 0 else max arg.toNat 1024, sampledAt := s.base.cycle }),
       (.perfselSetBreakpoint rd idx arg, decide (idx = 12 ∨ idx = 13),
          let a := arg.signExtend 64 * 4
          if idx = 12 then { p with pcBreak := some a } else { p with blockBreak := some a }),
       (.perfselClearBreakpoint rd idx arg, decide ((idx = 12 ∨ idx = 13) ∧ arg = 0),
          if idx = 12 then { p with pcBreak := none } else { p with blockBreak := none })]
    let does := fun (t : State) (q : Perf) => t.core.perf = q ∧ (∀ r, t.getX r = if r = rd ∧ r ≠ 0 then p.read else s.getX r) ∧
      t.core.ct.pc = s.core.ct.pc + 4 ∧ t.core.events = [] ∧ ({ t with core := { t.core with perf := p } } : State).besideCt = u.besideCt
    (∀ x ∈ counters, x.2.1 = true → ∃ t q, exec x.1 s = .next t ∧ does t q ∧
      (∀ k, q.counter k = if k = idx.toNat then x.2.2 else p.counter k) ∧
      ({ q with counters := [] } : Perf) = { p with counters := [], idx := idx.toNat, view := 0 }) ∧
    (∀ x ∈ others, x.2.1 = true → ∃ t, exec x.1 s = .next t ∧ does t x.2.2) ∧
    (s.core.events = [] → (∀ k < 8, ((s.core.perf.counter k).inForce s.base.cycle).1 ≠ 2) → u = s) ∧
    ∀ x ∈ counters.map (fun x => (x.1, x.2.1)) ++ others.map (fun x => (x.1, x.2.1)), x.2 = false →
      exec x.1 s = .next (s.trap 2 s.insnHere)

/-- The place of the next record of the core in focus in its trace buffer (21 R345): the buffer is a ring. -/
def Sys2Proof.Machine.State.recordAt (s : State) : Nat := s.core.perf.traceBase + 32 * (s.core.perf.tracePos % (4096 * 2 ^ s.core.perf.traceLog / 32))
/-- The 32 bytes of a record of the core in focus (21 R345): KIND, CORE, INFO, EVENT, LTIME, the cycle, PC and VALUE. -/
def Sys2Proof.Machine.State.recordOf (s : State) (kind info event cycle : Nat) (pc value : Word) : Nat :=
  kind + s.core.no * 2 ^ 8 + info * 2 ^ 16 + event * 2 ^ 24 + s.core.ltime.toNat * 2 ^ 32 + cycle % 2 ^ 64 * 2 ^ 64 + pc.toNat * 2 ^ 128
    + value.toNat * 2 ^ 192
/-- A record goes into the trace buffer: its 32 bytes, in DDR or in host memory, become the record, and no other byte changes. -/
def Sys2Proof.Machine.Records (s t : State) (record : Nat) : Prop :=
  (placeOf s.recordAt = .ddr → s.recordAt % 64 + 32 ≤ 64 → s.Coherent → s.underKey .block s.recordAt →
    t.holds s.recordAt 32 record ∧ KeepsBytes s t s.recordAt 32) ∧
  ((∀ j < 32, placeOf (s.recordAt + j) = .host) → t.holds s.recordAt 32 record ∧ KeepsBytes s t s.recordAt 32)
/-- A buffer is set and capture is not frozen (21 R345, 24 R403). -/
def Sys2Proof.Machine.State.records (s : State) : Prop := (s.core.perf.traceBase ≠ 0 ∨ s.core.perf.traceLog ≠ 0) ∧ s.base.capctl.getLsbD 1 = false

/-- 21 R343 to R346: a counter that wraps is 0 with OV set; one that reaches the threshold in force has TX set. A sample is taken for
every period that has passed, and its record goes to the trace buffer where one is set and capture is not frozen: of one sample, its
bytes name the class of the cycle, the oldest entry's instruction and the block that a vfetch fetched, or the control thread's pc. A
breakpoint that is met is pending. -/
def Sys2Proof.Machine.profilingEventsClaim : Prop :=
  ∀ (s : State) (i m : Nat),
    let c := s.core.perf.counter i
    (c.value + 1 = 2 ^ 48 → ∃ t, exec (.counterWrap i) s = .next t ∧ (t.core.perf.counter i).value = 0 ∧
      (t.core.perf.counter i).ov = true ∧ ∀ k ≠ i, t.core.perf.counter k = s.core.perf.counter k) ∧
    let limit := (c.inForce s.base.cycle).2
    (limit ≠ 0 → c.value + 1 = limit → limit < 2 ^ 48 → ∃ t, exec (.counterThreshold i) s = .next t ∧
      (t.core.perf.counter i).value = limit ∧ (t.core.perf.counter i).tx = true ∧
      ∀ k ≠ i, t.core.perf.counter k = s.core.perf.counter k) ∧
    (let p := s.core.perf
     let n := (s.base.cycle - p.sampledAt) / p.period
     s.core.phase.bound = true → p.period ≠ 0 →
      ∃ t, exec .perfSample s = .next t ∧ t.core.perf.sampledAt = p.sampledAt + n * p.period ∧
        (¬s.records → t.core.perf.tracePos = p.tracePos) ∧
        (s.records → t.core.perf.tracePos = p.tracePos + n ∧
          (n = 1 → ∀ pc v, (pc, v) = (match s.core.vec.queue.filter (fun e => match e.op with | .kernelResume _ => false | _ => true) with
              | e :: _ => (e.pc, match e.op with | .fetch a => a | _ => (0 : Word))
              | [] => (s.core.ct.pc, (0 : Word))) →
            Records s t (s.recordOf 1 s.cycleClass 0 (p.sampledAt + p.period) pc v)))) ∧
    (s.core.perf.breakPending = none → s.core.phase = .running →
      (s.core.perf.pcBreak = some s.core.ct.pc → s.core.csr.vresume = 0 → ∃ t, exec (.breakpointFire false m) s = .next t ∧
        t.core.perf.breakPending = some (s.core.ct.pc, s.core.ct.pc)) ∧
      (s.core.perf.blockBreak = some (s.mt m).blk → (s.mt m).phase = .ready → (s.mt m).carrier = false → (s.mt m).ix = 0 →
        (s.mt m).words ≠ [] → ∃ t, exec (.breakpointFire true m) s = .next t ∧
          t.core.perf.breakPending = some ((s.mt m).blk, (s.mt m).origin)))

/-! ## Engine commands -/

/-- What an engine instruction puts into the engine queue (10 R210, R211): kind, flags, the words and register values, the
tiles and the members. -/
structure Sys2Proof.Machine.Order where
  i : Instr
  len : Nat
  rd : XReg
  kind : CmdKind
  acq : Bool
  rel : Bool
  scope : BitVec 3
  r1 : Word
  r2 : Word
  src : Option TileRef
  dst : Option TileRef
  idx : Option TileRef
  mat : Option TileRef
  members : List Nat
/-- `t` follows `s` by the issue of a command (10 R210, R211): it is last in the queue with the number after XISSUED and with
XNOTIFY as it was, XISSUED and rd take its number, XNOTIFY.EN is cleared, and nothing else changes. -/
def Sys2Proof.Machine.IssuesCmd (s t : State) (o : Order) : Prop :=
  ∃ c : Cmd, c.seq = s.core.csr.xissued + 1 ∧ c.kind = o.kind ∧ c.acq = o.acq ∧ c.rel = o.rel ∧ c.scope = o.scope ∧ c.rs1 = o.r1 ∧
    c.rs2 = o.r2 ∧ c.notify = s.core.csr.xnotify ∧ c.phase = .queued ∧ c.progress = 0 ∧ c.code = 0 ∧ c.src = o.src ∧ c.dst = o.dst ∧
    c.idx = o.idx ∧ c.matTile = o.mat ∧ c.members = o.members ∧ c.status = o.members.map (fun _ => none) ∧
    c.afterEntry = s.core.vec.nextEntry ∧
    CtDoes { s with core := { s.core with
      vec := { s.core.vec with cmds := s.core.vec.cmds ++ [c] },
      csr := { s.core.csr with xissued := s.core.csr.xissued + 1, xnotify := s.core.csr.xnotify &&& ~~~0x20_0000 } } }
      t o.rd (BitVec.ofNat 64 (s.core.csr.xissued + 1)) o.len

/-- 10 R210, R211, R225, R226, 11 R238: a copy command whose handles pass their checks joins the engine queue, rd takes its number,
and the control thread goes on; for each of the four, a handle that fails a check is cause 27 with the first failure in stval, in the
order stale, privileged, shape, read-only; a full queue stalls. -/
def Obligations.CopyIssue : Prop :=
  ∀ (s : State) (acq rel : Bool) (scope : BitVec 3) (rd r1 r2 : XReg) (a b x : TileRef),
    let v1 := s.getX r1
    let v2 := s.getX r2
    (∀ o ∈ [(Order.mk (.xcopy acq rel scope rd r1 r2) 4 rd .copy acq rel scope v1 v2 (some a) (some b) none none [],
              s.copyTiles v1 v2 = .ok (a, b)),
            (Order.mk (.xfill acq rel scope rd r1 r2) 4 rd .fill acq rel scope v1 v2 none (some b) none none [],
              s.checkHandle (v2.extractLsb' 0 32) true anyShape = .ok b),
            (Order.mk (.xgather acq rel scope rd r1 r2) 4 rd .gather acq rel scope v1 v2 (some a) (some b) (some x) none [],
              s.rowTiles (v1.extractLsb' 0 32) (v2.extractLsb' 0 32) (v1.extractLsb' 32 32) false = .ok (a, b, x)),
            (Order.mk (.xscatter acq rel scope rd r1 r2) 4 rd .scatter acq rel scope v1 v2 (some a) (some b) (some x) none [],
              s.rowTiles (v1.extractLsb' 0 32) (v2.extractLsb' 0 32) (v2.extractLsb' 32 32) true = .ok (a, b, x))], o.2 →
      (s.core.vec.cmds.length < 16 → ∃ t, exec o.1.i s = .next t ∧ IssuesCmd s t o.1) ∧
      (16 ≤ s.core.vec.cmds.length → exec o.1.i s = .next s)) ∧
    (∀ v, s.copyTiles v1 v2 = .error v → exec (.xcopy acq rel scope rd r1 r2) s = .next (s.trap 27 v)) ∧
    (∀ v, s.checkHandle (v2.extractLsb' 0 32) true anyShape = .error v → exec (.xfill acq rel scope rd r1 r2) s = .next (s.trap 27 v)) ∧
    (∀ v, s.rowTiles (v1.extractLsb' 0 32) (v2.extractLsb' 0 32) (v1.extractLsb' 32 32) false = .error v →
      exec (.xgather acq rel scope rd r1 r2) s = .next (s.trap 27 v)) ∧
    (∀ v, s.rowTiles (v1.extractLsb' 0 32) (v2.extractLsb' 0 32) (v2.extractLsb' 32 32) true = .error v →
      exec (.xscatter acq rel scope rd r1 r2) s = .next (s.trap 27 v)) ∧
    ∀ (h : BitVec 32) (write : Bool) (shape : TileDesc → Bool), ∀ v, s.checkHandle h write shape = .error v →
      let stval := fun code : Nat => BitVec.ofNat 64 (code * 2 ^ 32 + h.toNat)
      match s.current h with
      | none => v = stval 1
      | some e =>
        if e.desc.space = 5 ∧ s.core.ct.user = true then v = stval 4
        else if shape e.desc = false then v = stval 2
        else write = true ∧ e.desc.readonly = true ∧ v = stval 3

/-- 10 R218, R222, R223, R227, 02 R44: a matrix instruction whose operand fields, handles and ranges pass their checks joins
the engine queue. Reserved fields are cause 2; else an accumulator tile that is empty under FEPOL.HIGH is cause 26 with 64 + the tile in
stval, before any other check (which of them comes first is log 20); else a range that fails has its own cause. xcopy.m joins with the
matrix word that follows it. -/
def Obligations.MatrixIssue : Prop :=
  ∀ (s : State) (fmt : BitVec 4) (k : BitVec 2) (tile r1 r2 : XReg) (m : Option TileRef) (acq rel : Bool) (scope : BitVec 3) (rd : XReg)
    (w : MWord) (a b : TileRef),
    let v1 := s.getX r1
    let v2 := s.getX r2
    let word := fun i : Instr => (instrBits i).extractLsb' 0 32
    let mk := fun (i : Instr) kind v1 v2 => Order.mk i 4 0 kind false false 1 v1 v2 none none none m []
    let checked := fun (o : Order) (chk : MatCheck) =>
      (chk = .ok m → (s.core.csr.fepol.getLsbD 63 = true → s.tileEmpty.getLsbD (mwTile (word o.i)) = false) →
        s.core.vec.cmds.length < 16 → ∃ t, exec o.i s = .next t ∧ IssuesCmd s t o) ∧
      (chk = .illegal → exec o.i s = .next (s.illegal o.i)) ∧
      (chk ≠ .illegal → s.core.csr.fepol.getLsbD 63 = true → s.tileEmpty.getLsbD (mwTile (word o.i)) = true →
        exec o.i s = .next (s.trap 26 (BitVec.ofNat 64 (64 + mwTile (word o.i))))) ∧
      (∀ cause v, chk = .bad cause v → (s.core.csr.fepol.getLsbD 63 = true → s.tileEmpty.getLsbD (mwTile (word o.i)) = false) →
        exec o.i s = .next (s.trap cause v))
    checked (mk (.mma fmt k tile r1 r2) .mma v1 v2) (s.checkMma (word (.mma fmt k tile r1 r2)) v1 v2) ∧
    checked (mk (.mmas fmt tile r1 r2) .mmas v1 v2) (s.checkMma (word (.mmas fmt tile r1 r2)) v1 v2) ∧
    checked (mk (.mdrain fmt k tile r1 r2) .mdrain v1 v2) (s.checkDrain (word (.mdrain fmt k tile r1 r2)) v1 v2) ∧
    checked (mk (.mload tile r1 r2) .mload v1 v2) (checkMload v1 v2) ∧
    (m = none → checked (mk (.mzero tile) .mzero 0 0) (.ok none)) ∧
    (let m1 := s.getX (w.extractLsb' 15 5)
     let m2 := s.getX (w.extractLsb' 20 5)
     let i : Instr := .xcopyM acq rel scope rd r1 r2 w
     let full := s.core.csr.fepol.getLsbD 63 = true → s.tileEmpty.getLsbD (mwTile w) = false
     (s.checkMma w m1 m2 = .ok m → full → s.copyTiles v1 v2 = .ok (a, b) → s.core.vec.cmds.length < 16 →
      ∃ t, exec i s = .next t ∧ IssuesCmd s t (Order.mk i 8 rd .copyMatrix acq rel scope v1 v2 (some a) (some b) none m []) ∧
        (t.core.vec.cmds.getLast?.any fun c => c.mrs1 == m1 && c.mrs2 == m2) = true) ∧
     (s.checkMma w m1 m2 = .illegal → exec i s = .next (s.illegal i)) ∧
     (s.checkMma w m1 m2 ≠ .illegal → ¬full → exec i s = .next (s.trap 26 (BitVec.ofNat 64 (64 + mwTile w)))) ∧
     (s.checkMma w m1 m2 ≠ .illegal → full → ∀ v, s.copyTiles v1 v2 = .error v → exec i s = .next (s.trap 27 v)) ∧
     (full → s.copyTiles v1 v2 = .ok (a, b) → ∀ cause v, s.checkMma w m1 m2 = .bad cause v → exec i s = .next (s.trap cause v)))

/-- 10 R228, R229, 15 R326: a collective with XNOTIFY enabled, an operator of 0 to 6, and handles and group that pass their checks
joins the engine queue with the members that the group tile lists, this core among them; under ACQ the group is read after the accesses
of the control thread and of earlier entries (`s0`), and the instruction waits while such an entry has elements to perform; without
XNOTIFY.EN it is cause 2. -/
def Obligations.CollectiveIssue : Prop :=
  ∀ (s s1 : State) (acq rel : Bool) (scope : BitVec 3) (rd r1 r2 : XReg) (a b g : TileRef) (ms : List Nat),
    let v1 := s.getX r1
    let v2 := s.getX r2
    ∀ x ∈ [(Instr.xcollReduce acq rel scope rd r1 r2, CmdKind.reduce), (.xcollBroadcast acq rel scope rd r1 r2, .broadcast),
        (.xcollAllgather acq rel scope rd r1 r2, .allgather)],
      (s.core.csr.xnotify.getLsbD 21 = false → exec x.1 s = .next (s.illegal x.1)) ∧
      let s0 := if acq then s.acquireFor scope s.core.vec.nextEntry else s
      (s.core.csr.xnotify.getLsbD 21 = true → (v2.extractLsb' 32 32).toNat ≤ 6 →
        s.checkHandle (v1.extractLsb' 0 32) false
          (fun t => x.2 != .reduce || t.esize == (if (v2.extractLsb' 32 32).toNat = 1 then 1 else 2)) = .ok a →
        s.checkHandle (v2.extractLsb' 0 32) true anyShape = .ok b → s.checkHandle (v1.extractLsb' 32 32) false groupShape = .ok g →
        a.desc.esize = b.desc.esize → b.desc.count = (if x.2 = .allgather then g.desc.count else 1) * a.desc.count →
        (acq = true → (∃ e ∈ s.core.vec.queue, e.isMemory = true ∧ e.distributed = false) → exec x.1 s = .next s) ∧
        ((acq = true → ∀ e ∈ s.core.vec.queue, e.isMemory = true → e.distributed = true) →
          s0.readMembers g g.desc.count 0 = (.ok ms, s1) → ms.contains (0xFFFF + s.core.no * 65536) = true → s.core.vec.cmds.length < 16 →
          ∃ t, exec x.1 s = .next t ∧ IssuesCmd s1 t (Order.mk x.1 4 rd x.2 acq rel scope v1 v2 (some a) (some b) (some g) none ms)))

/-! ## Matrix commands at work -/

/-- The command that `engineCommandStart` starts, when its ordering waits have ended. -/
def Sys2Proof.Machine.Starts (s : State) (c : Cmd) : Prop := s.core.phase = .running ∧ s.held s.core.no = false ∧ s.cmd c.seq = some c ∧
  c.phase = .queued ∧ c.progress = 0 ∧ s.mayMultiply c = true
/-- Element (i, j) of the core's accumulator tile. -/
def Sys2Proof.Machine.State.acc (s : State) (t i j : Nat) : MWord := s.core.accGet t i j
/-- `t` follows `s` by work on accumulator tile `n`: the command has run to its end and marks that tile alone, until it completes; other tiles, registers, the stash and the
flysheet are as they were. -/
def Sys2Proof.Machine.AccDoes (s t : State) (c : Cmd) (n : Nat) : Prop :=
  t.cmd c.seq = some { c with
    phase := .running, progress := 32, code := 0, addr := 0, marks := [{ core := s.core.no, regs := 0, tiles := BitVec.twoPow 32 n }] } ∧
    (∀ k < 32, k ≠ n → ∀ i < 32, ∀ j < 64, t.acc k i j = s.acc k i j) ∧ t.core.vec.regs = s.core.vec.regs ∧
    t.core.vec.stash = s.core.vec.stash ∧ t.core.vec.fly = s.core.vec.fly ∧ t.core.ct = s.core.ct ∧ t.core.csr = s.core.csr ∧ t.mem = s.mem

/-- 03 R81, R82, 10 R216 to R222: a matrix command that starts. mzero makes its tile zero; mload reads 32 rows of 64 words from
the stash; mma and mmas of operands in the stash or in registers add to each element the product of its row of A and its
column of B: for an integer format the exact sum of the products, modulo 2^32; for a floating-point one six groups in order,
each group's exact sum rounded once to FP32 and added with rounding. -/
def Sys2Proof.Machine.matrixCommandsClaim : Prop :=
  ∀ (s : State) (c : Cmd), Starts s c → let n := mwTile c.mword
    (c.kind = .mzero → ∃ t, exec (.engineCommandStart c.seq) s = .next t ∧ AccDoes s t c n ∧ ∀ i < 32, ∀ j < 64, t.acc n i j = 0) ∧
    (c.kind = .mload → s.base.lost = [] → ∃ t, exec (.engineCommandStart c.seq) s = .next t ∧ AccDoes s t c n ∧
      ∀ i < 32, ∀ j < 64, (t.acc n i j).toNat =
        s.core.partRead .stash (c.rs1.toNat + (if c.rs2 = 0 then 256 else c.rs2.toNat) * i + 4 * j) 4) ∧
    (c.kind = .mma ∨ c.kind = .mmas → mwSrc c.mword ≤ 1 → s.base.lost = [] →
      ∀ (rows : List MatRow) (cols : List MatRow), rows.length = 32 → (∀ i < 32, ∀ r, rows[i]? = some r → s.aRow c.mword c.rs1 none i = (.ok r, s)) →
        s.bColumns (mwFmt c.mword) c.rs2 64 = .ok cols →
        ∃ t, exec (.engineCommandStart c.seq) s = .next t ∧ AccDoes s t c n ∧ cols.length = 64 ∧
          let f := mwFmt c.mword
          let ph := if mwVector c.mword then 0 else (c.rs1.extractLsb' 61 2).toNat
          let pb := (c.rs2.extractLsb' 38 2).toNat
          ∀ i < 32, ∀ j < 64, ∀ a b, rows[i]? = some a → cols[j]? = some b →
            if f ≤ 4 then (t.acc n i j).toNat =
              (List.range 6).foldl (fun x g => (Fmt.fp32.add rne x (groupSum ((List.range (matGroup f)).map fun k =>
                (a.float f ph (g * matGroup f + k), b.float f pb (g * matGroup f + k))))).1) (s.acc n i j).toNat
            else t.acc n i j = s.acc n i j + BitVec.ofInt 32 (((List.range (matK f)).map fun k => a.int f k * b.int f k).sum))

/-- Every element of a tile lies in the stash of the core in focus. -/
def Sys2Proof.Machine.State.inStash (s : State) (t : TileRef) : Prop :=
  t.desc.space = 1 ∧ s.core.no < 192 ∧ ∀ e < t.desc.count, 0 ≤ t.desc.addr e ∧ t.desc.addr e + t.desc.bytes ≤ 0x20_0000
/-- Element `e` of a tile in the stash. -/
def Sys2Proof.Machine.State.elem (s : State) (t : TileRef) (e : Nat) : Nat := s.core.partRead .stash (t.desc.addr e).toNat t.desc.bytes
/-- No element of one tile shares a byte with one of another. -/
def Sys2Proof.Machine.Apart (a b : TileRef) : Prop := ∀ i < a.desc.count, ∀ j < b.desc.count,
  a.desc.addr i + a.desc.bytes ≤ b.desc.addr j ∨ b.desc.addr j + b.desc.bytes ≤ a.desc.addr i
/-- No two elements of a tile share a byte. -/
def Sys2Proof.Machine.Distinct (b : TileRef) : Prop := ∀ i < b.desc.count, ∀ j < b.desc.count, i ≠ j →
  b.desc.addr i + b.desc.bytes ≤ b.desc.addr j ∨ b.desc.addr j + b.desc.bytes ≤ b.desc.addr i
/-- A byte of the stash that no element of a tile covers is what it was. -/
def Sys2Proof.Machine.OthersKept (s t : State) (b : TileRef) : Prop := ∀ a : Nat, a < 0x20_0000 →
  (∀ e < b.desc.count, (a : Int) < b.desc.addr e ∨ b.desc.addr e + b.desc.bytes ≤ a) →
    t.core.partRead .stash a 1 = s.core.partRead .stash a 1
/-- A copy command that `engineCommandStart` starts: its ordering waits have ended and, under ACQ, nothing is left that it orders. -/
def Sys2Proof.Machine.StartsCopy (s : State) (c : Cmd) (b : TileRef) : Prop := s.core.phase = .running ∧ s.held s.core.no = false ∧
  s.cmd c.seq = some c ∧ c.phase = .queued ∧ c.progress = 0 ∧ c.matrixPart = false ∧ s.mayCopy c = true ∧
  (c.acq = true → s.core.vec.late = []) ∧ c.dst = some b ∧ s.inStash b ∧ Distinct b ∧ s.base.lost = []
/-- A command that has run to its end. -/
def Sys2Proof.Machine.Ran (t : State) (c : Cmd) (n : Nat) : Prop :=
  t.cmd c.seq = some { c with phase := .running, progress := n, code := 0, addr := 0, marks := [] }

/-- 10 R225, R226, R227, R232: what copy commands that start do, as said here of tiles in the core's stash whose elements share no byte. xcopy
gives element `e` of the destination element `e` of the source, xfill the low bytes of rs1; xgather gives row `r` of the destination the
row of the source that index element `r` names, xscatter the row that it names row `r`, where no later index names it too; an index that
is not below the row count stops the command there with CODE 6, rows below it moved; the copy of an xcopy.m is that of an xcopy, and its
matrix part follows. Every byte that the destination does not cover is as it was. -/
def Sys2Proof.Machine.copyCommandsClaim : Prop :=
  ∀ (s : State) (c : Cmd) (a b x : TileRef), StartsCopy s c b →
    (c.kind = .fill → ∃ t, exec (.engineCommandStart c.seq) s = .next t ∧ Ran t c b.desc.count ∧ OthersKept s t b ∧
      ∀ e < b.desc.count, t.elem b e = c.rs1.toNat % 256 ^ b.desc.bytes) ∧
    (c.kind = .copy ∨ c.kind = .copyMatrix → c.src = some a → s.inStash a → Apart a b → a.desc.count = b.desc.count →
      a.desc.bytes = b.desc.bytes → ∃ t, exec (.engineCommandStart c.seq) s = .next t ∧ OthersKept s t b ∧
        (∀ e < b.desc.count, t.elem b e = s.elem a e) ∧
        (c.kind = .copy → Ran t c b.desc.count) ∧
        (c.kind = .copyMatrix → (t.cmd c.seq).any (fun d => d.matrixPart && d.phase == .suspended && d.progress == 0) = true)) ∧
    (c.kind = .gather ∨ c.kind = .scatter → c.src = some a → c.idx = some x → s.inStash a → s.inStash x → Apart a b → Apart x b →
      a.desc.bytes = b.desc.bytes → x.desc.bytes = 4 → a.desc.extent 0 = b.desc.extent 0 → 0 < a.desc.extent 0 →
      a.desc.count = a.desc.extent 0 * a.desc.rows → b.desc.count = a.desc.extent 0 * b.desc.rows →
      let n := a.desc.extent 0
      let scatter := c.kind = .scatter
      let rows := if scatter then a.desc.rows else b.desc.rows
      let limit := if scatter then b.desc.rows else a.desc.rows
      x.desc.count = rows → ∃ t, exec (.engineCommandStart c.seq) s = .next t ∧ OthersKept s t b ∧
        ∀ stop ≤ rows, (∀ r < stop, s.elem x r < limit) → (stop < rows → limit ≤ s.elem x stop) →
          (stop = rows → Ran t c rows) ∧
          (stop < rows → t.cmd c.seq = some { c with
            phase := .running, progress := stop, code := 6, addr := BitVec.ofInt 64 (x.desc.addr stop) }) ∧
          ∀ r < stop, ∀ k < n,
            (¬scatter → t.elem b (r * n + k) = s.elem a (s.elem x r * n + k)) ∧
            (scatter → (∀ r' < stop, r < r' → s.elem x r' ≠ s.elem x r) → t.elem b (s.elem x r * n + k) = s.elem a (r * n + k)))

/-- The value that mdrain writes for a tile word (10 R223): as it is; or rounded to nearest even in its format; or, for INT8, divided by
2^SHIFT with that rounding and clamped. -/
def Sys2Proof.Machine.Drained (f sh : Nat) (x : MWord) (v : Nat) : Prop :=
  match f with
  | 0 => v = (Fmt.bf16.round rne (Fmt.fp32.decode x.toNat)).1
  | 1 => v = (Fmt.fp16.round rne (Fmt.fp32.decode x.toNat)).1
  | 2 => v = (Fmt.e4.narrow rne (Fmt.fp32.decode x.toNat)).1
  | 3 => v = (Fmt.e5.narrow rne (Fmt.fp32.decode x.toNat)).1
  | 5 => ∃ q, RoundsTo x.toInt (-(sh : Int)) q ∧ (v : Int) = max (-128) (min 127 q) % 256
  | _ => v = x.toNat

/-- 10 R222, R223: an mdrain that starts writes each element of its tile, drained, as said here of the stash (DKIND 0) and of registers
(DKIND 1): element j of row i at AOFF + stride × i + size × j, or at byte size × j of the registers from the first named of micro-thread
i of those named; the tile keeps its value. -/
def Sys2Proof.Machine.drainCommandsClaim : Prop :=
  ∀ (s : State) (c : Cmd), Starts s c → c.kind = .mdrain → s.base.lost = [] → s.core.no < 192 →
    let w := c.mword
    let f := mwFmt w
    let n := drainSize f
    let sh := (c.rs2.extractLsb' 32 6).toNat
    let stride := if c.rs2.extractLsb' 0 21 = 0 then 64 * n else (c.rs2.extractLsb' 0 21).toNat
    let at' := fun i j => (c.rs1.extractLsb' 0 21).toNat + stride * i + n * j
    let r := (c.rs1.extractLsb' 0 6).toNat
    let m := (c.rs1.extractLsb' 8 13).toNat
    f ∈ [0, 1, 2, 3, 5, 14, 15] →
    (mwSrc w = 0 → 64 * n ≤ stride → at' 31 63 + n ≤ 0x20_0000 → ∃ t, exec (.engineCommandStart c.seq) s = .next t ∧
      (t.cmd c.seq).any (fun d => d.phase == .running && d.code == 0 && d.progress == 32) = true ∧ t.core.vec.acc = s.core.vec.acc ∧
      (∀ i < 32, ∀ j < 64, Drained f sh (s.acc (mwTile w) i j) (t.core.partRead .stash (at' i j) n)) ∧
      ∀ a : Nat, a < 0x20_0000 → (∀ i < 32, a < at' i 0 ∨ at' i 63 + n ≤ a) → t.core.partRead .stash a 1 = s.core.partRead .stash a 1) ∧
    (mwSrc w = 1 → r + 16 * n ≤ s.nregs → m + 32 ≤ s.vlmax → ∃ t, exec (.engineCommandStart c.seq) s = .next t ∧
      (t.cmd c.seq).any (fun d => d.phase == .running && d.code == 0 && d.progress == 32) = true ∧ t.core.vec.acc = s.core.vec.acc ∧
      (∀ i < 32, ∀ j < 64, Drained f sh (s.acc (mwTile w) i j)
        ((t.vreg (r + n * j / 4) (m + i)).toNat / 256 ^ (n * j % 4) % 256 ^ n)) ∧
      ∀ q k, q < s.nregs → k < s.vlmax → (q < r ∨ r + 16 * n ≤ q ∨ k < m ∨ m + 32 ≤ k) → t.vreg q k = s.vreg q k)

/-- 10 R228, R230: a collective that starts and has not failed reads its whole source, as said here of a tile in the stash, and stages it
for every member: a contribution of this core with its kind, operator and members, and its elements in order. -/
def Sys2Proof.Machine.collectiveStartsClaim : Prop :=
  ∀ (s : State) (c : Cmd) (a : TileRef), s.core.phase = .running → s.held s.core.no = false → s.cmd c.seq = some c → c.phase = .queued →
    c.kind.isColl = true → c.staged = false → c.failed = false → c.members ≠ [] → s.mayCollect c = true → (c.acq = true → s.core.vec.late = []) →
    s.overFor c = false → c.src = some a → s.inStash a → s.base.lost = [] →
    ∃ t, exec (.engineCommandStart c.seq) s = .next t ∧
      t.cmd c.seq = some { c with phase := .running, code := 0, addr := 0, staged := true } ∧
      t.dir.staged = s.dir.staged ++
        [{ member := 0xFFFF + s.core.no * 65536, kind := c.kind, op := (c.rs2.extractLsb' 32 32).toNat, members := c.members,
           data := some ((List.range a.desc.count).map (s.elem a)), taken := [] }]

/-- 10 R211 to R213, R229 to R234: a command that may complete leaves the queue, XSEQ becomes the highest number below every
command still held, and the notify word, where enabled, is stored in the stash; a command that has stopped with a CODE becomes
FAULTED; a contribution that has failed gives its member status 2, and one that has arrived status 0; when a reduction has
all of them their fold in list order lands in the destination tile, with member 0's a broadcast's elements, and with each an
all-gather's segment, as said here of a destination in the core's stash; xresume makes a FAULTED command run again from its progress
point; xcancel withdraws a queued or FAULTED one, with bit 31 of its notify word inverted. Each gives rd the number, or 0. -/
def Obligations.EngineProgress : Prop :=
  ∀ (s : State) (c : Cmd) (rd r1 : XReg), s.cmd c.seq = some c →
    let gone := fun (t : State) => t.core.vec.cmds = s.core.vec.cmds.filter (fun x => x.seq != c.seq) ∧
      t.core.csr.xseq = (s.core.vec.cmds.filter (fun x => x.seq != c.seq)).foldl (fun n x => min n (x.seq - 1)) s.core.csr.xissued
    let notified := fun (t : State) (flip : BitVec 32) =>
      let o := 4 * (c.notify.extractLsb' 2 19).toNat
      (c.notify.getLsbD 21 = true → o + 4 ≤ 0x20_0000 → t.core.partRead .stash o 4 = (c.notify.extractLsb' 32 32 ^^^ flip).toNat) ∧
      (c.notify.getLsbD 21 = false → s.core.vec.late = [] → t.core.vec.stash = s.core.vec.stash)
    let asIssued := (s.getX r1).toNat = c.seq
    (s.mayComplete c = true → ∃ t, exec (.engineCommandComplete c.seq) s = .next t ∧ gone t ∧ notified t 0 ∧
      (s.core.vec.late = [] → t.core.vec.regs = s.core.vec.regs)) ∧
    (c.phase = .running → c.code ≠ 0 → ∃ t, exec (.engineFault c.seq) s = .next t ∧
      (t.cmd c.seq).any (fun x => x.phase == .faulted && x.code == c.code && x.addr == c.addr && x.progress == c.progress) = true) ∧
    (∀ k x, c.kind.isColl = true → c.phase = .running → c.code = 0 → c.status[k]? = some none →
      (c.kind = .allgather → (c.status.take k).all Option.isSome = true) → s.contribution c (c.members.getD k 0) = some x →
      (x.data = none → exec (.collectiveContribution c.seq k) s = .next (s.setCmd { c with status := c.status.set k (some 2) })) ∧
      (∀ l b, x.data = some l → c.dst = some b →
        let landed := fun d : Cmd => if b.desc.count ≤ d.progress then { d with marks := [] } else d
        (c.kind = .broadcast ∧ k ≠ 0 ∨ c.kind = .reduce ∧ (c.status.set k (some 0)).all (· == some 0) = false →
          exec (.collectiveContribution c.seq k) s = .next (s.setCmd (landed { c with status := c.status.set k (some 0) }))) ∧
        (∀ n vs, (c.kind = .reduce ∧ (c.status.set k (some 0)).all (· == some 0) = true ∧ n = 0 ∧
              vs = reduceAll (c.rs2.extractLsb' 32 32).toNat (s.allData c) ∨
            c.kind = .broadcast ∧ k = 0 ∧ n = 0 ∧ vs = l ∨ c.kind = .allgather ∧ n = k * l.length ∧ vs = l) → vs ≠ [] → c.progress ≤ n →
          b.desc.space = 1 → s.core.phase = .running → s.core.no < 192 →
          (∀ i < vs.length, 0 ≤ b.desc.addr (n + i) ∧ b.desc.addr (n + i) + b.desc.bytes ≤ 0x20_0000) →
          ∃ t, exec (.collectiveContribution c.seq k) s = .next t ∧
            t.cmd c.seq = some (landed { c with status := c.status.set k (some 0), progress := n + vs.length }) ∧
            ∀ i < vs.length, (∀ j < vs.length, i < j → b.desc.addr (n + i) + b.desc.bytes ≤ b.desc.addr (n + j) ∨
                b.desc.addr (n + j) + b.desc.bytes ≤ b.desc.addr (n + i)) →
              t.core.partRead .stash (b.desc.addr (n + i)).toNat b.desc.bytes = vs.getD i 0 % 2 ^ (8 * b.desc.bytes)))) ∧
    (asIssued → c.phase = .faulted → ∃ t, exec (.xresume rd r1) s = .next t ∧
      CtDoes (s.setCmd { c with phase := .suspended, code := 0, addr := 0, recorded := false, trapTaken := false }) t rd (s.getX r1) 4) ∧
    (asIssued → c.phase = .faulted ∨ c.phase = .queued → ∃ t, exec (.xcancel rd r1) s = .next t ∧ gone t ∧ notified t 0x8000_0000 ∧
      t.getX rd = (if rd = 0 then 0 else s.getX r1) ∧ t.core.ct.pc = s.core.ct.pc + 4) ∧
    (asIssued → c.phase ≠ .faulted → ∃ t, exec (.xresume rd r1) s = .next t ∧ CtDoes s t rd 0 4) ∧
    (s.cmd (s.getX r1).toNat = none → ∀ i ∈ [Instr.xresume rd r1, .xcancel rd r1], ∃ t, exec i s = .next t ∧ CtDoes s t rd 0 4)

/-! ## Tiles -/

/-- `t` follows `s` by an instruction of the tile directory that gives `v` to rd: but for the directory's entries, and those
that it keeps for commands, nothing changes that an access to memory does not. -/
def Sys2Proof.Machine.TileDoes (s t : State) (rd : XReg) (v : Word) : Prop :=
  ∃ s1, CtDoes s1 t rd v 4 ∧ (∀ e ∈ s1.dir.kept, e ∈ s.dir.kept ∨ e ∈ s.dir.entries) ∧
    WriteBy { s with dir := { s.dir with entries := s1.dir.entries, nextTen := s1.dir.nextTen, kept := s1.dir.kept } } s1
/-- The tile of an entry is one that the control thread may name at its level (11 R238). -/
def Sys2Proof.Machine.State.mayName (s : State) (e : TileEntry) : Prop := e.desc.space ≠ 5 ∨ s.core.ct.user = false
/-- Entries of other indices, and of other address spaces, are as they were. -/
def Sys2Proof.Machine.OtherEntries (s t : State) (is : List Nat) : Prop := ∀ a i, ¬(a = s.asidNow ∧ i ∈ is) → t.entryAt a i = s.entryAt a i

/-- 11 R248 to R250, 15 R309 to R311: tinfo answers a field of an entry of the table under each selector, and 0 of one that is FREE or
beyond the table. tacq of one tile recalls write tenure that another core holds (whose lease then reaches its LTIME: log 43) and gives its
new rts under a read lease, or its new wts under write tenure; of one that this core holds, MODE 0 extends rts and MODE 1 gives wts. trel,
a release first, gives up its write tenure and gives its wts, or 0 where the core holds none. A handle that is not current is cause 27, code STALE, and one that
names a tile of space 5 at user level code PRIV. -/
def Obligations.TileTenure : Prop :=
  ∀ (s : State) (rd r1 r2 : XReg),
    let h : BitVec 32 := (s.getX r1).setWidth 32
    let sel := (s.getX r2).toNat
    let i := (h.extractLsb' 0 20).toNat
    ((∃ v, ∃ t, exec (.tinfo rd r1 r2) s = .next t ∧ CtDoes s t rd v 4 ∧
      ((s.core.csr.tileCount ≤ i ∨ s.entryAt s.asidNow i = none) → v = 0) ∧
      ∀ e, i < s.core.csr.tileCount → s.entryAt s.asidNow i = some e →
        let own := e.desc.space = 0 ∧ e.state ≠ .forward
        let time := fun x : LTime => match (if own then x else none) with | some w => w.setWidth 64 | none => (-1 : Word)
        (sel = 0 → v.extractLsb' 32 32 = e.group ∧ (v.extractLsb' 20 12).toNat = e.gen % 4096 ∧
          (v.extractLsb' 18 2 = match e.state with | .live => 1 | .forward => 2 | .draining => 3) ∧
          v.extractLsb' 16 2 = BitVec.ofNat 2 (e.desc.rank - 1) ∧ v.extractLsb' 14 2 = BitVec.ofNat 2 e.desc.esize ∧
          v.extractLsb' 10 4 = BitVec.ofNat 4 e.desc.space ∧ v.getLsbD 9 = e.desc.readonly ∧ v.getLsbD 8 = e.desc.aliased ∧
          v.extractLsb' 0 8 = if s.current h = some e then 1 else 0) ∧
        (sel = 1 → v = e.desc.base) ∧ (sel = 2 → v = BitVec.ofNat 32 (e.desc.extent 1) ++ BitVec.ofNat 32 (e.desc.extent 0)) ∧
        (sel = 3 → v = BitVec.ofNat 32 (e.desc.extent 3) ++ BitVec.ofNat 32 (e.desc.extent 2)) ∧
        (∀ d < 4, sel = 4 + d → v = BitVec.ofInt 64 (e.desc.strideOf d)) ∧
        (sel = 8 → v = time (s.tenure (.tile e.ten) 0).wts) ∧ (sel = 9 → v = time (s.tenure (.tile e.ten) 0).rts) ∧
        (sel = 10 → v = e.child1 ++ e.child0) ∧
        (sel = 11 → (own → (s.tenure (.tile e.ten) 0).holder = some s.core.no → v = 2) ∧
          (own → (s.tenure (.tile e.ten) 0).holder ≠ some s.core.no →
            v = if ltGe (Table.get Lease.none s.core.leases e.ten).last (some s.core.ltime) = true then 1 else 0) ∧
          (¬own → v = 0)) ∧ (12 ≤ sel → v = 0)) ∧
    (s.current h = none → ∀ i ∈ [Instr.tacq rd r1 r2, .trel rd r1], exec i s = .next (s.trap 27 (BitVec.ofNat 64 (2 ^ 32 + h.toNat)))) ∧
    (∀ e, s.current h = some e → ¬ s.mayName e → ∀ i ∈ [Instr.tacq rd r1 r2, .trel rd r1, .tsplit rd r1 r2, .tfree rd r1],
      exec i s = .next (s.trap 27 (BitVec.ofNat 64 (4 * 2 ^ 32 + h.toNat)))) ∧
    (∀ e x, s.current h = some e → s.mayName e → s.leaves e = [x] → (s.tenure (.tile x.ten) 0).holder ≠ some s.core.no →
      let found := (s.tenure (.tile x.ten) 0).clamp (s.dieTime (s.entryDie (.tile x.ten) x.home))
      let old : Tenure := match found.holder with
        | some c => { found with rts := ltMax found.rts (some (s.coreAt c).ltime), holder := none }
        | none => found
      let rts := ltMax old.rts (ltAdd (ltMax old.wts (some s.core.ltime)) s.core.csr.ltlease.toNat)
      let w := ltMax (some s.core.ltime) (ltAdd old.rts 1)
      ((s.getX r2).getLsbD 0 = false → ∃ t s1, exec (.tacq rd r1 r2) s = .next t ∧ ReadBy s s1 ∧ CtDoes s1 t rd (ltWord rts) 4 ∧
        (t.tenure (.tile x.ten) 0).rts = rts ∧ (t.tenure (.tile x.ten) 0).wts = old.wts ∧ (t.tenure (.tile x.ten) 0).holder = none ∧
        t.core.ltime = raise s.core.ltime old.wts) ∧
      ((s.getX r2).getLsbD 0 = true → ∃ t s1, exec (.tacq rd r1 r2) s = .next t ∧ ReadBy s s1 ∧ CtDoes s1 t rd (ltWord w) 4 ∧
        (t.tenure (.tile x.ten) 0).holder = some s.core.no ∧ (t.tenure (.tile x.ten) 0).wts = w ∧
        t.core.ltime = raise s.core.ltime w)) ∧
    (∀ e x, s.current h = some e → s.mayName e → s.leaves e = [x] → (s.tenure (.tile x.ten) 0).holder = some s.core.no →
      let own := s.tenure (.tile x.ten) 0
      let old := own.clamp (s.dieTime (s.entryDie (.tile x.ten) x.home))
      let rts := ltMax old.rts (ltAdd (ltMax old.wts (some s.core.ltime)) s.core.csr.ltlease.toNat)
      ((s.getX r2).getLsbD 0 = false → ∃ t s1, exec (.tacq rd r1 r2) s = .next t ∧ ReadBy s s1 ∧ CtDoes s1 t rd (ltWord rts) 4 ∧
        t.tenure (.tile x.ten) 0 = { old with rts := rts } ∧ t.core.ltime = raise s.core.ltime old.wts) ∧
      ((s.getX r2).getLsbD 0 = true → ∃ t s1, exec (.tacq rd r1 r2) s = .next t ∧ ReadBy s s1 ∧ CtDoes s1 t rd (ltWord own.wts) 4 ∧
        t.tenure (.tile x.ten) 0 = own ∧ t.core.ltime = raise s.core.ltime own.wts)) ∧
    (∀ e x, s.current h = some e → s.mayName e → s.leaves e = [x] →
      let u := s.release 3
      let held := (u.tenure (.tile x.ten) 0).holder = some s.core.no
      ∃ t s1, exec (.trel rd r1) s = .next t ∧ WriteBy s s1 ∧ (s.core.vec.late = [] → ReadBy s s1) ∧
        (held → CtDoes s1 t rd (ltWord (u.tenure (.tile x.ten) 0).wts) 4 ∧ (t.tenure (.tile x.ten) 0).holder = none) ∧
        (¬ held → CtDoes s1 t rd 0 4)))

/-- 11 R237, R239, R241 to R247: tnew of a well-formed descriptor takes the lowest FREE entry and gives its handle; a misaligned one is
cause 4, an ill-formed one BADDESC; a table without a FREE entry is FULL, a span that meets another tile, unless both share tenure by
ALIAS, OVERLAP, and pages beyond the limit PINFULL. tsplit of a LIVE tile makes its entry FORWARD, a generation on, and two LIVE children
that share the extent of the dimension, and gives their handles; a FORWARD one answers FORWARDED, a bad dimension or place, or other bits
of rs2, BADSPLIT, a tile that shares its tenure ALIASED, and a table without two FREE entries FULL. A status changes nothing but what its
reads do, and stores of the control thread that were left (log 11) are performed first. tfree of a FORWARD
entry frees it and gives 0; a LIVE one drains, and is freed once no command uses it and no core can still read it under a
lease: tfree gives the logical time that it waited, or waits. -/
def Obligations.TileLife : Prop :=
  ∀ (s : State) (rd r1 r2 : XReg),
    let a := s.getX r1
    let h : BitVec 32 := a.setWidth 32
    let dim := (s.getX r2).toNat % 4
    let n := (s.getX r2).toNat / 2 ^ 32
    let answers := fun (u t : State) (code : Nat) => WriteBy s u ∧ (s.core.vec.late = [] → ReadBy s u) ∧ CtDoes u t rd (BitVec.ofNat 64 (code * 2 ^ 32)) 4
    (a.toNat % 64 ≠ 0 → exec (.tnew rd r1) s = .next (s.trap 4 a)) ∧
    (∀ x s1 i g more s2 u pa s4, a.toNat % 64 = 0 → s.begins.loadPlain .ct none a 64 s.userMode [] = (.ok x, s1) →
      (descOk x s1.core.ct.user = false → ∃ t, exec (.tnew rd r1) s = .next t ∧ answers s1 t 4) ∧
      (descOk x s1.core.ct.user = true → s1.findFree 1 = (.ok [], s2) → ∃ t, exec (.tnew rd r1) s = .next t ∧ answers s2 t 2) ∧
      (descOk x s1.core.ct.user = true → s1.findFree 1 = (.ok ((i, g) :: more), s2) → (TileDesc.ofBytes x).space = 0 →
        let d := TileDesc.ofBytes x
        let meets := fun e : TileEntry => e ∈ s2.dir.entries ∧ e.asid = s2.asidNow ∧ e.desc.space = 0 ∧ e.state ≠ .forward ∧
          d.lo.toNat / 64 ≤ e.hi / 64 ∧ e.lo / 64 ≤ d.hi.toNat / 64
        let shares := d.aliased = true ∧ (∀ e f, meets e → meets f → e.ten = f.ten) ∧
          ∀ e, meets e → ∃ f ∈ s2.dir.entries, f.asid = s2.asidNow ∧ f.desc.space = 0 ∧ f.ten = e.ten ∧ f.state = .live
        ((∃ e, meets e) → ¬shares → ∃ t, exec (.tnew rd r1) s = .next t ∧ answers s2 t 1) ∧
        (∀ pins, ¬(∃ e, meets e) ∨ shares →
          s2.pinPages d.readonly d.hi.toNat ((d.hi.toNat - d.lo.toNat) / 4096 + 2) d.lo.toNat = (.ok pins, u) →
          16384 < (u.pinnedPages u.asidNow).length + (pins.filter fun p => !(u.pinnedPages u.asidNow).contains p.va).length →
          ∃ t, exec (.tnew rd r1) s = .next t ∧ answers u t 3)) ∧
      (descOk x s1.core.ct.user = true → s1.findFree 1 = (.ok ((i, g) :: more), s2) →
        g < 2 ^ 12 → i < 2 ^ 20 →
        let d := TileDesc.ofBytes x
        (d.space ≠ 0 ∧ u = s2 ∨ d.space = 0 ∧
          ∃ ten group pins, s2.joinTenure d.lo.toNat d.hi.toNat d.aliased s2.dir.nextTen (mkHandle g i) = some (ten, group) ∧
            s2.pinPages d.readonly d.hi.toNat ((d.hi.toNat - d.lo.toNat) / 4096 + 2) d.lo.toNat = (.ok pins, u) ∧
            (u.pinnedPages u.asidNow).length + (pins.filter fun p => !(u.pinnedPages u.asidNow).contains p.va).length ≤ 16384) →
        u.tablePlace i = (.ok pa, s4) →
        ∃ t, exec (.tnew rd r1) s = .next t ∧ TileDoes s t rd (BitVec.ofNat 64 (g * 2 ^ 20 + i)) ∧ OtherEntries s t [i] ∧
          ∃ e, t.entryAt s.asidNow i = some e ∧ e.state = .live ∧ e.gen = g ∧ e.desc = d)) ∧
    (∀ e, s.current h = some e → s.mayName e →
      let u := s.begins
      let good := (s.getX r2).toNat / 4 % 2 ^ 30 = 0 ∧ dim < e.desc.rank ∧ 1 ≤ n ∧ n < e.desc.extent dim
      let alone := e.desc.space = 0 → ∀ o ∈ s.dir.entries, o.asid = e.asid → ¬(o.table = e.table ∧ o.index = e.index) → o.ten ≠ e.ten
      (e.state = .forward → ∃ t, exec (.tsplit rd r1 r2) s = .next t ∧ answers u t 9) ∧
      (e.state = .live → ¬good → ∃ t, exec (.tsplit rd r1 r2) s = .next t ∧ answers u t 5) ∧
      (e.state = .live → good → ¬alone → ∃ t, exec (.tsplit rd r1 r2) s = .next t ∧ answers u t 6) ∧
      (∀ l s1, e.state = .live → good → alone → u.findFree 2 = (.ok l, s1) → l.length < 2 →
        ∃ t, exec (.tsplit rd r1 r2) s = .next t ∧ answers s1 t 2) ∧
      (∀ i0 g0 i1 g1 more s1 p0 s2 p1 s3 pp s4, e.state = .live → good → alone →
        u.findFree 2 = (.ok ((i0, g0) :: (i1, g1) :: more), s1) → s1.tablePlace i0 = (.ok p0, s2) → s2.tablePlace i1 = (.ok p1, s3) →
        s3.tablePlace e.index = (.ok pp, s4) →
        ∃ t, exec (.tsplit rd r1 r2) s = .next t ∧ TileDoes s t rd (mkHandle g1 i1 ++ mkHandle g0 i0) ∧
          OtherEntries s t [e.index, i0, i1] ∧
          (∃ x, t.entryAt s.asidNow e.index = some x ∧ x.state = .forward ∧ x.gen = (e.gen + 1) % 4096 ∧ x.child0 = mkHandle g0 i0 ∧
            x.child1 = mkHandle g1 i1 ∧ x.splitDim = dim ∧ x.splitAt = n) ∧
          (∃ x, t.entryAt s.asidNow i0 = some x ∧ x.state = .live ∧ x.gen = g0 ∧ x.desc = { e.desc with ext := e.desc.ext.set dim n }) ∧
          ∃ x, t.entryAt s.asidNow i1 = some x ∧ x.state = .live ∧ x.gen = g1 ∧
            x.desc = { e.desc with ext := e.desc.ext.set dim (e.desc.extent dim - n),
                                   base := BitVec.ofInt 64 ((e.desc.base.toNat : Int) + e.desc.strideOf dim * n) }) ∧
      (∀ pa s1, s.tablePlace e.index = (.ok pa, s1) →
        (e.state = .forward → ∃ t, exec (.tfree rd r1) s = .next t ∧ TileDoes s t rd 0 ∧ t.entryAt s.asidNow e.index = none ∧
          OtherEntries s t [e.index]) ∧
        (e.state = .live →
          let e1 := { e with state := .draining, freer := some (s.core.csr.jobid, s.core.csr.gangix) }
          let s2 := ((s1.release 3).acquired.setEntry e1).throughTo pa e1 false
          let e2 := { e1 with waitFrom := s2.core.ltime }
          let s3 := if e.desc.space = 0 then (s2.setEntry e2).recallEntry (.tile e.ten) e.home else s2.setEntry e2
          (s3.mayFree e2 = false → exec (.tfree rd r1) s = .next (s3.waitAt (.instr (.tfree rd r1)))) ∧
          (s3.mayFree e2 = true → ∀ pa' s4, s3.tablePlace e.index = (.ok pa', s4) →
            ∃ t, exec (.tfree rd r1) s = .next t ∧ TileDoes s t rd ((s4.core.ltime - s2.core.ltime).setWidth 64) ∧
              t.entryAt s.asidNow e.index = none ∧ OtherEntries s t [e.index])))) ∧
    (s.current h = none → ∀ i ∈ [Instr.tsplit rd r1 r2], exec i s = .next (s.trap 27 (BitVec.ofNat 64 (2 ^ 32 + h.toNat))))

/-! ## Frame instructions of the control thread -/

/-- A write of 64 bytes at `pa` under an entry lands whole: host memory, a window part that is not held, or DDR. -/
def Sys2Proof.Machine.Lands (s : State) (k : TKey) (pa : Nat) : Prop :=
  (plainPlace pa 64 ∧ ¬ s.holdsWrite pa) ∨ (placeOf pa = .ddr ∧ pa % 64 = 0 ∧ s.Coherent ∧ s.underKey k pa)
/-- Record `i` becomes `x'` and nothing else changes but what a write does (11 R251); rd takes `v`. `s` is the state when every
check has passed. -/
def Sys2Proof.Machine.RecordBecomes (s t : State) (i : Nat) (x' : Nat) (rd : XReg) (v : Word) : Prop :=
  ∃ pa s1 s2, s.checkVirt (s.frameAddr i) 128 .store s.superMode = (.ok pa, s1) ∧ WriteBy s s2 ∧ CtDoes s2 t rd v 4 ∧
    (let u := s1.release 3
     Lands u (s1.keyFor (some (s.frameAddr i).toNat)) pa → Lands u (s1.keyFor (some (s.frameAddr i + 64).toNat)) (pa + 64) →
      t.holds pa 64 (x' % 2 ^ 512) ∧ t.holds (pa + 64) 64 (x' / 2 ^ 512))
/-- A record that no tag can use (08 R176, 11 R251). -/
def Sys2Proof.Machine.Malformed (r : FrameRec) : Prop := 2 < r.state ∨ 15 < r.level ∨ (r.state = 1 ∧ 2 < r.splitAxis) ∨ 2 ^ 31 ≤ r.extent
/-- Where the check on the record `r` of a tag fails, in state `u`: malformed, cause 28 with code 8 and the tag; not LIVE and current,
code 7 (11 R238, R251). -/
def Sys2Proof.Machine.FrameFails (s u : State) (i : Instr) (tag : BitVec 32) (r : FrameRec) : Prop :=
  (Malformed r → exec i s = .next (u.trap 28 (BitVec.ofNat 64 (8 * 2 ^ 32 + tag.toNat)))) ∧
    (¬Malformed r → ¬Current r tag → exec i s = .next (u.trap 28 (BitVec.ofNat 64 (7 * 2 ^ 32 + tag.toNat))))
/-- A status of a frame instruction in state `u`: nothing is written, no tenure taken (11 R237). -/
def Sys2Proof.Machine.FrameAnswers (s u : State) (i : Instr) (rd : XReg) (code : Nat) : Prop :=
  ∃ t, exec i s = .next t ∧ WriteBy s u ∧ (s.core.vec.late = [] → ReadBy s u) ∧ CtDoes u t rd (BitVec.ofNat 64 (code * 2 ^ 32)) 4
/-- The record's home can be written. -/
def Sys2Proof.Machine.RecordWritable (s : State) (i : Nat) : Prop := ∃ pa s1, s.checkVirt (s.frameAddr i) 128 .store s.superMode = (.ok pa, s1)

/-- 11 R251, R252: fnew, fset, fsplit and fdel on a record whose checks pass change it: VERSION rises by one; fnew takes the
template's PARENT, EXP, ROT, TRANS and EXTENT into a DELETED record, makes it LIVE one level below its parent, and gives its
tag; fset takes ROT, TRANS and EXTENT; fsplit makes it SPLIT with its axis, threshold and successors, a generation on; fdel
makes it DELETED, a generation on. The last three give rs1. A check that fails ends the instruction in the order of the rule: a record
that is malformed is cause 28 with code 8, one that the tag does not name code 7, a target that is not DELETED BUSY, fields out of range
BADREC, nothing being written. That a successor at LEVEL 0 may hold the frame's index in PARENT is log 19. -/
def Obligations.FrameInstructions : Prop :=
  ∀ (s : State) (rd r1 r2 : XReg) (tp old : Nat) (s1 s2 : State),
    let v := s.getX r1
    let tag : BitVec 32 := v.setWidth 32
    let i := tagIndex tag
    let o := FrameRec.ofBytes old
    let tr := FrameRec.ofBytes tp
    let goodShape := (∀ x ∈ tr.rot, -(2 ^ 30) ≤ x ∧ x ≤ 2 ^ 30) ∧ tr.extent < 2 ^ 31
    (let n := tp / 2 ^ (8 * 0x60) % 2 ^ 32
     v.toNat % 16 = 0 → s.begins.loadPieces v 8 = (.ok tp, s1) → n ≠ 0 → n < s1.core.csr.frameCount → s1.homeRecord n = (.ok old, s2) →
      o.state = 2 → goodShape → n < 2 ^ 24 →
      (tr.level = 0 → RecordWritable s2 n → ∃ t x', exec (.fnew rd r1) s = .next t ∧
        RecordBecomes s2 t n x' rd (BitVec.ofNat 64 (o.gen.toNat * 2 ^ 24 + n)) ∧
        FrameRec.ofBytes x' = { tr with level := 0, state := 0, splitAxis := 0, gen := o.gen, version := o.version + 1, splitThr := 0,
                                        succLo := 0, succHi := 0 }) ∧
      (∀ px s3, tr.level ≠ 0 → s2.homeRecord (tagIndex tr.parent) = (.ok px, s3) → Current (FrameRec.ofBytes px) tr.parent →
        (FrameRec.ofBytes px).level < 15 → RecordWritable s3 n → ∃ t x', exec (.fnew rd r1) s = .next t ∧
        RecordBecomes s3 t n x' rd (BitVec.ofNat 64 (o.gen.toNat * 2 ^ 24 + n)) ∧
        FrameRec.ofBytes x' = { tr with level := (FrameRec.ofBytes px).level + 1, state := 0, splitAxis := 0, gen := o.gen,
                                        version := o.version + 1, splitThr := 0, succLo := 0, succHi := 0 })) ∧
    ((s.getX r2).toNat % 16 = 0 → s.begins.loadPieces (s.getX r2) 8 = (.ok tp, s1) → s1.homeRecord i = (.ok old, s2) → Current o tag → goodShape →
      RecordWritable s2 i → ∃ t x', exec (.fset rd r1 r2) s = .next t ∧ RecordBecomes s2 t i x' rd v ∧
        FrameRec.ofBytes x' = { o with rot := tr.rot, trans := tr.trans, extent := tr.extent, version := o.version + 1 }) ∧
    (let u0 := BitVec.ofNat 32 (tp / 2 ^ 64 % 2 ^ 32)
     let u1 := BitVec.ofNat 32 (tp / 2 ^ 96 % 2 ^ 32)
     ∀ x0 x1 s3 s4, (s.getX r2).toNat % 16 = 0 → s.begins.loadPieces (s.getX r2) 1 = (.ok tp, s1) → s1.homeRecord i = (.ok old, s2) →
      Current o tag → tp % 256 ≤ 2 → s2.homeRecord (tagIndex u0) = (.ok x0, s3) → s3.homeRecord (tagIndex u1) = (.ok x1, s4) →
      (∀ p ∈ [(u0, FrameRec.ofBytes x0), (u1, FrameRec.ofBytes x1)], Current p.2 p.1 ∧ tagIndex p.1 ≠ i ∧
        (p.2.level = 0 ∨ tagIndex p.2.parent ≠ i)) → RecordWritable s4 i →
      ∃ t x', exec (.fsplit rd r1 r2) s = .next t ∧ RecordBecomes s4 t i x' rd v ∧
        FrameRec.ofBytes x' = { o with state := 1, splitAxis := tp % 256, splitThr := (BitVec.ofNat 32 (tp / 2 ^ 32)).toInt, succLo := u0,
                                       succHi := u1, gen := o.gen + 1, version := o.version + 1 }) ∧
    (s.begins.homeRecord i = (.ok old, s1) → (o.state = 0 ∧ tag.extractLsb' 24 8 = o.gen ∨ o.state = 1 ∧ o.splitAxis ≤ 2 ∧ tag.extractLsb' 24 8 = o.gen - 1) →
      o.level ≤ 15 → o.extent < 2 ^ 31 → RecordWritable s1 i →
      ∃ t x', exec (.fdel rd r1) s = .next t ∧ RecordBecomes s1 t i x' rd v ∧
        FrameRec.ofBytes x' = { o with state := 2, gen := o.gen + 1, version := o.version + 1, splitThr := 0, succLo := 0, succHi := 0 }) ∧
    -- the checks that fail
    (v.toNat % 16 ≠ 0 → exec (.fnew rd r1) s = .next (s.trap 4 v)) ∧
    ((s.getX r2).toNat % 16 ≠ 0 → ∀ x ∈ [Instr.fset rd r1 r2, .fsplit rd r1 r2], exec x s = .next (s.trap 4 (s.getX r2))) ∧
    (v.toNat % 16 = 0 → s.begins.loadPieces v 8 = (.ok tp, s1) →
      let n := tp / 2 ^ (8 * 0x60) % 2 ^ 32
      (n = 0 ∨ s1.core.csr.frameCount ≤ n → FrameAnswers s s1 (.fnew rd r1) rd 7) ∧
      (n ≠ 0 → n < s1.core.csr.frameCount → s1.homeRecord n = (.ok old, s2) →
        (o.state ≠ 2 → FrameAnswers s s2 (.fnew rd r1) rd 8) ∧
        (o.state = 2 → tr.level = 0 → ¬goodShape → FrameAnswers s s2 (.fnew rd r1) rd 7) ∧
        ∀ px s3, o.state = 2 → tr.level ≠ 0 → s2.homeRecord (tagIndex tr.parent) = (.ok px, s3) →
          FrameFails s s3 (.fnew rd r1) tr.parent (FrameRec.ofBytes px) ∧
          (Current (FrameRec.ofBytes px) tr.parent → (FrameRec.ofBytes px).level = 15 ∨ ¬goodShape → FrameAnswers s s3 (.fnew rd r1) rd 7))) ∧
    ((s.getX r2).toNat % 16 = 0 → s.begins.loadPieces (s.getX r2) 8 = (.ok tp, s1) → s1.homeRecord i = (.ok old, s2) →
      FrameFails s s2 (.fset rd r1 r2) tag o ∧ (Current o tag → ¬goodShape → FrameAnswers s s2 (.fset rd r1 r2) rd 7)) ∧
    ((s.getX r2).toNat % 16 = 0 → s.begins.loadPieces (s.getX r2) 1 = (.ok tp, s1) → s1.homeRecord i = (.ok old, s2) →
      let u0 := BitVec.ofNat 32 (tp / 2 ^ 64 % 2 ^ 32)
      let u1 := BitVec.ofNat 32 (tp / 2 ^ 96 % 2 ^ 32)
      let own := fun (p : FrameRec) (u : BitVec 32) => tagIndex u = i ∨ (p.level ≠ 0 ∧ tagIndex p.parent = i)
      FrameFails s s2 (.fsplit rd r1 r2) tag o ∧ (Current o tag → 2 < tp % 256 → FrameAnswers s s2 (.fsplit rd r1 r2) rd 7) ∧
      ∀ x0 s3, Current o tag → tp % 256 ≤ 2 → s2.homeRecord (tagIndex u0) = (.ok x0, s3) →
        FrameFails s s3 (.fsplit rd r1 r2) u0 (FrameRec.ofBytes x0) ∧
        (Current (FrameRec.ofBytes x0) u0 → own (FrameRec.ofBytes x0) u0 → FrameAnswers s s3 (.fsplit rd r1 r2) rd 7) ∧
        ∀ x1 s4, Current (FrameRec.ofBytes x0) u0 → ¬own (FrameRec.ofBytes x0) u0 → s3.homeRecord (tagIndex u1) = (.ok x1, s4) →
          FrameFails s s4 (.fsplit rd r1 r2) u1 (FrameRec.ofBytes x1) ∧
          (Current (FrameRec.ofBytes x1) u1 → own (FrameRec.ofBytes x1) u1 → FrameAnswers s s4 (.fsplit rd r1 r2) rd 7)) ∧
    (s.begins.homeRecord i = (.ok old, s1) →
      (Malformed o → exec (.fdel rd r1) s = .next (s1.trap 28 (BitVec.ofNat 64 (8 * 2 ^ 32 + tag.toNat)))) ∧
      (¬Malformed o → ¬(o.state = 0 ∧ tag.extractLsb' 24 8 = o.gen) → ¬(o.state = 1 ∧ tag.extractLsb' 24 8 = o.gen - 1) →
        exec (.fdel rd r1) s = .next (s1.trap 28 (BitVec.ofNat 64 (7 * 2 ^ 32 + tag.toNat)))))

/-! ## Waiting, waking and barriers -/

/-- The conditions of WAITA on the word read and rs2 (11 R256). -/
def Sys2Proof.Machine.waitas (rd r1 r2 r3 : XReg) : List (Instr × (MWord → MWord → Prop)) :=
  [(.waitaEq rd r1 r2 r3, fun w v => w = v), (.waitaNe rd r1 r2 r3, fun w v => w ≠ v),
   (.waitaGeu rd r1 r2 r3, fun w v => v.toNat ≤ w.toNat), (.waitaLtu rd r1 r2 r3, fun w v => w.toNat < v.toNat)]

/-- 11 R256: a WAITA of an aligned word that its space allows and that can be read gives the word when its condition holds, the
word with bit 63 set when its time has passed, and else sleeps on the word's block. A sleeping one that a write has woken, or
whose bound or time has passed, reads its word again, as the instruction does. Stores left (log 11) to the word come first. -/
def Obligations.WaitingOnWords : Prop :=
  ∀ (s : State) (rd r1 r2 r3 : XReg), ∀ x ∈ waitas rd r1 r2 r3,
    let a := s.getX r1
    (∀ pa k s1, s.wordSpaceOk = true → a.toNat % 4 = 0 → s.wordBlocked a false = false → s.wordPlace a false = (.ok (pa, k), s1) →
      let u := s1.inTurn .ct (s1.wordSpot a pa)
      ∃ (t s2 : State) (w : MWord), exec x.1 s = .next t ∧ WriteBy s s1 ∧ (s.core.vec.late = [] → ReadBy s s1) ∧ WriteBy s1 u ∧
        (s1.core.vec.late = [] → ReadBy s1 u) ∧ ReadBy u s2 ∧
        t.core.ct.early = [] ∧ Reads u k pa 4 w.toNat ∧
        let start := s.core.ct.waitaStart.getD s.base.cycle
        let late := s.getX r3 ≠ -1 ∧ start + (s.getX r3).toNat ≤ s.base.cycle
        (x.2 w ((s.getX r2).setWidth 32) → CtDoes s2 t rd (w.setWidth 64) 4) ∧
        (¬ x.2 w ((s.getX r2).setWidth 32) → late → CtDoes s2 t rd (w.setWidth 64 + BitVec.twoPow 64 63) 4) ∧
        (¬ x.2 w ((s.getX r2).setWidth 32) → ¬ late → t = { s2 with core := { s2.core with ct := { s2.core.ct with
          wait := some (.sleep x.1 pa s2.core.ltime false), waitaStart := some start } } })) ∧
    (∀ pa tm woken, s.core.ct.wait = some (.sleep x.1 pa tm woken) →
      let awake := exec x.1 { s with core := { s.core with ct := { s.core.ct with wait := none } } }
      (woken = true ∨ s.sleepEnds pa tm = true → ∃ t, exec .waitaWake s = .next t ∧ awake = .next t) ∧
      (s.sleepExpired x.1 = true → ∃ t, exec .waitaTimeout s = .next t ∧ awake = .next t))

/-- `s1` follows `s` by a release at a scope (0 .th to 4 .sy) of the accesses that `p` names: at .co and wider the stores of them that
were left (log 11) are performed, and one that is no store holds the agent back; at .di and wider what the core wrote is written back; no
byte changes but by those stores, and nothing that the core wrote is left unwritten (14 R295, 15 R311). -/
def Sys2Proof.Machine.ReleasesBy (s s1 : State) (p : Late → Bool) (scope : Nat) : Prop :=
  WriteBy s s1 ∧ (s.core.vec.late = [] → ReadBy s s1) ∧ (scope = 0 → ∀ a, s1.byteAt a = s.byteAt a) ∧
    (1 ≤ scope → (∀ l ∈ s1.core.vec.late, p l = true → l.op.isStore = false) ∧
      ((∃ l ∈ s.core.vec.late, p l = true ∧ l.op.isStore = false) → s1.stalled = true) ∧
      ((s.drainBy p).Coherent → ∀ a, s1.byteAt a = (s.drainBy p).byteAt a)) ∧
    (2 ≤ scope → (s.drainBy p).Coherent → ∀ b x, s1.core.copy b = some x → x.dirty = false)
/-- A release of the control thread. -/
def Sys2Proof.Machine.Releases (s s1 : State) (scope : Nat) : Prop := ReleasesBy s s1 (fun l => l.who == .ct) scope
/-- 11 R256, R257, 15 R311: notify of a word that its space allows and that can be written releases at its scope, stores the low
word of rs2 at its home, and wakes every WAITA of its scope that sleeps on the block. -/
def Obligations.Notifies : Prop :=
  ∀ (s : State) (scope : BitVec 3) (r1 r2 : XReg),
    let a := s.getX r1
    ∀ pa k s1, s.wordSpaceOk = true → a.toNat % 4 = 0 → s.wordBlocked a true = false → s.wordPlace a true = (.ok (pa, k), s1) →
      let u := (s1.release scope.toNat).inTurn .ct (s1.wordSpot a pa)
      ∃ t s2, exec (.notify scope r1 r2) s = .next t ∧ ReadBy s s1 ∧ Releases s1 (s1.release scope.toNat) scope.toNat ∧
        WriteBy (s1.release scope.toNat) u ∧ WriteBy u s2 ∧
        CtDoes { s2 with core := { s2.core with ct := { s2.core.ct with wait := t.core.ct.wait } } } t 0 0 4 ∧
        WritesAt u t k pa 4 ((s.getX r2).toNat % 2 ^ 32) ∧
        ∀ n i b tm wk, n ≠ s.core.no → (scope = 1 → False) → (scope = 2 → n / 48 = s.core.no / 48) →
          (s.coreAt n).ct.wait = some (.sleep i b tm wk) → b / 64 = pa / 64 → (t.coreAt n).ct.wait = some (.sleep i b tm true)

/-- 11 R258: barinit sets COUNT and makes ARRIVED 0. bararv at a home of the gang releases, joins the phase, and raises the
phase's time; the arrival that makes ARRIVED reach COUNT completes the phase. barwait goes on once the phase that this core
joined has completed, LTIME raised to that phase's time; it waits before that, and goes on at once where this core joined none. A HOME
outside the gang is cause 7, and 5 for barwait. -/
def Obligations.Barriers : Prop :=
  ∀ (s : State) (r1 r2 : XReg),
    let b := ((s.getX r1).extractLsb' 0 5).toNat
    let home := ((s.getX r1).extractLsb' 8 16).toNat
    let own := s.core.barrier b
    (∃ t c, exec (.barinit r1 r2) s = .next t ∧ CtDoes { s with core := c } t 0 0 4 ∧
      (∀ k, c.barrier k = if k = b then { own with count := (s.getX r2).setWidth 16, arrived := 0 } else s.core.barrier k) ∧
      { c with vec := { c.vec with barriers := s.core.vec.barriers } } = s.core) ∧
    (s.core.csr.gangsize.toNat ≤ home → exec (.bararv r1) s = .next (s.trap 7 (s.getX r1)) ∧
      exec (.barwait r1) s = .next (s.trap 5 (s.getX r1))) ∧
    (home < s.core.csr.gangsize.toNat →
      (home = s.core.csr.gangix.toNat → ∃ t, exec (.bararv r1) s = .next t ∧ t.core.ct.pc = s.core.ct.pc + 4 ∧
        (∀ r, t.getX r = s.getX r) ∧
        let now := t.core.barrier b
        let u := s.release 3
        let at' := raise u.core.ltime own.high
        Releases s u 3 ∧ t.core.ltime = u.core.ltime ∧
        now.arvPhase = some own.phase ∧ now.count = own.count ∧
        (own.arrived.toNat + 1 < own.count.toNat → now.arrived = own.arrived + 1 ∧ now.phase = own.phase ∧ now.high = some at') ∧
        (own.count.toNat ≤ own.arrived.toNat + 1 → now.arrived = 0 ∧ now.phase = own.phase + 1 ∧ now.high = none ∧ Table.get 0 now.done own.phase.toNat = at')) ∧
      (own.arvPhase = none → ∃ t, exec (.barwait r1) s = .next t ∧ CtDoes s t 0 0 4) ∧
      (∀ p ph, s.barPlace home = some p → own.arvPhase = some ph →
        ((s.barrierAt p b).phase ≠ ph → ∃ t, exec (.barwait r1) s = .next t ∧
          let time := Table.get 0 (s.barrierAt p b).done ph.toNat
          CtDoes { s with core := s.core.raiseTo (some time) } t 0 0 4 ∧ t.core.ltime = raise s.core.ltime (some time) ∧
            t.core.ct.early = []) ∧
        ((s.barrierAt p b).phase = ph → exec (.barwait r1) s =
          .next { s with core := { s.core with ct := { s.core.ct with wait := some (.instr (.barwait r1)) } } })))

/-! ## Fences, time and the end of a job -/

/-- An access that was left belongs to a predecessor set (11 R253): r names the control thread's loads and atomics, w its stores and
atomics, v what entries and micro-threads left. -/
def Sys2Proof.Machine.inSet (pred : BitVec 4) (l : Late) : Bool :=
  match l.who with
  | .ct => match l.op with
    | .store _ => pred.getLsbD 0
    | .load _ _ _ => pred.getLsbD 1
    | _ => pred.getLsbD 0 || pred.getLsbD 1
  | _ => pred.getLsbD 2
/-- 11 R253 to R255, 14 R305, 02 R36, 22 R353, R355: ofence and fence, when the work that their predecessor set names has ended, release
at their scope when the set has writes, and go on; before that the control thread waits. A fence with an empty set has no
effect; I or O widen its scope to system. fence.i empties the block cache. sfence.vma at supervisor level, a release first, takes the
entries that it names from every core's TLB and from the dies' translation caches, and link entries from the frame-chain caches;
every pinned page is checked again at its next access; at user level it is cause 2. -/
def Obligations.Fences : Prop :=
  ∀ (s : State) (fm pred succ : BitVec 4) (scope : BitVec 3) (r1 r2 : XReg),
    (s.fenceWaits pred = true → exec (.ofence pred succ scope) s =
      .next { s with core := { s.core with ct := { s.core.ct with wait := some (.instr (.ofence pred succ scope)) } } }) ∧
    (s.fenceWaits pred = false → ∃ t s1, exec (.ofence pred succ scope) s = .next t ∧
      ReleasesBy s s1 (inSet pred) (if pred.getLsbD 0 || pred.getLsbD 2 || pred.getLsbD 3 then scope.toNat else min scope.toNat 1) ∧
      (succ.getLsbD 1 = true → pred ≠ 0 → t.core.ct.early = []) ∧
      (succ.getLsbD 2 = true → pred ≠ 0 → scope ≠ 0 → t.core.vec.early = []) ∧ CtDoes s1 t 0 0 4) ∧
    (∃ t s1, exec (.fence fm pred succ) s = .next t ∧ CtDoes s1 t 0 0 4 ∧ ((pred = 0 ∨ succ = 0) → s1 = s) ∧
      ((succ.getLsbD 1 || succ.getLsbD 3) = true → pred ≠ 0 → t.core.ct.early = []) ∧
      (pred ≠ 0 → succ ≠ 0 →
        let set : BitVec 4 := 0#2 ++ BitVec.ofBool (pred.getLsbD 1 || pred.getLsbD 3) ++ BitVec.ofBool (pred.getLsbD 0 || pred.getLsbD 2)
        ReleasesBy s s1 (inSet set) (if pred.getLsbD 0 || pred.getLsbD 2 then (if (pred ||| succ).toNat < 4 then 3 else 4) else 1))) ∧
    (let u := s.drainBy fun l => l.who == .ct
     ∃ t, exec .fenceI s = .next t ∧ WriteBy s u ∧ t.core.ct.early = [] ∧
      CtDoes { u with core := { u.core with vec := { u.core.vec with blocks := [] } } } t 0 0 4) ∧
    (s.core.ct.user = true → exec (.sfenceVma r1 r2) s = .next (s.illegal (.sfenceVma r1 r2))) ∧
    (s.core.ct.user = false → ∃ t, exec (.sfenceVma r1 r2) s = .next t ∧ t.core.ct.pc = s.core.ct.pc + 4 ∧ (∀ r, t.getX r = s.getX r) ∧
      t.core.ct.early = [] ∧ (∃ s1, Releases s s1 3 ∧ ∀ a, t.byteAt a = s1.byteAt a) ∧
      (let named := fun (e : TlbEntry) => (r1 = 0 ∨ (e.va ≤ (s.getX r1).toNat ∧ (s.getX r1).toNat < e.va + e.bytes)) ∧
          (r2 = 0 ∨ (e.asid = (s.getX r2).toNat % 2 ^ 16 ∧ e.flags.getLsbD 5 = false))
       (∀ n, ∀ e ∈ (t.coreAt n).tlb, e ∈ (s.coreAt n).tlb ∧ ¬ named e) ∧
        (∀ d, ∀ e ∈ (Table.get Die.zero t.base.dies d).cache, ¬ named e) ∧
        ∀ n, ∀ e ∈ (t.coreAt n).chain, r2 ≠ 0 ∧ e.asid ≠ (s.getX r2).toNat % 2 ^ 16) ∧
      ∀ e ∈ t.dir.entries, ∀ p ∈ e.pins, p.readSeen = false ∧ p.writeSeen = false)

/-- 11 R259, 24 R403, 02 R55, 21 R345, 23 R383: ltsync advances LTIME to rs1 where that is after it, by at most 2^30 − 1 ticks and not
past 2^20 ticks after the module time received last; LTIME beyond that bound stays; rd takes the new LTIME. jtrig, its entries retired and
commands complete, counts the core as triggered, once. jexit, everything drained and no fault recorded, reports the status and unbinds
the core; with a fault recorded it is cause 24. tmark, while a capture runs and a buffer is set, writes its record with rs1 as VALUE, and
goes on. Each waits for its conditions. -/
def Obligations.TimeAndJobEnd : Prop :=
  ∀ (s : State) (rd r1 : XReg),
    (∃ t s1 now, exec (.ltsync rd r1) s = .next t ∧ Releases s s1 3 ∧ t.core.ct.early = [] ∧
      CtDoes { s1 with core := s1.core.later (now - s1.core.ltime).toNat } t rd (now.setWidth 64) 4 ∧ t.core.ltime = now ∧
      let d := ((s.getX r1).setWidth 32 - s1.core.ltime).toNat
      let room := (s.core.moduleTime + 0x10_0000 - s1.core.ltime).toNat
      ((d = 0 ∨ 2 ^ 31 ≤ d ∨ 2 ^ 31 ≤ room) → now = s1.core.ltime) ∧
      (0 < d → d < 2 ^ 31 → room < 2 ^ 31 → now = s1.core.ltime + BitVec.ofNat 32 (min d (min (2 ^ 30 - 1) room)))) ∧
    (s.core.vec.queue = [] → s.core.vec.cmds = [] → ∃ t s1, exec .jtrig s = .next t ∧ ReleasesBy s s1 (fun _ => true) 3 ∧
      (s.core.triggered = true → CtDoes s1 t 0 0 4) ∧
      (s.core.triggered = false → CtDoes { s1 with
        core := { s1.core with triggered := true },
        sheep := { s.sheep with reports := s.sheep.reports ++ [.triggered s.gangNow s.core.csr.gangix.toNat] } } t 0 0 4)) ∧
    ((s.core.vec.queue ≠ [] ∨ s.core.vec.cmds ≠ []) → exec .jtrig s =
      .next { s with core := { s.core with ct := { s.core.ct with wait := some (.instr .jtrig) } } }) ∧
    (s.drained = true → s.core.vec.cmds = [] →
      (s.mask kfCode ≠ 0 → exec (.jexit r1) s = .next (s.trap 24 s.kfTval)) ∧
      (s.mask kfCode = 0 → ∃ t, exec (.jexit r1) s = .next t ∧ t.core.phase = .unbound ∧ t.core.asid = none ∧
        t.slot s.core.no = Slot.free ∧ t.sheep.reports.getLast? =
          some (.exited s.core.no s.gangNow s.core.csr.gangix.toNat ((s.getX r1).setWidth 32) (!s.core.ct.user)) ∧
        (∀ r, t.getX r = s.getX r))) ∧
    ((s.drained = false ∨ s.core.vec.cmds ≠ []) → exec (.jexit r1) s =
      .next { s with core := { s.core with ct := { s.core.ct with wait := some (.instr (.jexit r1)) } } }) ∧
    (∃ t, exec (.tmark r1) s = .next t ∧ (s.base.capctl.getLsbD 0 = false → CtDoes s t 0 0 4) ∧
      t.core.ct.pc = s.core.ct.pc + 4 ∧ (∀ r, t.getX r = s.getX r) ∧
      (s.base.capctl.getLsbD 0 = true → s.records → t.core.perf.tracePos = s.core.perf.tracePos + 1 ∧
        Records s t (s.recordOf 2 0 0 s.base.cycle s.core.ct.pc (s.getX r1))))

/-! ## Scalar memory of the control thread -/

/-- A value of `n` bytes in an x register, sign-extended or not. -/
def Sys2Proof.Machine.loaded (n : Nat) (signed : Bool) (v : Nat) : Word := if signed then (BitVec.ofNat (8 * n) v).signExtend 64 else BitVec.ofNat 64 v

/-- An access of the control thread by an instruction of `len` bytes is left to be performed later (14 R298, log 11): it stands at the end
of those left, rd is owed its value, where it has one, and the instruction is past. -/
def Sys2Proof.Machine.Leaves (u t : State) (x : Spot) (o : LateOp) (rd : XReg) (len : Nat) : Prop :=
  ∃ p, CtDoes { u with core := { u.core with
      ct := { u.core.ct with pendingX := u.core.ct.pendingX ++ [(0, rd)] },
      vec := { u.core.vec with late := u.core.vec.late ++ [{ who := .ct, spot := x, op := o }], early := u.core.vec.early.filter p } } } t 0 0 len

/-- 14 R296, R298, 15 R309, R310, 09 R208, 11 R418, log 21: a scalar load or store, ldsc, stsc and lr of an aligned address that
translates, with no earlier vector access to its bytes left, complete: rd takes the bytes, extended by the form; a store leaves its
bytes at the address and every other byte as it was; a plain one is left, where the turn says so. `s1` is the state after translation
and after the stores that were left (log 11) to the bytes of a load; `u` that after what must come first, and after the release of ldsc,
stsc and an ordered lr; a plain load that has been performed early gives the value that it read then. lr reserves the block. -/
def Obligations.ScalarMemory : Prop :=
  ∀ (s : State) (rd r1 r2 : XReg) (off : BitVec 12) (lk : LoadKind) (sk : StoreKind) (dbl aq rl : Bool),
    let vo := s.getX r1 + off.signExtend 64
    let a := s.getX r1
    let w : Nat := if dbl then 8 else 4
    let ln : Nat := 2 ^ lk.size.toNat
    let load : Instr := .ctScalarLoad lk rd r1 off
    (∀ x ∈ [(load, vo, ln, lk.signed && lk.size != 3, fun (s1 : State) (x : Spot) => s1.drainFor .ct x),
        (.ldsc dbl rd r1, a, w, !dbl, fun s1 x => (s1.release 3).inTurn .ct x),
        (.lr dbl aq rl rd r1, a, w, !dbl, fun s1 x => s1.ordered aq rl x)],
      ∀ pa s1, x.2.1.toNat % x.2.2.1 = 0 → s.scalarBlocked x.2.1 x.2.2.1 false = false →
      s.checkOwn .ct x.2.1 x.2.2.1 s.ctMode = (.ok pa, s1) → placeOf pa = .ddr ∨ (∃ c o, placeOf pa = .window c .stash o) →
      (x.1 = load → s1.defers = false ∨ s1.mayLeave pa = false) →
      let y := virtSpot x.2.1 pa x.2.2.1
      let u := x.2.2.2.2 s1 y
      ∃ (t s2 : State) (v : Nat), exec x.1 s = .next t ∧ WriteBy s s1 ∧ (s.core.vec.late = [] → ReadBy s s1) ∧ WriteBy s1 u ∧
        (s1.core.vec.late = [] → ReadBy s1 u) ∧ ReadBy u s2 ∧
        (match if x.1 = load then u.earlyValue .ct (some [.x r1.toNat]) y else none with
          | some z => v = z
          | none => Reads u (s1.keyFor (some x.2.1.toNat)) pa x.2.2.1 v) ∧
        CtDoes { s2 with core := { s2.core with ct := { s2.core.ct with
          reservation := t.core.ct.reservation, windowReservation := t.core.ct.windowReservation } } } t rd (loaded x.2.2.1 x.2.2.2.1 v) 4 ∧
        (x.1 = .ldsc dbl rd r1 → t.core.ct.early = []) ∧
        (x.1 ≠ .lr dbl aq rl rd r1 → t.core.ct.reservation = s.core.ct.reservation ∧
          (s.core.vec.late = [] → t.core.ct.windowReservation = s.core.ct.windowReservation)) ∧
        (x.1 = .lr dbl aq rl rd r1 → (placeOf pa = .ddr → (t.core.ct.reservation.any fun y => y.1 == pa / 64) = true) ∧
          (placeOf pa ≠ .ddr → t.core.ct.windowReservation = some (pa / 64)))) ∧
    (∀ pa s1, vo.toNat % ln = 0 → s.scalarBlocked vo ln false = false → s.checkOwn .ct vo ln s.ctMode = (.ok pa, s1) →
      s1.defers = true → s1.mayLeave pa = true →
      ∃ t, exec load s = .next t ∧ WriteBy s s1 ∧ Leaves s1 t (virtSpot vo pa ln) (.load rd lk.size lk.signed) rd 4) ∧
    (let n : Nat := 2 ^ sk.size.toNat
     ∀ pa s1, vo.toNat % n = 0 → s.scalarBlocked vo n true = false → s.checkVirt vo n .store s.ctMode = (.ok pa, s1) →
      let x := virtSpot vo pa n
      let u := s1.drainFor .ct x
      ∃ t s2, exec (.ctScalarStore sk r2 r1 off) s = .next t ∧ ReadBy s s1 ∧ WriteBy s1 u ∧ (s1.core.vec.late = [] → u = s1) ∧
        WriteBy u s2 ∧ CtDoes s2 t 0 0 4 ∧
        StoresAt u s2 t .ct x (s1.keyFor (some vo.toNat)) ((s.getX r2).toNat % 2 ^ (8 * n))) ∧
    (∀ pa s1, a.toNat % w = 0 → s.scalarBlocked a w true = false → s.checkVirt a w .store s.ctMode = (.ok pa, s1) →
      let u := (s1.release 3).inTurn .ct (virtSpot a pa w)
      ∃ t s2, exec (.stsc dbl r2 r1) s = .next t ∧ ReadBy s s1 ∧ Releases s1 (s1.release 3) 3 ∧ WriteBy (s1.release 3) u ∧ WriteBy u s2 ∧
        CtDoes s2 t 0 0 4 ∧ t.core.ct.early = [] ∧
        WritesAt u t (s1.keyFor (some a.toNat)) pa w ((s.getX r2).toNat % 2 ^ (8 * w)))

/-- What a RISC-V AMO makes of the old value and rs2 (11 R255). -/
def Sys2Proof.Machine.rvAtomic (op : AmoOp) (n : Nat) (old v : BitVec n) : BitVec n :=
  match op with
  | .swap => v | .add => old + v | .and => old &&& v | .or => old ||| v | .xor => old ^^^ v
  | .min => if old.toInt ≤ v.toInt then old else v | .max => if v.toInt ≤ old.toInt then old else v
  | .minu => if old.toNat ≤ v.toNat then old else v | .maxu => if v.toNat ≤ old.toNat then old else v
  | .cas => old

/-- 11 R255, R418, 14 R298: a RISC-V AMO on an aligned word of DDR or of a stash gives the old value and leaves the new one at the
address, after what aq and rl ask (`u`); one without either is left, where the turn says so (log 11). sc stores its word and gives 0 while its reservation holds, and gives 1 and stores nothing when it does
not, no bit of a leaf either; either way no reservation is left. -/
def Obligations.ScalarAtomics : Prop :=
  ∀ (s : State) (rd r1 r2 : XReg) (op : AmoOp) (dbl aq rl : Bool), op ≠ .cas →
    let a := s.getX r1
    let n : Nat := if dbl then 8 else 4
    let src := (s.getX r2).toNat % 2 ^ (8 * n)
    let inReach := fun (s1 : State) pa => (placeOf pa = .ddr ∧ pa % 64 + n ≤ 64 ∧ s1.underKey (s1.keyFor (some a.toNat)) pa) ∨
      ∃ c o, ∀ j < n, placeOf (pa + j) = .window c .stash (o + j)
    (∀ pa s1, a.toNat % n = 0 → s.scalarBlocked a n true = false → s.checkAtomic .ct a n s.ctMode true = (.ok pa, s1) →
      let u := s1.ordered aq rl (virtSpot a pa n)
      let leaves := aq = false ∧ rl = false ∧ u.defers = true ∧ u.mayLeave pa = true
      (leaves → ∃ t, exec (.riscvAmo op dbl aq rl rd r1 r2) s = .next t ∧ WriteBy s s1 ∧ WriteBy s1 u ∧
        Leaves u t (virtSpot a pa n) (.amo op src 0 rd) rd 4) ∧
      (¬leaves → u.Coherent → inReach u pa →
      ∃ t s2 old, exec (.riscvAmo op dbl aq rl rd r1 r2) s = .next t ∧ WriteBy s s1 ∧ (s.core.vec.late = [] → ReadBy s s1) ∧
        WriteBy s1 u ∧ WriteBy u s2 ∧
        CtDoes s2 t rd (loaded n (!dbl) old) 4 ∧ KeepsBytes u t pa n ∧ u.holds pa n old ∧
        t.holds pa n (rvAtomic op (8 * n) (BitVec.ofNat _ old) (BitVec.ofNat _ src)).toNat)) ∧
    (∀ pa s1, a.toNat % n = 0 → s.scalarBlocked a n true = false → s.placeBare a .store s.ctMode = (.ok pa, s1) → s1.reaches pa true = true →
      reservable pa = true →
      (s1.reserved (s1.keyFor (some a.toNat)) pa = false → ∃ t, exec (.sc dbl aq rl rd r1 r2) s = .next t ∧ ReadBy s s1 ∧
        CtDoes s1.unreserve t rd 1 4) ∧
      (s1.reserved (s1.keyFor (some a.toNat)) pa = true → ∀ pa' s2, s1.checkVirt a n .store s1.ctMode = (.ok pa', s2) →
        let u := s2.unreserve.ordered aq rl (virtSpot a pa' n)
        u.Coherent → inReach u pa' → ∃ t s3, exec (.sc dbl aq rl rd r1 r2) s = .next t ∧ ReadBy s s1 ∧ ReadBy s1 s2 ∧
          WriteBy s2.unreserve s3 ∧ CtDoes s3 t rd 0 4 ∧ t.core.ct.reservation = none ∧ t.core.ct.windowReservation = none ∧
          KeepsBytes u t pa' n ∧ t.holds pa' n src))

/-- 09 R206, R207: vclaim of an aligned record of the own stash gives next in rd, sets VL to the least of the request, VLMAX, the
grant and what is left of the range, and moves next on by as much. vappend of one moves its tail on by the number of active
elements that there is room for, which rd receives, and its entry stores the lowest of them at the old tail. Stores that were left
(log 11) and must come first are performed before the record is read. -/
def Obligations.WorkRecords : Prop :=
  ∀ (s : State) (rd r1 r2 : XReg) (k : BitVec 4) (v : VReg), s.core.csr.vspace = 1 → s.core.no < 192 →
    s.base.lost = [] →
    let o := (s.getX r1).toNat
    let pa := windowAddr s.core.no .stash o
    s.linkGetBefore s.core.vec.nextEntry = false →
    (let u := (s.inTurn .ct (s.stashSpot o 16)).release 3
     o % 16 = 0 → o + 16 ≤ 0x20_0000 → u.Coherent →
      let field := fun j : Nat => BitVec.ofNat 64 (u.core.partRead .stash (o + 8 * j) 8)
      let n := min (min (s.getX r2).toNat (min s.vlmax s.core.grant)) ((field 1).toInt - (field 0).toInt).toNat
      ∃ t s2, exec (.vclaim rd r1 r2) s = .next t ∧ WriteBy s s2 ∧ CtDoes (s2.withVl n) t rd (field 0) 4 ∧
        KeepsBytes u t pa 8 ∧ t.holds pa 8 (field 0 + BitVec.ofNat 64 n).toNat) ∧
    (o % 32 = 0 → o + 32 ≤ 0x20_0000 → v.toNat < s.nregs → s.fepolTrap [v.toNat] = none → s.maskPending k = false →
      s.queueFull .store = false → s.bytesHeld s.core.vec.nextEntry 1 true [(o, 24)] = false →
      let u := s.inTurn .ct (s.stashSpot o 24)
      u.Coherent →
      let field := fun j : Nat => BitVec.ofNat 64 (u.core.partRead .stash (o + 8 * j) 8)
      let act := (List.range s.core.csr.vl).filter fun m => (s.mask k).getLsbD m
      let n := min act.length ((field 1).toInt - (field 0).toInt).toNat
      let place := fun j : Nat => ((field 2).toNat : Int) + 4 * ((field 0).toInt + j)
      (field 2).toNat % 4 = 0 → (∀ j < n, 0 ≤ place j ∧ place j + 4 ≤ 0x20_0000) →
      ∃ t s2 xs, exec (.vappend k v r1 rd) s = .next t ∧ WriteBy s s2 ∧ KeepsBytes u t pa 8 ∧
        t.holds pa 8 (field 0 + BitVec.ofNat 64 n).toNat ∧ xs.length = n ∧
        (∀ j < n, ∀ x, xs[j]? = some x → act[j]? = some x.m ∧ x.pa = windowAddr s.core.no .stash (place j).toNat) ∧
        ∃ e : Entry, e.op = .append v xs rd ∧ e.value = BitVec.ofNat 64 n ∧ t.core.vec.queue = s.core.vec.queue ++ [e] ∧
          (e.id, rd) ∈ t.core.ct.pendingX ∧ t.core.ct.pc = s.core.ct.pc + 4 ∧ (∀ r, t.getX r = s.getX r) ∧ t.core.csr.vl = s.core.csr.vl)

/-! ## Traps, and the waits of the control thread -/

/-- The state but for what the entry to a trap, or the return from one, writes. -/
def Sys2Proof.Machine.State.besideTrap (s : State) : State :=
  { s with
    core := { s.core with ct := { s.core.ct with
      pc := 0, user := false, sepc := 0, scause := 0, stval := 0, sstatus := 0, reservation := none, windowReservation := none,
      wait := none, waitaStart := none } },
    base := { s.base with capctl := 0 } }
/-- `t` follows `s` by the entry to a trap (22 R347, as RISC-V defines it; 11 R418): sepc, scause and stval are written, SPP takes
the level and SPIE takes SIE, SIE clears, the level is supervisor, the pc is the base of stvec, plus 4 × cause for an interrupt
in vectored mode; no reservation is left; no x register changes. Nothing else changes but CAPCTL (24 R403), where no window
write was held for an MTCONF (09 R187). -/
structure Sys2Proof.Machine.Enters (s t : State) (interrupt : Bool) (cause : Nat) (epc tval : Word) : Prop where
  saved : t.core.ct.sepc = (epc &&& ~~~1) ∧ t.core.ct.stval = tval ∧
    t.core.ct.scause = (if interrupt then BitVec.twoPow 64 63 else 0) ||| BitVec.ofNat 64 cause
  status : t.core.ct.sstatus.getLsbD 8 = !s.core.ct.user ∧ t.core.ct.sstatus.getLsbD 5 = s.core.ct.sstatus.getLsbD 1 ∧
    t.core.ct.sstatus.getLsbD 1 = false ∧
    ∀ k, k ≠ 1 → k ≠ 5 → k ≠ 8 → t.core.ct.sstatus.getLsbD k = s.core.ct.sstatus.getLsbD k
  level : t.core.ct.user = false
  handler : t.core.ct.pc =
    (s.core.ct.stvec &&& ~~~3) + (if interrupt ∧ s.core.ct.stvec.getLsbD 0 then BitVec.ofNat 64 (4 * cause) else 0)
  reservations : t.core.ct.reservation = none ∧ t.core.ct.windowReservation = none
  x : ∀ r, t.getX r = s.getX r
  rest : s.core.vec.held = [] → t.besideTrap = s.besideTrap

/-- 22 R347: the one operation that takes a trap enters it so, and an exception of an instruction is one at the instruction's own
address. In vectored mode interrupts 16 and 17 go to BASE + 64 and BASE + 68. -/
def Obligations.TrapEntry : Prop :=
  (∀ (s : State) (interrupt : Bool) (cause : Nat) (epc tval : Word), Enters s (s.takeTrap interrupt cause epc tval) interrupt cause epc tval) ∧
  (∀ (s : State) (cause : Nat) (tval : Word), Enters s (s.trap cause tval) false cause s.core.ct.pc tval) ∧
  ∀ (s : State) (epc tval : Word), s.core.ct.stvec.getLsbD 0 = true →
    (s.takeTrap true 16 epc tval).core.ct.pc = (s.core.ct.stvec &&& ~~~3) + 64 ∧
    (s.takeTrap true 17 epc tval).core.ct.pc = (s.core.ct.stvec &&& ~~~3) + 68

/-- A command whose fault has not been delivered. -/
def Sys2Proof.Machine.Cmd.faultPends (c : Cmd) : Prop := c.phase = .faulted ∧ c.trapTaken = false

/-- 22 R349, R350, 21 R346: at a boundary of a running core, at user level or under SIE, the trap that is due first is entered, with sepc at
the instruction that has not executed: the faulted command of the lowest place in the queue, cause 24 under MTFI, a
breakpoint that has fired, once the entries before it have retired and the instruction that fired it has executed (log 30), as cause 3 with
its address in stval, an interrupt in the order 16, 9, 1, 5, 17. None is taken at supervisor level under SIE = 0, nor before a stop that is due, which comes first.
sret and wfi at user level are cause 2. sret at supervisor level goes to sepc at the level of SPP, with SIE from SPIE. wfi ends at
once when what it waits for is there, else the control thread waits; so does vsync, until entries have retired and micro-threads
have nothing left; then the stores of entries and micro-threads that were left (log 11) are performed, no load is early any more, and
with a fault recorded it is cause 24 (09 R190, 02 R39, 14 R304). -/
def Obligations.TrapsAndReturns : Prop :=
  ∀ (s : State),
    (s.core.phase = .running → s.core.ct.wait = none → (s.core.ct.user = true ∨ s.core.ct.sstatus.getLsbD 1 = true) →
      s.core.stopDue = false →
      (∀ cs ds c, s.core.vec.cmds = cs ++ c :: ds → (∀ c' ∈ cs, ¬ c'.faultPends) → c.faultPends → (∀ c' ∈ cs ++ ds, c'.seq ≠ c.seq) →
        ∃ t, exec .trapTaken s = .next t ∧
          Enters { s with core := { s.core with
              vec := { s.core.vec with cmds := cs ++ { c with trapTaken := true } :: ds },
              csr := { s.core.csr with tsrc := if c.code = 5 then 2 else s.core.csr.tsrc } } } t
            false (if c.code = 5 then 31 else 25) s.core.ct.pc (bit1 (!c.recorded) ++ BitVec.ofNat 63 c.seq)) ∧
      ((∀ c ∈ s.core.vec.cmds, ¬ c.faultPends) →
        (s.core.csr.mtfi = true → s.mask kfCode ≠ 0 →
          ∃ t, exec .trapTaken s = .next t ∧ Enters s t false 24 s.core.ct.pc s.kfTval) ∧
        ((s.core.csr.mtfi = false ∨ s.mask kfCode = 0) →
          ∀ addr pc, s.core.perf.breakPending = some (addr, pc) → s.core.vec.queue = [] → s.core.csr.vresume = 0 →
            (addr ≠ pc ∨ s.core.ct.pc ≠ pc) → ∃ t, exec .trapTaken s = .next t ∧
              Enters { s with core := { s.core with perf := { s.core.perf with breakPending := none } } } t false 3 s.core.ct.pc addr) ∧
        ((s.core.csr.mtfi = false ∨ s.mask kfCode = 0) → s.core.perf.breakPending = none →
          (∀ is i js, [16, 9, 1, 5, 17] = is ++ i :: js → (s.sipNow &&& s.core.ct.sie).getLsbD i = true →
            (∀ k ∈ is, (s.sipNow &&& s.core.ct.sie).getLsbD k = false) →
            ∃ t n, exec .trapTaken s = .next t ∧
              Enters { s with core := { s.core with noticeTaken := n } } t true i s.core.ct.pc 0) ∧
          ((∀ i ∈ [16, 9, 1, 5, 17], (s.sipNow &&& s.core.ct.sie).getLsbD i = false) → exec .trapTaken s = .next s)))) ∧
    (s.core.ct.user = false → s.core.ct.sstatus.getLsbD 1 = false → exec .trapTaken s = .next s) ∧
    (s.core.stopDue = true → exec .trapTaken s = .next s) ∧
    (s.core.ct.user = true → exec .sret s = .next (s.illegal .sret) ∧ exec .wfi s = .next (s.illegal .wfi)) ∧
    (s.core.ct.user = false →
      (∃ t, exec .sret s = .next t ∧ t.besideTrap = (s.note 2).besideTrap ∧ t.core.ct.pc = s.core.ct.sepc ∧
        t.core.ct.user = !s.core.ct.sstatus.getLsbD 8 ∧ t.core.ct.sstatus.getLsbD 1 = s.core.ct.sstatus.getLsbD 5 ∧
        t.core.ct.sstatus.getLsbD 5 = true ∧ t.core.ct.sstatus.getLsbD 8 = false ∧
        (∀ k, k ≠ 1 → k ≠ 5 → k ≠ 8 → t.core.ct.sstatus.getLsbD k = s.core.ct.sstatus.getLsbD k) ∧
        t.core.ct.sepc = s.core.ct.sepc ∧ t.core.ct.scause = s.core.ct.scause ∧ t.core.ct.stval = s.core.ct.stval ∧
        t.core.ct.reservation = s.core.ct.reservation ∧ t.core.ct.windowReservation = s.core.ct.windowReservation ∧
        t.base.capctl = s.base.capctl ∧ ∀ r, t.getX r = s.getX r) ∧
      let ends := s.sipNow &&& s.core.ct.sie ≠ 0 ∨ (∃ c ∈ s.core.vec.cmds, c.faultPends) ∨ (s.core.csr.mtfi = true ∧ s.mask kfCode ≠ 0) ∨
        s.core.perf.breakPending.isSome = true ∨ s.core.stopDue = true
      (ends → ∃ t, exec .wfi s = .next t ∧ CtDoes s t 0 0 4) ∧
      (¬ ends → exec .wfi s = .next { s with core := { s.core with ct := { s.core.ct with wait := some .wfi } } })) ∧
    (s.drained = false → exec .vsync s = .next { s with core := { s.core with ct := { s.core.ct with wait := some (.instr .vsync) } } }) ∧
    (s.drained = true → ∃ t u, exec .vsync s = .next t ∧ WriteBy s u ∧ (s.core.vec.late = [] → ReadBy s u) ∧
      (∀ l ∈ u.core.vec.late, l.who ≠ .ct → l.op.isStore = false) ∧ (∀ l ∈ s.core.vec.late, l.who = .ct → l ∈ u.core.vec.late) ∧
      u.core.vec.early = [] ∧ u.core.ct.early = [] ∧
      (∀ a, u.byteAt a = (s.drainBy fun l => l.who != .ct).byteAt a) ∧
      (s.mask kfCode ≠ 0 → Enters u t false 24 s.core.ct.pc s.kfTval) ∧ (s.mask kfCode = 0 → CtDoes u t 0 0 4))

/-- 02 R33, R48, 11 R256, 22 R419: a wait that is looked at again: an instruction of R33 executes again; a WFI ends when what it waits
for is there; a WAITA that a write, a NOTIFY, the end of its lease or its timeout has woken executes again, and sleeps on
otherwise; the trap of a failing element is entered, with VRESUME at it, when the elements below it have been performed, those of their
stores that were left (log 11) included (14 R306). -/
def Obligations.WaitsEnd : Prop :=
  ∀ (s : State),
    (s.core.ct.wait = none → exec .ctWaitComplete s = .next s) ∧
    (∀ (rd r1 : XReg) (v : Word) (p q : BitVec 4) (sc : BitVec 3),
      ∀ i ∈ [Instr.vsync, .mtconf rd r1, .mtcfgWrite rd v, .ofence p q sc, .barwait r1, .jtrig, .jexit r1, .tfree rd r1],
        s.core.ct.wait = some (.instr i) → exec .ctWaitComplete s = exec i s) ∧
    (s.core.ct.wait = some .wfi →
      (s.wfiDone = true → ∃ t, exec .ctWaitComplete s = .next t ∧ CtDoes s t 0 0 4) ∧
      (s.wfiDone = false → exec .ctWaitComplete s = .next s)) ∧
    (∀ (rd r1 r2 r3 : XReg) pa t0 woken,
      ∀ i ∈ [Instr.waitaEq rd r1 r2 r3, .waitaNe rd r1 r2 r3, .waitaGeu rd r1 r2 r3, .waitaLtu rd r1 r2 r3],
        s.core.ct.wait = some (.sleep i pa t0 woken) →
        ((woken = true ∨ s.sleepEnds pa t0 = true ∨ s.sleepExpired i = true) →
          exec .ctWaitComplete s = exec i { s with core := { s.core with ct := { s.core.ct with wait := none } } }) ∧
        (woken = false → s.sleepEnds pa t0 = false → s.sleepExpired i = false → exec .ctWaitComplete s = .next s)) ∧
    (∀ cause tval m e src, s.core.ct.wait = some (.elemTrap cause tval m e src) →
      ((∃ x ∈ s.core.vec.queue, x.id = e) → exec .ctWaitComplete s = .next s) ∧
      ((∀ x ∈ s.core.vec.queue, x.id ≠ e) → ¬(src = 1 ∧ cause = 31) → ∃ t, exec .ctWaitComplete s = .next t ∧
        let u := s.drainBy fun l => match l.who with | .elem x _ => x == e | _ => false
        WriteBy s u ∧ Enters { u with core := { u.core with csr := { u.core.csr with vresume := m } } } t false cause s.core.ct.pc tval))

/-! ## Slots, binding, pre-emption -/

/-- The module but for its cores. -/
def Sys2Proof.Machine.State.besideCores (s : State) : State := { s with core := Core.reset 0, others := [] }
/-- Core `n` becomes `c`, every other core stays, and `t` is otherwise `u`. -/
def Sys2Proof.Machine.OnlyCore (s u t : State) (n : Nat) (c : Core) : Prop :=
  (∀ k, t.coreAt k = if k = n then c else s.coreAt k) ∧ t.besideCores = u.besideCores
/-- Slot `n` becomes `x`. -/
def Sys2Proof.Machine.State.withSlot (s : State) (n : Nat) (x : Slot) : State :=
  { s with disp := { s.disp with slots := Table.set Slot.free s.disp.slots n x } }

/-- `c` is `c0` bound to a job by a record, as 02 R23 gives the state at a bind; 02 R24: register storage, accumulators and masks
are zeroed, and the stash and the flysheet too unless the address space is the one before. -/
structure Sys2Proof.Machine.BoundTo (c0 c : Core) (b : BindRec) : Prop where
  runs : c.phase = if b.restore then .restoring else .running
  level : c.ct.user = true ∧ c.ct.pc = b.entry ∧ c.ct.wait = none
  satp : c.ct.satp = (10 : BitVec 4) ++ BitVec.ofNat 16 b.asid ++ BitVec.ofNat 44 b.rootPpn
  x : ∀ r : XReg, c.ct.getX r = if r = 10 then b.arg else if r = 11 then BitVec.ofNat 64 b.gangIx else if r = 12 then BitVec.ofNat 64 b.grant else 0
  job : c.csr.jobarg = b.arg ∧ c.csr.jobid = b.jobId ∧ c.csr.gangix = BitVec.ofNat 8 b.gangIx ∧ c.csr.gangsize = BitVec.ofNat 8 b.gangSize
  mtcfg : c.csr.mtcfg = 0x1F03
  zeros : c.csr.vl = 0 ∧ c.csr.vresume = 0 ∧ c.csr.vfflags = 0 ∧ c.csr.vffirsta = 0 ∧ c.csr.vffirstb = 0 ∧ c.csr.vfrm = 0 ∧
    c.csr.vspace = 0 ∧ c.csr.fepol = 0 ∧ c.csr.ltlease = 64 ∧ c.csr.xnotify = 0 ∧ c.csr.xseq = 0 ∧ c.csr.xissued = 0
  masks : ∀ k : BitVec 4, c.vec.maskOf k = if k = 0 ∨ k = kvCode then BitVec.allOnes 8192 else 0
  storage : c.vec.regs = [] ∧ c.vec.acc = [] ∧ c.vec.regDirty = 0 ∧ c.vec.tileDirty = 0 ∧ c.vec.high = 0
  empty : c.vec.mts = [] ∧ c.vec.fifo = [] ∧ c.vec.queue = [] ∧ c.vec.cmds = [] ∧ c.vec.early = [] ∧ c.vec.late = [] ∧
    c.vec.held = [] ∧ c.vec.idle = [] ∧ c.vec.pipe = [] ∧ c.ct.early = [] ∧ c.ct.pendingX = [] ∧ c.chain = []
  kept : (c0.prevAsid = some b.asid → c.vec.stash = c0.vec.stash ∧ c.vec.fly = c0.vec.fly) ∧
    (c0.prevAsid ≠ some b.asid → c.vec.stash = [] ∧ c.vec.fly = [])
  grant : c.grant = b.grant ∧ c.asid = some b.asid
  kernel : c.ct.sstatus = c0.ct.sstatus ∧ c.ct.stvec = c0.ct.stvec ∧ c.ct.sie = c0.ct.sie ∧ c.ct.sepc = c0.ct.sepc ∧
    c.csr.tilebase = c0.csr.tilebase ∧ c.csr.framebase = c0.csr.framebase ∧ c.csr.grace = c0.csr.grace

/-- 23 R383, 02 R23, R24: a bind takes a free slot to BINDING, and a clear back; an unmap takes a running one to UNMAPPING, with a
pre-emption pending on its core; a bind or unmap write in any other state is ignored and counted, and changes nothing else. A
commit starts its gang when NCOMMIT slots in BINDING carry distinct gang indices, all in one step, each core bound by R23 (or to
restore), on a die that is no longer gated, no command of another core keeping a register or tile of it empty; an incomplete one, or
one whose address space has no tag (22 R353), starts on no slot. -/
def Obligations.SlotsAndBinding : Prop :=
  ∀ (s : State) (n : Nat) (b : BindRec),
    ((s.slot n).state = .free → exec (.slotCmdBind n b) s = .next (s.withSlot n { state := .binding, bind := some b, heldFor := none })) ∧
    ((s.slot n).state ≠ .free → exec (.slotCmdBind n b) s = .next { s with disp := { s.disp with ignored := s.disp.ignored + 1 } }) ∧
    ((s.slot n).state = .binding → exec (.slotCmdClear n) s = .next (s.withSlot n Slot.free)) ∧
    ((s.slot n).state ≠ .binding → exec (.slotCmdClear n) s = .next s) ∧
    ((s.slot n).state = .running → ∃ t, exec (.slotCmdUnmap n) s = .next t ∧
      OnlyCore s (s.withSlot n { s.slot n with state := .unmapping }) t n
        { s.coreAt n with pendingSince := some s.base.cycle, stopForced := false, ready := false, noticeTaken := false }) ∧
    ((s.slot n).state ≠ .running → exec (.slotCmdUnmap n) s = .next { s with disp := { s.disp with ignored := s.disp.ignored + 1 } }) ∧
    (∀ gang commit, s.disp.slots.Nodup → (s.disp.slots.map (·.1)).Nodup → (∀ k, (s.coreAt k).no = k) →
      let ready := fun (k : Nat) (r : BindRec) => s.slot k = { state := .binding, bind := some r, heldFor := none } ∧ r.gangId = gang ∧ r.commit = commit
      ∀ l : List (Nat × BindRec), (l.map (·.1)).Nodup → (∀ k r, (k, r) ∈ l ↔ ready k r) →
        (l ≠ [] → (∀ x ∈ l, x.2.ncommit = l.length) → (l.map fun x => x.2.gangIx).Nodup → (∀ x ∈ l, (s.takeTag x.2.asid true).isSome = true) →
          ∃ t, exec (.gangStart gang commit) s = .next t ∧
            (∀ x ∈ l, t.slot x.1 = { state := .running, bind := some x.2, heldFor := none } ∧ BoundTo (s.coreAt x.1) (t.coreAt x.1) x.2 ∧
              (∀ d, d = Table.get Die.zero t.base.dies (dieOf x.1) → d.clockGated = false ∧ d.powerGated = false) ∧
              ∀ g ∈ t.base.lost, g ∈ s.base.lost ∧ ∀ p o, placeOf (8 * g) = .window x.1 p o → p ≠ .regs ∧ p ≠ .acc) ∧
            (∀ k, (∀ x ∈ l, x.1 ≠ k) → t.slot k = s.slot k ∧
              { t.coreAt k with tlb := [], chain := [] } = { s.coreAt k with tlb := [], chain := [], vec := { (s.coreAt k).vec with
                cmds := (s.coreAt k).vec.cmds.map fun c => { c with marks := c.marks.filter fun m => l.all fun x => x.1 != m.core } } })) ∧
        ((l = [] ∨ (∀ x ∈ l, x.2.ncommit ≠ l.length) ∨ ¬ (l.map fun x => x.2.gangIx).Nodup ∨ ∃ x ∈ l, s.takeTag x.2.asid true = none) →
          exec (.gangStart gang commit) s = .next s))

/-- A command as a stop leaves it (10 R235). -/
def Sys2Proof.Machine.Cmd.stopped (c : Cmd) : Cmd := if c.phase = .running then { c with phase := .suspended, code := 0, addr := 0 } else c
/-- A core as a stop at a boundary leaves it (22 R363, 11 R418; 09 R187): writes that an MTCONF held have landed; the trap of an element
that has failed is still to come. -/
def Sys2Proof.Machine.Core.stopped (c0 : Core) : Core :=
  let c := if c0.vec.held = [] then c0 else c0.landHeld
  { c with
    phase := .saving, pendingSince := none, awaiting := false, vec := { c.vec with cmds := c.vec.cmds.map Cmd.stopped },
    ct := { c.ct with
      wait := (match c0.ct.wait with | some (.elemTrap a b m e x) => some (.elemTrap a b m e x) | _ => none),
      waitaStart := none, early := [], reservation := none, windowReservation := none } }
/-- The core in focus when its save engine begins to write: lost data that it reads has counted, what was left is performed, every
write tenure has been given up (22 R363; 15 R311). -/
def Sys2Proof.Machine.State.readyToSave (s : State) (b : BindRec) : State :=
  (((if s.savedLost b.lives b.liveb = true then s.countUe else s).saveMeets b.lives b.liveb).performAll).giveUpAll s.core.no
/-- The fixed part of a record (22 R365) holds FORMAT and SIZE, the pc, the level, x1 to x31 and the supervisor's CSRs of a core. -/
structure Sys2Proof.Machine.RecordOf (x size : Nat) (c : Core) : Prop where
  format : fieldAt x 0 32 = 0x0002_0001 ∧ fieldAt x 8 64 = size
  level : recWord x 0x10 = c.ct.pc ∧ (fieldAt x 0x18 8 = 0 ↔ c.ct.user = true)
  regs : ∀ r : XReg, r ≠ 0 → recWord x (0x18 + 8 * r.toNat) = c.ct.getX r
  csrs : recWord x 0x118 = c.ct.sstatus ||| BitVec.twoPow 64 33 ∧ recWord x 0x120 = c.ct.sie ∧ recWord x 0x128 = c.ct.stvec ∧
    recWord x 0x130 = c.ct.sscratch ∧ recWord x 0x138 = c.ct.sepc ∧ recWord x 0x140 = c.ct.scause ∧ recWord x 0x148 = c.ct.stval ∧
    recWord x 0x150 = c.ct.satp ∧ recWord x 0x158 = c.ct.scounteren ∧ recWord x 0x160 = c.ct.senvcfg

/-- 22 R363, R350, 02 R52, 10 R235: after GRACE cycles without READY the stop is due whatever the kernel does, and not before. A stop that is due
lands: the pre-emption is no longer pending, the core is being saved, running commands suspend at their progress points, no
reservation is left, and its pc, registers, entries and micro-threads are as they stand (accesses that were left, log 11, are
performed); at a wfi that has not completed it does not land, and one that is not due does nothing. When its micro-threads have come to
block boundaries and its entries can do no more the save ends: the core is unbound, its slot is free. Into a populated context the
record has gone, its fixed part (R365) at the context's first byte, and the save is reported, with what no record has room for
kept by dispatch (log 60); for one that is not populated the job's failure is reported (R369). -/
def Sys2Proof.Machine.preemptionAndSaveClaim : Prop :=
  ∀ (s : State) (n : Nat),
    let c := s.coreAt n
    (∀ since, c.pendingSince = some since → since + c.csr.grace ≤ s.base.cycle → c.ready = false →
      ∃ t, exec (.preemptForcedStop n) s = .next t ∧ OnlyCore s s t n { c with stopForced := true }) ∧
    ((c.pendingSince = none ∨ c.ready = true ∨ (∃ since, c.pendingSince = some since ∧ s.base.cycle < since + c.csr.grace)) →
      ∃ t, exec (.preemptForcedStop n) s = .next t ∧ OnlyCore s s t n c) ∧
    ((∀ k, (s.coreAt k).no = k) → c.phase = .running → c.pendingSince.isSome = true → (c.ready = true ∨ c.stopForced = true) →
      c.ct.wait ≠ some .wfi →
      let u := (s.focusOn n).performAll
      ((∀ l ∈ c.vec.late, l.op.isStore = true) → WriteBy (s.focusOn n) u) ∧ (c.vec.late = [] → u = s.focusOn n) ∧
        ∃ t, exec (.preemptStop n) s = .next t ∧ OnlyCore u u t n u.core.stopped) ∧
    ((c.phase ≠ .running ∨ c.pendingSince = none ∨ (c.ready = false ∧ c.stopForced = false) ∨ c.ct.wait = some .wfi) →
      exec (.preemptStop n) s = .next s) ∧
    ((∀ k, (s.coreAt k).no = k) →
      (c.phase = .saving → (s.focusOn n).savable = true → ∀ b, (s.slot n).bind = some b →
        let u := (s.focusOn n).readyToSave b
        let size := 8 * (u.saveRecord b.lives b.liveb).length
        ∃ t, exec (.saveComplete n) s = .next t ∧ (t.coreAt n).phase = .unbound ∧ (t.coreAt n).asid = none ∧
          (t.coreAt n).vec.queue = [] ∧ (t.coreAt n).vec.cmds = [] ∧ t.slot n = Slot.free ∧
          (∀ k ≠ n, t.slot k = s.slot k ∧ (t.coreAt k).phase = (s.coreAt k).phase) ∧
          (u.spanReaches b.ctx size true = false → t.sheep = { s.sheep with reports := s.sheep.reports ++ [.failed b.gangId 2] }) ∧
          (u.spanReaches b.ctx size true = true →
            t.sheep = { s.sheep with
              reports := s.sheep.reports ++ [.saved n b.gangId c.csr.gangix.toNat ((s.focusOn n).savedLost b.lives b.liveb)] } ∧
            t.parkedAt b.ctx = u.toPark b.ctx ∧
            (b.ctx % 64 = 0 → b.ctx + size ≤ Config.ddrBytes → u.Coherent → (∀ a, u.underKey .block a) →
              ∃ x, RecordOf x size u.core ∧ ∀ j < 1024, t.byteAt (b.ctx + j) = x / 256 ^ j % 256))) ∧
      ((c.phase ≠ .saving ∨ (s.focusOn n).savable = false) →
        ∃ t, exec (.saveComplete n) s = .next t ∧ OnlyCore s s t n c))

/-- 22 R368, R369: a core that restores, from a record whose fixed part and whose whole length are populated and readable and that
does not say LOST, runs with the pc, level, x registers, satp and the writable bits of sstatus that the record holds, and waits for what it waited for when
it stopped (log 60). Another record starts nothing:
the core is unbound, its slot free, and the failure is reported. -/
def Sys2Proof.Machine.restoresClaim : Prop :=
  ∀ (s : State) (n : Nat) (b : BindRec), (∀ k, (s.coreAt k).no = k) → (s.slot n).bind = some b → (s.coreAt n).phase = .restoring →
    let u := s.focusOn n
    let (f, s1) := u.readRecord b.ctx 128
    let x := f.foldr (fun v r => v + 2 ^ 64 * r) 0
    let size := fieldAt x 8 64
    let whole := u.spanReaches b.ctx 1024 false = true ∧ u.lostAt b.ctx 1024 = false ∧ fieldAt x 4 32 % 2 = 0 ∧ 1024 ≤ size ∧
      s1.spanReaches b.ctx size false = true ∧ s1.lostAt b.ctx size = false
    (whole → ∃ t, exec (.restoreComplete n) s = .next t ∧
      let c := t.coreAt n
      c.phase = .running ∧ ((∀ i pa lt wk, (s.parkedAt b.ctx).wait ≠ some (.sleep i pa lt wk)) → c.ct.wait = (s.parkedAt b.ctx).wait) ∧ c.chain = [] ∧ c.ct.pc = recWord x 0x10 ∧ (c.ct.user = true ↔ fieldAt x 0x18 8 = 0) ∧
        (∀ r : XReg, r ≠ 0 → c.ct.getX r = recWord x (0x18 + 8 * r.toNat)) ∧ c.ct.sstatus = recWord x 0x118 &&& 0xC_0122 ∧ c.ct.satp = recWord x 0x150) ∧
    (¬ whole → ∃ t, exec (.restoreComplete n) s = .next t ∧ (t.coreAt n).phase = .unbound ∧ t.slot n = Slot.free ∧
      t.sheep = { s.sheep with reports := s.sheep.reports ++ [.failed b.gangId 2] }) ∧
    (∀ s' : State, (s'.coreAt n).phase ≠ .restoring → (∀ k, (s'.coreAt k).no = k) →
      ∃ t, exec (.restoreComplete n) s' = .next t ∧ OnlyCore s' s' t n (s'.coreAt n))

/-! ## Function commands, queues, regions (23, 24) -/

/-- A function's command ends: BUSY falls with a RESULT, and `t` is otherwise `u` (24 R395). -/
def Sys2Proof.Machine.Finishes (u t : State) (fn : Nat) (r : BitVec 8) : Prop :=
  t = { u with base := { u.base with
    pages := Table.set FnPage.zero u.base.pages fn { u.fnPage fn with busy := false, result := r, resetting := none } } }
/-- A write of FCMD has started a command of a function, with its argument (24 R395); in FATAL none runs (R404). -/
def Sys2Proof.Machine.State.started (s : State) (fn op : Nat) (arg : Word) : Prop :=
  s.base.fw ≠ .fatal ∧ (s.fnPage fn).busy = true ∧ (s.fnPage fn).lastOp = BitVec.ofNat 8 op ∧ (s.fnPage fn).arg = arg ∧ (s.fnPage fn).resetting = none
/-- Another queue holds the local number, or the address space under another root (24 R396, check 5). -/
def Sys2Proof.Machine.State.queueTaken (s : State) (fn : Nat) (r : RegRec) : Prop :=
  ∃ q ∈ s.sheep.queues, q.state ≠ .reset ∧ ((q.fn = fn ∧ q.localq = r.localq) ∨ (q.asid = r.asid ∧ q.rootPpn ≠ r.rootPpn))
/-- Ring, status block and the last byte of the contexts lie in populated regions (24 R396, check 6). -/
def Sys2Proof.Machine.State.queueFits (s : State) (r : RegRec) : Prop :=
  s.populated r.ring (128 * 2 ^ r.logSize) = true ∧ s.populated r.status 64 = true ∧
    0 < r.ctxBase + r.ctxStride * 2 ^ r.logSize ∧ s.reaches (r.ctxBase + r.ctxStride * 2 ^ r.logSize - 1) false = true

/-- 24 R395, R396, R399: REGQUEUE, ASSIGN, REGIONTAB and RESETQUEUE that a write of FCMD started, with the argument it took, end with the
RESULT of the first check that fails, in the model's order where the rules give none (ASSIGN to a root that is no region is BADARG: log 52),
and change nothing then, but that lost data which was met counts (25 R413); one that FCMD did not start does nothing (log 53). On success a queue is
registered, ACTIVE with every index 0, under the lowest free number; a function is confined to a subtree; the region table is
replaced; a queue is RESETTING with the command still running, until no write of its work is in flight, and then in RESET with
RESULT DONE. -/
def Obligations.FunctionCommands : Prop :=
  ∀ (s : State) (fn : Nat) (arg : Word),
    (¬ s.started fn 1 arg → exec (.regqueue fn arg) s = .next s) ∧
    (s.started fn 1 arg →
      let (x, s1) := s.outsideNat arg.toNat 8
      let r := RegRec.parse x
      let ends := fun u code => ∃ t, exec (.regqueue fn arg) s = .next t ∧ Finishes u t fn code
      if arg.toNat % 64 ≠ 0 then ends s resBadArg
      else if s.readable arg.toNat 64 = false then ends (s.noteLost arg.toNat 64) resCtxFault
      else if r.ok = false then ends s1 resBadArg
      else if s1.mayActOn fn r.root = false then ends s1 resDenied
      else (s1.queueTaken fn r → ends s1 resInUse) ∧
        (¬ s1.queueTaken fn r → ¬ s1.queueFits r → ends s1 resCtxFault) ∧
        (¬ s1.queueTaken fn r → s1.queueFits r → (∀ g < 4096, ∃ q ∈ s1.sheep.queues, q.gq = g) → ends s1 resNoSpace) ∧
        (∀ g < 4096, ¬ s1.queueTaken fn r → s1.queueFits r → (∀ q ∈ s1.sheep.queues, q.gq ≠ g) →
          (∀ k < g, ∃ q ∈ s1.sheep.queues, q.gq = k) →
          ∃ t q, exec (.regqueue fn arg) s = .next t ∧ (t.fnPage fn).busy = false ∧ (t.fnPage fn).result = resDone ∧
            t.queueOf g = some q ∧ q.fn = fn ∧ q.localq = r.localq ∧ q.ring = r.ring ∧ q.asid = r.asid ∧ q.rootPpn = r.rootPpn ∧
            q.root = r.root ∧ q.capBase = r.capBase ∧ q.capLen = r.capLen ∧ q.ringCap.tag = true ∧ q.statusCap.tag = true ∧ q.recordCap.tag = true ∧ q.ctxCap.tag = true ∧
            q.ctxBase = r.ctxBase % 2 ^ 64 ∧ q.ctxStride = r.ctxStride ∧ q.state = .active ∧ q.head = 0 ∧ q.done = 0 ∧ q.tail = 0 ∧
            ∀ k ≠ g, (∀ o, s1.queueOf k = some o → o.fn ≠ fn ∨ o.localq ≠ r.localq) → (s1.sheep.queues.map Queue.gq).Nodup →
              t.queueOf k = s1.queueOf k)) ∧
    (¬ s.started fn 4 arg → exec (.assign fn arg) s = .next s) ∧
    (s.started fn 4 arg →
      let f := (arg.extractLsb' 16 9).toNat
      let root := (arg.extractLsb' 0 16).toNat
      let ends := fun u code => ∃ t, exec (.assign fn arg) s = .next t ∧ Finishes u t fn code
      if fn ≠ 0 then ends s resDenied
      else if f = 0 ∨ 256 < f ∨ s.regionOf root = none then ends s resBadArg
      else ends { s with base := { s.base with assigned := Table.set 0 s.base.assigned f (root + 1) } } resDone) ∧
    (¬ s.started fn 5 arg → exec (.regiontab fn arg) s = .next s) ∧
    (s.started fn 5 arg →
      let base := (arg.extractLsb' 12 44).toNat * 4096
      let n := (arg.extractLsb' 0 4).toNat
      let ends := fun u code => ∃ t, exec (.regiontab fn arg) s = .next t ∧ Finishes u t fn code
      if fn ≠ 0 then ends s resDenied
      else if n < 4 ∨ 12 < n then ends s resBadArg
      else if s.readable base (128 * 2 ^ n) = false then ends (s.noteLost base (128 * 2 ^ n)) resCtxFault
      else ∃ t, exec (.regiontab fn arg) s = .next t ∧ t.base.regionTab = some base ∧ t.base.regionLog = n ∧
        (t.fnPage fn).busy = false ∧ (t.fnPage fn).result = resDone) ∧
    (¬ s.started fn 2 arg → exec (.resetqueue fn arg) s = .next s) ∧
    (s.started fn 2 arg →
      let mine := fun (q : Queue) => q.fn = fn ∧ q.localq = (arg.extractLsb' 0 9).toNat
      ((∀ q ∈ s.sheep.queues, ¬ mine q) → ∃ t, exec (.resetqueue fn arg) s = .next t ∧ Finishes s t fn resNoQueue) ∧
      (∀ as q bs, s.sheep.queues = as ++ q :: bs → (∀ o ∈ as, ¬ mine o) → mine q →
        (q.state = .reset → ∃ t, exec (.resetqueue fn arg) s = .next t ∧ Finishes s t fn resDone) ∧
        (q.state ≠ .reset → ∃ t, exec (.resetqueue fn arg) s = .next t ∧ (t.queueOf q.gq).map Queue.state = some .resetting ∧
          (t.fnPage fn).resetting = some q.gq ∧ (t.fnPage fn).busy = true ∧
          ∀ j ∈ s.sheep.jobs, j.live = true → j.queue = q.gq → j.gang ≠ 0 →
            ∀ k b, (s.slot k).state = .running ∨ (s.slot k).state = .unmapping ∨ (s.slot k).state = .binding →
              (s.slot k).bind = some b → b.gangId = j.gang → t.slot k = Slot.free ∧ (t.coreAt k).phase = .unbound))) ∧
    ∀ g, ((∀ q, s.queueOf g = some q → q.state ≠ .resetting) → exec (.queueResetComplete g) s = .next s) ∧
      (∀ q, s.queueOf g = some q → q.state = .resetting → ∃ t, exec (.queueResetComplete g) s = .next t ∧
        (t.queueOf g).map Queue.state = some .reset ∧
        ((s.fnPage q.fn).resetting = some g → (t.fnPage q.fn).busy = false ∧ (t.fnPage q.fn).result = resDone))

/-- A doorbell write that delivers: 4 bytes, or 8 with a zero upper half (24 R397). -/
def Sys2Proof.Machine.delivers (bytes : Nat) (v : Word) : Prop := bytes = 4 ∨ (bytes = 8 ∧ v.toNat < 2 ^ 32)

/-- 24 R397, R398, 23 R374 to R376: a doorbell of a registered queue delivers TAIL: an equal one has no effect, one that lies before or
leaves more than SIZE unretired puts an active queue into ERROR with OVERRUN, another is taken and told to Sheepdog. A queue in
ERROR ignores its doorbell. Every other doorbell is ignored and counted. A region doorbell makes Sheepdog take the values of the control block, all of them
unless a root's CORES would meet another root's (25 R415): then none. While management core 0 is
gated, the lantern holds the write, up to 64, and then holds its sender back. -/
def Obligations.Doorbells : Prop :=
  ∀ (s : State) (fn slot bytes : Nat) (v : Word),
    (s.base.mgmtGated.getLsbD 0 = true → s.base.lantern.length < 64 →
      exec (.queueDoorbell fn slot bytes v) s = .next { s with base := { s.base with
        lantern := s.base.lantern ++ [⟨.function fn, Config.basecampBase + 0x100_0000 + 0x1000 * fn + 8 * slot, bytes, v⟩] } } ∧
      exec (.regionDoorbell fn bytes v) s = .next { s with base := { s.base with
        lantern := s.base.lantern ++ [⟨.function fn, Config.basecampBase + 0x100_0FF8 + 0x1000 * fn, bytes, v⟩] } }) ∧
    (s.base.mgmtGated.getLsbD 0 = true → 64 ≤ s.base.lantern.length →
      exec (.queueDoorbell fn slot bytes v) s = .next { s with stalled := true } ∧
      exec (.regionDoorbell fn bytes v) s = .next { s with stalled := true }) ∧
    (s.base.mgmtGated.getLsbD 0 = false →
      let mine := fun (q : Queue) => q.fn = fn ∧ q.localq = slot
      let ignored : State := { s with base := { s.base with ignored := s.base.ignored + 1 } }
      let tail := v.toNat % 2 ^ 32
      let noted : State := { s with base := { s.base with aperture := Table.set 0 s.base.aperture (512 * fn + slot) (BitVec.ofNat 64 tail) } }
      ((∀ q ∈ s.sheep.queues, ¬ mine q) ∨ ¬ delivers bytes v → exec (.queueDoorbell fn slot bytes v) s = .next ignored) ∧
      (∀ as q bs, s.sheep.queues = as ++ q :: bs → (∀ o ∈ as, ¬ mine o) → mine q → delivers bytes v →
        (s.base.fw = .fatal ∨ q.state = .resetting ∨ q.state = .reset ∨ q.task = true →
          exec (.queueDoorbell fn slot bytes v) s = .next ignored) ∧
        (s.base.fw ≠ .fatal → q.task = false →
          (q.state = .error → exec (.queueDoorbell fn slot bytes v) s = .next s) ∧
          (q.state = .active → tail = q.tail → exec (.queueDoorbell fn slot bytes v) s = .next noted) ∧
          (q.state = .active → tail ≠ q.tail → s.queueOf q.gq = some q →
            (2 ^ q.logSize < distance32 q.done tail ∨ 2 ^ 31 ≤ distance32 q.tail tail →
              ∃ t, exec (.queueDoorbell fn slot bytes v) s = .next t ∧
                t.queueOf q.gq = some { q with state := .error, errCode := 2, errIdx := tail, errAddr := 0 }) ∧
            (distance32 q.done tail ≤ 2 ^ q.logSize → distance32 q.tail tail < 2 ^ 31 →
              ∃ t, exec (.queueDoorbell fn slot bytes v) s = .next t ∧ t.queueOf q.gq = some { q with tail := tail } ∧
                t.sheep.doorbells = s.sheep.doorbells ++ [q.gq] ∧ { t with sheep := s.sheep } = noted)))) ∧
      let i := v.toNat % 2 ^ 16
      let a := s.base.regionTab.getD 0 + 128 * i
      let ok := delivers bytes v ∧ s.base.fw ≠ .fatal ∧ s.base.regionTab ≠ none ∧ i < 2 ^ s.base.regionLog ∧ s.mayActOn fn i = true
      (¬ ok → exec (.regionDoorbell fn bytes v) s = .next ignored) ∧
      (ok → s.readable a 128 = false → exec (.regionDoorbell fn bytes v) s = .next
        { ignored with base := { ignored.base with ueCount := (s.noteLost a 128).base.ueCount } }) ∧
      (ok → s.readable a 128 = true → ∃ t r, exec (.regionDoorbell fn bytes v) s = .next t ∧ t.regionOf i = some r ∧
        let r' := Region.parse (s.outsideNat a 16).1 a (s.regionOf i)
        let clash := r'.parent = 0xFFFF ∧ s.coresConflict i r'.cores = true
        let shape := fun (x : Region) => { x with phase := none, started := none }
        (¬ clash → shape r = shape r') ∧
          (clash → (∀ o, s.regionOf i = some o → shape r = shape o) ∧ (s.regionOf i = none → shape r = shape { r' with cores := 0 }))))

/-- 23 R378, R385, R386, R389: a period that has run out starts again with USED 0, its region no longer blocked. The oldest candidate of
a class that has been READY or PREEMPTED for AGE becomes the class's anchored gang, where there is none; when its window has
passed and slots are short, those being unmapped that it may take counted, the most recently committed gang of its class or a lower one is
unmapped first, its slots held for the class. A management task whose
trigger is crossed puts a copy of its record into its queue; a crossing before the last release has retired is counted, one that
falls back before Sheepdog looks still releases the task, and a queue that is full or not active holds the release. A pass of Sheepdog needs running firmware, and with nothing to do changes nothing but its own time. -/
def Obligations.SheepdogWork : Prop :=
  ∀ (s : State) (root cls k : Nat),
    (∀ r at', s.regionOf root = some r → r.started = some at' → at' + s.periodOf root * 2500 ≤ s.base.cycle →
      ∃ t, exec (.periodStart root) s = .next t ∧
        t.regionOf root = some { r with used := 0, blocked := false, started := some (at' + s.periodOf root * 2500) } ∧
        ∀ i ≠ root, t.regionOf i = s.regionOf i) ∧
    ((∀ r at', s.regionOf root = some r → r.started = some at' → s.base.cycle < at' + s.periodOf root * 2500) →
      exec (.periodStart root) s = .next s) ∧
    (s.anchorOf root cls = none → ∀ j, oldest (s.candidates root cls) = some j →
      (j.state = .ready ∨ j.state = .preempted) → j.since + s.ageOf root cls ≤ s.base.cycle →
      exec (.gangAnchor root cls) s = .next { s with sheep := { s.sheep with
        anchors := s.sheep.anchors ++ [{ root := root, cls := cls, job := j.uid, anchoredAt := s.base.cycle }] } }) ∧
    ((s.anchorOf root cls).isSome = true ∨ s.candidates root cls = [] → exec (.gangAnchor root cls) s = .next s) ∧
    (s.anchorOf root cls = none → exec (.anchorWindowExpiry root cls) s = .next s) ∧
    (∀ a j, s.anchorOf root cls = some a → s.job a.job = some j →
      (s.base.cycle < a.anchoredAt + s.windowOf root cls → exec (.anchorWindowExpiry root cls) s = .next s) ∧
      (a.anchoredAt + s.windowOf root cls ≤ s.base.cycle → (s.freeSlots root).length + s.comingIn root cls < j.need →
        (s.disp.slots.map (·.1)).Nodup →
        ∀ g c n l, ((s.runningGangs root).filter fun x => decide (cls ≤ x.2.1)) = (g, c, n) :: l →
          ∃ t, exec (.anchorWindowExpiry root cls) s = .next t ∧
            ∀ m x, s.slot m = x → x.state = .running → x.gang = g → (t.slot m).state = .unmapping ∧ (t.slot m).heldFor = some cls)) ∧
    (∀ m, s.sheep.tasks[k]? = some m →
      let now := s.triggerNow m.trigger
      let noted := fun (m' : MgmtTask) => ({ s with sheep := { s.sheep with tasks := s.sheep.tasks.set k m' } } : State)
      let seen : MgmtTask := if now = m.above then m
        else if now = false then { m with above := false }
        else if s.taskBusy m = true ∨ m.pending = true ∨ m.crossed = true then { m with above := true, coalesced := m.coalesced + 1 }
        else { m with above := true, crossed := true }
      (seen.crossed = false → exec (.mgmtTaskRelease k) s = .next (noted seen)) ∧
      (seen.crossed = true → ∀ q, s.queueOf m.queue = some q →
        (2 ^ q.logSize ≤ distance32 q.done q.tail ∨ q.state ≠ .active →
          exec (.mgmtTaskRelease k) s = .next (noted { seen with crossed := false, pending := true })) ∧
        (distance32 q.done q.tail < 2 ^ q.logSize → q.state = .active → ∃ t, exec (.mgmtTaskRelease k) s = .next t ∧
          t.queueOf m.queue = some { q with tail := (q.tail + 1) % 2 ^ 32 } ∧ t.sheep.doorbells = s.sheep.doorbells ++ [q.gq] ∧
          t.sheep.tasks[k]? = some { seen with crossed := false, pending := false, last := some q.tail } ∧
          (q.ring % 128 = 0 → q.ring + 128 * 2 ^ q.logSize ≤ Config.ddrBytes → s.Coherent → (∀ a, s.underKey .block a) →
            ∀ j < 128, t.byteAt (q.ring + 128 * (q.tail % 2 ^ q.logSize) + j) = m.record / 256 ^ j % 256)))) ∧
    (s.sheep.tasks[k]? = none → exec (.mgmtTaskRelease k) s = .next s) ∧
    (s.base.serving = false → exec .sheepdogPass s = .next s) ∧
    (s.base.serving = true → ∃ t, exec .sheepdogPass s = .next t ∧ t.sheep.lastPass = s.base.cycle ∧
      (s.sheep.doorbells = [] → s.sheep.reports = [] → s.sheep.jobs = [] → s.sheep.regions = [] →
        (∀ q ∈ s.sheep.queues, q.head = q.tail) → (∀ m ∈ s.sheep.tasks, m.pending = false) →
        t = { s with sheep := { s.sheep with lastPass := s.base.cycle, workSince := none } }))

/-! ## Homes, windows, the host -/

/-- No core holds a copy of a block. -/
def Sys2Proof.Machine.State.uncached (s : State) : Prop := ∀ c ∈ s.coresListed, c.copies = []
/-- 15 R308 to R311, R316, R317, R322, 13 R279, R280: a request that stands alone carries its agent's number and its age, the LTIME of
the agent's core, of the issuing core for a die's own engine, or the home die's time where there is none (log 34). A message that carries an
old incarnation is discarded and counted, and the agent's next carries the new one (R319, log 28). Another is queued while another agent holds the write tenure of its entry or an
earlier request waits; else it is served. An agent without logical time takes no tenure. A core's read moves rts to the end of the reader's lease and the
reader's LTIME to the version's wts. A write takes a wts after every lease and after the writer's LTIME, becomes the version, and
keeps the tenure on a block entry only. A recall ends the tenure at the last version's wts, the holder keeps a lease to its own LTIME
(log 43), and no byte changes. The first queued request is served, unless it stands for an access that its own core is still to
make. A host read takes its turn as any request, recalls and takes no lease; a host write is versioned at the home after every lease. A write by
device-physical address arrives at the target's window where the part accepts it, and changes nothing where it does not. -/
def Obligations.Homes : Prop :=
  ∀ (s : State) (n asid pa bytes : Nat) (data : Word) (big : BitVec 512), (∀ k, (s.coreAt k).no = k) →
    let k := s.keyOfPa asid pa
    let u := s.focusOn n
    let e := (u.tenure k pa).clamp (u.dieTime (u.entryDie k pa))
    let c := s.coreAt n
    let size := bytes = 1 ∨ bytes = 2 ∨ bytes = 4 ∨ bytes = 8
    let queued := fun w : Bool => exec (if w then .homeWriteRequest n asid pa bytes data else .homeReadRequest n asid pa) s =
      .next { s with dir := { s.dir with forwards := s.dir.forwards ++
        [if w then ⟨none, none, n, s.requestAge n pa, s.senderOf n, s.base.cycle, asid, pa, true, bytes, data.setWidth 512⟩
         else ⟨none, none, n, s.requestAge n pa, s.senderOf n, s.base.cycle, asid, pa, false, 0, 0⟩] } }
    let refused := fun (i : Instr) => ∃ t, exec i s = .next t ∧ t.base.staleMsg = min (s.base.staleMsg + 1) (2 ^ 64 - 1) ∧
      t.senderOf n = s.incarnationOf n ∧ t.dir.forwards = s.dir.forwards ∧ (s.base.logBase = 0 → ∀ a, t.byteAt a = s.byteAt a)
    (agentCore n = none → s.requestAge n pa =
      if 512 ≤ n ∧ n < 520 ∧ dieOf s.core.no = n % 4 then s.core.ltime else s.dieTime (homeDie pa)) ∧
    (∀ m, agentCore n = some m → s.requestAge n pa = (s.coreAt m).ltime) ∧
    (isAgent n = false → exec (.homeReadRequest n asid pa) s = .next s ∧ exec (.homeWriteRequest n asid pa bytes data) s = .next s) ∧
    (placeOf pa = .ddr → isAgent n = true → s.senderOf n ≠ s.incarnationOf n →
      refused (.homeReadRequest n asid pa) ∧ (size → pa % bytes = 0 → refused (.homeWriteRequest n asid pa bytes data))) ∧
    (placeOf pa = .ddr → isAgent n = true → s.senderOf n = s.incarnationOf n →
      let wait := s.mustWait n (s.requestAge n pa) asid pa
      (wait = true → queued false ∧ (size → pa % bytes = 0 → queued true)) ∧
      (wait = false → agentCore n = none →
        (∃ t, exec (.homeReadRequest n asid pa) s = .next t ∧ (t.tenure .block pa).holder = none ∧ t.dir.forwards = s.dir.forwards) ∧
        (size → pa % bytes = 0 → ∃ t, exec (.homeWriteRequest n asid pa bytes data) s = .next t ∧ (t.tenure .block pa).holder = none ∧
          t.dir.forwards = s.dir.forwards ∧
          (s.Coherent → s.underKey .block pa → KeepsBytes s t pa bytes ∧ t.holds pa bytes (data.toNat % 2 ^ (8 * bytes))))) ∧
      (wait = false → n < 192 → e.holder = none →
        (c.copy (blockOf pa) = none → ∃ t, exec (.homeReadRequest n asid pa) s = .next t ∧
          t.tenure k pa = { e with rts := ltMax e.rts (ltAdd (ltMax e.wts (some c.ltime)) c.csr.ltlease.toNat) } ∧
          (t.coreAt n).ltime = raise c.ltime e.wts ∧ (s.Coherent → ∀ a, t.byteAt a = s.byteAt a)) ∧
        (size → pa % bytes = 0 → ∃ t, exec (.homeWriteRequest n asid pa bytes data) s = .next t ∧
          let w := ltMax (some c.ltime) (ltAdd e.rts 1)
          (t.tenure k pa).wts = w ∧ (t.tenure k pa).rts = w ∧ (t.tenure k pa).holder = (if k = .block then some n else none) ∧
          (t.coreAt n).ltime = raise c.ltime w ∧
          (s.Coherent → s.underKey k pa → KeepsBytes s t pa bytes ∧ t.holds pa bytes (data.toNat % 2 ^ (8 * bytes)))))) ∧
    ((s.tenure k pa).holder = none → exec (.recall asid pa) s = .next s) ∧
    (∀ h, (s.tenure k pa).holder = some h → ∃ t, exec (.recall asid pa) s = .next t ∧
      let x := (s.tenure k pa).clamp (s.dieTime (s.entryDie k pa))
      t.tenure k pa = { x with holder := none, home := x.wts, rts := ltMax x.rts (some (s.coreAt h).ltime) } ∧
      (s.Coherent → ∀ a, t.byteAt a = s.byteAt a)) ∧
    (s.forwardsOf asid pa = [] → exec (.forwardServed asid pa) s = .next s) ∧
    (s.forwardsOf asid pa ≠ [] → (∃ b : BitVec 32, ∀ f ∈ s.forwardsOf asid pa, (f.age - b).toNat < 2 ^ 30) →
      ∃ t f, exec (.forwardServed asid pa) s = .next t ∧ f ∈ s.forwardsOf asid pa ∧
        (f.seat = none → t.dir.forwards = s.dir.forwards.erase f) ∧ (f.seat ≠ none → t = s) ∧
        ∀ g ∈ s.forwardsOf asid pa, ltBefore (some g.age) (some f.age) = false ∧ (g.age = f.age → f.agent ≤ g.agent)) ∧
    (placeOf pa = .ddr → 1 ≤ bytes → pa % 64 + bytes ≤ 64 → s.senderOf 528 = s.incarnationOf 528 →
      s.mustWait 528 (s.dieTime (homeDie pa)) 0 pa = true → (∀ h ∈ s.base.lantern, h.source ≠ .agent 528) →
      exec (.hostCxlWrite pa bytes big) s = .next { s with dir := { s.dir with forwards := s.dir.forwards ++
        [⟨none, none, 528, s.dieTime (homeDie pa), s.senderOf 528, s.base.cycle, 0, pa, true, bytes, big⟩] } } ∧
      exec (.hostCxlRead pa bytes) s = .next { s with dir := { s.dir with forwards := s.dir.forwards ++
        [⟨none, none, 528, s.dieTime (homeDie pa), s.senderOf 528, s.base.cycle, 0, pa, false, bytes, 0⟩] } }) ∧
    (placeOf pa = .ddr → 1 ≤ bytes → pa % 64 + bytes ≤ 64 → s.senderOf 528 = s.incarnationOf 528 →
      s.mustWait 528 (s.dieTime (homeDie pa)) 0 pa = false →
      (∃ t, exec (.hostCxlRead pa bytes) s = .next t ∧ (t.tenure .block pa).holder = none ∧ (s.Coherent → ∀ a, t.byteAt a = s.byteAt a)) ∧
      ∃ t, exec (.hostCxlWrite pa bytes big) s = .next t ∧ (t.tenure .block pa).holder = none ∧
        (t.tenure .block pa).rts = (t.tenure .block pa).wts ∧ (t.tenure .block pa).home = (t.tenure .block pa).wts ∧
        ((s.tenure .block pa).holder = none →
          let e := (s.tenure .block pa).clamp (s.dieTime (homeDie pa))
          (t.tenure .block pa).wts = ltMax (some (s.dieTime (homeDie pa))) (ltAdd e.rts 1)) ∧
        (s.Coherent → s.underKey .block pa → KeepsBytes s t pa bytes ∧ t.holds pa bytes (big.toNat % 2 ^ (8 * bytes)))) ∧
    (placeOf pa ≠ .ddr → exec (.homeReadRequest n asid pa) s = .next s ∧ exec (.homeWriteRequest n asid pa bytes data) s = .next s ∧
      exec (.hostCxlRead pa bytes) s = .next s ∧ exec (.hostCxlWrite pa bytes big) s = .next s) ∧
    ∀ c p o, placeOf pa = .window c p o →
      (s.reaches pa true = false → exec (.windowAccess c pa bytes true data) s = .next s) ∧
      (size → pa % bytes = 0 → s.reaches pa true = true → ∃ t, exec (.windowAccess c pa bytes true data) s = .next t ∧ WriteBy s t ∧
        (s.Coherent → plainPlace pa bytes → KeepsBytes s t pa bytes ∧
          (¬ s.holdsWrite pa → t.holds pa bytes (data.toNat % 2 ^ (8 * bytes)))))

/-! ## Logical time, lost agents -/

/-- `c'` is `c` without any lease, its frame-chain cache empty, the drop noted at its LTIME (15 R321). -/
structure Sys2Proof.Machine.LosesLeases (c c' : Core) : Prop where
  gone : c'.leases = [] ∧ c'.chain = [] ∧ c'.dropAt = c.ltime
  copies : (∀ b x, c'.copy b = some x → x.lease = none ∧ ∃ y, c.copy b = some y ∧ x = { y with lease := none }) ∧
    ∀ b, c.copy b = none → c'.copy b = none
  rest : { c' with leases := [], chain := [], dropAt := 0, copies := [] } = { c with leases := [], chain := [], dropAt := 0, copies := [] }

/-- 15 R308, R319 to R321: LTIME rises by 1 each LTTICK cycles. A core whose LTIME has moved 2^29 ticks since it last did drops every
lease, at that tick or jump. A broadcast of the module time raises a core that lags by more than 2^28 ticks to it less 2^28. A sweep clamps
each entry that a slice homes. A message of an old incarnation is discarded and counted. An agent that a home has waited 2^22 cycles for is
declared dead, and no other, but that of the host and the guylines the environment alone knows how long they have owed an answer (log 28): the
agent advances by one incarnation, a core is offline until its self-test and holds no tenure, and an entry keeps its last write-back,
with that version's wts. -/
def Obligations.LogicalTime : Prop :=
  ∀ (s : State),
    (s.core.tickAt + s.core.csr.lttick ≤ s.base.cycle →
      let c := { s.core with ltime := s.core.ltime + 1, tickAt := s.core.tickAt + s.core.csr.lttick, events := (s.note 17).core.events }
      ((s.core.ltime - s.core.dropAt).toNat + 1 < 2 ^ 29 → exec .ltimeSelfIncrement s = .next { s with core := c }) ∧
      (2 ^ 29 ≤ (s.core.ltime - s.core.dropAt).toNat + 1 →
        ∃ d, exec .ltimeSelfIncrement s = .next { s with core := d } ∧ LosesLeases c d)) ∧
    (s.base.cycle < s.core.tickAt + s.core.csr.lttick → exec .ltimeSelfIncrement s = .next s) ∧
    ((s.core.ltime - s.core.dropAt).toNat < 2 ^ 29 → exec .leaseDrop s = .next s) ∧
    (2 ^ 29 ≤ (s.core.ltime - s.core.dropAt).toNat → ∃ d, exec .leaseDrop s = .next { s with core := d } ∧ LosesLeases s.core d) ∧
    (∃ t, exec .moduleTimeBroadcast s = .next t ∧ ∀ n < 192,
      let now := s.moduleTimeNow
      let c := s.coreAt n
      let lag := (now - c.ltime).toNat
      let far := 2 ^ 28 < lag ∧ lag < 2 ^ 31
      let moved := (c.ltime - c.dropAt).toNat + if far then lag - 2 ^ 28 else 0
      let d := { c with moduleTime := now, ltime := if far then now - BitVec.ofNat 32 (2 ^ 28) else c.ltime }
      (moved < 2 ^ 29 → t.coreAt n = d) ∧ (2 ^ 29 ≤ moved → LosesLeases d (t.coreAt n))) ∧
    (Table.wf Tenure.untouched s.dir.blocks = true → Table.wf Tenure.untouched s.dir.tiles = true → ∀ die,
      ∃ t, exec (.sliceClampSweep die) s = .next t ∧ ∀ pa i,
        t.tenure .block pa = (if homeDie (64 * blockOf pa) = die then (s.tenure .block pa).clamp (s.dieTime die) else s.tenure .block pa) ∧
        t.tenure (.tile i) pa = (if s.entryDie (.tile i) 0 = die then (s.tenure (.tile i) pa).clamp (s.dieTime die) else s.tenure (.tile i) pa)) ∧
    (∀ agent old, (old = s.incarnationOf agent → exec (.staleMessage agent old) s = .next s) ∧
      (old ≠ s.incarnationOf agent → ∃ t, exec (.staleMessage agent old) s = .next t ∧
        t.base.staleMsg = min (s.base.staleMsg + 1) (2 ^ 64 - 1) ∧ (agent, old) ∈ t.dir.staleSeen ∧
        ((agent, old) ∈ s.dir.staleSeen → t = { s with base := { s.base with staleMsg := min (s.base.staleMsg + 1) (2 ^ 64 - 1) } }))) ∧
    ∀ agent,
      (s.recallOver agent = false → exec (.recallTimeout agent) s = .next s) ∧
      (s.recallOver agent = true → ∃ t, exec (.recallTimeout agent) s = .next t ∧ t.incarnationOf agent = (s.incarnationOf agent + 1) % 2 ^ 16 ∧
        ∀ n, agentCore agent = some n →
          (s.isRetired n = false → (t.slot n).state = .offline ∧ (t.coreAt n).phase = .offline ∧ n ∈ t.base.selfTest) ∧
          (s.isRetired n = true → t.slot n = s.slot n ∧ t.base.selfTest = s.base.selfTest) ∧
          ((∀ f ∈ s.dir.forwards, agentCore f.agent ≠ some n) → ∀ k pa, (t.tenure k pa).holder ≠ some n) ∧
          (s.forwardsBehind n = [] → s.base.logBase = 0 → Table.wf Tenure.untouched s.dir.blocks = true → ∀ pa,
            (s.tenure .block pa).holder = some n →
            t.tenure .block pa = { s.tenure .block pa with
              holder := none, wts := (s.tenure .block pa).home, version := (s.tenure .block pa).version + 1 }))

/-! ## Fleet: lost cores, errors, heat, power -/

/-- Where the next health record goes. -/
def Sys2Proof.Machine.State.logPlace (u : State) : Nat := u.base.hlog.toNat / 4096 * 4096 + 32 * (u.base.hlogPos % (4096 * 2 ^ (u.base.hlog.toNat % 16) / 32))
/-- There is a log, and the place lies in a populated region (25 R414). -/
def Sys2Proof.Machine.State.logs (u : State) : Prop := u.base.hlog.toNat / 4096 ≠ 0 ∧ u.reaches u.logPlace true = true
/-- `t` follows `u` by a health record (25 R414): with no log nothing changes; a log that is populated takes the record, at its place, its
count rises, and a record of kind 3, 5, 7 or 10 to 12 raises MSI-X vector 1 of function 0. Nothing but that write changes. -/
structure Sys2Proof.Machine.Logs (u t : State) (kind die core agent addr : Nat) (data : Word) : Prop where
  off : ¬ u.logs → t = u
  on : u.logs → t.base.hlogPos = u.base.hlogPos + 1 ∧ t.base.msix = u.base.msix ++ (if kind ∈ [3, 5, 7, 10, 11, 12] then [(0, 1)] else []) ∧
    (u.uncached → (∀ j < 32, placeOf (u.logPlace + j) = .ddr) → KeepsBytes u t u.logPlace 32 ∧
      t.holds u.logPlace 32 (kind + die * 2 ^ 8 + core * 2 ^ 16 + agent * 2 ^ 32 + u.base.cycle % 2 ^ 64 * 2 ^ 64 + addr * 2 ^ 128 +
        data.toNat * 2 ^ 192))
  rest : WriteBy u { t with base := { t.base with hlogPos := u.base.hlogPos, msix := u.base.msix } }

/-- Core `n` as it starts anew: as at reset, but that its logical time never moves backwards (15 R308; log 55). -/
def Sys2Proof.Machine.Anew (c : Core) (n cycle : Nat) (c' : Core) : Prop :=
  c'.besideWrite = ({ Core.reset n with moduleTime := c.moduleTime, tickAt := cycle } : Core).besideWrite ∧ c'.ltime = c.ltime ∧
    c'.vec.regs = [] ∧ c'.vec.acc = [] ∧ c'.vec.stash = [] ∧ c'.vec.fly = []
/-- 25 R409, R411, 01 R10, 02 R24: a core that is retired, unless it is already, stops at once: its slot is OFFLINE, it holds no write tenure, every other
core of its gang is unmapped without a save and the loss is reported to Sheepdog. An unused spare of the die is mapped under the
retired number with cleared state, and the slot is FREE; with none, nothing changes. A core under self-test that passes returns to
FREE with cleared state, and its messages carry the present incarnation (15 R319); one that fails is retired. Cleared state is that of
reset, but for logical time (log 55). -/
def Obligations.LosingACore : Prop :=
  ∀ (s : State) (n : Nat),
    let out := fun t : State => (t.slot n).state = .offline ∧ (t.coreAt n).phase = .offline ∧ Table.get 0 t.base.retired n = 1 ∧
      ((∀ f ∈ s.dir.forwards, agentCore f.agent ≠ some n) → ∀ k pa, (t.tenure k pa).holder ≠ some n)
    (Table.get 0 s.base.retired n = 1 → exec (.coreRetire n) s = .next s) ∧
    (Table.get 0 s.base.retired n ≠ 1 → ∃ t, exec (.coreRetire n) s = .next t ∧ out t ∧
      (s.logs → t.base.msix = s.base.msix ++ [(0, 1)]) ∧ (s.base.hlog.toNat / 4096 = 0 → t.base.msix = s.base.msix) ∧
      (∀ b, (s.slot n).bind = some b → t.sheep.reports = s.sheep.reports ++ [.lostCore b.gangId] ∧
        ∀ k b', k ≠ n → (s.slot k).state = .running ∨ (s.slot k).state = .unmapping ∨ (s.slot k).state = .binding →
          (s.slot k).bind = some b' → b'.gangId = b.gangId → (s.coreAt k).phase ≠ .saving →
          t.slot k = Slot.free ∧ (t.coreAt k).phase = .unbound) ∧
      ((s.slot n).bind = none → t.sheep = s.sheep)) ∧
    let used := Table.get 0 s.base.sparesUsed (dieOf n)
    (Table.get 0 s.base.retired n = 1 → used < 2 → (s.coreAt n).no = n → ∃ t, exec (.spareMapped n) s = .next t ∧ t.slot n = Slot.free ∧
      Anew (s.coreAt n) n s.base.cycle (t.coreAt n) ∧ t.senderOf n = s.incarnationOf n ∧ Table.get 0 t.base.retired n = 0 ∧
      Table.get 0 t.base.sparesUsed (dieOf n) = used + 1) ∧
    ((Table.get 0 s.base.retired n ≠ 1 ∨ 2 ≤ used) → exec (.spareMapped n) s = .next s) ∧
    (n ∉ s.base.selfTest → ∀ p, exec (.coreSelfTestEnd n p) s = .next s) ∧
    (n ∈ s.base.selfTest →
      ((s.coreAt n).no = n → ∃ t, exec (.coreSelfTestEnd n true) s = .next t ∧ t.slot n = Slot.free ∧
        Anew (s.coreAt n) n s.base.cycle (t.coreAt n) ∧ t.senderOf n = s.incarnationOf n ∧ n ∉ t.base.selfTest) ∧
      ∃ t, exec (.coreSelfTestEnd n false) s = .next t ∧ out t ∧ n ∉ t.base.selfTest)

/-- One second in cycles (01 R9: 2,500 cycles each microsecond). -/
def Sys2Proof.Machine.aSecond : Nat := 2500000000
/-- A correctable granule is repaired, counted and logged (25 R406, R407, R414). In a core's SRAM it is one of the core's errors of the
last hour, the sixteenth of which retires the core (R409). -/
def Sys2Proof.Machine.Corrects (s : State) (g : Nat) (t : State) : Prop :=
  ∃ v, Logs { s with base := { s.base with ceCount := min (s.base.ceCount + 1) (2 ^ 64 - 1), soft := s.base.soft.filter fun x => x != g } }
      v 1 255 255 0 (8 * g) 0 ∧
    (∀ n p o, placeOf (8 * g) = .window n p o →
      let l := (n, v.base.cycle) :: v.base.corrected.filter fun x => decide (v.base.cycle < x.2 + 3600 * aSecond)
      let w : State := { v with base := { v.base with corrected := l } }
      (16 ≤ (l.filter fun x => x.1 == n).length → exec (.coreRetire n) w = .next t) ∧
      ((l.filter fun x => x.1 == n).length < 16 → t = w)) ∧
    ((∀ n p o, placeOf (8 * g) ≠ .window n p o) → t = v)
/-- One die's registers change, and nothing else does. -/
def Sys2Proof.Machine.DieBecomes (s t : State) (d : Nat) (x : Die) : Prop :=
  t = { s with base := { s.base with dies := t.base.dies } } ∧
    ∀ k, Table.get Die.zero t.base.dies k = if k = d then x else Table.get Die.zero s.base.dies k
/-- 25 R406 to R409, R413, R414, R416, 01 R20, R21, 24 R398, R404: a corrected error is counted and logged, and a core with sixteen in an
hour is retired; an uncorrectable one stays, and a scrub that finds it counts and logs it and leaves it; a scrub repairs a correctable
one. A guyline that goes down ends what is in flight to its peers, which the environment names (log 15), with status 1; it is retrained after a second unless the module is
in FATAL, and carries no command from before, a saved one neither. Heat sets a die's WARN at 95 °C, logged when it rises, and holds its cores at 105 °C, until it falls to 100 °C
or the hold has lasted 10 s, which is fatal; coolant outside its limits is logged. The power cap is rounded and bounded, and logged when
applied. A die without a bound slot is clock-gated after 1 ms and power-gated 100 ms later; a management core, cores 1 to 3 as core 0
(log 69), is gated only when Sheepdog has nothing pending. -/
def Obligations.FleetEvents : Prop :=
  ∀ (s : State) (g l d a b : Nat),
    (exec (.storageError g true) s = .next { s with base := { s.base with
      lost := if g ∈ s.base.lost then s.base.lost else g :: s.base.lost, soft := s.base.soft.filter fun x => x != g } }) ∧
    (∃ t, exec (.storageError g false) s = .next t ∧ Corrects s g t) ∧
    (∀ i ∈ [Instr.sramScrub g, .ddrPatrolScrub g],
      (g ∉ s.base.lost → g ∉ s.base.soft → exec i s = .next s) ∧
      (g ∉ s.base.lost → g ∈ s.base.soft → ∃ t, exec i s = .next t ∧ Corrects s g t) ∧
      (g ∈ s.base.lost → ∃ t, exec i s = .next t ∧
        Logs { s with base := { s.base with ueCount := min (s.base.ueCount + 1) (2 ^ 64 - 1) } } t 2 255 255 0 (8 * g) 0)) ∧
    let mine := fun w => w % 65536 != 0xFFFF && Config.linkOf w % 24 == l
    (∃ t u, exec (.guylineDown l) s = .next t ∧ Logs u t 7 255 255 l 0 0 ∧
      u.base = { s.base with linksDown := s.base.linksDown ||| BitVec.twoPow 24 l, linkRetry := Table.set 0 s.base.linkRetry l s.base.cycle } ∧
      ∀ n, (u.coreAt n).vec.cmds = (s.coreAt n).vec.cmds.map fun c =>
        if c.phase = .queued then c else c.endMembers 1 mine) ∧
    (s.base.linksDown.getLsbD l = true → s.base.fw ≠ .fatal → Table.get 0 s.base.linkRetry l + aSecond ≤ s.base.cycle →
      ∃ t u, exec (.guylineRetrain l) s = .next t ∧ Logs u t 8 255 255 l 0 0 ∧
        u.base = { s.base with linksDown := s.base.linksDown &&& ~~~BitVec.twoPow 24 l, linkRetry := Table.set 0 s.base.linkRetry l 0 } ∧
        (∀ n, (u.coreAt n).vec.cmds = (s.coreAt n).vec.cmds.map fun c => c.endMembers 1 mine) ∧
        u.disp.parked = s.disp.parked.map fun p => { p with cmds := p.cmds.map fun c => c.endMembers 1 mine }) ∧
    (s.base.linksDown.getLsbD l = false ∨ s.base.fw = .fatal ∨ s.base.cycle < Table.get 0 s.base.linkRetry l + aSecond →
      exec (.guylineRetrain l) s = .next s) ∧
    let die := Table.get Die.zero s.base.dies d
    let hot := fun (x : Die) => { s with base := { s.base with dies := Table.set Die.zero s.base.dies d x } }
    let at' := fun (temp : Nat) => { die with temp := temp, warn := decide (95 ≤ temp) }
    (∀ i ∈ [Instr.thermalHold d a, .thermalRelease d a], ∃ u v t, exec i s = .next t ∧ DieBecomes s u d (at' a) ∧
      (95 ≤ a → die.warn = false → Logs u v 9 d 255 0 0 u.base.therm) ∧ (a < 95 ∨ die.warn = true → v = u) ∧
      let x := Table.get Die.zero v.base.dies d
      (105 ≤ a → die.heldSince = none → ∃ w, DieBecomes v w d { x with heldSince := some s.base.cycle } ∧ Logs w t 10 d 255 0 0 w.base.therm) ∧
      (a ≤ 100 → DieBecomes v t d { x with heldSince := none }) ∧ (100 < a → a < 105 ∨ die.heldSince ≠ none → t = v)) ∧
    (∃ v, exec (.thermalHold d a) s = .next v ∧ (a < 95 ∨ die.warn = false → exec (.thermalWarning d a) s = .next v) ∧
      (95 ≤ a → die.warn = true → ∃ t, exec (.thermalWarning d a) s = .next t ∧ Logs v t 9 d 255 0 0 v.base.therm)) ∧
    (∀ since, die.heldSince = some since → since + 10 * aSecond ≤ s.base.cycle → exec (.thermalHoldLimit d) s = exec (.fatalError 3) s) ∧
    ((∀ since, die.heldSince = some since → s.base.cycle < since + 10 * aSecond) → exec (.thermalHoldLimit d) s = .next s) ∧
    (
      let u : State := { s with base := { s.base with inlet := a, flow := b } }
      ((15 ≤ a ∧ a ≤ 40 ∧ 15 ≤ b) → exec (.coolantOutOfLimits a b) s = .next u) ∧
      ((a < 15 ∨ 40 < a ∨ b < 15) → ∃ t, exec (.coolantOutOfLimits a b) s = .next t ∧ Logs u t 11 255 255 0 0 u.base.therm)) ∧
    (∀ v : Word,
      (∃ cap, exec (.pwrcapWrite v) s = .next { s with base := { s.base with cap := cap, capPending := true } } ∧
        cap % 25 = 0 ∧ 600 ≤ cap ∧ cap ≤ 1800 ∧ (600 ≤ v.toNat % 2 ^ 16 → v.toNat % 2 ^ 16 ≤ 1800 → cap ≤ v.toNat % 2 ^ 16 ∧ v.toNat % 2 ^ 16 < cap + 25)) ∧
      ∃ h, exec (.hlogWrite v) s = .next { s with base := { s.base with hlog := h, hlogPos := 0 } } ∧
        ∀ k < 64, h.getLsbD k = (v.getLsbD k && !(decide (4 ≤ k ∧ k < 12)))) ∧
    (s.base.capPending = false → exec .capApplied s = .next s) ∧
    (s.base.capPending = true → ∃ t, exec .capApplied s = .next t ∧
      Logs { s with base := { s.base with capPending := false } } t 13 255 255 0 s.base.cap 0) ∧
    (
      let idle := fun n => s.dieIdle d = true ∧ ∃ t0, die.idleSince = some t0 ∧ t0 + n ≤ s.base.cycle
      (idle (aSecond / 1000) → exec (.dieClockGate d) s = .next (hot { die with clockGated := true })) ∧
      (¬ idle (aSecond / 1000) → exec (.dieClockGate d) s = .next s) ∧
      (die.clockGated = true → idle (aSecond / 1000 * 101) → exec (.diePowerGate d) s = .next (hot { die with powerGated := true })) ∧
      (die.clockGated = false ∨ ¬ idle (aSecond / 1000 * 101) → exec (.diePowerGate d) s = .next s)) ∧
    (s.sheep.doorbells ≠ [] ∨ s.sheep.reports ≠ [] → exec (.managementCoreGate g) s = .next s) ∧
    (s.sheep.doorbells = [] → s.sheep.reports = [] →
      exec (.managementCoreGate g) s = .next { s with base := { s.base with mgmtGated := s.base.mgmtGated ||| BitVec.twoPow 4 g } })

/-! ## Basecamp: the lantern, firmware, fatal errors, reset -/

/-- 24 R398: the lantern holds a write for a gated target, and the later ones of its source, in arrival order; with 64 held it drops none
but holds the sender back; another write is not held.
Held writes are replayed when their targets are ungated: none is left, and a doorbell has the effect it would have had. -/
def Obligations.TheLantern : Prop :=
  ∀ (s : State) (src : LanternSource) (pa n f q : Nat) (v : Word),
    let waits := s.gatedTarget pa = true ∨ ∃ h ∈ s.base.lantern, h.source = src
    (waits → s.base.lantern.length < 64 → exec (.lanternCatch src pa n v) s =
      .next { s with base := { s.base with lantern := s.base.lantern ++ [⟨src, pa, n, v⟩] } }) ∧
    (waits → 64 ≤ s.base.lantern.length → exec (.lanternCatch src pa n v) s = .next { s with stalled := true }) ∧
    (¬ waits → exec (.lanternCatch src pa n v) s = .next s) ∧
    (∃ t, exec .lanternReplay s = .next t ∧ t.base.lantern = [] ∧ ∀ w ∈ s.base.lantern, t.gatedTarget w.pa = false) ∧
    (f ≤ 256 → q ≤ 510 → s.base.lantern = [⟨.function f, Config.basecampBase + 0x100_0000 + 0x1000 * f + 8 * q, n, v⟩] →
      exec .lanternReplay s = exec (.queueDoorbell f q n v)
        { s with base := { s.base with lantern := [], mgmtGated := s.base.mgmtGated &&& 0xE } })

/-- 24 R395, R398, R401 to R404, 25 R417: a write of FCMD starts a known command of an idle function, is counted while one runs, and is
BADARG for an unknown one; FARG takes its argument. The staged image is checked; one that is accepted is written to flash, and in
RECOVERY it runs; REASON says the outcome. ATTEST writes its report after the nonce, with the 3,309 bytes of its signature; a
buffer that cannot be written, or whose nonce is lost, is CTXFAULT (log 53). A pass that is due and has not completed for 10 ms is
fatal. A fatal error, once every core has come to a
boundary, writes the dump where DUMPADDR names populated memory (its header's first words as log 62 places them), sets STATE and
REASON, takes the guylines down and raises vector 0 of function 0; a core that has not come to one within 1
ms is taken out of service. Module reset leaves DDR, flash and the fused minimum, and everything else as at reset; MRESET needs the
key; power loss loses memory too. -/
def Obligations.FirmwareAndReset : Prop :=
  ∀ (s : State) (fn n : Nat) (v arg : Word) (rd : XReg),
    (fn ≤ 256 →
      let fcmd := Instr.registerWrite (.mmio (Config.basecampBase + 0x10_0000 + 0x1000 * fn) 8) rd v
      let op := v.toNat % 256
      let p := s.fnPage fn
      ((∃ t, exec fcmd s = .next t ∧
        (p.busy = true → t.fnPage fn = { p with ignored := p.ignored + 1 } ∧ t.agenda = s.agenda) ∧
        (p.busy = false → 1 ≤ op → op ≤ 5 → t.fnPage fn = { p with arg := p.farg, busy := true, lastOp := BitVec.ofNat 8 op, result := 0 } ∧
          ∃ i, t.agenda = .event i :: s.agenda ∧ i ∈ [Instr.regqueue fn p.farg, .resetqueue fn p.farg, .attest fn p.farg, .assign fn p.farg,
            .regiontab fn p.farg][op - 1]?) ∧
        (p.busy = false → op = 0 ∨ 5 < op → t.fnPage fn = { p with lastOp := BitVec.ofNat 8 op, result := 1 } ∧ t.agenda = s.agenda)) ∧
      ∃ t, exec (.registerWrite (.mmio (Config.basecampBase + 0x10_0008 + 0x1000 * fn) 8) rd v) s = .next t ∧
        t.fnPage fn = { p with farg := v } ∧ ∀ k ≠ fn, t.fnPage k = s.fnPage k)) ∧
    (
      let l := s.bytesAt 0 (v.toNat % 2 ^ 32)
      let r := imageReason s.base.fusedSvn l
      (s.base.fw = .recovery → ∃ t, exec (.fwloadWrite v) s = .next t ∧ t.base.reason = r ∧
        (r = 0 → t.base.fw = .running ∧ t.base.flash = l ∧ t.base.running = l ∧ t.base.svn = imageSvn l ∧
          t.base.fusedSvn = if imageField l 6 1 % 2 = 1 then imageSvn l else s.base.fusedSvn) ∧
        (r ≠ 0 → t.base.fw = .recovery ∧ t.base.flash = s.base.flash)) ∧
      (s.base.fw = .running → exec (.fwloadWrite v) s =
        .next { s with base := { s.base with flash := if r = 0 then l else s.base.flash, reason := r } }) ∧
      (s.base.fw ≠ .recovery → s.base.fw ≠ .running → exec (.fwloadWrite v) s = .next s)) ∧
    (¬ s.started fn 3 arg → exec (.attest fn arg) s = .next s) ∧
    (s.started fn 3 arg →
      let a := arg.toNat
      (a % 4096 ≠ 0 → ∃ t, exec (.attest fn arg) s = .next t ∧ Finishes s t fn resBadArg) ∧
      (a % 4096 = 0 → (s.populated a 3501 && !s.lostAt a 32) = false → ∃ t, exec (.attest fn arg) s = .next t ∧ Finishes (s.noteLost a 32) t fn resCtxFault) ∧
      (a % 4096 = 0 → (s.populated a 3501 && !s.lostAt a 32) = true → ∃ t, exec (.attest fn arg) s = .next t ∧
        (t.fnPage fn).busy = false ∧ (t.fnPage fn).result = resDone ∧
        (s.uncached → (∀ j < 3501, placeOf (a + j) = .ddr) →
          let body := ((List.range 32).map fun j => BitVec.ofNat 8 (s.byteAt (a + j))) ++ (List.range 16).map Config.serial ++
            leBytes 4 s.base.svn ++ leBytes 4 s.base.fusedSvn ++ imageDigest s.base.running ++ leBytes 8 fn
          ∀ j x, (body ++ (List.range 3309).map (Config.identitySign body))[j]? = some x → t.byteAt (a + 64 + j) = x.toNat))) ∧
    (s.base.fw = .fatal → exec (.fatalError n) s = .next s) ∧
    (s.base.fw ≠ .fatal → s.base.fatalAt = none →
      ((∀ c ∈ s.coresListed, c.midInstruction = false) → ∃ t, exec (.fatalError n) s = .next t ∧ t.base.fw = .fatal ∧
        t.base.reason = BitVec.ofNat 8 n ∧ t.base.linksDown = BitVec.allOnes 24 ∧ t.base.msix = s.base.msix ++ [(0, 0)] ∧
        let a := s.base.dumpAddr.toNat
        (a = 0 ∨ s.spanReaches a 200704 true = false → ∀ x, t.byteAt x = s.byteAt x) ∧
        (a ≠ 0 → a % 64 = 0 → a + 200704 ≤ Config.ddrBytes → s.Coherent → (∀ x, s.underKey .block x) →
          KeepsBytes s t a 200704 ∧ t.holds a 8 (0x0001_0001 + n * 2 ^ 32) ∧ t.holds (a + 8) 8 s.moduleTimeNow.toNat ∧
          ∀ k < 192, t.holds (a + 64 + 16 * k) 8 ((s.coreAt k).controlWord 0).toNat ∧
            t.holds (a + 72 + 16 * k) 8 (s.coreAt k).csr.panicmark.toNat ∧
            ∃ x, RecordOf x 1024 (s.coreAt k) ∧ t.holds (a + 4096 + 1024 * k) 1024 x)) ∧
      ((∃ c ∈ s.coresListed, c.midInstruction = true) → exec (.fatalError n) s =
        .next { s with base := { s.base with fatalAt := some (s.base.cycle, n) } })) ∧
    let late := s.sheep.hasWork = true ∧ ∃ t0, s.sheep.workSince = some t0 ∧ t0 + aSecond / 100 ≤ s.base.cycle
    (s.base.serving = true → late → exec .sheepdogWatchdog s = exec (.fatalError 2) s) ∧
    (s.base.serving = false ∨ ¬ late → exec .sheepdogWatchdog s = .next s) ∧
    (∀ t0 r, s.base.fatalAt = some (t0, r) → s.base.fw ≠ .fatal → t0 + aSecond / 1000 ≤ s.base.cycle →
      ∃ t, exec .fatalCoreTimeout s = .next t ∧ t.base.fw = .fatal ∧ t.base.reason = BitVec.ofNat 8 r ∧
        ∀ k, (s.coreAt k).no = k → (s.coreAt k).midInstruction = true → (t.slot k).state = .offline ∧ (t.coreAt k).phase = .offline) ∧
    ((s.base.fatalAt = none ∨ s.base.fw = .fatal) → exec .fatalCoreTimeout s = .next s) ∧
    (∃ t, exec .moduleReset s = .next t ∧ t.mem = s.mem ∧ t.base.flash = s.base.flash ∧ t.base.fusedSvn = s.base.fusedSvn ∧
      t.base.fw = .rom ∧ t.sheep.queues = [] ∧ t.sheep.jobs = [] ∧ (∀ k, t.coreAt k = Core.reset k ∧ t.slot k = Slot.free) ∧
      (∀ k pa, t.tenure k pa = Tenure.untouched) ∧ t.dir.entries = []) ∧
    exec (.mresetWrite 0x5EB0_0001) s = exec .moduleReset s ∧ (v ≠ 0x5EB0_0001 → exec (.mresetWrite v) s = .next s) ∧
    ∀ fl, ∃ t, exec (.powerLoss fl) s = .next t ∧ t.mem = [] ∧ t.base.lost = [] ∧ t.base.soft = [] ∧ t.base.powered = false ∧ t.base.flash = (if fl then [] else s.base.flash) ∧
      t.base.fusedSvn = s.base.fusedSvn ∧ ∀ k, t.coreAt k = Core.reset k

/-! ## The machine: stepping, decoding, reset, invariants -/

/-- How a turn ends that `who` of the core in focus has had from `v`: where an access of it cannot be served yet, the agent has not moved, but
it keeps its place in the home's queue (15 R317; log 34) and the page that it missed (22 R352); else it holds no place, and what the turn
noted is counted. -/
def Sys2Proof.Machine.State.turnEnds (v : State) (who : Option Waiter) (o : Host.Outcome State Fault Refusal) : Host.Outcome State Fault Refusal :=
  match o with
  | .next t => .next (
    if t.stalled then (match t.asks with | some g => v.keepPlace g | none => v).keepMiss who t.missed
    else (t.leavePlace (who.map fun w => ⟨v.core.no, w⟩)).turnEnd)
  | o => o

/-- 05 R118 to R123, 02 R38, R41 to R43, 22 R352: a step runs the decoded instruction. When the control thread moves at an instruction
that is its turn (no stop or trap is due, nothing waits, no breakpoint stands there), and the 4 or 8 bytes at the pc decode to an
instruction of the table that no entry owes a source register, the step is `exec` of it on the state after the fetch, but that it says which
loads performed early have addresses that depend on it (14 R297; log 11). A CSR instruction of the base runs as the row that it is. When a
ready micro-thread has its turn and its lane picks it, the oldest there or one that has waited its slots, the step is `exec` of its next
word. A step of another agent is `exec` of its row, where that agent goes on. Turns come in the order of the agenda (log 4); a turn whose
access cannot be served moves nothing (log 34); a write that has come to basecamp acts before any turn (log 1). -/
def Obligations.StepRunsTheInstruction : Prop :=
  ∀ (s : State) (ts : List Turn),
    let goes := s.base.powered = true ∧ s.base.fatalAt = none ∧ s.core.phase = .running ∧ s.held s.core.no = false
    let v : State := { s with agenda := ts }
    (s.posted = [] → s.agenda = .ct :: ts → goes →
      let u : State := { v with core := { s.core with awaiting := false }, seat := some ⟨s.core.no, .ct⟩ }
      let ends := State.turnEnds { v with core := { s.core with awaiting := v.loadsHere } } (some .ct)
      u.core.stopDue = false → u.trapDue = none → u.breakHolds = false → u.core.ct.wait = none → u.pcBreakHit = false →
      (∀ n ∈ [2, 4], ∀ x s1 i, u.fetchParcels u.core.ct.pc n = (.ok x, s1) → i.size = 2 * n →
        decodeCt (BitVec.ofNat 32 x) (BitVec.ofNat 32 (x / 2 ^ 32)) = some i →
        s1.owes (ctUses i) = false → step s = ends (carried .ct (fun _ => rowCarries i) (exec i s1))) ∧
      (∀ len op rd src n s1 r, u.fetchCt = (.base len (.csr op rd src n), s1) → s1.owes (Rv.csr op rd src n).uses = false →
        s1.csrDo op rd src n = .row r → step s = ends (carried .ct (fun _ => (Rv.csr op rd src n).carries) (exec r s1))) ∧
      (∀ e va s1, u.fetchHalf u.core.ct.pc = (.error e, s1) → va = u.core.ct.pc → step s = ends (.next (s1.accTrap e .fetch va 0)))) ∧
    (∀ m, s.posted = [] → s.agenda = .mt m :: ts → goes →
      let u : State := { v with seat := some ⟨s.core.no, .mt m⟩ }
      let u' : State := { u.slotTo m (u.pick m) with core := { (u.slotTo m (u.pick m)).core with curMt := m } }
      let ends := v.turnEnds (some (.mt m))
      (u.mt m).phase = .ready → (u.mt m).dataWait = false → u.core.vec.pipe.contains m = false → (u.core.vec.mts.map (·.1)).Nodup →
      (u.picks m = false → step s = ends (.next u)) ∧
      (u.picks m = true → u.mtReady m = true ∧
        (∀ k t, (k, t) ∈ u.core.vec.mts → k % 64 = m % 64 → u.mtReady k = true → u.mtRuns k = true →
          (u.mt m).age < t.age ∨ ((u.mt m).age = t.age ∧ m ≤ k) ∨ u.patience m ≤ (u.mt m).waits) ∧
        (∀ x ∈ u.core.vec.idle, x.m % 64 = m % 64 →
          (u.mt m).age < x.age ∨ ((u.mt m).age = x.age ∧ m ≤ x.m) ∨ u.patience m ≤ (u.mt m).waits) ∧
        (u.blockBreakHit m = false → ∀ w, (u.mt m).words[(u.mt m).ix]? = some w →
          (∀ i, decodeMt w = some i → step s = ends (u'.wordTouches i (carried (.mt m) (u'.wordCarries i) (exec i u')))) ∧
          (decodeMt w = none → step s = ends (.next (u'.mtFault 1 0)))))) ∧
    (∀ i, s.posted = [] → s.agenda = .event i :: ts → isEvent i = true → s.base.powered = true →
      let u : State := { v with seat := (eventSeat i).map fun w => ⟨s.core.no, w⟩ }
      step s = v.turnEnds (eventSeat i) (if u.mayStep i = true then exec i u else .next u)) ∧
    ∀ i l t, s.posted = i :: l → exec i { s with posted := l } = .next t →
      (t.stalled = false → step s = .next t.turnEnd) ∧
      (t.stalled = true → step s = s.turnEnds none (exec .lanternReplay { s with seat := none }))

/-- 05 R107 to R121, with the words that the manual writes out: each decodes to the instruction that it stands for. -/
def Obligations.WordsOfTheManual : Prop :=
  decodeMt 0x070C2101 = some (.srl 0 4 2 3) ∧ decodeMt 0x40248218 = some (.fadd 1 8 8 9) ∧ decodeMt 0x0000805E = some (.cvtq4 1 8 0) ∧
  decodeMt 0x040C21A0 = some (.pnix 4 6 2 3) ∧ decodeMt 0x8540612C = some (.amo 2 1 1 2 4 6) ∧ decodeMt 0x1680002E = some (.mfence 2 3 2) ∧
  decodeMt 0x00304230 = some (.pxf false 8 4 12) ∧ decodeMt 0x02304230 = some (.pxf true 8 4 12) ∧
  decodeCt 0x0A25000B 0 = some (.vfetch 2 10) ∧ decodeCt 0x0811200B 0 = some (.kcmp 0 1 1 2) ∧ decodeCt 0x022505AB 0 = some (.vlds 0 8 2 10 11) ∧
  decodeCt 0x00B541DB 0 = some (.mma 0 0 3 10 11) ∧ decodeCt 0x4AD607DB 0x00B541DB = some (.xcopyM false true 1 15 12 13 0x00B541DB) ∧
  decodeCt 0x58D627DB 0 = some (.xcollReduce false true 3 15 12 13) ∧ decodeCt 0x3760207B 0 = some (.ofence 3 7 3)

/-- 05 R107 to R122: decoding what is encoded gives the instruction back, for every well-formed instruction that has words, with every
operand at every value; and a micro-thread word that decodes is the encoding of what it decodes to, so no two words of that stream
are one instruction and no bit of one is ignored (R109). -/
def Obligations.DecodeInvertsEncode : Prop :=
  (∀ i : Instr, i.wellFormed = true → HoldsLegal i →
    (∀ x, encode i = [x] → (if i.isMtWord = true then decodeMt x else decodeCt x 0) = some i) ∧
    (∀ x y, encode i = [x, y] → decodeCt x y = some i)) ∧
  (∀ (x : BitVec 32) (i : Instr), decodeMt x = some i → encode i = [x] ∧ i.isMtWord = true ∧ i.wellFormed = true)

/-- The form of the state that every step keeps: memory and host memory are in their canonical form. -/
structure Sys2Proof.Machine.State.Inv (s : State) : Prop where
  mem : s.mem.wf = true
  host : s.host.wf = true

/-- 24 R398, R401, 02 R24, 11 R260, R261, 15 R308: module reset leaves basecamp in ROM with nothing registered, every core without a job, and the
registers whose reset values the manual states at those values; memory lists nothing, and the state meets the invariant. That it
reads 0 everywhere (log 3) and has no granule with an error (log 2) is the model's choice. -/
def Obligations.AtReset : Prop :=
  let s := State.reset
  s.Inv ∧ s.base.fw = .rom ∧ s.base.cap = 1800 ∧ s.base.hlog = 0 ∧ s.base.lost = [] ∧ s.base.soft = [] ∧ s.base.dumpAddr = 0 ∧ s.base.capctl = 0 ∧ s.sheep.queues = [] ∧
    (∀ n, (s.coreAt n).phase = .unbound ∧ (s.slot n).state = .free ∧ (s.coreAt n).prevAsid = none ∧ (s.coreAt n).ltime = 0 ∧
      (s.coreAt n).csr.mtcfg = 0x1F03 ∧ (s.coreAt n).csr.ltlease = 64 ∧ (s.coreAt n).csr.lttick = 1024 ∧ (s.coreAt n).csr.grace = 16384 ∧
      (s.coreAt n).ct.satp = 0 ∧ (s.coreAt n).vec.regs = [] ∧ (s.coreAt n).vec.stash = [] ∧ (s.coreAt n).vec.fly = []) ∧
    (∀ k pa, s.tenure k pa = Tenure.untouched) ∧ ∀ a, Memory.get s.mem a = 0

/-- Every step keeps the invariant: whatever turn is taken, memory and host memory stay in their canonical form, so that states with
equal contents are equal data. -/
def Obligations.StepKeepsInv : Prop := ∀ s t : State, s.Inv → step s = .next t → t.Inv

/-! ## Statements that stand together -/

/-- 08 R168, R169, R172, 22 R352, R353: where the memory words fault, and what a translation checks, each said above. -/
def Obligations.MemoryFaults : Prop := memoryWordFaultsClaim ∧ translationsClaim

/-- 06 R127, R129 to R133, R136: what the integer words that count bits, that take an immediate and that move bit fields do, each said above. -/
def Obligations.BitWords : Prop := bitCountsClaim ∧ oneRegisterWordsClaim ∧ bitFieldsClaim

/-- 06 R134, R137, R138, R143: indexed register words, and the words of links, chains' ends and traps, each said above. -/
def Obligations.IndexAndLinkWords : Prop := indexedRegistersClaim ∧ linkAndTrapWordsClaim

/-- 03 R56, R71, R73, R74, R76: the canonical NaN, rounding that leaves codes alone, and narrowing that saturates, each said above. -/
def Obligations.NumberRules : Prop := nanIsCanonicalClaim ∧ roundingIsExactOnCodesClaim ∧ narrowingSaturatesClaim

/-- 08 R177 to R180, 03 R68 to R70: conversion over one link, and the frame words, each said above. -/
def Obligations.FrameConversions : Prop := frameLinksClaim ∧ frameWordsClaim

/-- 02 R29, R31, R37, R44, 09 R189: vector instructions that issue an entry, and vfetch, each said above. -/
def Obligations.VectorDispatch : Prop := vectorIssueClaim ∧ vectorFetchClaim

/-- 10 R216 to R230, 03 R81, R82: what matrix commands, copy commands, mdrain and collectives do when they start, each said above. -/
def Obligations.MatrixWork : Prop := matrixCommandsClaim ∧ copyCommandsClaim ∧ drainCommandsClaim ∧ collectiveStartsClaim

/-- 02 R31, R37, R50, 03 R83 to R85, 09 R193: entries distribute their items and retire, each said above. -/
def Obligations.QueuesAtWork : Prop := itemsArePlacedClaim ∧ entriesRetireClaim

/-- 11 R260 to R263, 00 R5, 05 R123, 22 R347: CSR writes, and what guards them, each said above. -/
def Obligations.CsrWrites : Prop := plainCsrWritesClaim ∧ csrsAreGuardedClaim

/-- 21 R341 to R346: commands of PERFSEL and the events of profiling, each said above. -/
def Obligations.Profiling : Prop := perfCommandsClaim ∧ profilingEventsClaim

/-- 22 R363, R365, R368, R369: the stop, the save and the restore of a core, each said above. -/
def Obligations.PreemptionSaveRestore : Prop := preemptionAndSaveClaim ∧ restoresClaim
end

