-- ==== Sys2Proof/Laws/Encoding.lean ====
section
/-! SUPPORT. Fields of encoded words: a read of bits that lie in one field of a layout is a read of that field. Each layout of
Decode.lean has one lemma that says so for all of its fields; decoding what is encoded follows by rewriting with them. -/

-- The theorems of this file are checked one after another, so that checking it takes few threads.
set_option Elab.async false

namespace Sys2Proof.Laws

open Sys2Proof

theorem above {n m : Nat} {a : BitVec n} {b : BitVec m} {lo k lo' : Nat} (h : m ≤ lo := by omega)
    (e : lo - m = lo' := by omega) : (a ++ b).extractLsb' lo k = a.extractLsb' lo' k := by
  subst e
  refine BitVec.eq_of_getLsbD_eq fun i hi => ?_
  simp only [BitVec.getLsbD_extractLsb', BitVec.getLsbD_append]
  grind

theorem below {n m : Nat} {a : BitVec n} {b : BitVec m} {lo k : Nat} (h : lo + k ≤ m := by omega) :
    (a ++ b).extractLsb' lo k = b.extractLsb' lo k := by
  refine BitVec.eq_of_getLsbD_eq fun i hi => ?_
  simp only [BitVec.getLsbD_extractLsb', BitVec.getLsbD_append]
  grind

/-- One bit is a read of one bit. -/
theorem getLsbD_extract {n : Nat} (x : BitVec n) (i : Nat) : x.getLsbD i = (x.extractLsb' i 1).getLsbD 0 := by
  simp

theorem encReg_bit (w : BitVec 2) (c b a d m : BitVec 6) (i : Nat) :
    (encReg w c b a d m).getLsbD i = ((encReg w c b a d m).extractLsb' i 1).getLsbD 0 := getLsbD_extract _ i

theorem encReg_fields (w : BitVec 2) (c b a d m : BitVec 6) :
    (∀ lo nb, 30 ≤ lo → lo + nb ≤ 32 → (encReg w c b a d m).extractLsb' lo nb = BitVec.extractLsb' (lo - 30) nb w) ∧
    (∀ lo nb, 24 ≤ lo → lo + nb ≤ 30 → (encReg w c b a d m).extractLsb' lo nb = BitVec.extractLsb' (lo - 24) nb c) ∧
    (∀ lo nb, 18 ≤ lo → lo + nb ≤ 24 → (encReg w c b a d m).extractLsb' lo nb = BitVec.extractLsb' (lo - 18) nb b) ∧
    (∀ lo nb, 12 ≤ lo → lo + nb ≤ 18 → (encReg w c b a d m).extractLsb' lo nb = BitVec.extractLsb' (lo - 12) nb a) ∧
    (∀ lo nb, 6 ≤ lo → lo + nb ≤ 12 → (encReg w c b a d m).extractLsb' lo nb = BitVec.extractLsb' (lo - 6) nb d) ∧
    (∀ lo nb, 0 ≤ lo → lo + nb ≤ 6 → (encReg w c b a d m).extractLsb' lo nb = BitVec.extractLsb' (lo - 0) nb m) :=
  ⟨fun lo _ _ _ => (above (lo' := lo - 6)).trans <| (above (lo' := lo - 12)).trans <| (above (lo' := lo - 18)).trans <| (above (lo' := lo - 24)).trans <| above (lo' := lo - 30),
   fun lo _ _ _ => (above (lo' := lo - 6)).trans <| (above (lo' := lo - 12)).trans <| (above (lo' := lo - 18)).trans <| (above (lo' := lo - 24)).trans <| below,
   fun lo _ _ _ => (above (lo' := lo - 6)).trans <| (above (lo' := lo - 12)).trans <| (above (lo' := lo - 18)).trans <| below,
   fun lo _ _ _ => (above (lo' := lo - 6)).trans <| (above (lo' := lo - 12)).trans <| below,
   fun lo _ _ _ => (above (lo' := lo - 6)).trans <| below,
   fun lo _ _ _ => below⟩

theorem encImm_bit (imm : BitVec 14) (a d m : BitVec 6) (i : Nat) :
    (encImm imm a d m).getLsbD i = ((encImm imm a d m).extractLsb' i 1).getLsbD 0 := getLsbD_extract _ i

theorem encImm_fields (imm : BitVec 14) (a d m : BitVec 6) :
    (∀ lo nb, 18 ≤ lo → lo + nb ≤ 32 → (encImm imm a d m).extractLsb' lo nb = BitVec.extractLsb' (lo - 18) nb imm) ∧
    (∀ lo nb, 12 ≤ lo → lo + nb ≤ 18 → (encImm imm a d m).extractLsb' lo nb = BitVec.extractLsb' (lo - 12) nb a) ∧
    (∀ lo nb, 6 ≤ lo → lo + nb ≤ 12 → (encImm imm a d m).extractLsb' lo nb = BitVec.extractLsb' (lo - 6) nb d) ∧
    (∀ lo nb, 0 ≤ lo → lo + nb ≤ 6 → (encImm imm a d m).extractLsb' lo nb = BitVec.extractLsb' (lo - 0) nb m) :=
  ⟨fun lo _ _ _ => (above (lo' := lo - 6)).trans <| (above (lo' := lo - 12)).trans <| above (lo' := lo - 18),
   fun lo _ _ _ => (above (lo' := lo - 6)).trans <| (above (lo' := lo - 12)).trans <| below,
   fun lo _ _ _ => (above (lo' := lo - 6)).trans <| below,
   fun lo _ _ _ => below⟩

theorem encUpper_bit (imm : BitVec 20) (d m : BitVec 6) (i : Nat) :
    (encUpper imm d m).getLsbD i = ((encUpper imm d m).extractLsb' i 1).getLsbD 0 := getLsbD_extract _ i

theorem encUpper_fields (imm : BitVec 20) (d m : BitVec 6) :
    (∀ lo nb, 12 ≤ lo → lo + nb ≤ 32 → (encUpper imm d m).extractLsb' lo nb = BitVec.extractLsb' (lo - 12) nb imm) ∧
    (∀ lo nb, 6 ≤ lo → lo + nb ≤ 12 → (encUpper imm d m).extractLsb' lo nb = BitVec.extractLsb' (lo - 6) nb d) ∧
    (∀ lo nb, 0 ≤ lo → lo + nb ≤ 6 → (encUpper imm d m).extractLsb' lo nb = BitVec.extractLsb' (lo - 0) nb m) :=
  ⟨fun lo _ _ _ => (above (lo' := lo - 6)).trans <| above (lo' := lo - 12),
   fun lo _ _ _ => (above (lo' := lo - 6)).trans <| below,
   fun lo _ _ _ => below⟩

theorem encMem_bit (size : BitVec 2) (imm : BitVec 12) (a d m : BitVec 6) (i : Nat) :
    (encMem size imm a d m).getLsbD i = ((encMem size imm a d m).extractLsb' i 1).getLsbD 0 := getLsbD_extract _ i

theorem encMem_fields (size : BitVec 2) (imm : BitVec 12) (a d m : BitVec 6) :
    (∀ lo nb, 30 ≤ lo → lo + nb ≤ 32 → (encMem size imm a d m).extractLsb' lo nb = BitVec.extractLsb' (lo - 30) nb size) ∧
    (∀ lo nb, 18 ≤ lo → lo + nb ≤ 30 → (encMem size imm a d m).extractLsb' lo nb = BitVec.extractLsb' (lo - 18) nb imm) ∧
    (∀ lo nb, 12 ≤ lo → lo + nb ≤ 18 → (encMem size imm a d m).extractLsb' lo nb = BitVec.extractLsb' (lo - 12) nb a) ∧
    (∀ lo nb, 6 ≤ lo → lo + nb ≤ 12 → (encMem size imm a d m).extractLsb' lo nb = BitVec.extractLsb' (lo - 6) nb d) ∧
    (∀ lo nb, 0 ≤ lo → lo + nb ≤ 6 → (encMem size imm a d m).extractLsb' lo nb = BitVec.extractLsb' (lo - 0) nb m) :=
  ⟨fun lo _ _ _ => (above (lo' := lo - 6)).trans <| (above (lo' := lo - 12)).trans <| (above (lo' := lo - 18)).trans <| above (lo' := lo - 30),
   fun lo _ _ _ => (above (lo' := lo - 6)).trans <| (above (lo' := lo - 12)).trans <| (above (lo' := lo - 18)).trans <| below,
   fun lo _ _ _ => (above (lo' := lo - 6)).trans <| (above (lo' := lo - 12)).trans <| below,
   fun lo _ _ _ => (above (lo' := lo - 6)).trans <| below,
   fun lo _ _ _ => below⟩

theorem encAtomic_bit (size : BitVec 2) (op : BitVec 4) (ord : BitVec 2) (scope : BitVec 3) (a d m : BitVec 6) (i : Nat) :
    (encAtomic size op ord scope a d m).getLsbD i = ((encAtomic size op ord scope a d m).extractLsb' i 1).getLsbD 0 := getLsbD_extract _ i

theorem encAtomic_fields (size : BitVec 2) (op : BitVec 4) (ord : BitVec 2) (scope : BitVec 3) (a d m : BitVec 6) :
    (∀ lo nb, 30 ≤ lo → lo + nb ≤ 32 → (encAtomic size op ord scope a d m).extractLsb' lo nb = BitVec.extractLsb' (lo - 30) nb size) ∧
    (∀ lo nb, 26 ≤ lo → lo + nb ≤ 30 → (encAtomic size op ord scope a d m).extractLsb' lo nb = BitVec.extractLsb' (lo - 26) nb op) ∧
    (∀ lo nb, 24 ≤ lo → lo + nb ≤ 26 → (encAtomic size op ord scope a d m).extractLsb' lo nb = BitVec.extractLsb' (lo - 24) nb ord) ∧
    (∀ lo nb, 21 ≤ lo → lo + nb ≤ 24 → (encAtomic size op ord scope a d m).extractLsb' lo nb = BitVec.extractLsb' (lo - 21) nb scope) ∧
    (∀ lo nb, 18 ≤ lo → lo + nb ≤ 21 → (encAtomic size op ord scope a d m).extractLsb' lo nb = BitVec.extractLsb' (lo - 18) nb (0 : BitVec 3)) ∧
    (∀ lo nb, 12 ≤ lo → lo + nb ≤ 18 → (encAtomic size op ord scope a d m).extractLsb' lo nb = BitVec.extractLsb' (lo - 12) nb a) ∧
    (∀ lo nb, 6 ≤ lo → lo + nb ≤ 12 → (encAtomic size op ord scope a d m).extractLsb' lo nb = BitVec.extractLsb' (lo - 6) nb d) ∧
    (∀ lo nb, 0 ≤ lo → lo + nb ≤ 6 → (encAtomic size op ord scope a d m).extractLsb' lo nb = BitVec.extractLsb' (lo - 0) nb m) :=
  ⟨fun lo _ _ _ => (above (lo' := lo - 6)).trans <| (above (lo' := lo - 12)).trans <| (above (lo' := lo - 18)).trans <| (above (lo' := lo - 21)).trans <| (above (lo' := lo - 24)).trans <| (above (lo' := lo - 26)).trans <| above (lo' := lo - 30),
   fun lo _ _ _ => (above (lo' := lo - 6)).trans <| (above (lo' := lo - 12)).trans <| (above (lo' := lo - 18)).trans <| (above (lo' := lo - 21)).trans <| (above (lo' := lo - 24)).trans <| (above (lo' := lo - 26)).trans <| below,
   fun lo _ _ _ => (above (lo' := lo - 6)).trans <| (above (lo' := lo - 12)).trans <| (above (lo' := lo - 18)).trans <| (above (lo' := lo - 21)).trans <| (above (lo' := lo - 24)).trans <| below,
   fun lo _ _ _ => (above (lo' := lo - 6)).trans <| (above (lo' := lo - 12)).trans <| (above (lo' := lo - 18)).trans <| (above (lo' := lo - 21)).trans <| below,
   fun lo _ _ _ => (above (lo' := lo - 6)).trans <| (above (lo' := lo - 12)).trans <| (above (lo' := lo - 18)).trans <| below,
   fun lo _ _ _ => (above (lo' := lo - 6)).trans <| (above (lo' := lo - 12)).trans <| below,
   fun lo _ _ _ => (above (lo' := lo - 6)).trans <| below,
   fun lo _ _ _ => below⟩

theorem encR_bit (f7 : BitVec 7) (rs2 rs1 : XReg) (f3 : BitVec 3) (rd : XReg) (op : BitVec 7) (i : Nat) :
    (encR f7 rs2 rs1 f3 rd op).getLsbD i = ((encR f7 rs2 rs1 f3 rd op).extractLsb' i 1).getLsbD 0 := getLsbD_extract _ i

theorem encR_fields (f7 : BitVec 7) (rs2 rs1 : XReg) (f3 : BitVec 3) (rd : XReg) (op : BitVec 7) :
    (∀ lo nb, 25 ≤ lo → lo + nb ≤ 32 → (encR f7 rs2 rs1 f3 rd op).extractLsb' lo nb = BitVec.extractLsb' (lo - 25) nb f7) ∧
    (∀ lo nb, 20 ≤ lo → lo + nb ≤ 25 → (encR f7 rs2 rs1 f3 rd op).extractLsb' lo nb = BitVec.extractLsb' (lo - 20) nb rs2) ∧
    (∀ lo nb, 15 ≤ lo → lo + nb ≤ 20 → (encR f7 rs2 rs1 f3 rd op).extractLsb' lo nb = BitVec.extractLsb' (lo - 15) nb rs1) ∧
    (∀ lo nb, 12 ≤ lo → lo + nb ≤ 15 → (encR f7 rs2 rs1 f3 rd op).extractLsb' lo nb = BitVec.extractLsb' (lo - 12) nb f3) ∧
    (∀ lo nb, 7 ≤ lo → lo + nb ≤ 12 → (encR f7 rs2 rs1 f3 rd op).extractLsb' lo nb = BitVec.extractLsb' (lo - 7) nb rd) ∧
    (∀ lo nb, 0 ≤ lo → lo + nb ≤ 7 → (encR f7 rs2 rs1 f3 rd op).extractLsb' lo nb = BitVec.extractLsb' (lo - 0) nb op) :=
  ⟨fun lo _ _ _ => (above (lo' := lo - 7)).trans <| (above (lo' := lo - 12)).trans <| (above (lo' := lo - 15)).trans <| (above (lo' := lo - 20)).trans <| above (lo' := lo - 25),
   fun lo _ _ _ => (above (lo' := lo - 7)).trans <| (above (lo' := lo - 12)).trans <| (above (lo' := lo - 15)).trans <| (above (lo' := lo - 20)).trans <| below,
   fun lo _ _ _ => (above (lo' := lo - 7)).trans <| (above (lo' := lo - 12)).trans <| (above (lo' := lo - 15)).trans <| below,
   fun lo _ _ _ => (above (lo' := lo - 7)).trans <| (above (lo' := lo - 12)).trans <| below,
   fun lo _ _ _ => (above (lo' := lo - 7)).trans <| below,
   fun lo _ _ _ => below⟩

theorem encVec_bit (mask : BitVec 4) (v : VReg) (sz : BitVec 2) (rs1 : XReg) (f3 : BitVec 3) (x : BitVec 5) (i : Nat) :
    (encVec mask v sz rs1 f3 x).getLsbD i = ((encVec mask v sz rs1 f3 x).extractLsb' i 1).getLsbD 0 := getLsbD_extract _ i

theorem encVec_fields (mask : BitVec 4) (v : VReg) (sz : BitVec 2) (rs1 : XReg) (f3 : BitVec 3) (x : BitVec 5) :
    (∀ lo nb, 28 ≤ lo → lo + nb ≤ 32 → (encVec mask v sz rs1 f3 x).extractLsb' lo nb = BitVec.extractLsb' (lo - 28) nb mask) ∧
    (∀ lo nb, 22 ≤ lo → lo + nb ≤ 28 → (encVec mask v sz rs1 f3 x).extractLsb' lo nb = BitVec.extractLsb' (lo - 22) nb v) ∧
    (∀ lo nb, 20 ≤ lo → lo + nb ≤ 22 → (encVec mask v sz rs1 f3 x).extractLsb' lo nb = BitVec.extractLsb' (lo - 20) nb sz) ∧
    (∀ lo nb, 15 ≤ lo → lo + nb ≤ 20 → (encVec mask v sz rs1 f3 x).extractLsb' lo nb = BitVec.extractLsb' (lo - 15) nb rs1) ∧
    (∀ lo nb, 12 ≤ lo → lo + nb ≤ 15 → (encVec mask v sz rs1 f3 x).extractLsb' lo nb = BitVec.extractLsb' (lo - 12) nb f3) ∧
    (∀ lo nb, 7 ≤ lo → lo + nb ≤ 12 → (encVec mask v sz rs1 f3 x).extractLsb' lo nb = BitVec.extractLsb' (lo - 7) nb x) ∧
    (∀ lo nb, 0 ≤ lo → lo + nb ≤ 7 → (encVec mask v sz rs1 f3 x).extractLsb' lo nb = BitVec.extractLsb' (lo - 0) nb (0x2B : BitVec 7)) :=
  ⟨fun lo _ _ _ => (above (lo' := lo - 7)).trans <| (above (lo' := lo - 12)).trans <| (above (lo' := lo - 15)).trans <| (above (lo' := lo - 20)).trans <| (above (lo' := lo - 22)).trans <| above (lo' := lo - 28),
   fun lo _ _ _ => (above (lo' := lo - 7)).trans <| (above (lo' := lo - 12)).trans <| (above (lo' := lo - 15)).trans <| (above (lo' := lo - 20)).trans <| (above (lo' := lo - 22)).trans <| below,
   fun lo _ _ _ => (above (lo' := lo - 7)).trans <| (above (lo' := lo - 12)).trans <| (above (lo' := lo - 15)).trans <| (above (lo' := lo - 20)).trans <| below,
   fun lo _ _ _ => (above (lo' := lo - 7)).trans <| (above (lo' := lo - 12)).trans <| (above (lo' := lo - 15)).trans <| below,
   fun lo _ _ _ => (above (lo' := lo - 7)).trans <| (above (lo' := lo - 12)).trans <| below,
   fun lo _ _ _ => (above (lo' := lo - 7)).trans <| below,
   fun lo _ _ _ => below⟩

theorem encEng_bit (acq rel : Bool) (scope : BitVec 3) (f2 : BitVec 2) (rs2 rs1 : XReg) (f3 : BitVec 3) (rd : XReg) (i : Nat) :
    (encEng acq rel scope f2 rs2 rs1 f3 rd).getLsbD i = ((encEng acq rel scope f2 rs2 rs1 f3 rd).extractLsb' i 1).getLsbD 0 := getLsbD_extract _ i

theorem encEng_fields (acq rel : Bool) (scope : BitVec 3) (f2 : BitVec 2) (rs2 rs1 : XReg) (f3 : BitVec 3) (rd : XReg) :
    (∀ lo nb, 31 ≤ lo → lo + nb ≤ 32 → (encEng acq rel scope f2 rs2 rs1 f3 rd).extractLsb' lo nb = BitVec.extractLsb' (lo - 31) nb (bit1 acq)) ∧
    (∀ lo nb, 30 ≤ lo → lo + nb ≤ 31 → (encEng acq rel scope f2 rs2 rs1 f3 rd).extractLsb' lo nb = BitVec.extractLsb' (lo - 30) nb (bit1 rel)) ∧
    (∀ lo nb, 27 ≤ lo → lo + nb ≤ 30 → (encEng acq rel scope f2 rs2 rs1 f3 rd).extractLsb' lo nb = BitVec.extractLsb' (lo - 27) nb scope) ∧
    (∀ lo nb, 25 ≤ lo → lo + nb ≤ 27 → (encEng acq rel scope f2 rs2 rs1 f3 rd).extractLsb' lo nb = BitVec.extractLsb' (lo - 25) nb f2) ∧
    (∀ lo nb, 20 ≤ lo → lo + nb ≤ 25 → (encEng acq rel scope f2 rs2 rs1 f3 rd).extractLsb' lo nb = BitVec.extractLsb' (lo - 20) nb rs2) ∧
    (∀ lo nb, 15 ≤ lo → lo + nb ≤ 20 → (encEng acq rel scope f2 rs2 rs1 f3 rd).extractLsb' lo nb = BitVec.extractLsb' (lo - 15) nb rs1) ∧
    (∀ lo nb, 12 ≤ lo → lo + nb ≤ 15 → (encEng acq rel scope f2 rs2 rs1 f3 rd).extractLsb' lo nb = BitVec.extractLsb' (lo - 12) nb f3) ∧
    (∀ lo nb, 7 ≤ lo → lo + nb ≤ 12 → (encEng acq rel scope f2 rs2 rs1 f3 rd).extractLsb' lo nb = BitVec.extractLsb' (lo - 7) nb rd) ∧
    (∀ lo nb, 0 ≤ lo → lo + nb ≤ 7 → (encEng acq rel scope f2 rs2 rs1 f3 rd).extractLsb' lo nb = BitVec.extractLsb' (lo - 0) nb (0x5B : BitVec 7)) :=
  ⟨fun lo _ _ _ => (above (lo' := lo - 7)).trans <| (above (lo' := lo - 12)).trans <| (above (lo' := lo - 15)).trans <| (above (lo' := lo - 20)).trans <| (above (lo' := lo - 25)).trans <| (above (lo' := lo - 27)).trans <| (above (lo' := lo - 30)).trans <| above (lo' := lo - 31),
   fun lo _ _ _ => (above (lo' := lo - 7)).trans <| (above (lo' := lo - 12)).trans <| (above (lo' := lo - 15)).trans <| (above (lo' := lo - 20)).trans <| (above (lo' := lo - 25)).trans <| (above (lo' := lo - 27)).trans <| (above (lo' := lo - 30)).trans <| below,
   fun lo _ _ _ => (above (lo' := lo - 7)).trans <| (above (lo' := lo - 12)).trans <| (above (lo' := lo - 15)).trans <| (above (lo' := lo - 20)).trans <| (above (lo' := lo - 25)).trans <| (above (lo' := lo - 27)).trans <| below,
   fun lo _ _ _ => (above (lo' := lo - 7)).trans <| (above (lo' := lo - 12)).trans <| (above (lo' := lo - 15)).trans <| (above (lo' := lo - 20)).trans <| (above (lo' := lo - 25)).trans <| below,
   fun lo _ _ _ => (above (lo' := lo - 7)).trans <| (above (lo' := lo - 12)).trans <| (above (lo' := lo - 15)).trans <| (above (lo' := lo - 20)).trans <| below,
   fun lo _ _ _ => (above (lo' := lo - 7)).trans <| (above (lo' := lo - 12)).trans <| (above (lo' := lo - 15)).trans <| below,
   fun lo _ _ _ => (above (lo' := lo - 7)).trans <| (above (lo' := lo - 12)).trans <| below,
   fun lo _ _ _ => (above (lo' := lo - 7)).trans <| below,
   fun lo _ _ _ => below⟩

theorem encAmo_bit (f5 : BitVec 5) (aq rl dbl : Bool) (rs2 rs1 rd : XReg) (i : Nat) :
    (encAmo f5 aq rl dbl rs2 rs1 rd).getLsbD i = ((encAmo f5 aq rl dbl rs2 rs1 rd).extractLsb' i 1).getLsbD 0 := getLsbD_extract _ i

theorem encAmo_fields (f5 : BitVec 5) (aq rl dbl : Bool) (rs2 rs1 rd : XReg) :
    (∀ lo nb, 27 ≤ lo → lo + nb ≤ 32 → (encAmo f5 aq rl dbl rs2 rs1 rd).extractLsb' lo nb = BitVec.extractLsb' (lo - 27) nb f5) ∧
    (∀ lo nb, 26 ≤ lo → lo + nb ≤ 27 → (encAmo f5 aq rl dbl rs2 rs1 rd).extractLsb' lo nb = BitVec.extractLsb' (lo - 26) nb (bit1 aq)) ∧
    (∀ lo nb, 25 ≤ lo → lo + nb ≤ 26 → (encAmo f5 aq rl dbl rs2 rs1 rd).extractLsb' lo nb = BitVec.extractLsb' (lo - 25) nb (bit1 rl)) ∧
    (∀ lo nb, 20 ≤ lo → lo + nb ≤ 25 → (encAmo f5 aq rl dbl rs2 rs1 rd).extractLsb' lo nb = BitVec.extractLsb' (lo - 20) nb rs2) ∧
    (∀ lo nb, 15 ≤ lo → lo + nb ≤ 20 → (encAmo f5 aq rl dbl rs2 rs1 rd).extractLsb' lo nb = BitVec.extractLsb' (lo - 15) nb rs1) ∧
    (∀ lo nb, 12 ≤ lo → lo + nb ≤ 15 → (encAmo f5 aq rl dbl rs2 rs1 rd).extractLsb' lo nb = BitVec.extractLsb' (lo - 12) nb (if dbl then (3 : BitVec 3) else 2)) ∧
    (∀ lo nb, 7 ≤ lo → lo + nb ≤ 12 → (encAmo f5 aq rl dbl rs2 rs1 rd).extractLsb' lo nb = BitVec.extractLsb' (lo - 7) nb rd) ∧
    (∀ lo nb, 0 ≤ lo → lo + nb ≤ 7 → (encAmo f5 aq rl dbl rs2 rs1 rd).extractLsb' lo nb = BitVec.extractLsb' (lo - 0) nb (0x2F : BitVec 7)) :=
  ⟨fun lo _ _ _ => (above (lo' := lo - 7)).trans <| (above (lo' := lo - 12)).trans <| (above (lo' := lo - 15)).trans <| (above (lo' := lo - 20)).trans <| (above (lo' := lo - 25)).trans <| (above (lo' := lo - 26)).trans <| above (lo' := lo - 27),
   fun lo _ _ _ => (above (lo' := lo - 7)).trans <| (above (lo' := lo - 12)).trans <| (above (lo' := lo - 15)).trans <| (above (lo' := lo - 20)).trans <| (above (lo' := lo - 25)).trans <| (above (lo' := lo - 26)).trans <| below,
   fun lo _ _ _ => (above (lo' := lo - 7)).trans <| (above (lo' := lo - 12)).trans <| (above (lo' := lo - 15)).trans <| (above (lo' := lo - 20)).trans <| (above (lo' := lo - 25)).trans <| below,
   fun lo _ _ _ => (above (lo' := lo - 7)).trans <| (above (lo' := lo - 12)).trans <| (above (lo' := lo - 15)).trans <| (above (lo' := lo - 20)).trans <| below,
   fun lo _ _ _ => (above (lo' := lo - 7)).trans <| (above (lo' := lo - 12)).trans <| (above (lo' := lo - 15)).trans <| below,
   fun lo _ _ _ => (above (lo' := lo - 7)).trans <| (above (lo' := lo - 12)).trans <| below,
   fun lo _ _ _ => (above (lo' := lo - 7)).trans <| below,
   fun lo _ _ _ => below⟩

theorem encCarrier_bit (lane : BitVec 2) (dt : BitVec 1) (mask : BitVec 4) (i : Nat) :
    (encCarrier lane dt mask).getLsbD i = ((encCarrier lane dt mask).extractLsb' i 1).getLsbD 0 := getLsbD_extract _ i

theorem encCarrier_fields (lane : BitVec 2) (dt : BitVec 1) (mask : BitVec 4) :
    (∀ lo nb, 14 ≤ lo → lo + nb ≤ 32 → (encCarrier lane dt mask).extractLsb' lo nb = BitVec.extractLsb' (lo - 14) nb (0 : BitVec 18)) ∧
    (∀ lo nb, 12 ≤ lo → lo + nb ≤ 14 → (encCarrier lane dt mask).extractLsb' lo nb = BitVec.extractLsb' (lo - 12) nb lane) ∧
    (∀ lo nb, 11 ≤ lo → lo + nb ≤ 12 → (encCarrier lane dt mask).extractLsb' lo nb = BitVec.extractLsb' (lo - 11) nb dt) ∧
    (∀ lo nb, 7 ≤ lo → lo + nb ≤ 11 → (encCarrier lane dt mask).extractLsb' lo nb = BitVec.extractLsb' (lo - 7) nb mask) ∧
    (∀ lo nb, 0 ≤ lo → lo + nb ≤ 7 → (encCarrier lane dt mask).extractLsb' lo nb = BitVec.extractLsb' (lo - 0) nb (0x3F : BitVec 7)) :=
  ⟨fun lo _ _ _ => (above (lo' := lo - 7)).trans <| (above (lo' := lo - 11)).trans <| (above (lo' := lo - 12)).trans <| above (lo' := lo - 14),
   fun lo _ _ _ => (above (lo' := lo - 7)).trans <| (above (lo' := lo - 11)).trans <| (above (lo' := lo - 12)).trans <| below,
   fun lo _ _ _ => (above (lo' := lo - 7)).trans <| (above (lo' := lo - 11)).trans <| below,
   fun lo _ _ _ => (above (lo' := lo - 7)).trans <| below,
   fun lo _ _ _ => below⟩

theorem encElem_bit (hi : BitVec 6) (v : VReg) (mid : BitVec 5) (f3 : BitVec 3) (rd : BitVec 5) (i : Nat) :
    (encElem hi v mid f3 rd).getLsbD i = ((encElem hi v mid f3 rd).extractLsb' i 1).getLsbD 0 := getLsbD_extract _ i

theorem encElem_fields (hi : BitVec 6) (v : VReg) (mid : BitVec 5) (f3 : BitVec 3) (rd : BitVec 5) :
    (∀ lo nb, 26 ≤ lo → lo + nb ≤ 32 → (encElem hi v mid f3 rd).extractLsb' lo nb = BitVec.extractLsb' (lo - 26) nb hi) ∧
    (∀ lo nb, 20 ≤ lo → lo + nb ≤ 26 → (encElem hi v mid f3 rd).extractLsb' lo nb = BitVec.extractLsb' (lo - 20) nb v) ∧
    (∀ lo nb, 15 ≤ lo → lo + nb ≤ 20 → (encElem hi v mid f3 rd).extractLsb' lo nb = BitVec.extractLsb' (lo - 15) nb mid) ∧
    (∀ lo nb, 12 ≤ lo → lo + nb ≤ 15 → (encElem hi v mid f3 rd).extractLsb' lo nb = BitVec.extractLsb' (lo - 12) nb f3) ∧
    (∀ lo nb, 7 ≤ lo → lo + nb ≤ 12 → (encElem hi v mid f3 rd).extractLsb' lo nb = BitVec.extractLsb' (lo - 7) nb rd) ∧
    (∀ lo nb, 0 ≤ lo → lo + nb ≤ 7 → (encElem hi v mid f3 rd).extractLsb' lo nb = BitVec.extractLsb' (lo - 0) nb (0x0B : BitVec 7)) :=
  ⟨fun lo _ _ _ => (above (lo' := lo - 7)).trans <| (above (lo' := lo - 12)).trans <| (above (lo' := lo - 15)).trans <| (above (lo' := lo - 20)).trans <| above (lo' := lo - 26),
   fun lo _ _ _ => (above (lo' := lo - 7)).trans <| (above (lo' := lo - 12)).trans <| (above (lo' := lo - 15)).trans <| (above (lo' := lo - 20)).trans <| below,
   fun lo _ _ _ => (above (lo' := lo - 7)).trans <| (above (lo' := lo - 12)).trans <| (above (lo' := lo - 15)).trans <| below,
   fun lo _ _ _ => (above (lo' := lo - 7)).trans <| (above (lo' := lo - 12)).trans <| below,
   fun lo _ _ _ => (above (lo' := lo - 7)).trans <| below,
   fun lo _ _ _ => below⟩

theorem encMask_bit (top k2 ka kd : BitVec 4) (z : BitVec 1) (f3 : BitVec 3) (rd : BitVec 5) (i : Nat) :
    (encMask top k2 ka kd z f3 rd).getLsbD i = ((encMask top k2 ka kd z f3 rd).extractLsb' i 1).getLsbD 0 := getLsbD_extract _ i

theorem encMask_fields (top k2 ka kd : BitVec 4) (z : BitVec 1) (f3 : BitVec 3) (rd : BitVec 5) :
    (∀ lo nb, 28 ≤ lo → lo + nb ≤ 32 → (encMask top k2 ka kd z f3 rd).extractLsb' lo nb = BitVec.extractLsb' (lo - 28) nb top) ∧
    (∀ lo nb, 24 ≤ lo → lo + nb ≤ 28 → (encMask top k2 ka kd z f3 rd).extractLsb' lo nb = BitVec.extractLsb' (lo - 24) nb k2) ∧
    (∀ lo nb, 20 ≤ lo → lo + nb ≤ 24 → (encMask top k2 ka kd z f3 rd).extractLsb' lo nb = BitVec.extractLsb' (lo - 20) nb ka) ∧
    (∀ lo nb, 16 ≤ lo → lo + nb ≤ 20 → (encMask top k2 ka kd z f3 rd).extractLsb' lo nb = BitVec.extractLsb' (lo - 16) nb kd) ∧
    (∀ lo nb, 15 ≤ lo → lo + nb ≤ 16 → (encMask top k2 ka kd z f3 rd).extractLsb' lo nb = BitVec.extractLsb' (lo - 15) nb z) ∧
    (∀ lo nb, 12 ≤ lo → lo + nb ≤ 15 → (encMask top k2 ka kd z f3 rd).extractLsb' lo nb = BitVec.extractLsb' (lo - 12) nb f3) ∧
    (∀ lo nb, 7 ≤ lo → lo + nb ≤ 12 → (encMask top k2 ka kd z f3 rd).extractLsb' lo nb = BitVec.extractLsb' (lo - 7) nb rd) ∧
    (∀ lo nb, 0 ≤ lo → lo + nb ≤ 7 → (encMask top k2 ka kd z f3 rd).extractLsb' lo nb = BitVec.extractLsb' (lo - 0) nb (0x0B : BitVec 7)) :=
  ⟨fun lo _ _ _ => (above (lo' := lo - 7)).trans <| (above (lo' := lo - 12)).trans <| (above (lo' := lo - 15)).trans <| (above (lo' := lo - 16)).trans <| (above (lo' := lo - 20)).trans <| (above (lo' := lo - 24)).trans <| above (lo' := lo - 28),
   fun lo _ _ _ => (above (lo' := lo - 7)).trans <| (above (lo' := lo - 12)).trans <| (above (lo' := lo - 15)).trans <| (above (lo' := lo - 16)).trans <| (above (lo' := lo - 20)).trans <| (above (lo' := lo - 24)).trans <| below,
   fun lo _ _ _ => (above (lo' := lo - 7)).trans <| (above (lo' := lo - 12)).trans <| (above (lo' := lo - 15)).trans <| (above (lo' := lo - 16)).trans <| (above (lo' := lo - 20)).trans <| below,
   fun lo _ _ _ => (above (lo' := lo - 7)).trans <| (above (lo' := lo - 12)).trans <| (above (lo' := lo - 15)).trans <| (above (lo' := lo - 16)).trans <| below,
   fun lo _ _ _ => (above (lo' := lo - 7)).trans <| (above (lo' := lo - 12)).trans <| (above (lo' := lo - 15)).trans <| below,
   fun lo _ _ _ => (above (lo' := lo - 7)).trans <| (above (lo' := lo - 12)).trans <| below,
   fun lo _ _ _ => (above (lo' := lo - 7)).trans <| below,
   fun lo _ _ _ => below⟩

theorem encPre_bit (f5 : BitVec 5) (ka kd : BitVec 4) (f3 : BitVec 3) (rd : BitVec 5) (i : Nat) :
    (encPre f5 ka kd f3 rd).getLsbD i = ((encPre f5 ka kd f3 rd).extractLsb' i 1).getLsbD 0 := getLsbD_extract _ i

theorem encPre_fields (f5 : BitVec 5) (ka kd : BitVec 4) (f3 : BitVec 3) (rd : BitVec 5) :
    (∀ lo nb, 27 ≤ lo → lo + nb ≤ 32 → (encPre f5 ka kd f3 rd).extractLsb' lo nb = BitVec.extractLsb' (lo - 27) nb f5) ∧
    (∀ lo nb, 24 ≤ lo → lo + nb ≤ 27 → (encPre f5 ka kd f3 rd).extractLsb' lo nb = BitVec.extractLsb' (lo - 24) nb (0 : BitVec 3)) ∧
    (∀ lo nb, 20 ≤ lo → lo + nb ≤ 24 → (encPre f5 ka kd f3 rd).extractLsb' lo nb = BitVec.extractLsb' (lo - 20) nb ka) ∧
    (∀ lo nb, 16 ≤ lo → lo + nb ≤ 20 → (encPre f5 ka kd f3 rd).extractLsb' lo nb = BitVec.extractLsb' (lo - 16) nb kd) ∧
    (∀ lo nb, 15 ≤ lo → lo + nb ≤ 16 → (encPre f5 ka kd f3 rd).extractLsb' lo nb = BitVec.extractLsb' (lo - 15) nb (0 : BitVec 1)) ∧
    (∀ lo nb, 12 ≤ lo → lo + nb ≤ 15 → (encPre f5 ka kd f3 rd).extractLsb' lo nb = BitVec.extractLsb' (lo - 12) nb f3) ∧
    (∀ lo nb, 7 ≤ lo → lo + nb ≤ 12 → (encPre f5 ka kd f3 rd).extractLsb' lo nb = BitVec.extractLsb' (lo - 7) nb rd) ∧
    (∀ lo nb, 0 ≤ lo → lo + nb ≤ 7 → (encPre f5 ka kd f3 rd).extractLsb' lo nb = BitVec.extractLsb' (lo - 0) nb (0x0B : BitVec 7)) :=
  ⟨fun lo _ _ _ => (above (lo' := lo - 7)).trans <| (above (lo' := lo - 12)).trans <| (above (lo' := lo - 15)).trans <| (above (lo' := lo - 16)).trans <| (above (lo' := lo - 20)).trans <| (above (lo' := lo - 24)).trans <| above (lo' := lo - 27),
   fun lo _ _ _ => (above (lo' := lo - 7)).trans <| (above (lo' := lo - 12)).trans <| (above (lo' := lo - 15)).trans <| (above (lo' := lo - 16)).trans <| (above (lo' := lo - 20)).trans <| (above (lo' := lo - 24)).trans <| below,
   fun lo _ _ _ => (above (lo' := lo - 7)).trans <| (above (lo' := lo - 12)).trans <| (above (lo' := lo - 15)).trans <| (above (lo' := lo - 16)).trans <| (above (lo' := lo - 20)).trans <| below,
   fun lo _ _ _ => (above (lo' := lo - 7)).trans <| (above (lo' := lo - 12)).trans <| (above (lo' := lo - 15)).trans <| (above (lo' := lo - 16)).trans <| below,
   fun lo _ _ _ => (above (lo' := lo - 7)).trans <| (above (lo' := lo - 12)).trans <| (above (lo' := lo - 15)).trans <| below,
   fun lo _ _ _ => (above (lo' := lo - 7)).trans <| (above (lo' := lo - 12)).trans <| below,
   fun lo _ _ _ => (above (lo' := lo - 7)).trans <| below,
   fun lo _ _ _ => below⟩

theorem encKword_bit (k : BitVec 4) (dir : BitVec 3) (rs2 rs1 : XReg) (rd : BitVec 5) (i : Nat) :
    (encKword k dir rs2 rs1 rd).getLsbD i = ((encKword k dir rs2 rs1 rd).extractLsb' i 1).getLsbD 0 := getLsbD_extract _ i

theorem encKword_fields (k : BitVec 4) (dir : BitVec 3) (rs2 rs1 : XReg) (rd : BitVec 5) :
    (∀ lo nb, 28 ≤ lo → lo + nb ≤ 32 → (encKword k dir rs2 rs1 rd).extractLsb' lo nb = BitVec.extractLsb' (lo - 28) nb k) ∧
    (∀ lo nb, 25 ≤ lo → lo + nb ≤ 28 → (encKword k dir rs2 rs1 rd).extractLsb' lo nb = BitVec.extractLsb' (lo - 25) nb dir) ∧
    (∀ lo nb, 20 ≤ lo → lo + nb ≤ 25 → (encKword k dir rs2 rs1 rd).extractLsb' lo nb = BitVec.extractLsb' (lo - 20) nb rs2) ∧
    (∀ lo nb, 15 ≤ lo → lo + nb ≤ 20 → (encKword k dir rs2 rs1 rd).extractLsb' lo nb = BitVec.extractLsb' (lo - 15) nb rs1) ∧
    (∀ lo nb, 12 ≤ lo → lo + nb ≤ 15 → (encKword k dir rs2 rs1 rd).extractLsb' lo nb = BitVec.extractLsb' (lo - 12) nb (5 : BitVec 3)) ∧
    (∀ lo nb, 7 ≤ lo → lo + nb ≤ 12 → (encKword k dir rs2 rs1 rd).extractLsb' lo nb = BitVec.extractLsb' (lo - 7) nb rd) ∧
    (∀ lo nb, 0 ≤ lo → lo + nb ≤ 7 → (encKword k dir rs2 rs1 rd).extractLsb' lo nb = BitVec.extractLsb' (lo - 0) nb (0x0B : BitVec 7)) :=
  ⟨fun lo _ _ _ => (above (lo' := lo - 7)).trans <| (above (lo' := lo - 12)).trans <| (above (lo' := lo - 15)).trans <| (above (lo' := lo - 20)).trans <| (above (lo' := lo - 25)).trans <| above (lo' := lo - 28),
   fun lo _ _ _ => (above (lo' := lo - 7)).trans <| (above (lo' := lo - 12)).trans <| (above (lo' := lo - 15)).trans <| (above (lo' := lo - 20)).trans <| (above (lo' := lo - 25)).trans <| below,
   fun lo _ _ _ => (above (lo' := lo - 7)).trans <| (above (lo' := lo - 12)).trans <| (above (lo' := lo - 15)).trans <| (above (lo' := lo - 20)).trans <| below,
   fun lo _ _ _ => (above (lo' := lo - 7)).trans <| (above (lo' := lo - 12)).trans <| (above (lo' := lo - 15)).trans <| below,
   fun lo _ _ _ => (above (lo' := lo - 7)).trans <| (above (lo' := lo - 12)).trans <| below,
   fun lo _ _ _ => (above (lo' := lo - 7)).trans <| below,
   fun lo _ _ _ => below⟩

theorem encVamo_bit (mask : BitVec 4) (v : VReg) (op : BitVec 4) (scope : BitVec 3) (x : BitVec 5) (i : Nat) :
    (encVamo mask v op scope x).getLsbD i = ((encVamo mask v op scope x).extractLsb' i 1).getLsbD 0 := getLsbD_extract _ i

theorem encVamo_fields (mask : BitVec 4) (v : VReg) (op : BitVec 4) (scope : BitVec 3) (x : BitVec 5) :
    (∀ lo nb, 28 ≤ lo → lo + nb ≤ 32 → (encVamo mask v op scope x).extractLsb' lo nb = BitVec.extractLsb' (lo - 28) nb mask) ∧
    (∀ lo nb, 22 ≤ lo → lo + nb ≤ 28 → (encVamo mask v op scope x).extractLsb' lo nb = BitVec.extractLsb' (lo - 22) nb v) ∧
    (∀ lo nb, 18 ≤ lo → lo + nb ≤ 22 → (encVamo mask v op scope x).extractLsb' lo nb = BitVec.extractLsb' (lo - 18) nb op) ∧
    (∀ lo nb, 15 ≤ lo → lo + nb ≤ 18 → (encVamo mask v op scope x).extractLsb' lo nb = BitVec.extractLsb' (lo - 15) nb scope) ∧
    (∀ lo nb, 12 ≤ lo → lo + nb ≤ 15 → (encVamo mask v op scope x).extractLsb' lo nb = BitVec.extractLsb' (lo - 12) nb (5 : BitVec 3)) ∧
    (∀ lo nb, 7 ≤ lo → lo + nb ≤ 12 → (encVamo mask v op scope x).extractLsb' lo nb = BitVec.extractLsb' (lo - 7) nb x) ∧
    (∀ lo nb, 0 ≤ lo → lo + nb ≤ 7 → (encVamo mask v op scope x).extractLsb' lo nb = BitVec.extractLsb' (lo - 0) nb (0x2B : BitVec 7)) :=
  ⟨fun lo _ _ _ => (above (lo' := lo - 7)).trans <| (above (lo' := lo - 12)).trans <| (above (lo' := lo - 15)).trans <| (above (lo' := lo - 18)).trans <| (above (lo' := lo - 22)).trans <| above (lo' := lo - 28),
   fun lo _ _ _ => (above (lo' := lo - 7)).trans <| (above (lo' := lo - 12)).trans <| (above (lo' := lo - 15)).trans <| (above (lo' := lo - 18)).trans <| (above (lo' := lo - 22)).trans <| below,
   fun lo _ _ _ => (above (lo' := lo - 7)).trans <| (above (lo' := lo - 12)).trans <| (above (lo' := lo - 15)).trans <| (above (lo' := lo - 18)).trans <| below,
   fun lo _ _ _ => (above (lo' := lo - 7)).trans <| (above (lo' := lo - 12)).trans <| (above (lo' := lo - 15)).trans <| below,
   fun lo _ _ _ => (above (lo' := lo - 7)).trans <| (above (lo' := lo - 12)).trans <| below,
   fun lo _ _ _ => (above (lo' := lo - 7)).trans <| below,
   fun lo _ _ _ => below⟩

theorem encScalar_bit (z : BitVec 4) (dbl : BitVec 1) (rs2 : XReg) (f2 : BitVec 2) (rs1 rd : XReg) (i : Nat) :
    (encScalar z dbl rs2 f2 rs1 rd).getLsbD i = ((encScalar z dbl rs2 f2 rs1 rd).extractLsb' i 1).getLsbD 0 := getLsbD_extract _ i

theorem encScalar_fields (z : BitVec 4) (dbl : BitVec 1) (rs2 : XReg) (f2 : BitVec 2) (rs1 rd : XReg) :
    (∀ lo nb, 28 ≤ lo → lo + nb ≤ 32 → (encScalar z dbl rs2 f2 rs1 rd).extractLsb' lo nb = BitVec.extractLsb' (lo - 28) nb z) ∧
    (∀ lo nb, 27 ≤ lo → lo + nb ≤ 28 → (encScalar z dbl rs2 f2 rs1 rd).extractLsb' lo nb = BitVec.extractLsb' (lo - 27) nb dbl) ∧
    (∀ lo nb, 22 ≤ lo → lo + nb ≤ 27 → (encScalar z dbl rs2 f2 rs1 rd).extractLsb' lo nb = BitVec.extractLsb' (lo - 22) nb rs2) ∧
    (∀ lo nb, 20 ≤ lo → lo + nb ≤ 22 → (encScalar z dbl rs2 f2 rs1 rd).extractLsb' lo nb = BitVec.extractLsb' (lo - 20) nb f2) ∧
    (∀ lo nb, 15 ≤ lo → lo + nb ≤ 20 → (encScalar z dbl rs2 f2 rs1 rd).extractLsb' lo nb = BitVec.extractLsb' (lo - 15) nb rs1) ∧
    (∀ lo nb, 12 ≤ lo → lo + nb ≤ 15 → (encScalar z dbl rs2 f2 rs1 rd).extractLsb' lo nb = BitVec.extractLsb' (lo - 12) nb (6 : BitVec 3)) ∧
    (∀ lo nb, 7 ≤ lo → lo + nb ≤ 12 → (encScalar z dbl rs2 f2 rs1 rd).extractLsb' lo nb = BitVec.extractLsb' (lo - 7) nb rd) ∧
    (∀ lo nb, 0 ≤ lo → lo + nb ≤ 7 → (encScalar z dbl rs2 f2 rs1 rd).extractLsb' lo nb = BitVec.extractLsb' (lo - 0) nb (0x2B : BitVec 7)) :=
  ⟨fun lo _ _ _ => (above (lo' := lo - 7)).trans <| (above (lo' := lo - 12)).trans <| (above (lo' := lo - 15)).trans <| (above (lo' := lo - 20)).trans <| (above (lo' := lo - 22)).trans <| (above (lo' := lo - 27)).trans <| above (lo' := lo - 28),
   fun lo _ _ _ => (above (lo' := lo - 7)).trans <| (above (lo' := lo - 12)).trans <| (above (lo' := lo - 15)).trans <| (above (lo' := lo - 20)).trans <| (above (lo' := lo - 22)).trans <| (above (lo' := lo - 27)).trans <| below,
   fun lo _ _ _ => (above (lo' := lo - 7)).trans <| (above (lo' := lo - 12)).trans <| (above (lo' := lo - 15)).trans <| (above (lo' := lo - 20)).trans <| (above (lo' := lo - 22)).trans <| below,
   fun lo _ _ _ => (above (lo' := lo - 7)).trans <| (above (lo' := lo - 12)).trans <| (above (lo' := lo - 15)).trans <| (above (lo' := lo - 20)).trans <| below,
   fun lo _ _ _ => (above (lo' := lo - 7)).trans <| (above (lo' := lo - 12)).trans <| (above (lo' := lo - 15)).trans <| below,
   fun lo _ _ _ => (above (lo' := lo - 7)).trans <| (above (lo' := lo - 12)).trans <| below,
   fun lo _ _ _ => (above (lo' := lo - 7)).trans <| below,
   fun lo _ _ _ => below⟩

theorem encOfence_bit (pred succ : BitVec 4) (scope : BitVec 3) (i : Nat) :
    (encOfence pred succ scope).getLsbD i = ((encOfence pred succ scope).extractLsb' i 1).getLsbD 0 := getLsbD_extract _ i

theorem encOfence_fields (pred succ : BitVec 4) (scope : BitVec 3) :
    (∀ lo nb, 28 ≤ lo → lo + nb ≤ 32 → (encOfence pred succ scope).extractLsb' lo nb = BitVec.extractLsb' (lo - 28) nb pred) ∧
    (∀ lo nb, 24 ≤ lo → lo + nb ≤ 28 → (encOfence pred succ scope).extractLsb' lo nb = BitVec.extractLsb' (lo - 24) nb succ) ∧
    (∀ lo nb, 21 ≤ lo → lo + nb ≤ 24 → (encOfence pred succ scope).extractLsb' lo nb = BitVec.extractLsb' (lo - 21) nb scope) ∧
    (∀ lo nb, 15 ≤ lo → lo + nb ≤ 21 → (encOfence pred succ scope).extractLsb' lo nb = BitVec.extractLsb' (lo - 15) nb (0 : BitVec 6)) ∧
    (∀ lo nb, 12 ≤ lo → lo + nb ≤ 15 → (encOfence pred succ scope).extractLsb' lo nb = BitVec.extractLsb' (lo - 12) nb (2 : BitVec 3)) ∧
    (∀ lo nb, 7 ≤ lo → lo + nb ≤ 12 → (encOfence pred succ scope).extractLsb' lo nb = BitVec.extractLsb' (lo - 7) nb (0 : BitVec 5)) ∧
    (∀ lo nb, 0 ≤ lo → lo + nb ≤ 7 → (encOfence pred succ scope).extractLsb' lo nb = BitVec.extractLsb' (lo - 0) nb (0x7B : BitVec 7)) :=
  ⟨fun lo _ _ _ => (above (lo' := lo - 7)).trans <| (above (lo' := lo - 12)).trans <| (above (lo' := lo - 15)).trans <| (above (lo' := lo - 21)).trans <| (above (lo' := lo - 24)).trans <| above (lo' := lo - 28),
   fun lo _ _ _ => (above (lo' := lo - 7)).trans <| (above (lo' := lo - 12)).trans <| (above (lo' := lo - 15)).trans <| (above (lo' := lo - 21)).trans <| (above (lo' := lo - 24)).trans <| below,
   fun lo _ _ _ => (above (lo' := lo - 7)).trans <| (above (lo' := lo - 12)).trans <| (above (lo' := lo - 15)).trans <| (above (lo' := lo - 21)).trans <| below,
   fun lo _ _ _ => (above (lo' := lo - 7)).trans <| (above (lo' := lo - 12)).trans <| (above (lo' := lo - 15)).trans <| below,
   fun lo _ _ _ => (above (lo' := lo - 7)).trans <| (above (lo' := lo - 12)).trans <| below,
   fun lo _ _ _ => (above (lo' := lo - 7)).trans <| below,
   fun lo _ _ _ => below⟩

theorem encWaita_bit (rs3 : XReg) (cond : BitVec 2) (rs2 rs1 rd : XReg) (i : Nat) :
    (encWaita rs3 cond rs2 rs1 rd).getLsbD i = ((encWaita rs3 cond rs2 rs1 rd).extractLsb' i 1).getLsbD 0 := getLsbD_extract _ i

theorem encWaita_fields (rs3 : XReg) (cond : BitVec 2) (rs2 rs1 rd : XReg) :
    (∀ lo nb, 27 ≤ lo → lo + nb ≤ 32 → (encWaita rs3 cond rs2 rs1 rd).extractLsb' lo nb = BitVec.extractLsb' (lo - 27) nb rs3) ∧
    (∀ lo nb, 25 ≤ lo → lo + nb ≤ 27 → (encWaita rs3 cond rs2 rs1 rd).extractLsb' lo nb = BitVec.extractLsb' (lo - 25) nb cond) ∧
    (∀ lo nb, 20 ≤ lo → lo + nb ≤ 25 → (encWaita rs3 cond rs2 rs1 rd).extractLsb' lo nb = BitVec.extractLsb' (lo - 20) nb rs2) ∧
    (∀ lo nb, 15 ≤ lo → lo + nb ≤ 20 → (encWaita rs3 cond rs2 rs1 rd).extractLsb' lo nb = BitVec.extractLsb' (lo - 15) nb rs1) ∧
    (∀ lo nb, 12 ≤ lo → lo + nb ≤ 15 → (encWaita rs3 cond rs2 rs1 rd).extractLsb' lo nb = BitVec.extractLsb' (lo - 12) nb (3 : BitVec 3)) ∧
    (∀ lo nb, 7 ≤ lo → lo + nb ≤ 12 → (encWaita rs3 cond rs2 rs1 rd).extractLsb' lo nb = BitVec.extractLsb' (lo - 7) nb rd) ∧
    (∀ lo nb, 0 ≤ lo → lo + nb ≤ 7 → (encWaita rs3 cond rs2 rs1 rd).extractLsb' lo nb = BitVec.extractLsb' (lo - 0) nb (0x7B : BitVec 7)) :=
  ⟨fun lo _ _ _ => (above (lo' := lo - 7)).trans <| (above (lo' := lo - 12)).trans <| (above (lo' := lo - 15)).trans <| (above (lo' := lo - 20)).trans <| (above (lo' := lo - 25)).trans <| above (lo' := lo - 27),
   fun lo _ _ _ => (above (lo' := lo - 7)).trans <| (above (lo' := lo - 12)).trans <| (above (lo' := lo - 15)).trans <| (above (lo' := lo - 20)).trans <| (above (lo' := lo - 25)).trans <| below,
   fun lo _ _ _ => (above (lo' := lo - 7)).trans <| (above (lo' := lo - 12)).trans <| (above (lo' := lo - 15)).trans <| (above (lo' := lo - 20)).trans <| below,
   fun lo _ _ _ => (above (lo' := lo - 7)).trans <| (above (lo' := lo - 12)).trans <| (above (lo' := lo - 15)).trans <| below,
   fun lo _ _ _ => (above (lo' := lo - 7)).trans <| (above (lo' := lo - 12)).trans <| below,
   fun lo _ _ _ => (above (lo' := lo - 7)).trans <| below,
   fun lo _ _ _ => below⟩

theorem encFence_bit (fm pred succ : BitVec 4) (i : Nat) :
    (encFence fm pred succ).getLsbD i = ((encFence fm pred succ).extractLsb' i 1).getLsbD 0 := getLsbD_extract _ i

theorem encFence_fields (fm pred succ : BitVec 4) :
    (∀ lo nb, 28 ≤ lo → lo + nb ≤ 32 → (encFence fm pred succ).extractLsb' lo nb = BitVec.extractLsb' (lo - 28) nb fm) ∧
    (∀ lo nb, 24 ≤ lo → lo + nb ≤ 28 → (encFence fm pred succ).extractLsb' lo nb = BitVec.extractLsb' (lo - 24) nb pred) ∧
    (∀ lo nb, 20 ≤ lo → lo + nb ≤ 24 → (encFence fm pred succ).extractLsb' lo nb = BitVec.extractLsb' (lo - 20) nb succ) ∧
    (∀ lo nb, 7 ≤ lo → lo + nb ≤ 20 → (encFence fm pred succ).extractLsb' lo nb = BitVec.extractLsb' (lo - 7) nb (0 : BitVec 13)) ∧
    (∀ lo nb, 0 ≤ lo → lo + nb ≤ 7 → (encFence fm pred succ).extractLsb' lo nb = BitVec.extractLsb' (lo - 0) nb (0x0F : BitVec 7)) :=
  ⟨fun lo _ _ _ => (above (lo' := lo - 7)).trans <| (above (lo' := lo - 20)).trans <| (above (lo' := lo - 24)).trans <| above (lo' := lo - 28),
   fun lo _ _ _ => (above (lo' := lo - 7)).trans <| (above (lo' := lo - 20)).trans <| (above (lo' := lo - 24)).trans <| below,
   fun lo _ _ _ => (above (lo' := lo - 7)).trans <| (above (lo' := lo - 20)).trans <| below,
   fun lo _ _ _ => (above (lo' := lo - 7)).trans <| below,
   fun lo _ _ _ => below⟩

theorem encLoad_bit (off : BitVec 12) (rs1 : XReg) (f3 : BitVec 3) (rd : XReg) (i : Nat) :
    (encLoad off rs1 f3 rd).getLsbD i = ((encLoad off rs1 f3 rd).extractLsb' i 1).getLsbD 0 := getLsbD_extract _ i

theorem encLoad_fields (off : BitVec 12) (rs1 : XReg) (f3 : BitVec 3) (rd : XReg) :
    (∀ lo nb, 20 ≤ lo → lo + nb ≤ 32 → (encLoad off rs1 f3 rd).extractLsb' lo nb = BitVec.extractLsb' (lo - 20) nb off) ∧
    (∀ lo nb, 15 ≤ lo → lo + nb ≤ 20 → (encLoad off rs1 f3 rd).extractLsb' lo nb = BitVec.extractLsb' (lo - 15) nb rs1) ∧
    (∀ lo nb, 12 ≤ lo → lo + nb ≤ 15 → (encLoad off rs1 f3 rd).extractLsb' lo nb = BitVec.extractLsb' (lo - 12) nb f3) ∧
    (∀ lo nb, 7 ≤ lo → lo + nb ≤ 12 → (encLoad off rs1 f3 rd).extractLsb' lo nb = BitVec.extractLsb' (lo - 7) nb rd) ∧
    (∀ lo nb, 0 ≤ lo → lo + nb ≤ 7 → (encLoad off rs1 f3 rd).extractLsb' lo nb = BitVec.extractLsb' (lo - 0) nb (0x03 : BitVec 7)) :=
  ⟨fun lo _ _ _ => (above (lo' := lo - 7)).trans <| (above (lo' := lo - 12)).trans <| (above (lo' := lo - 15)).trans <| above (lo' := lo - 20),
   fun lo _ _ _ => (above (lo' := lo - 7)).trans <| (above (lo' := lo - 12)).trans <| (above (lo' := lo - 15)).trans <| below,
   fun lo _ _ _ => (above (lo' := lo - 7)).trans <| (above (lo' := lo - 12)).trans <| below,
   fun lo _ _ _ => (above (lo' := lo - 7)).trans <| below,
   fun lo _ _ _ => below⟩

theorem cat_9_5 (a : BitVec 9) (b : BitVec 5) :
    (a ++ b : BitVec 14).extractLsb' 5 9 = a ∧
    (a ++ b : BitVec 14).extractLsb' 0 5 = b :=
  ⟨(above (lo' := 0)).trans (BitVec.extractLsb'_eq_self), (below).trans (BitVec.extractLsb'_eq_self)⟩

theorem cat_3_3 (a : BitVec 3) (b : BitVec 3) :
    (a ++ b : BitVec 6).extractLsb' 0 3 = b ∧
    (a ++ b : BitVec 6).extractLsb' 3 3 = a ∧
    (a ++ b : BitVec 6).extractLsb' 3 1 = a.extractLsb' 0 1 ∧
    (a ++ b : BitVec 6).extractLsb' 4 2 = a.extractLsb' 1 2 :=
  ⟨(below).trans (BitVec.extractLsb'_eq_self), (above (lo' := 0)).trans (BitVec.extractLsb'_eq_self), (above (lo' := 0)).trans (rfl), (above (lo' := 1)).trans (rfl)⟩

theorem cat_2_1_3 (a : BitVec 2) (b : BitVec 1) (c : BitVec 3) :
    (a ++ b ++ c : BitVec 6).extractLsb' 0 3 = c ∧
    (a ++ b ++ c : BitVec 6).extractLsb' 3 1 = b ∧
    (a ++ b ++ c : BitVec 6).extractLsb' 4 2 = a :=
  ⟨(below).trans (BitVec.extractLsb'_eq_self), ((above (lo' := 0)).trans <| below).trans (BitVec.extractLsb'_eq_self), ((above (lo' := 1)).trans <| above (lo' := 0)).trans (BitVec.extractLsb'_eq_self)⟩

theorem cat_3_2_1 (a : BitVec 3) (b : BitVec 2) (c : BitVec 1) :
    (a ++ b ++ c : BitVec 6).extractLsb' 0 1 = c ∧
    (a ++ b ++ c : BitVec 6).extractLsb' 1 2 = b ∧
    (a ++ b ++ c : BitVec 6).extractLsb' 3 3 = a :=
  ⟨(below).trans (BitVec.extractLsb'_eq_self), ((above (lo' := 0)).trans <| below).trans (BitVec.extractLsb'_eq_self), ((above (lo' := 2)).trans <| above (lo' := 0)).trans (BitVec.extractLsb'_eq_self)⟩

theorem cat_2_4 (a : BitVec 2) (b : BitVec 4) :
    (a ++ b : BitVec 6).extractLsb' 0 4 = b ∧
    (a ++ b : BitVec 6).extractLsb' 4 2 = a :=
  ⟨(below).trans (BitVec.extractLsb'_eq_self), (above (lo' := 0)).trans (BitVec.extractLsb'_eq_self)⟩

theorem cat_4_1_1 (a : BitVec 4) (b : BitVec 1) (c : BitVec 1) :
    (a ++ b ++ c : BitVec 6).extractLsb' 2 4 = a ∧
    (a ++ b ++ c : BitVec 6).getLsbD 0 = c.getLsbD 0 ∧
    (a ++ b ++ c : BitVec 6).getLsbD 1 = b.getLsbD 0 :=
  ⟨((above (lo' := 1)).trans <| above (lo' := 0)).trans (BitVec.extractLsb'_eq_self), ((getLsbD_extract _ 0).trans (congrArg (BitVec.getLsbD · 0) (below))).trans (getLsbD_extract _ 0).symm, ((getLsbD_extract _ 1).trans (congrArg (BitVec.getLsbD · 0) ((above (lo' := 0)).trans <| below))).trans (getLsbD_extract _ 0).symm⟩

theorem cat_6_8 (a : BitVec 6) (b : BitVec 8) :
    (a ++ b : BitVec 14).extractLsb' 8 6 = a ∧
    (a ++ b : BitVec 14).extractLsb' 0 8 = b :=
  ⟨(above (lo' := 0)).trans (BitVec.extractLsb'_eq_self), (below).trans (BitVec.extractLsb'_eq_self)⟩

theorem cat_1_4 (a : BitVec 1) (b : BitVec 4) :
    (a ++ b : BitVec 5).extractLsb' 0 4 = b ∧
    (a ++ b : BitVec 5).getLsbD 4 = a.getLsbD 0 :=
  ⟨(below).trans (BitVec.extractLsb'_eq_self), ((getLsbD_extract _ 4).trans (congrArg (BitVec.getLsbD · 0) (above (lo' := 0)))).trans (getLsbD_extract _ 0).symm⟩

theorem cat_4_1 (a : BitVec 4) (b : BitVec 1) :
    (a ++ b : BitVec 5).extractLsb' 1 4 = a ∧
    (a ++ b : BitVec 5).getLsbD 0 = b.getLsbD 0 :=
  ⟨(above (lo' := 0)).trans (BitVec.extractLsb'_eq_self), ((getLsbD_extract _ 0).trans (congrArg (BitVec.getLsbD · 0) (below))).trans (getLsbD_extract _ 0).symm⟩

theorem cat_4_2_1 (a : BitVec 4) (b : BitVec 2) (c : BitVec 1) :
    (a ++ b ++ c : BitVec 7).extractLsb' 1 2 = b ∧
    (a ++ b ++ c : BitVec 7).extractLsb' 3 4 = a ∧
    (a ++ b ++ c : BitVec 7).getLsbD 0 = c.getLsbD 0 :=
  ⟨((above (lo' := 0)).trans <| below).trans (BitVec.extractLsb'_eq_self), ((above (lo' := 2)).trans <| above (lo' := 0)).trans (BitVec.extractLsb'_eq_self), ((getLsbD_extract _ 0).trans (congrArg (BitVec.getLsbD · 0) (below))).trans (getLsbD_extract _ 0).symm⟩

theorem cat_4_3 (a : BitVec 4) (b : BitVec 3) :
    (a ++ b : BitVec 7).extractLsb' 0 3 = b ∧
    (a ++ b : BitVec 7).extractLsb' 3 4 = a ∧
    (a ++ b : BitVec 7).extractLsb' 1 2 = b.extractLsb' 1 2 ∧
    (a ++ b : BitVec 7).getLsbD 0 = b.getLsbD 0 :=
  ⟨(below).trans (BitVec.extractLsb'_eq_self), (above (lo' := 0)).trans (BitVec.extractLsb'_eq_self), (below).trans (rfl), ((getLsbD_extract _ 0).trans (congrArg (BitVec.getLsbD · 0) (below))).trans (getLsbD_extract _ 0).symm⟩

theorem cat_1_2 (a : BitVec 1) (b : BitVec 2) :
    (a ++ b : BitVec 3).extractLsb' 0 2 = b ∧
    (a ++ b : BitVec 3).getLsbD 2 = a.getLsbD 0 :=
  ⟨(below).trans (BitVec.extractLsb'_eq_self), ((getLsbD_extract _ 2).trans (congrArg (BitVec.getLsbD · 0) (above (lo' := 0)))).trans (getLsbD_extract _ 0).symm⟩

theorem cat_1_1 (a : BitVec 1) (b : BitVec 1) :
    (a ++ b : BitVec 2).getLsbD 0 = b.getLsbD 0 ∧
    (a ++ b : BitVec 2).getLsbD 1 = a.getLsbD 0 :=
  ⟨((getLsbD_extract _ 0).trans (congrArg (BitVec.getLsbD · 0) (below))).trans (getLsbD_extract _ 0).symm, ((getLsbD_extract _ 1).trans (congrArg (BitVec.getLsbD · 0) (above (lo' := 0)))).trans (getLsbD_extract _ 0).symm⟩

theorem encScalar_top (z : BitVec 4) (dbl : BitVec 1) (rs2 : XReg) (f2 : BitVec 2) (rs1 rd : XReg) :
    (encScalar z dbl rs2 f2 rs1 rd).extractLsb' 27 5 = z ++ dbl :=
  (above (lo' := 20)).trans <| (above (lo' := 15)).trans <| (above (lo' := 12)).trans <| (above (lo' := 7)).trans <|
    (above (lo' := 5)).trans <| (above (lo' := 0)).trans BitVec.extractLsb'_eq_self

theorem encEng_top (acq rel : Bool) (scope : BitVec 3) (f2 : BitVec 2) (rs2 rs1 : XReg) (f3 : BitVec 3) (rd : XReg) :
    (encEng acq rel scope f2 rs2 rs1 f3 rd).extractLsb' 27 5 = bit1 acq ++ bit1 rel ++ scope :=
  (above (lo' := 20)).trans <| (above (lo' := 15)).trans <| (above (lo' := 12)).trans <| (above (lo' := 7)).trans <|
    (above (lo' := 2)).trans <| (above (lo' := 0)).trans BitVec.extractLsb'_eq_self

theorem split_offset (off : BitVec 12) : (off.extractLsb' 5 7 ++ off.extractLsb' 0 5 : BitVec 12) = off := by
  refine BitVec.eq_of_getLsbD_eq fun i hi => ?_
  simp only [BitVec.getLsbD_append, BitVec.getLsbD_extractLsb']
  grind

theorem encR_ne (f7 : BitVec 7) (rs2 rs1 : XReg) (f3 : BitVec 3) (rd : XReg) (op : BitVec 7) (x : BitVec 32)
    (h : x.extractLsb' 25 7 ≠ f7) : encR f7 rs2 rs1 f3 rd op ≠ x := fun e =>
  h (by rw [← e, (encR_fields ..).1 25 7 (by decide) (by decide)]; exact BitVec.extractLsb'_eq_self)

end Sys2Proof.Laws
end

