-- ==== Sys2Proof/Laws/Store.lean ====
section
/-! SUPPORT. Sparse tables, stores and memory: what a read after a write gives, in every table, and the canonical form,
which every write keeps. -/

namespace Sys2Proof.Machine

@[simp] theorem Table.get_nil {α : Type} (d : α) (a : Nat) : Table.get d [] a = d := rfl

theorem Table.get_erase {α : Type} (d : α) (t : Table α) (a b : Nat) : Table.get d (Table.erase t a) b = if b = a then d else Table.get d t b := by
  induction t with
  | nil => simp [Table.erase, Table.get]
  | cons x t ih =>
    obtain ⟨k, w⟩ := x
    simp only [Table.erase, Table.get]
    split <;> split <;> simp_all [Table.get]

variable {α : Type} [DecidableEq α] (d : α)

/-- A read after a write: the value written at its key, every other key as before. -/
theorem Table.get_set (t : Table α) (a b : Nat) (v : α) :
    Table.get d (Table.set d t a v) b = if b = a then v else Table.get d t b := by
  induction t with
  | nil => by_cases h : v = d <;> by_cases hb : b = a <;> simp [Table.set, Table.get, h, hb]
  | cons x t ih =>
    obtain ⟨k, w⟩ := x
    simp only [Table.set]
    by_cases hk : k < a
    · simp only [hk, if_true, Table.get, ih]
      by_cases h1 : b = k <;> by_cases h2 : b = a <;> simp [h1, h2] <;> intro <;> omega
    · simp only [hk, if_false]
      by_cases hv : v = d
      · simp only [hv, if_true, Table.get_erase]
      · simp only [hv, if_false, Table.get, Table.get_erase]
        by_cases h2 : b = a <;> simp [h2]

@[simp] theorem Table.get_set_self (t : Table α) (a : Nat) (v : α) : Table.get d (Table.set d t a v) a = v := by
  simp [Table.get_set]

/-- Another key than the one written reads as before, whatever an unlisted key reads as. -/
theorem Table.get_set_other (e : α) (t : Table α) {a b : Nat} (v : α) (h : b ≠ a) :
    Table.get e (Table.set d t a v) b = Table.get e t b := by
  induction t with
  | nil => simp only [Table.set]; split <;> simp [Table.get, h]
  | cons x t ih =>
    obtain ⟨k, w⟩ := x
    simp only [Table.set]
    split
    · simp only [Table.get, ih]
    · split <;> simp only [Table.get, Table.get_erase, h, if_false]

theorem Table.get_set_ne (t : Table α) {a b : Nat} (v : α) (h : b ≠ a) :
    Table.get d (Table.set d t a v) b = Table.get d t b := by
  simp [Table.get_set, h]

/-! ## The canonical form -/

theorem Table.wfFrom_weaken {t : Table α} {a b : Nat} (h : Table.wfFrom d (some b) t = true) (hab : a ≤ b) :
    Table.wfFrom d (some a) t = true := by
  cases t with
  | nil => rfl
  | cons x t =>
    obtain ⟨k, w⟩ := x
    simp only [Table.wfFrom, Bool.and_eq_true, decide_eq_true_eq] at h ⊢
    exact ⟨⟨by omega, h.1.2⟩, h.2⟩

theorem Table.wfFrom_none {t : Table α} {b : Nat} (h : Table.wfFrom d (some b) t = true) : Table.wfFrom d none t = true := by
  cases t with
  | nil => rfl
  | cons x t => obtain ⟨k, w⟩ := x; simp only [Table.wfFrom, Bool.and_eq_true] at h ⊢; exact ⟨⟨trivial, h.1.2⟩, h.2⟩

/-- Above its first key a canonical table lists nothing else that could be taken out. -/
theorem Table.erase_above {t : Table α} {a b : Nat} (h : Table.wfFrom d (some b) t = true) (hab : a ≤ b) :
    Table.erase t a = t := by
  induction t generalizing b with
  | nil => rfl
  | cons x t ih =>
    obtain ⟨k, w⟩ := x
    simp only [Table.wfFrom, Bool.and_eq_true, decide_eq_true_eq] at h
    simp only [Table.erase]
    rw [if_neg (by omega), ih h.2 (by omega)]

theorem Table.wfFrom_set {t : Table α} {lo : Option Nat} {a : Nat} {v : α} (h : Table.wfFrom d lo t = true)
    (hlo : ∀ b, lo = some b → b < a) : Table.wfFrom d lo (Table.set d t a v) = true := by
  induction t generalizing lo with
  | nil =>
    simp only [Table.set]
    split
    · rfl
    · rename_i hv
      cases lo with
      | none => simp [Table.wfFrom, hv]
      | some b => simp [Table.wfFrom, hv, hlo b rfl]
  | cons x t ih =>
    obtain ⟨k, w⟩ := x
    simp only [Table.wfFrom, Bool.and_eq_true, decide_eq_true_eq] at h
    obtain ⟨⟨hb, hw⟩, ht⟩ := h
    simp only [Table.set]
    by_cases hk : k < a
    · simp only [hk, if_true, Table.wfFrom, Bool.and_eq_true, decide_eq_true_eq]
      exact ⟨⟨hb, hw⟩, ih ht (fun b e => by cases e; exact hk)⟩
    · have herase : Table.erase ((k, w) :: t) a = if a = k then t else (k, w) :: t := by
        simp only [Table.erase]
        rw [Table.erase_above d ht (by omega)]
      simp only [hk, if_false, herase]
      by_cases hv : v = d
      · simp only [hv, if_true]
        split
        · cases lo with
          | none => exact Table.wfFrom_none d ht
          | some b => exact Table.wfFrom_weaken d ht (by have := hlo b rfl; omega)
        · simp only [Table.wfFrom, Bool.and_eq_true, decide_eq_true_eq]
          exact ⟨⟨hb, hw⟩, ht⟩
      · simp only [hv, if_false, Table.wfFrom, Bool.and_eq_true, decide_eq_true_eq]
        refine ⟨⟨?_, hv⟩, ?_⟩
        · cases lo with
          | none => trivial
          | some b => simpa using hlo b rfl
        · split
          · rename_i e; subst e; exact ht
          · simp only [Table.wfFrom, Bool.and_eq_true, decide_eq_true_eq]
            exact ⟨⟨by omega, hw⟩, ht⟩

/-- A write keeps the canonical form. -/
theorem Table.wf_set {t : Table α} (a : Nat) (v : α) (h : Table.wf d t = true) : Table.wf d (Table.set d t a v) = true :=
  Table.wfFrom_set d h (by simp)

@[simp] theorem Table.wf_nil : Table.wf d [] = true := rfl

/-! ## Stores and memory -/

theorem Store.get_set {w : Nat} (s : Store w) (a b : Nat) (v : BitVec w) :
    Store.get (Store.set s a v) b = if b = a then v else Store.get s b := Table.get_set 0 s a b v
@[simp] theorem Store.get_set_self {w : Nat} (s : Store w) (a : Nat) (v : BitVec w) : Store.get (Store.set s a v) a = v := by
  simp [Store.get_set]
theorem Memory.get_set (m : Memory) (a b : Nat) (v : Byte) :
    Memory.get (Memory.set m a v) b = if b = a then v else Memory.get m b := Table.get_set 0 m a b v
@[simp] theorem Memory.get_set_self (m : Memory) (a : Nat) (v : Byte) : Memory.get (Memory.set m a v) a = v := by
  simp [Memory.get_set]
@[simp] theorem Memory.get_nil (a : Nat) : Memory.get [] a = 0 := rfl

/-- Writing a byte keeps memory canonical. -/
theorem Memory.wf_set {m : Memory} (a : Nat) (v : Byte) (h : m.wf = true) : (Memory.set m a v).wf = true :=
  Table.wf_set 0 a v h
/-- Writing bytes keeps memory canonical. -/
theorem Memory.wf_writeLE {m : Memory} (a n v : Nat) (h : m.wf = true) : (Memory.writeLE m a n v).wf = true := by
  induction n generalizing m a v with
  | zero => exact h
  | succ n ih => exact ih (a + 1) (v / 256) (Memory.wf_set a _ h)

/-- A write of `n` bytes leaves every byte outside them alone. -/
theorem Memory.get_writeLE_ne (m : Memory) (a n v b : Nat) (h : b < a ∨ a + n ≤ b) :
    Memory.get (Memory.writeLE m a n v) b = Memory.get m b := by
  induction n generalizing m a v with
  | zero => rfl
  | succ n ih =>
    rw [Memory.writeLE, ih _ _ _ (by omega), Memory.get_set, if_neg (by omega)]

/-- A write of `n` bytes puts byte `k` of the value at the `k`th address. -/
theorem Memory.get_writeLE (m : Memory) (a n v k : Nat) (h : k < n) :
    Memory.get (Memory.writeLE m a n v) (a + k) = BitVec.ofNat 8 (v / 256 ^ k) := by
  induction n generalizing m a v k with
  | zero => omega
  | succ n ih =>
    cases k with
    | zero => rw [Memory.writeLE, Memory.get_writeLE_ne _ _ _ _ _ (by omega)]; simp
    | succ k =>
      rw [Memory.writeLE, show a + (k + 1) = (a + 1) + k by omega, ih _ _ _ _ (by omega), Nat.div_div_eq_div_mul, Nat.pow_succ,
        Nat.mul_comm]

/-- Bytes read back as they were written. -/
theorem Memory.readLE_writeLE (m : Memory) (a n v : Nat) : Memory.readLE (Memory.writeLE m a n v) a n = v % 256 ^ n := by
  induction n generalizing m a v with
  | zero => simp [Memory.readLE, Nat.mod_one]
  | succ n ih =>
    rw [Memory.readLE, Memory.writeLE, ih, Memory.get_writeLE_ne _ _ _ _ _ (by omega), Memory.get_set_self, Nat.pow_succ,
      Nat.mul_comm (256 ^ n), Nat.mod_mul]
    simp

end Sys2Proof.Machine
end

