-- ==== Sys2Proof/Laws/State.lean ====
section
/-! SUPPORT. The fields of State after each named update, one lemma for each field, true by rfl. -/

namespace Sys2Proof.Machine

/-! ### onCt -/

@[simp] theorem State.onCt_no (s : State) (f : Ct → Ct) : (s.onCt f).core.no = s.core.no := rfl
@[simp] theorem State.onCt_phase (s : State) (f : Ct → Ct) : (s.onCt f).core.phase = s.core.phase := rfl
@[simp] theorem State.onCt_csr (s : State) (f : Ct → Ct) : (s.onCt f).core.csr = s.core.csr := rfl
@[simp] theorem State.onCt_vec (s : State) (f : Ct → Ct) : (s.onCt f).core.vec = s.core.vec := rfl
@[simp] theorem State.onCt_ltime (s : State) (f : Ct → Ct) : (s.onCt f).core.ltime = s.core.ltime := rfl
@[simp] theorem State.onCt_copies (s : State) (f : Ct → Ct) : (s.onCt f).core.copies = s.core.copies := rfl
@[simp] theorem State.onCt_leases (s : State) (f : Ct → Ct) : (s.onCt f).core.leases = s.core.leases := rfl
@[simp] theorem State.onCt_dropAt (s : State) (f : Ct → Ct) : (s.onCt f).core.dropAt = s.core.dropAt := rfl
@[simp] theorem State.onCt_moduleTime (s : State) (f : Ct → Ct) : (s.onCt f).core.moduleTime = s.core.moduleTime := rfl
@[simp] theorem State.onCt_tickAt (s : State) (f : Ct → Ct) : (s.onCt f).core.tickAt = s.core.tickAt := rfl
@[simp] theorem State.onCt_tlb (s : State) (f : Ct → Ct) : (s.onCt f).core.tlb = s.core.tlb := rfl
@[simp] theorem State.onCt_misses (s : State) (f : Ct → Ct) : (s.onCt f).core.misses = s.core.misses := rfl
@[simp] theorem State.onCt_missed (s : State) (f : Ct → Ct) : (s.onCt f).core.missed = s.core.missed := rfl
@[simp] theorem State.onCt_chain (s : State) (f : Ct → Ct) : (s.onCt f).core.chain = s.core.chain := rfl
@[simp] theorem State.onCt_events (s : State) (f : Ct → Ct) : (s.onCt f).core.events = s.core.events := rfl
@[simp] theorem State.onCt_awaiting (s : State) (f : Ct → Ct) : (s.onCt f).core.awaiting = s.core.awaiting := rfl
@[simp] theorem State.onCt_perf (s : State) (f : Ct → Ct) : (s.onCt f).core.perf = s.core.perf := rfl
@[simp] theorem State.onCt_grant (s : State) (f : Ct → Ct) : (s.onCt f).core.grant = s.core.grant := rfl
@[simp] theorem State.onCt_asid (s : State) (f : Ct → Ct) : (s.onCt f).core.asid = s.core.asid := rfl
@[simp] theorem State.onCt_prevAsid (s : State) (f : Ct → Ct) : (s.onCt f).core.prevAsid = s.core.prevAsid := rfl
@[simp] theorem State.onCt_pendingSince (s : State) (f : Ct → Ct) : (s.onCt f).core.pendingSince = s.core.pendingSince := rfl
@[simp] theorem State.onCt_stopForced (s : State) (f : Ct → Ct) : (s.onCt f).core.stopForced = s.core.stopForced := rfl
@[simp] theorem State.onCt_noticeTaken (s : State) (f : Ct → Ct) : (s.onCt f).core.noticeTaken = s.core.noticeTaken := rfl
@[simp] theorem State.onCt_ready (s : State) (f : Ct → Ct) : (s.onCt f).core.ready = s.core.ready := rfl
@[simp] theorem State.onCt_curMt (s : State) (f : Ct → Ct) : (s.onCt f).core.curMt = s.core.curMt := rfl
@[simp] theorem State.onCt_triggered (s : State) (f : Ct → Ct) : (s.onCt f).core.triggered = s.core.triggered := rfl
@[simp] theorem State.onCt_others (s : State) (f : Ct → Ct) : (s.onCt f).others = s.others := rfl
@[simp] theorem State.onCt_mem (s : State) (f : Ct → Ct) : (s.onCt f).mem = s.mem := rfl
@[simp] theorem State.onCt_host (s : State) (f : Ct → Ct) : (s.onCt f).host = s.host := rfl
@[simp] theorem State.onCt_dir (s : State) (f : Ct → Ct) : (s.onCt f).dir = s.dir := rfl
@[simp] theorem State.onCt_disp (s : State) (f : Ct → Ct) : (s.onCt f).disp = s.disp := rfl
@[simp] theorem State.onCt_sheep (s : State) (f : Ct → Ct) : (s.onCt f).sheep = s.sheep := rfl
@[simp] theorem State.onCt_base (s : State) (f : Ct → Ct) : (s.onCt f).base = s.base := rfl
@[simp] theorem State.onCt_posted (s : State) (f : Ct → Ct) : (s.onCt f).posted = s.posted := rfl
@[simp] theorem State.onCt_agent (s : State) (f : Ct → Ct) : (s.onCt f).agent = s.agent := rfl
@[simp] theorem State.onCt_stalled (s : State) (f : Ct → Ct) : (s.onCt f).stalled = s.stalled := rfl
@[simp] theorem State.onCt_stateMissed (s : State) (f : Ct → Ct) : (s.onCt f).missed = s.missed := rfl
@[simp] theorem State.onCt_asks (s : State) (f : Ct → Ct) : (s.onCt f).asks = s.asks := rfl
@[simp] theorem State.onCt_seat (s : State) (f : Ct → Ct) : (s.onCt f).seat = s.seat := rfl
@[simp] theorem State.onCt_defers (s : State) (f : Ct → Ct) : (s.onCt f).defers = s.defers := rfl
@[simp] theorem State.onCt_agenda (s : State) (f : Ct → Ct) : (s.onCt f).agenda = s.agenda := rfl
@[simp] theorem State.onCt_fresh (s : State) (f : Ct → Ct) : (s.onCt f).fresh = s.fresh := rfl

@[simp] theorem State.onCt_ct (s : State) (f : Ct → Ct) : (s.onCt f).core.ct = f s.core.ct := rfl

/-! ### onCsr -/

@[simp] theorem State.onCsr_no (s : State) (f : Csrs → Csrs) : (s.onCsr f).core.no = s.core.no := rfl
@[simp] theorem State.onCsr_phase (s : State) (f : Csrs → Csrs) : (s.onCsr f).core.phase = s.core.phase := rfl
@[simp] theorem State.onCsr_ct (s : State) (f : Csrs → Csrs) : (s.onCsr f).core.ct = s.core.ct := rfl
@[simp] theorem State.onCsr_vec (s : State) (f : Csrs → Csrs) : (s.onCsr f).core.vec = s.core.vec := rfl
@[simp] theorem State.onCsr_ltime (s : State) (f : Csrs → Csrs) : (s.onCsr f).core.ltime = s.core.ltime := rfl
@[simp] theorem State.onCsr_copies (s : State) (f : Csrs → Csrs) : (s.onCsr f).core.copies = s.core.copies := rfl
@[simp] theorem State.onCsr_leases (s : State) (f : Csrs → Csrs) : (s.onCsr f).core.leases = s.core.leases := rfl
@[simp] theorem State.onCsr_dropAt (s : State) (f : Csrs → Csrs) : (s.onCsr f).core.dropAt = s.core.dropAt := rfl
@[simp] theorem State.onCsr_moduleTime (s : State) (f : Csrs → Csrs) : (s.onCsr f).core.moduleTime = s.core.moduleTime := rfl
@[simp] theorem State.onCsr_tickAt (s : State) (f : Csrs → Csrs) : (s.onCsr f).core.tickAt = s.core.tickAt := rfl
@[simp] theorem State.onCsr_tlb (s : State) (f : Csrs → Csrs) : (s.onCsr f).core.tlb = s.core.tlb := rfl
@[simp] theorem State.onCsr_misses (s : State) (f : Csrs → Csrs) : (s.onCsr f).core.misses = s.core.misses := rfl
@[simp] theorem State.onCsr_missed (s : State) (f : Csrs → Csrs) : (s.onCsr f).core.missed = s.core.missed := rfl
@[simp] theorem State.onCsr_chain (s : State) (f : Csrs → Csrs) : (s.onCsr f).core.chain = s.core.chain := rfl
@[simp] theorem State.onCsr_events (s : State) (f : Csrs → Csrs) : (s.onCsr f).core.events = s.core.events := rfl
@[simp] theorem State.onCsr_awaiting (s : State) (f : Csrs → Csrs) : (s.onCsr f).core.awaiting = s.core.awaiting := rfl
@[simp] theorem State.onCsr_perf (s : State) (f : Csrs → Csrs) : (s.onCsr f).core.perf = s.core.perf := rfl
@[simp] theorem State.onCsr_grant (s : State) (f : Csrs → Csrs) : (s.onCsr f).core.grant = s.core.grant := rfl
@[simp] theorem State.onCsr_asid (s : State) (f : Csrs → Csrs) : (s.onCsr f).core.asid = s.core.asid := rfl
@[simp] theorem State.onCsr_prevAsid (s : State) (f : Csrs → Csrs) : (s.onCsr f).core.prevAsid = s.core.prevAsid := rfl
@[simp] theorem State.onCsr_pendingSince (s : State) (f : Csrs → Csrs) : (s.onCsr f).core.pendingSince = s.core.pendingSince := rfl
@[simp] theorem State.onCsr_stopForced (s : State) (f : Csrs → Csrs) : (s.onCsr f).core.stopForced = s.core.stopForced := rfl
@[simp] theorem State.onCsr_noticeTaken (s : State) (f : Csrs → Csrs) : (s.onCsr f).core.noticeTaken = s.core.noticeTaken := rfl
@[simp] theorem State.onCsr_ready (s : State) (f : Csrs → Csrs) : (s.onCsr f).core.ready = s.core.ready := rfl
@[simp] theorem State.onCsr_curMt (s : State) (f : Csrs → Csrs) : (s.onCsr f).core.curMt = s.core.curMt := rfl
@[simp] theorem State.onCsr_triggered (s : State) (f : Csrs → Csrs) : (s.onCsr f).core.triggered = s.core.triggered := rfl
@[simp] theorem State.onCsr_others (s : State) (f : Csrs → Csrs) : (s.onCsr f).others = s.others := rfl
@[simp] theorem State.onCsr_mem (s : State) (f : Csrs → Csrs) : (s.onCsr f).mem = s.mem := rfl
@[simp] theorem State.onCsr_host (s : State) (f : Csrs → Csrs) : (s.onCsr f).host = s.host := rfl
@[simp] theorem State.onCsr_dir (s : State) (f : Csrs → Csrs) : (s.onCsr f).dir = s.dir := rfl
@[simp] theorem State.onCsr_disp (s : State) (f : Csrs → Csrs) : (s.onCsr f).disp = s.disp := rfl
@[simp] theorem State.onCsr_sheep (s : State) (f : Csrs → Csrs) : (s.onCsr f).sheep = s.sheep := rfl
@[simp] theorem State.onCsr_base (s : State) (f : Csrs → Csrs) : (s.onCsr f).base = s.base := rfl
@[simp] theorem State.onCsr_posted (s : State) (f : Csrs → Csrs) : (s.onCsr f).posted = s.posted := rfl
@[simp] theorem State.onCsr_agent (s : State) (f : Csrs → Csrs) : (s.onCsr f).agent = s.agent := rfl
@[simp] theorem State.onCsr_stalled (s : State) (f : Csrs → Csrs) : (s.onCsr f).stalled = s.stalled := rfl
@[simp] theorem State.onCsr_stateMissed (s : State) (f : Csrs → Csrs) : (s.onCsr f).missed = s.missed := rfl
@[simp] theorem State.onCsr_asks (s : State) (f : Csrs → Csrs) : (s.onCsr f).asks = s.asks := rfl
@[simp] theorem State.onCsr_seat (s : State) (f : Csrs → Csrs) : (s.onCsr f).seat = s.seat := rfl
@[simp] theorem State.onCsr_defers (s : State) (f : Csrs → Csrs) : (s.onCsr f).defers = s.defers := rfl
@[simp] theorem State.onCsr_agenda (s : State) (f : Csrs → Csrs) : (s.onCsr f).agenda = s.agenda := rfl
@[simp] theorem State.onCsr_fresh (s : State) (f : Csrs → Csrs) : (s.onCsr f).fresh = s.fresh := rfl

@[simp] theorem State.onCsr_csr (s : State) (f : Csrs → Csrs) : (s.onCsr f).core.csr = f s.core.csr := rfl

/-! ### onVec -/

@[simp] theorem State.onVec_no (s : State) (f : Vec → Vec) : (s.onVec f).core.no = s.core.no := rfl
@[simp] theorem State.onVec_phase (s : State) (f : Vec → Vec) : (s.onVec f).core.phase = s.core.phase := rfl
@[simp] theorem State.onVec_ct (s : State) (f : Vec → Vec) : (s.onVec f).core.ct = s.core.ct := rfl
@[simp] theorem State.onVec_csr (s : State) (f : Vec → Vec) : (s.onVec f).core.csr = s.core.csr := rfl
@[simp] theorem State.onVec_ltime (s : State) (f : Vec → Vec) : (s.onVec f).core.ltime = s.core.ltime := rfl
@[simp] theorem State.onVec_copies (s : State) (f : Vec → Vec) : (s.onVec f).core.copies = s.core.copies := rfl
@[simp] theorem State.onVec_leases (s : State) (f : Vec → Vec) : (s.onVec f).core.leases = s.core.leases := rfl
@[simp] theorem State.onVec_dropAt (s : State) (f : Vec → Vec) : (s.onVec f).core.dropAt = s.core.dropAt := rfl
@[simp] theorem State.onVec_moduleTime (s : State) (f : Vec → Vec) : (s.onVec f).core.moduleTime = s.core.moduleTime := rfl
@[simp] theorem State.onVec_tickAt (s : State) (f : Vec → Vec) : (s.onVec f).core.tickAt = s.core.tickAt := rfl
@[simp] theorem State.onVec_tlb (s : State) (f : Vec → Vec) : (s.onVec f).core.tlb = s.core.tlb := rfl
@[simp] theorem State.onVec_misses (s : State) (f : Vec → Vec) : (s.onVec f).core.misses = s.core.misses := rfl
@[simp] theorem State.onVec_missed (s : State) (f : Vec → Vec) : (s.onVec f).core.missed = s.core.missed := rfl
@[simp] theorem State.onVec_chain (s : State) (f : Vec → Vec) : (s.onVec f).core.chain = s.core.chain := rfl
@[simp] theorem State.onVec_events (s : State) (f : Vec → Vec) : (s.onVec f).core.events = s.core.events := rfl
@[simp] theorem State.onVec_awaiting (s : State) (f : Vec → Vec) : (s.onVec f).core.awaiting = s.core.awaiting := rfl
@[simp] theorem State.onVec_perf (s : State) (f : Vec → Vec) : (s.onVec f).core.perf = s.core.perf := rfl
@[simp] theorem State.onVec_grant (s : State) (f : Vec → Vec) : (s.onVec f).core.grant = s.core.grant := rfl
@[simp] theorem State.onVec_asid (s : State) (f : Vec → Vec) : (s.onVec f).core.asid = s.core.asid := rfl
@[simp] theorem State.onVec_prevAsid (s : State) (f : Vec → Vec) : (s.onVec f).core.prevAsid = s.core.prevAsid := rfl
@[simp] theorem State.onVec_pendingSince (s : State) (f : Vec → Vec) : (s.onVec f).core.pendingSince = s.core.pendingSince := rfl
@[simp] theorem State.onVec_stopForced (s : State) (f : Vec → Vec) : (s.onVec f).core.stopForced = s.core.stopForced := rfl
@[simp] theorem State.onVec_noticeTaken (s : State) (f : Vec → Vec) : (s.onVec f).core.noticeTaken = s.core.noticeTaken := rfl
@[simp] theorem State.onVec_ready (s : State) (f : Vec → Vec) : (s.onVec f).core.ready = s.core.ready := rfl
@[simp] theorem State.onVec_curMt (s : State) (f : Vec → Vec) : (s.onVec f).core.curMt = s.core.curMt := rfl
@[simp] theorem State.onVec_triggered (s : State) (f : Vec → Vec) : (s.onVec f).core.triggered = s.core.triggered := rfl
@[simp] theorem State.onVec_others (s : State) (f : Vec → Vec) : (s.onVec f).others = s.others := rfl
@[simp] theorem State.onVec_mem (s : State) (f : Vec → Vec) : (s.onVec f).mem = s.mem := rfl
@[simp] theorem State.onVec_host (s : State) (f : Vec → Vec) : (s.onVec f).host = s.host := rfl
@[simp] theorem State.onVec_dir (s : State) (f : Vec → Vec) : (s.onVec f).dir = s.dir := rfl
@[simp] theorem State.onVec_disp (s : State) (f : Vec → Vec) : (s.onVec f).disp = s.disp := rfl
@[simp] theorem State.onVec_sheep (s : State) (f : Vec → Vec) : (s.onVec f).sheep = s.sheep := rfl
@[simp] theorem State.onVec_base (s : State) (f : Vec → Vec) : (s.onVec f).base = s.base := rfl
@[simp] theorem State.onVec_posted (s : State) (f : Vec → Vec) : (s.onVec f).posted = s.posted := rfl
@[simp] theorem State.onVec_agent (s : State) (f : Vec → Vec) : (s.onVec f).agent = s.agent := rfl
@[simp] theorem State.onVec_stalled (s : State) (f : Vec → Vec) : (s.onVec f).stalled = s.stalled := rfl
@[simp] theorem State.onVec_stateMissed (s : State) (f : Vec → Vec) : (s.onVec f).missed = s.missed := rfl
@[simp] theorem State.onVec_asks (s : State) (f : Vec → Vec) : (s.onVec f).asks = s.asks := rfl
@[simp] theorem State.onVec_seat (s : State) (f : Vec → Vec) : (s.onVec f).seat = s.seat := rfl
@[simp] theorem State.onVec_defers (s : State) (f : Vec → Vec) : (s.onVec f).defers = s.defers := rfl
@[simp] theorem State.onVec_agenda (s : State) (f : Vec → Vec) : (s.onVec f).agenda = s.agenda := rfl
@[simp] theorem State.onVec_fresh (s : State) (f : Vec → Vec) : (s.onVec f).fresh = s.fresh := rfl

@[simp] theorem State.onVec_vec (s : State) (f : Vec → Vec) : (s.onVec f).core.vec = f s.core.vec := rfl

/-! ### note -/

@[simp] theorem State.note_no (s : State) (e : Nat) : (s.note e).core.no = s.core.no := rfl
@[simp] theorem State.note_phase (s : State) (e : Nat) : (s.note e).core.phase = s.core.phase := rfl
@[simp] theorem State.note_ct (s : State) (e : Nat) : (s.note e).core.ct = s.core.ct := rfl
@[simp] theorem State.note_csr (s : State) (e : Nat) : (s.note e).core.csr = s.core.csr := rfl
@[simp] theorem State.note_vec (s : State) (e : Nat) : (s.note e).core.vec = s.core.vec := rfl
@[simp] theorem State.note_ltime (s : State) (e : Nat) : (s.note e).core.ltime = s.core.ltime := rfl
@[simp] theorem State.note_copies (s : State) (e : Nat) : (s.note e).core.copies = s.core.copies := rfl
@[simp] theorem State.note_leases (s : State) (e : Nat) : (s.note e).core.leases = s.core.leases := rfl
@[simp] theorem State.note_dropAt (s : State) (e : Nat) : (s.note e).core.dropAt = s.core.dropAt := rfl
@[simp] theorem State.note_moduleTime (s : State) (e : Nat) : (s.note e).core.moduleTime = s.core.moduleTime := rfl
@[simp] theorem State.note_tickAt (s : State) (e : Nat) : (s.note e).core.tickAt = s.core.tickAt := rfl
@[simp] theorem State.note_tlb (s : State) (e : Nat) : (s.note e).core.tlb = s.core.tlb := rfl
@[simp] theorem State.note_misses (s : State) (e : Nat) : (s.note e).core.misses = s.core.misses := rfl
@[simp] theorem State.note_missed (s : State) (e : Nat) : (s.note e).core.missed = s.core.missed := rfl
@[simp] theorem State.note_chain (s : State) (e : Nat) : (s.note e).core.chain = s.core.chain := rfl
@[simp] theorem State.note_awaiting (s : State) (e : Nat) : (s.note e).core.awaiting = s.core.awaiting := rfl
@[simp] theorem State.note_perf (s : State) (e : Nat) : (s.note e).core.perf = s.core.perf := rfl
@[simp] theorem State.note_grant (s : State) (e : Nat) : (s.note e).core.grant = s.core.grant := rfl
@[simp] theorem State.note_asid (s : State) (e : Nat) : (s.note e).core.asid = s.core.asid := rfl
@[simp] theorem State.note_prevAsid (s : State) (e : Nat) : (s.note e).core.prevAsid = s.core.prevAsid := rfl
@[simp] theorem State.note_pendingSince (s : State) (e : Nat) : (s.note e).core.pendingSince = s.core.pendingSince := rfl
@[simp] theorem State.note_stopForced (s : State) (e : Nat) : (s.note e).core.stopForced = s.core.stopForced := rfl
@[simp] theorem State.note_noticeTaken (s : State) (e : Nat) : (s.note e).core.noticeTaken = s.core.noticeTaken := rfl
@[simp] theorem State.note_ready (s : State) (e : Nat) : (s.note e).core.ready = s.core.ready := rfl
@[simp] theorem State.note_curMt (s : State) (e : Nat) : (s.note e).core.curMt = s.core.curMt := rfl
@[simp] theorem State.note_triggered (s : State) (e : Nat) : (s.note e).core.triggered = s.core.triggered := rfl
@[simp] theorem State.note_others (s : State) (e : Nat) : (s.note e).others = s.others := rfl
@[simp] theorem State.note_mem (s : State) (e : Nat) : (s.note e).mem = s.mem := rfl
@[simp] theorem State.note_host (s : State) (e : Nat) : (s.note e).host = s.host := rfl
@[simp] theorem State.note_dir (s : State) (e : Nat) : (s.note e).dir = s.dir := rfl
@[simp] theorem State.note_disp (s : State) (e : Nat) : (s.note e).disp = s.disp := rfl
@[simp] theorem State.note_sheep (s : State) (e : Nat) : (s.note e).sheep = s.sheep := rfl
@[simp] theorem State.note_base (s : State) (e : Nat) : (s.note e).base = s.base := rfl
@[simp] theorem State.note_posted (s : State) (e : Nat) : (s.note e).posted = s.posted := rfl
@[simp] theorem State.note_agent (s : State) (e : Nat) : (s.note e).agent = s.agent := rfl
@[simp] theorem State.note_stalled (s : State) (e : Nat) : (s.note e).stalled = s.stalled := rfl
@[simp] theorem State.note_stateMissed (s : State) (e : Nat) : (s.note e).missed = s.missed := rfl
@[simp] theorem State.note_asks (s : State) (e : Nat) : (s.note e).asks = s.asks := rfl
@[simp] theorem State.note_seat (s : State) (e : Nat) : (s.note e).seat = s.seat := rfl
@[simp] theorem State.note_defers (s : State) (e : Nat) : (s.note e).defers = s.defers := rfl
@[simp] theorem State.note_agenda (s : State) (e : Nat) : (s.note e).agenda = s.agenda := rfl
@[simp] theorem State.note_fresh (s : State) (e : Nat) : (s.note e).fresh = s.fresh := rfl

@[simp] theorem State.note_events (s : State) (e : Nat) : (s.note e).core.events = Table.set 0 s.core.events e (Table.get 0 s.core.events e + 1) := rfl

/-! ### pastInstr -/

@[simp] theorem State.pastInstr_no (s : State) (n : Nat) : (s.pastInstr n).core.no = s.core.no := rfl
@[simp] theorem State.pastInstr_phase (s : State) (n : Nat) : (s.pastInstr n).core.phase = s.core.phase := rfl
@[simp] theorem State.pastInstr_csr (s : State) (n : Nat) : (s.pastInstr n).core.csr = s.core.csr := rfl
@[simp] theorem State.pastInstr_vec (s : State) (n : Nat) : (s.pastInstr n).core.vec = s.core.vec := rfl
@[simp] theorem State.pastInstr_ltime (s : State) (n : Nat) : (s.pastInstr n).core.ltime = s.core.ltime := rfl
@[simp] theorem State.pastInstr_copies (s : State) (n : Nat) : (s.pastInstr n).core.copies = s.core.copies := rfl
@[simp] theorem State.pastInstr_leases (s : State) (n : Nat) : (s.pastInstr n).core.leases = s.core.leases := rfl
@[simp] theorem State.pastInstr_dropAt (s : State) (n : Nat) : (s.pastInstr n).core.dropAt = s.core.dropAt := rfl
@[simp] theorem State.pastInstr_moduleTime (s : State) (n : Nat) : (s.pastInstr n).core.moduleTime = s.core.moduleTime := rfl
@[simp] theorem State.pastInstr_tickAt (s : State) (n : Nat) : (s.pastInstr n).core.tickAt = s.core.tickAt := rfl
@[simp] theorem State.pastInstr_tlb (s : State) (n : Nat) : (s.pastInstr n).core.tlb = s.core.tlb := rfl
@[simp] theorem State.pastInstr_misses (s : State) (n : Nat) : (s.pastInstr n).core.misses = s.core.misses := rfl
@[simp] theorem State.pastInstr_missed (s : State) (n : Nat) : (s.pastInstr n).core.missed = s.core.missed := rfl
@[simp] theorem State.pastInstr_chain (s : State) (n : Nat) : (s.pastInstr n).core.chain = s.core.chain := rfl
@[simp] theorem State.pastInstr_events (s : State) (n : Nat) : (s.pastInstr n).core.events = s.core.events := rfl
@[simp] theorem State.pastInstr_awaiting (s : State) (n : Nat) : (s.pastInstr n).core.awaiting = s.core.awaiting := rfl
@[simp] theorem State.pastInstr_perf (s : State) (n : Nat) : (s.pastInstr n).core.perf = s.core.perf := rfl
@[simp] theorem State.pastInstr_grant (s : State) (n : Nat) : (s.pastInstr n).core.grant = s.core.grant := rfl
@[simp] theorem State.pastInstr_asid (s : State) (n : Nat) : (s.pastInstr n).core.asid = s.core.asid := rfl
@[simp] theorem State.pastInstr_prevAsid (s : State) (n : Nat) : (s.pastInstr n).core.prevAsid = s.core.prevAsid := rfl
@[simp] theorem State.pastInstr_pendingSince (s : State) (n : Nat) : (s.pastInstr n).core.pendingSince = s.core.pendingSince := rfl
@[simp] theorem State.pastInstr_stopForced (s : State) (n : Nat) : (s.pastInstr n).core.stopForced = s.core.stopForced := rfl
@[simp] theorem State.pastInstr_noticeTaken (s : State) (n : Nat) : (s.pastInstr n).core.noticeTaken = s.core.noticeTaken := rfl
@[simp] theorem State.pastInstr_ready (s : State) (n : Nat) : (s.pastInstr n).core.ready = s.core.ready := rfl
@[simp] theorem State.pastInstr_curMt (s : State) (n : Nat) : (s.pastInstr n).core.curMt = s.core.curMt := rfl
@[simp] theorem State.pastInstr_triggered (s : State) (n : Nat) : (s.pastInstr n).core.triggered = s.core.triggered := rfl
@[simp] theorem State.pastInstr_others (s : State) (n : Nat) : (s.pastInstr n).others = s.others := rfl
@[simp] theorem State.pastInstr_mem (s : State) (n : Nat) : (s.pastInstr n).mem = s.mem := rfl
@[simp] theorem State.pastInstr_host (s : State) (n : Nat) : (s.pastInstr n).host = s.host := rfl
@[simp] theorem State.pastInstr_dir (s : State) (n : Nat) : (s.pastInstr n).dir = s.dir := rfl
@[simp] theorem State.pastInstr_disp (s : State) (n : Nat) : (s.pastInstr n).disp = s.disp := rfl
@[simp] theorem State.pastInstr_sheep (s : State) (n : Nat) : (s.pastInstr n).sheep = s.sheep := rfl
@[simp] theorem State.pastInstr_base (s : State) (n : Nat) : (s.pastInstr n).base = s.base := rfl
@[simp] theorem State.pastInstr_posted (s : State) (n : Nat) : (s.pastInstr n).posted = s.posted := rfl
@[simp] theorem State.pastInstr_agent (s : State) (n : Nat) : (s.pastInstr n).agent = s.agent := rfl
@[simp] theorem State.pastInstr_stalled (s : State) (n : Nat) : (s.pastInstr n).stalled = s.stalled := rfl
@[simp] theorem State.pastInstr_stateMissed (s : State) (n : Nat) : (s.pastInstr n).missed = s.missed := rfl
@[simp] theorem State.pastInstr_asks (s : State) (n : Nat) : (s.pastInstr n).asks = s.asks := rfl
@[simp] theorem State.pastInstr_seat (s : State) (n : Nat) : (s.pastInstr n).seat = s.seat := rfl
@[simp] theorem State.pastInstr_defers (s : State) (n : Nat) : (s.pastInstr n).defers = s.defers := rfl
@[simp] theorem State.pastInstr_agenda (s : State) (n : Nat) : (s.pastInstr n).agenda = s.agenda := rfl
@[simp] theorem State.pastInstr_fresh (s : State) (n : Nat) : (s.pastInstr n).fresh = s.fresh := rfl

/-! ### advance -/

@[simp] theorem State.advance_no (s : State) (n : Nat) : (s.advance n).core.no = s.core.no := rfl
@[simp] theorem State.advance_phase (s : State) (n : Nat) : (s.advance n).core.phase = s.core.phase := rfl
@[simp] theorem State.advance_csr (s : State) (n : Nat) : (s.advance n).core.csr = s.core.csr := rfl
@[simp] theorem State.advance_vec (s : State) (n : Nat) : (s.advance n).core.vec = s.core.vec := rfl
@[simp] theorem State.advance_ltime (s : State) (n : Nat) : (s.advance n).core.ltime = s.core.ltime := rfl
@[simp] theorem State.advance_copies (s : State) (n : Nat) : (s.advance n).core.copies = s.core.copies := rfl
@[simp] theorem State.advance_leases (s : State) (n : Nat) : (s.advance n).core.leases = s.core.leases := rfl
@[simp] theorem State.advance_dropAt (s : State) (n : Nat) : (s.advance n).core.dropAt = s.core.dropAt := rfl
@[simp] theorem State.advance_moduleTime (s : State) (n : Nat) : (s.advance n).core.moduleTime = s.core.moduleTime := rfl
@[simp] theorem State.advance_tickAt (s : State) (n : Nat) : (s.advance n).core.tickAt = s.core.tickAt := rfl
@[simp] theorem State.advance_tlb (s : State) (n : Nat) : (s.advance n).core.tlb = s.core.tlb := rfl
@[simp] theorem State.advance_misses (s : State) (n : Nat) : (s.advance n).core.misses = s.core.misses := rfl
@[simp] theorem State.advance_missed (s : State) (n : Nat) : (s.advance n).core.missed = s.core.missed := rfl
@[simp] theorem State.advance_chain (s : State) (n : Nat) : (s.advance n).core.chain = s.core.chain := rfl
@[simp] theorem State.advance_awaiting (s : State) (n : Nat) : (s.advance n).core.awaiting = s.core.awaiting := rfl
@[simp] theorem State.advance_perf (s : State) (n : Nat) : (s.advance n).core.perf = s.core.perf := rfl
@[simp] theorem State.advance_grant (s : State) (n : Nat) : (s.advance n).core.grant = s.core.grant := rfl
@[simp] theorem State.advance_asid (s : State) (n : Nat) : (s.advance n).core.asid = s.core.asid := rfl
@[simp] theorem State.advance_prevAsid (s : State) (n : Nat) : (s.advance n).core.prevAsid = s.core.prevAsid := rfl
@[simp] theorem State.advance_pendingSince (s : State) (n : Nat) : (s.advance n).core.pendingSince = s.core.pendingSince := rfl
@[simp] theorem State.advance_stopForced (s : State) (n : Nat) : (s.advance n).core.stopForced = s.core.stopForced := rfl
@[simp] theorem State.advance_noticeTaken (s : State) (n : Nat) : (s.advance n).core.noticeTaken = s.core.noticeTaken := rfl
@[simp] theorem State.advance_ready (s : State) (n : Nat) : (s.advance n).core.ready = s.core.ready := rfl
@[simp] theorem State.advance_curMt (s : State) (n : Nat) : (s.advance n).core.curMt = s.core.curMt := rfl
@[simp] theorem State.advance_triggered (s : State) (n : Nat) : (s.advance n).core.triggered = s.core.triggered := rfl
@[simp] theorem State.advance_others (s : State) (n : Nat) : (s.advance n).others = s.others := rfl
@[simp] theorem State.advance_mem (s : State) (n : Nat) : (s.advance n).mem = s.mem := rfl
@[simp] theorem State.advance_host (s : State) (n : Nat) : (s.advance n).host = s.host := rfl
@[simp] theorem State.advance_dir (s : State) (n : Nat) : (s.advance n).dir = s.dir := rfl
@[simp] theorem State.advance_disp (s : State) (n : Nat) : (s.advance n).disp = s.disp := rfl
@[simp] theorem State.advance_sheep (s : State) (n : Nat) : (s.advance n).sheep = s.sheep := rfl
@[simp] theorem State.advance_base (s : State) (n : Nat) : (s.advance n).base = s.base := rfl
@[simp] theorem State.advance_posted (s : State) (n : Nat) : (s.advance n).posted = s.posted := rfl
@[simp] theorem State.advance_agent (s : State) (n : Nat) : (s.advance n).agent = s.agent := rfl
@[simp] theorem State.advance_stalled (s : State) (n : Nat) : (s.advance n).stalled = s.stalled := rfl
@[simp] theorem State.advance_stateMissed (s : State) (n : Nat) : (s.advance n).missed = s.missed := rfl
@[simp] theorem State.advance_asks (s : State) (n : Nat) : (s.advance n).asks = s.asks := rfl
@[simp] theorem State.advance_seat (s : State) (n : Nat) : (s.advance n).seat = s.seat := rfl
@[simp] theorem State.advance_defers (s : State) (n : Nat) : (s.advance n).defers = s.defers := rfl
@[simp] theorem State.advance_agenda (s : State) (n : Nat) : (s.advance n).agenda = s.agenda := rfl
@[simp] theorem State.advance_fresh (s : State) (n : Nat) : (s.advance n).fresh = s.fresh := rfl

@[simp] theorem State.advance_events (s : State) (n : Nat) : (s.advance n).core.events = (s.note 2).core.events := rfl
@[simp] theorem State.advance_ct_x (s : State) (n : Nat) : (s.advance n).core.ct.x = s.core.ct.x := rfl
@[simp] theorem State.advance_ct_user (s : State) (n : Nat) : (s.advance n).core.ct.user = s.core.ct.user := rfl
@[simp] theorem State.advance_ct_sie (s : State) (n : Nat) : (s.advance n).core.ct.sie = s.core.ct.sie := rfl
@[simp] theorem State.advance_ct_sip (s : State) (n : Nat) : (s.advance n).core.ct.sip = s.core.ct.sip := rfl
@[simp] theorem State.advance_ct_stvec (s : State) (n : Nat) : (s.advance n).core.ct.stvec = s.core.ct.stvec := rfl
@[simp] theorem State.advance_ct_sscratch (s : State) (n : Nat) : (s.advance n).core.ct.sscratch = s.core.ct.sscratch := rfl
@[simp] theorem State.advance_ct_sepc (s : State) (n : Nat) : (s.advance n).core.ct.sepc = s.core.ct.sepc := rfl
@[simp] theorem State.advance_ct_scause (s : State) (n : Nat) : (s.advance n).core.ct.scause = s.core.ct.scause := rfl
@[simp] theorem State.advance_ct_stval (s : State) (n : Nat) : (s.advance n).core.ct.stval = s.core.ct.stval := rfl
@[simp] theorem State.advance_ct_sstatus (s : State) (n : Nat) : (s.advance n).core.ct.sstatus = s.core.ct.sstatus := rfl
@[simp] theorem State.advance_ct_satp (s : State) (n : Nat) : (s.advance n).core.ct.satp = s.core.ct.satp := rfl
@[simp] theorem State.advance_ct_scounteren (s : State) (n : Nat) : (s.advance n).core.ct.scounteren = s.core.ct.scounteren := rfl
@[simp] theorem State.advance_ct_senvcfg (s : State) (n : Nat) : (s.advance n).core.ct.senvcfg = s.core.ct.senvcfg := rfl
@[simp] theorem State.advance_ct_reservation (s : State) (n : Nat) : (s.advance n).core.ct.reservation = s.core.ct.reservation := rfl
@[simp] theorem State.advance_ct_windowReservation (s : State) (n : Nat) : (s.advance n).core.ct.windowReservation = s.core.ct.windowReservation := rfl
@[simp] theorem State.advance_ct_early (s : State) (n : Nat) : (s.advance n).core.ct.early = s.core.ct.early := rfl
@[simp] theorem State.advance_ct_pendingX (s : State) (n : Nat) : (s.advance n).core.ct.pendingX = s.core.ct.pendingX := rfl
@[simp] theorem State.advance_ct_pc (s : State) (n : Nat) : (s.advance n).core.ct.pc = s.core.ct.pc + BitVec.ofNat 64 n := rfl
@[simp] theorem State.advance_ct_wait (s : State) (n : Nat) : (s.advance n).core.ct.wait = none := rfl

/-! ### setX -/

@[simp] theorem State.setX_no (s : State) (r : XReg) (v : Word) : (s.setX r v).core.no = s.core.no := rfl
@[simp] theorem State.setX_phase (s : State) (r : XReg) (v : Word) : (s.setX r v).core.phase = s.core.phase := rfl
@[simp] theorem State.setX_csr (s : State) (r : XReg) (v : Word) : (s.setX r v).core.csr = s.core.csr := rfl
@[simp] theorem State.setX_vec (s : State) (r : XReg) (v : Word) : (s.setX r v).core.vec = s.core.vec := rfl
@[simp] theorem State.setX_ltime (s : State) (r : XReg) (v : Word) : (s.setX r v).core.ltime = s.core.ltime := rfl
@[simp] theorem State.setX_copies (s : State) (r : XReg) (v : Word) : (s.setX r v).core.copies = s.core.copies := rfl
@[simp] theorem State.setX_leases (s : State) (r : XReg) (v : Word) : (s.setX r v).core.leases = s.core.leases := rfl
@[simp] theorem State.setX_dropAt (s : State) (r : XReg) (v : Word) : (s.setX r v).core.dropAt = s.core.dropAt := rfl
@[simp] theorem State.setX_moduleTime (s : State) (r : XReg) (v : Word) : (s.setX r v).core.moduleTime = s.core.moduleTime := rfl
@[simp] theorem State.setX_tickAt (s : State) (r : XReg) (v : Word) : (s.setX r v).core.tickAt = s.core.tickAt := rfl
@[simp] theorem State.setX_tlb (s : State) (r : XReg) (v : Word) : (s.setX r v).core.tlb = s.core.tlb := rfl
@[simp] theorem State.setX_misses (s : State) (r : XReg) (v : Word) : (s.setX r v).core.misses = s.core.misses := rfl
@[simp] theorem State.setX_missed (s : State) (r : XReg) (v : Word) : (s.setX r v).core.missed = s.core.missed := rfl
@[simp] theorem State.setX_chain (s : State) (r : XReg) (v : Word) : (s.setX r v).core.chain = s.core.chain := rfl
@[simp] theorem State.setX_events (s : State) (r : XReg) (v : Word) : (s.setX r v).core.events = s.core.events := rfl
@[simp] theorem State.setX_awaiting (s : State) (r : XReg) (v : Word) : (s.setX r v).core.awaiting = s.core.awaiting := rfl
@[simp] theorem State.setX_perf (s : State) (r : XReg) (v : Word) : (s.setX r v).core.perf = s.core.perf := rfl
@[simp] theorem State.setX_grant (s : State) (r : XReg) (v : Word) : (s.setX r v).core.grant = s.core.grant := rfl
@[simp] theorem State.setX_asid (s : State) (r : XReg) (v : Word) : (s.setX r v).core.asid = s.core.asid := rfl
@[simp] theorem State.setX_prevAsid (s : State) (r : XReg) (v : Word) : (s.setX r v).core.prevAsid = s.core.prevAsid := rfl
@[simp] theorem State.setX_pendingSince (s : State) (r : XReg) (v : Word) : (s.setX r v).core.pendingSince = s.core.pendingSince := rfl
@[simp] theorem State.setX_stopForced (s : State) (r : XReg) (v : Word) : (s.setX r v).core.stopForced = s.core.stopForced := rfl
@[simp] theorem State.setX_noticeTaken (s : State) (r : XReg) (v : Word) : (s.setX r v).core.noticeTaken = s.core.noticeTaken := rfl
@[simp] theorem State.setX_ready (s : State) (r : XReg) (v : Word) : (s.setX r v).core.ready = s.core.ready := rfl
@[simp] theorem State.setX_curMt (s : State) (r : XReg) (v : Word) : (s.setX r v).core.curMt = s.core.curMt := rfl
@[simp] theorem State.setX_triggered (s : State) (r : XReg) (v : Word) : (s.setX r v).core.triggered = s.core.triggered := rfl
@[simp] theorem State.setX_others (s : State) (r : XReg) (v : Word) : (s.setX r v).others = s.others := rfl
@[simp] theorem State.setX_mem (s : State) (r : XReg) (v : Word) : (s.setX r v).mem = s.mem := rfl
@[simp] theorem State.setX_host (s : State) (r : XReg) (v : Word) : (s.setX r v).host = s.host := rfl
@[simp] theorem State.setX_dir (s : State) (r : XReg) (v : Word) : (s.setX r v).dir = s.dir := rfl
@[simp] theorem State.setX_disp (s : State) (r : XReg) (v : Word) : (s.setX r v).disp = s.disp := rfl
@[simp] theorem State.setX_sheep (s : State) (r : XReg) (v : Word) : (s.setX r v).sheep = s.sheep := rfl
@[simp] theorem State.setX_base (s : State) (r : XReg) (v : Word) : (s.setX r v).base = s.base := rfl
@[simp] theorem State.setX_posted (s : State) (r : XReg) (v : Word) : (s.setX r v).posted = s.posted := rfl
@[simp] theorem State.setX_agent (s : State) (r : XReg) (v : Word) : (s.setX r v).agent = s.agent := rfl
@[simp] theorem State.setX_stalled (s : State) (r : XReg) (v : Word) : (s.setX r v).stalled = s.stalled := rfl
@[simp] theorem State.setX_stateMissed (s : State) (r : XReg) (v : Word) : (s.setX r v).missed = s.missed := rfl
@[simp] theorem State.setX_asks (s : State) (r : XReg) (v : Word) : (s.setX r v).asks = s.asks := rfl
@[simp] theorem State.setX_seat (s : State) (r : XReg) (v : Word) : (s.setX r v).seat = s.seat := rfl
@[simp] theorem State.setX_defers (s : State) (r : XReg) (v : Word) : (s.setX r v).defers = s.defers := rfl
@[simp] theorem State.setX_agenda (s : State) (r : XReg) (v : Word) : (s.setX r v).agenda = s.agenda := rfl
@[simp] theorem State.setX_fresh (s : State) (r : XReg) (v : Word) : (s.setX r v).fresh = s.fresh := rfl

/-! ### result -/

@[simp] theorem State.result_no (s : State) (r : XReg) (v : Word) : (s.result r v).core.no = s.core.no := rfl
@[simp] theorem State.result_phase (s : State) (r : XReg) (v : Word) : (s.result r v).core.phase = s.core.phase := rfl
@[simp] theorem State.result_csr (s : State) (r : XReg) (v : Word) : (s.result r v).core.csr = s.core.csr := rfl
@[simp] theorem State.result_vec (s : State) (r : XReg) (v : Word) : (s.result r v).core.vec = s.core.vec := rfl
@[simp] theorem State.result_ltime (s : State) (r : XReg) (v : Word) : (s.result r v).core.ltime = s.core.ltime := rfl
@[simp] theorem State.result_copies (s : State) (r : XReg) (v : Word) : (s.result r v).core.copies = s.core.copies := rfl
@[simp] theorem State.result_leases (s : State) (r : XReg) (v : Word) : (s.result r v).core.leases = s.core.leases := rfl
@[simp] theorem State.result_dropAt (s : State) (r : XReg) (v : Word) : (s.result r v).core.dropAt = s.core.dropAt := rfl
@[simp] theorem State.result_moduleTime (s : State) (r : XReg) (v : Word) : (s.result r v).core.moduleTime = s.core.moduleTime := rfl
@[simp] theorem State.result_tickAt (s : State) (r : XReg) (v : Word) : (s.result r v).core.tickAt = s.core.tickAt := rfl
@[simp] theorem State.result_tlb (s : State) (r : XReg) (v : Word) : (s.result r v).core.tlb = s.core.tlb := rfl
@[simp] theorem State.result_misses (s : State) (r : XReg) (v : Word) : (s.result r v).core.misses = s.core.misses := rfl
@[simp] theorem State.result_missed (s : State) (r : XReg) (v : Word) : (s.result r v).core.missed = s.core.missed := rfl
@[simp] theorem State.result_chain (s : State) (r : XReg) (v : Word) : (s.result r v).core.chain = s.core.chain := rfl
@[simp] theorem State.result_awaiting (s : State) (r : XReg) (v : Word) : (s.result r v).core.awaiting = s.core.awaiting := rfl
@[simp] theorem State.result_perf (s : State) (r : XReg) (v : Word) : (s.result r v).core.perf = s.core.perf := rfl
@[simp] theorem State.result_grant (s : State) (r : XReg) (v : Word) : (s.result r v).core.grant = s.core.grant := rfl
@[simp] theorem State.result_asid (s : State) (r : XReg) (v : Word) : (s.result r v).core.asid = s.core.asid := rfl
@[simp] theorem State.result_prevAsid (s : State) (r : XReg) (v : Word) : (s.result r v).core.prevAsid = s.core.prevAsid := rfl
@[simp] theorem State.result_pendingSince (s : State) (r : XReg) (v : Word) : (s.result r v).core.pendingSince = s.core.pendingSince := rfl
@[simp] theorem State.result_stopForced (s : State) (r : XReg) (v : Word) : (s.result r v).core.stopForced = s.core.stopForced := rfl
@[simp] theorem State.result_noticeTaken (s : State) (r : XReg) (v : Word) : (s.result r v).core.noticeTaken = s.core.noticeTaken := rfl
@[simp] theorem State.result_ready (s : State) (r : XReg) (v : Word) : (s.result r v).core.ready = s.core.ready := rfl
@[simp] theorem State.result_curMt (s : State) (r : XReg) (v : Word) : (s.result r v).core.curMt = s.core.curMt := rfl
@[simp] theorem State.result_triggered (s : State) (r : XReg) (v : Word) : (s.result r v).core.triggered = s.core.triggered := rfl
@[simp] theorem State.result_others (s : State) (r : XReg) (v : Word) : (s.result r v).others = s.others := rfl
@[simp] theorem State.result_mem (s : State) (r : XReg) (v : Word) : (s.result r v).mem = s.mem := rfl
@[simp] theorem State.result_host (s : State) (r : XReg) (v : Word) : (s.result r v).host = s.host := rfl
@[simp] theorem State.result_dir (s : State) (r : XReg) (v : Word) : (s.result r v).dir = s.dir := rfl
@[simp] theorem State.result_disp (s : State) (r : XReg) (v : Word) : (s.result r v).disp = s.disp := rfl
@[simp] theorem State.result_sheep (s : State) (r : XReg) (v : Word) : (s.result r v).sheep = s.sheep := rfl
@[simp] theorem State.result_base (s : State) (r : XReg) (v : Word) : (s.result r v).base = s.base := rfl
@[simp] theorem State.result_posted (s : State) (r : XReg) (v : Word) : (s.result r v).posted = s.posted := rfl
@[simp] theorem State.result_agent (s : State) (r : XReg) (v : Word) : (s.result r v).agent = s.agent := rfl
@[simp] theorem State.result_stalled (s : State) (r : XReg) (v : Word) : (s.result r v).stalled = s.stalled := rfl
@[simp] theorem State.result_stateMissed (s : State) (r : XReg) (v : Word) : (s.result r v).missed = s.missed := rfl
@[simp] theorem State.result_asks (s : State) (r : XReg) (v : Word) : (s.result r v).asks = s.asks := rfl
@[simp] theorem State.result_seat (s : State) (r : XReg) (v : Word) : (s.result r v).seat = s.seat := rfl
@[simp] theorem State.result_defers (s : State) (r : XReg) (v : Word) : (s.result r v).defers = s.defers := rfl
@[simp] theorem State.result_agenda (s : State) (r : XReg) (v : Word) : (s.result r v).agenda = s.agenda := rfl
@[simp] theorem State.result_fresh (s : State) (r : XReg) (v : Word) : (s.result r v).fresh = s.fresh := rfl

/-! ### waitAt -/

@[simp] theorem State.waitAt_no (s : State) (x : Wait) : (s.waitAt x).core.no = s.core.no := rfl
@[simp] theorem State.waitAt_phase (s : State) (x : Wait) : (s.waitAt x).core.phase = s.core.phase := rfl
@[simp] theorem State.waitAt_csr (s : State) (x : Wait) : (s.waitAt x).core.csr = s.core.csr := rfl
@[simp] theorem State.waitAt_vec (s : State) (x : Wait) : (s.waitAt x).core.vec = s.core.vec := rfl
@[simp] theorem State.waitAt_ltime (s : State) (x : Wait) : (s.waitAt x).core.ltime = s.core.ltime := rfl
@[simp] theorem State.waitAt_copies (s : State) (x : Wait) : (s.waitAt x).core.copies = s.core.copies := rfl
@[simp] theorem State.waitAt_leases (s : State) (x : Wait) : (s.waitAt x).core.leases = s.core.leases := rfl
@[simp] theorem State.waitAt_dropAt (s : State) (x : Wait) : (s.waitAt x).core.dropAt = s.core.dropAt := rfl
@[simp] theorem State.waitAt_moduleTime (s : State) (x : Wait) : (s.waitAt x).core.moduleTime = s.core.moduleTime := rfl
@[simp] theorem State.waitAt_tickAt (s : State) (x : Wait) : (s.waitAt x).core.tickAt = s.core.tickAt := rfl
@[simp] theorem State.waitAt_tlb (s : State) (x : Wait) : (s.waitAt x).core.tlb = s.core.tlb := rfl
@[simp] theorem State.waitAt_misses (s : State) (x : Wait) : (s.waitAt x).core.misses = s.core.misses := rfl
@[simp] theorem State.waitAt_missed (s : State) (x : Wait) : (s.waitAt x).core.missed = s.core.missed := rfl
@[simp] theorem State.waitAt_chain (s : State) (x : Wait) : (s.waitAt x).core.chain = s.core.chain := rfl
@[simp] theorem State.waitAt_events (s : State) (x : Wait) : (s.waitAt x).core.events = s.core.events := rfl
@[simp] theorem State.waitAt_awaiting (s : State) (x : Wait) : (s.waitAt x).core.awaiting = s.core.awaiting := rfl
@[simp] theorem State.waitAt_perf (s : State) (x : Wait) : (s.waitAt x).core.perf = s.core.perf := rfl
@[simp] theorem State.waitAt_grant (s : State) (x : Wait) : (s.waitAt x).core.grant = s.core.grant := rfl
@[simp] theorem State.waitAt_asid (s : State) (x : Wait) : (s.waitAt x).core.asid = s.core.asid := rfl
@[simp] theorem State.waitAt_prevAsid (s : State) (x : Wait) : (s.waitAt x).core.prevAsid = s.core.prevAsid := rfl
@[simp] theorem State.waitAt_pendingSince (s : State) (x : Wait) : (s.waitAt x).core.pendingSince = s.core.pendingSince := rfl
@[simp] theorem State.waitAt_stopForced (s : State) (x : Wait) : (s.waitAt x).core.stopForced = s.core.stopForced := rfl
@[simp] theorem State.waitAt_noticeTaken (s : State) (x : Wait) : (s.waitAt x).core.noticeTaken = s.core.noticeTaken := rfl
@[simp] theorem State.waitAt_ready (s : State) (x : Wait) : (s.waitAt x).core.ready = s.core.ready := rfl
@[simp] theorem State.waitAt_curMt (s : State) (x : Wait) : (s.waitAt x).core.curMt = s.core.curMt := rfl
@[simp] theorem State.waitAt_triggered (s : State) (x : Wait) : (s.waitAt x).core.triggered = s.core.triggered := rfl
@[simp] theorem State.waitAt_others (s : State) (x : Wait) : (s.waitAt x).others = s.others := rfl
@[simp] theorem State.waitAt_mem (s : State) (x : Wait) : (s.waitAt x).mem = s.mem := rfl
@[simp] theorem State.waitAt_host (s : State) (x : Wait) : (s.waitAt x).host = s.host := rfl
@[simp] theorem State.waitAt_dir (s : State) (x : Wait) : (s.waitAt x).dir = s.dir := rfl
@[simp] theorem State.waitAt_disp (s : State) (x : Wait) : (s.waitAt x).disp = s.disp := rfl
@[simp] theorem State.waitAt_sheep (s : State) (x : Wait) : (s.waitAt x).sheep = s.sheep := rfl
@[simp] theorem State.waitAt_base (s : State) (x : Wait) : (s.waitAt x).base = s.base := rfl
@[simp] theorem State.waitAt_posted (s : State) (x : Wait) : (s.waitAt x).posted = s.posted := rfl
@[simp] theorem State.waitAt_agent (s : State) (x : Wait) : (s.waitAt x).agent = s.agent := rfl
@[simp] theorem State.waitAt_stalled (s : State) (x : Wait) : (s.waitAt x).stalled = s.stalled := rfl
@[simp] theorem State.waitAt_stateMissed (s : State) (x : Wait) : (s.waitAt x).missed = s.missed := rfl
@[simp] theorem State.waitAt_asks (s : State) (x : Wait) : (s.waitAt x).asks = s.asks := rfl
@[simp] theorem State.waitAt_seat (s : State) (x : Wait) : (s.waitAt x).seat = s.seat := rfl
@[simp] theorem State.waitAt_defers (s : State) (x : Wait) : (s.waitAt x).defers = s.defers := rfl
@[simp] theorem State.waitAt_agenda (s : State) (x : Wait) : (s.waitAt x).agenda = s.agenda := rfl
@[simp] theorem State.waitAt_fresh (s : State) (x : Wait) : (s.waitAt x).fresh = s.fresh := rfl

@[simp] theorem State.waitAt_ct_x (s : State) (x : Wait) : (s.waitAt x).core.ct.x = s.core.ct.x := rfl
@[simp] theorem State.waitAt_ct_pc (s : State) (x : Wait) : (s.waitAt x).core.ct.pc = s.core.ct.pc := rfl
@[simp] theorem State.waitAt_ct_user (s : State) (x : Wait) : (s.waitAt x).core.ct.user = s.core.ct.user := rfl
@[simp] theorem State.waitAt_ct_sie (s : State) (x : Wait) : (s.waitAt x).core.ct.sie = s.core.ct.sie := rfl
@[simp] theorem State.waitAt_ct_sip (s : State) (x : Wait) : (s.waitAt x).core.ct.sip = s.core.ct.sip := rfl
@[simp] theorem State.waitAt_ct_stvec (s : State) (x : Wait) : (s.waitAt x).core.ct.stvec = s.core.ct.stvec := rfl
@[simp] theorem State.waitAt_ct_sscratch (s : State) (x : Wait) : (s.waitAt x).core.ct.sscratch = s.core.ct.sscratch := rfl
@[simp] theorem State.waitAt_ct_sepc (s : State) (x : Wait) : (s.waitAt x).core.ct.sepc = s.core.ct.sepc := rfl
@[simp] theorem State.waitAt_ct_scause (s : State) (x : Wait) : (s.waitAt x).core.ct.scause = s.core.ct.scause := rfl
@[simp] theorem State.waitAt_ct_stval (s : State) (x : Wait) : (s.waitAt x).core.ct.stval = s.core.ct.stval := rfl
@[simp] theorem State.waitAt_ct_sstatus (s : State) (x : Wait) : (s.waitAt x).core.ct.sstatus = s.core.ct.sstatus := rfl
@[simp] theorem State.waitAt_ct_satp (s : State) (x : Wait) : (s.waitAt x).core.ct.satp = s.core.ct.satp := rfl
@[simp] theorem State.waitAt_ct_scounteren (s : State) (x : Wait) : (s.waitAt x).core.ct.scounteren = s.core.ct.scounteren := rfl
@[simp] theorem State.waitAt_ct_senvcfg (s : State) (x : Wait) : (s.waitAt x).core.ct.senvcfg = s.core.ct.senvcfg := rfl
@[simp] theorem State.waitAt_ct_reservation (s : State) (x : Wait) : (s.waitAt x).core.ct.reservation = s.core.ct.reservation := rfl
@[simp] theorem State.waitAt_ct_windowReservation (s : State) (x : Wait) : (s.waitAt x).core.ct.windowReservation = s.core.ct.windowReservation := rfl
@[simp] theorem State.waitAt_ct_early (s : State) (x : Wait) : (s.waitAt x).core.ct.early = s.core.ct.early := rfl
@[simp] theorem State.waitAt_ct_pendingX (s : State) (x : Wait) : (s.waitAt x).core.ct.pendingX = s.core.ct.pendingX := rfl
@[simp] theorem State.waitAt_ct_waitaStart (s : State) (x : Wait) : (s.waitAt x).core.ct.waitaStart = s.core.ct.waitaStart := rfl
@[simp] theorem State.waitAt_ct_wait (s : State) (x : Wait) : (s.waitAt x).core.ct.wait = some x := rfl

/-! ### setVreg -/

@[simp] theorem State.setVreg_no (s : State) (r m : Nat) (v : MWord) : (s.setVreg r m v).core.no = s.core.no := rfl
@[simp] theorem State.setVreg_phase (s : State) (r m : Nat) (v : MWord) : (s.setVreg r m v).core.phase = s.core.phase := rfl
@[simp] theorem State.setVreg_ct (s : State) (r m : Nat) (v : MWord) : (s.setVreg r m v).core.ct = s.core.ct := rfl
@[simp] theorem State.setVreg_csr (s : State) (r m : Nat) (v : MWord) : (s.setVreg r m v).core.csr = s.core.csr := rfl
@[simp] theorem State.setVreg_ltime (s : State) (r m : Nat) (v : MWord) : (s.setVreg r m v).core.ltime = s.core.ltime := rfl
@[simp] theorem State.setVreg_copies (s : State) (r m : Nat) (v : MWord) : (s.setVreg r m v).core.copies = s.core.copies := rfl
@[simp] theorem State.setVreg_leases (s : State) (r m : Nat) (v : MWord) : (s.setVreg r m v).core.leases = s.core.leases := rfl
@[simp] theorem State.setVreg_dropAt (s : State) (r m : Nat) (v : MWord) : (s.setVreg r m v).core.dropAt = s.core.dropAt := rfl
@[simp] theorem State.setVreg_moduleTime (s : State) (r m : Nat) (v : MWord) : (s.setVreg r m v).core.moduleTime = s.core.moduleTime := rfl
@[simp] theorem State.setVreg_tickAt (s : State) (r m : Nat) (v : MWord) : (s.setVreg r m v).core.tickAt = s.core.tickAt := rfl
@[simp] theorem State.setVreg_tlb (s : State) (r m : Nat) (v : MWord) : (s.setVreg r m v).core.tlb = s.core.tlb := rfl
@[simp] theorem State.setVreg_misses (s : State) (r m : Nat) (v : MWord) : (s.setVreg r m v).core.misses = s.core.misses := rfl
@[simp] theorem State.setVreg_missed (s : State) (r m : Nat) (v : MWord) : (s.setVreg r m v).core.missed = s.core.missed := rfl
@[simp] theorem State.setVreg_chain (s : State) (r m : Nat) (v : MWord) : (s.setVreg r m v).core.chain = s.core.chain := rfl
@[simp] theorem State.setVreg_events (s : State) (r m : Nat) (v : MWord) : (s.setVreg r m v).core.events = s.core.events := rfl
@[simp] theorem State.setVreg_awaiting (s : State) (r m : Nat) (v : MWord) : (s.setVreg r m v).core.awaiting = s.core.awaiting := rfl
@[simp] theorem State.setVreg_perf (s : State) (r m : Nat) (v : MWord) : (s.setVreg r m v).core.perf = s.core.perf := rfl
@[simp] theorem State.setVreg_grant (s : State) (r m : Nat) (v : MWord) : (s.setVreg r m v).core.grant = s.core.grant := rfl
@[simp] theorem State.setVreg_asid (s : State) (r m : Nat) (v : MWord) : (s.setVreg r m v).core.asid = s.core.asid := rfl
@[simp] theorem State.setVreg_prevAsid (s : State) (r m : Nat) (v : MWord) : (s.setVreg r m v).core.prevAsid = s.core.prevAsid := rfl
@[simp] theorem State.setVreg_pendingSince (s : State) (r m : Nat) (v : MWord) : (s.setVreg r m v).core.pendingSince = s.core.pendingSince := rfl
@[simp] theorem State.setVreg_stopForced (s : State) (r m : Nat) (v : MWord) : (s.setVreg r m v).core.stopForced = s.core.stopForced := rfl
@[simp] theorem State.setVreg_noticeTaken (s : State) (r m : Nat) (v : MWord) : (s.setVreg r m v).core.noticeTaken = s.core.noticeTaken := rfl
@[simp] theorem State.setVreg_ready (s : State) (r m : Nat) (v : MWord) : (s.setVreg r m v).core.ready = s.core.ready := rfl
@[simp] theorem State.setVreg_curMt (s : State) (r m : Nat) (v : MWord) : (s.setVreg r m v).core.curMt = s.core.curMt := rfl
@[simp] theorem State.setVreg_triggered (s : State) (r m : Nat) (v : MWord) : (s.setVreg r m v).core.triggered = s.core.triggered := rfl
@[simp] theorem State.setVreg_others (s : State) (r m : Nat) (v : MWord) : (s.setVreg r m v).others = s.others := rfl
@[simp] theorem State.setVreg_mem (s : State) (r m : Nat) (v : MWord) : (s.setVreg r m v).mem = s.mem := rfl
@[simp] theorem State.setVreg_host (s : State) (r m : Nat) (v : MWord) : (s.setVreg r m v).host = s.host := rfl
@[simp] theorem State.setVreg_dir (s : State) (r m : Nat) (v : MWord) : (s.setVreg r m v).dir = s.dir := rfl
@[simp] theorem State.setVreg_disp (s : State) (r m : Nat) (v : MWord) : (s.setVreg r m v).disp = s.disp := rfl
@[simp] theorem State.setVreg_sheep (s : State) (r m : Nat) (v : MWord) : (s.setVreg r m v).sheep = s.sheep := rfl
@[simp] theorem State.setVreg_base (s : State) (r m : Nat) (v : MWord) : (s.setVreg r m v).base = s.base := rfl
@[simp] theorem State.setVreg_posted (s : State) (r m : Nat) (v : MWord) : (s.setVreg r m v).posted = s.posted := rfl
@[simp] theorem State.setVreg_agent (s : State) (r m : Nat) (v : MWord) : (s.setVreg r m v).agent = s.agent := rfl
@[simp] theorem State.setVreg_stalled (s : State) (r m : Nat) (v : MWord) : (s.setVreg r m v).stalled = s.stalled := rfl
@[simp] theorem State.setVreg_stateMissed (s : State) (r m : Nat) (v : MWord) : (s.setVreg r m v).missed = s.missed := rfl
@[simp] theorem State.setVreg_asks (s : State) (r m : Nat) (v : MWord) : (s.setVreg r m v).asks = s.asks := rfl
@[simp] theorem State.setVreg_seat (s : State) (r m : Nat) (v : MWord) : (s.setVreg r m v).seat = s.seat := rfl
@[simp] theorem State.setVreg_defers (s : State) (r m : Nat) (v : MWord) : (s.setVreg r m v).defers = s.defers := rfl
@[simp] theorem State.setVreg_agenda (s : State) (r m : Nat) (v : MWord) : (s.setVreg r m v).agenda = s.agenda := rfl
@[simp] theorem State.setVreg_fresh (s : State) (r m : Nat) (v : MWord) : (s.setVreg r m v).fresh = s.fresh := rfl

@[simp] theorem State.setVreg_vec_acc (s : State) (r m : Nat) (v : MWord) : (s.setVreg r m v).core.vec.acc = s.core.vec.acc := rfl
@[simp] theorem State.setVreg_vec_stash (s : State) (r m : Nat) (v : MWord) : (s.setVreg r m v).core.vec.stash = s.core.vec.stash := rfl
@[simp] theorem State.setVreg_vec_fly (s : State) (r m : Nat) (v : MWord) : (s.setVreg r m v).core.vec.fly = s.core.vec.fly := rfl
@[simp] theorem State.setVreg_vec_masks (s : State) (r m : Nat) (v : MWord) : (s.setVreg r m v).core.vec.masks = s.core.vec.masks := rfl
@[simp] theorem State.setVreg_vec_tileDirty (s : State) (r m : Nat) (v : MWord) : (s.setVreg r m v).core.vec.tileDirty = s.core.vec.tileDirty := rfl
@[simp] theorem State.setVreg_vec_mts (s : State) (r m : Nat) (v : MWord) : (s.setVreg r m v).core.vec.mts = s.core.vec.mts := rfl
@[simp] theorem State.setVreg_vec_fifo (s : State) (r m : Nat) (v : MWord) : (s.setVreg r m v).core.vec.fifo = s.core.vec.fifo := rfl
@[simp] theorem State.setVreg_vec_idle (s : State) (r m : Nat) (v : MWord) : (s.setVreg r m v).core.vec.idle = s.core.vec.idle := rfl
@[simp] theorem State.setVreg_vec_pipe (s : State) (r m : Nat) (v : MWord) : (s.setVreg r m v).core.vec.pipe = s.core.vec.pipe := rfl
@[simp] theorem State.setVreg_vec_queue (s : State) (r m : Nat) (v : MWord) : (s.setVreg r m v).core.vec.queue = s.core.vec.queue := rfl
@[simp] theorem State.setVreg_vec_nextEntry (s : State) (r m : Nat) (v : MWord) : (s.setVreg r m v).core.vec.nextEntry = s.core.vec.nextEntry := rfl
@[simp] theorem State.setVreg_vec_cmds (s : State) (r m : Nat) (v : MWord) : (s.setVreg r m v).core.vec.cmds = s.core.vec.cmds := rfl
@[simp] theorem State.setVreg_vec_blocks (s : State) (r m : Nat) (v : MWord) : (s.setVreg r m v).core.vec.blocks = s.core.vec.blocks := rfl
@[simp] theorem State.setVreg_vec_held (s : State) (r m : Nat) (v : MWord) : (s.setVreg r m v).core.vec.held = s.core.vec.held := rfl
@[simp] theorem State.setVreg_vec_barriers (s : State) (r m : Nat) (v : MWord) : (s.setVreg r m v).core.vec.barriers = s.core.vec.barriers := rfl
@[simp] theorem State.setVreg_vec_early (s : State) (r m : Nat) (v : MWord) : (s.setVreg r m v).core.vec.early = s.core.vec.early := rfl
@[simp] theorem State.setVreg_vec_late (s : State) (r m : Nat) (v : MWord) : (s.setVreg r m v).core.vec.late = s.core.vec.late := rfl
@[simp] theorem State.setVreg_regs (s : State) (r m : Nat) (v : MWord) :
    (s.setVreg r m v).core.vec.regs = Store.set s.core.vec.regs (regSlot s.core.csr.nregs r m) v := rfl
@[simp] theorem State.setVreg_regDirty (s : State) (r m : Nat) (v : MWord) :
    (s.setVreg r m v).core.vec.regDirty = s.core.vec.regDirty ||| BitVec.twoPow 64 r := rfl
@[simp] theorem State.setVreg_stamps (s : State) (r m : Nat) (v : MWord) :
    (s.setVreg r m v).core.vec.stamps =
      Store.set s.core.vec.stamps (stampKey .regs (4 * regSlot s.core.csr.nregs r m)) s.core.stampNow := rfl
@[simp] theorem State.setVreg_high (s : State) (r m : Nat) (v : MWord) :
    (s.setVreg r m v).core.vec.high = max s.core.vec.high (m + 1) := rfl

/-! ### onMt -/

@[simp] theorem State.onMt_no (s : State) (m : Nat) (f : Mt → Mt) : (s.onMt m f).core.no = s.core.no := rfl
@[simp] theorem State.onMt_phase (s : State) (m : Nat) (f : Mt → Mt) : (s.onMt m f).core.phase = s.core.phase := rfl
@[simp] theorem State.onMt_ct (s : State) (m : Nat) (f : Mt → Mt) : (s.onMt m f).core.ct = s.core.ct := rfl
@[simp] theorem State.onMt_csr (s : State) (m : Nat) (f : Mt → Mt) : (s.onMt m f).core.csr = s.core.csr := rfl
@[simp] theorem State.onMt_ltime (s : State) (m : Nat) (f : Mt → Mt) : (s.onMt m f).core.ltime = s.core.ltime := rfl
@[simp] theorem State.onMt_copies (s : State) (m : Nat) (f : Mt → Mt) : (s.onMt m f).core.copies = s.core.copies := rfl
@[simp] theorem State.onMt_leases (s : State) (m : Nat) (f : Mt → Mt) : (s.onMt m f).core.leases = s.core.leases := rfl
@[simp] theorem State.onMt_dropAt (s : State) (m : Nat) (f : Mt → Mt) : (s.onMt m f).core.dropAt = s.core.dropAt := rfl
@[simp] theorem State.onMt_moduleTime (s : State) (m : Nat) (f : Mt → Mt) : (s.onMt m f).core.moduleTime = s.core.moduleTime := rfl
@[simp] theorem State.onMt_tickAt (s : State) (m : Nat) (f : Mt → Mt) : (s.onMt m f).core.tickAt = s.core.tickAt := rfl
@[simp] theorem State.onMt_tlb (s : State) (m : Nat) (f : Mt → Mt) : (s.onMt m f).core.tlb = s.core.tlb := rfl
@[simp] theorem State.onMt_misses (s : State) (m : Nat) (f : Mt → Mt) : (s.onMt m f).core.misses = s.core.misses := rfl
@[simp] theorem State.onMt_missed (s : State) (m : Nat) (f : Mt → Mt) : (s.onMt m f).core.missed = s.core.missed := rfl
@[simp] theorem State.onMt_chain (s : State) (m : Nat) (f : Mt → Mt) : (s.onMt m f).core.chain = s.core.chain := rfl
@[simp] theorem State.onMt_events (s : State) (m : Nat) (f : Mt → Mt) : (s.onMt m f).core.events = s.core.events := rfl
@[simp] theorem State.onMt_awaiting (s : State) (m : Nat) (f : Mt → Mt) : (s.onMt m f).core.awaiting = s.core.awaiting := rfl
@[simp] theorem State.onMt_perf (s : State) (m : Nat) (f : Mt → Mt) : (s.onMt m f).core.perf = s.core.perf := rfl
@[simp] theorem State.onMt_grant (s : State) (m : Nat) (f : Mt → Mt) : (s.onMt m f).core.grant = s.core.grant := rfl
@[simp] theorem State.onMt_asid (s : State) (m : Nat) (f : Mt → Mt) : (s.onMt m f).core.asid = s.core.asid := rfl
@[simp] theorem State.onMt_prevAsid (s : State) (m : Nat) (f : Mt → Mt) : (s.onMt m f).core.prevAsid = s.core.prevAsid := rfl
@[simp] theorem State.onMt_pendingSince (s : State) (m : Nat) (f : Mt → Mt) : (s.onMt m f).core.pendingSince = s.core.pendingSince := rfl
@[simp] theorem State.onMt_stopForced (s : State) (m : Nat) (f : Mt → Mt) : (s.onMt m f).core.stopForced = s.core.stopForced := rfl
@[simp] theorem State.onMt_noticeTaken (s : State) (m : Nat) (f : Mt → Mt) : (s.onMt m f).core.noticeTaken = s.core.noticeTaken := rfl
@[simp] theorem State.onMt_ready (s : State) (m : Nat) (f : Mt → Mt) : (s.onMt m f).core.ready = s.core.ready := rfl
@[simp] theorem State.onMt_curMt (s : State) (m : Nat) (f : Mt → Mt) : (s.onMt m f).core.curMt = s.core.curMt := rfl
@[simp] theorem State.onMt_triggered (s : State) (m : Nat) (f : Mt → Mt) : (s.onMt m f).core.triggered = s.core.triggered := rfl
@[simp] theorem State.onMt_others (s : State) (m : Nat) (f : Mt → Mt) : (s.onMt m f).others = s.others := rfl
@[simp] theorem State.onMt_mem (s : State) (m : Nat) (f : Mt → Mt) : (s.onMt m f).mem = s.mem := rfl
@[simp] theorem State.onMt_host (s : State) (m : Nat) (f : Mt → Mt) : (s.onMt m f).host = s.host := rfl
@[simp] theorem State.onMt_dir (s : State) (m : Nat) (f : Mt → Mt) : (s.onMt m f).dir = s.dir := rfl
@[simp] theorem State.onMt_disp (s : State) (m : Nat) (f : Mt → Mt) : (s.onMt m f).disp = s.disp := rfl
@[simp] theorem State.onMt_sheep (s : State) (m : Nat) (f : Mt → Mt) : (s.onMt m f).sheep = s.sheep := rfl
@[simp] theorem State.onMt_base (s : State) (m : Nat) (f : Mt → Mt) : (s.onMt m f).base = s.base := rfl
@[simp] theorem State.onMt_posted (s : State) (m : Nat) (f : Mt → Mt) : (s.onMt m f).posted = s.posted := rfl
@[simp] theorem State.onMt_agent (s : State) (m : Nat) (f : Mt → Mt) : (s.onMt m f).agent = s.agent := rfl
@[simp] theorem State.onMt_stalled (s : State) (m : Nat) (f : Mt → Mt) : (s.onMt m f).stalled = s.stalled := rfl
@[simp] theorem State.onMt_stateMissed (s : State) (m : Nat) (f : Mt → Mt) : (s.onMt m f).missed = s.missed := rfl
@[simp] theorem State.onMt_asks (s : State) (m : Nat) (f : Mt → Mt) : (s.onMt m f).asks = s.asks := rfl
@[simp] theorem State.onMt_seat (s : State) (m : Nat) (f : Mt → Mt) : (s.onMt m f).seat = s.seat := rfl
@[simp] theorem State.onMt_defers (s : State) (m : Nat) (f : Mt → Mt) : (s.onMt m f).defers = s.defers := rfl
@[simp] theorem State.onMt_agenda (s : State) (m : Nat) (f : Mt → Mt) : (s.onMt m f).agenda = s.agenda := rfl
@[simp] theorem State.onMt_fresh (s : State) (m : Nat) (f : Mt → Mt) : (s.onMt m f).fresh = s.fresh := rfl

@[simp] theorem State.onMt_vec_regs (s : State) (m : Nat) (f : Mt → Mt) : (s.onMt m f).core.vec.regs = s.core.vec.regs := rfl
@[simp] theorem State.onMt_vec_acc (s : State) (m : Nat) (f : Mt → Mt) : (s.onMt m f).core.vec.acc = s.core.vec.acc := rfl
@[simp] theorem State.onMt_vec_stash (s : State) (m : Nat) (f : Mt → Mt) : (s.onMt m f).core.vec.stash = s.core.vec.stash := rfl
@[simp] theorem State.onMt_vec_fly (s : State) (m : Nat) (f : Mt → Mt) : (s.onMt m f).core.vec.fly = s.core.vec.fly := rfl
@[simp] theorem State.onMt_vec_stamps (s : State) (m : Nat) (f : Mt → Mt) : (s.onMt m f).core.vec.stamps = s.core.vec.stamps := rfl
@[simp] theorem State.onMt_vec_masks (s : State) (m : Nat) (f : Mt → Mt) : (s.onMt m f).core.vec.masks = s.core.vec.masks := rfl
@[simp] theorem State.onMt_vec_regDirty (s : State) (m : Nat) (f : Mt → Mt) : (s.onMt m f).core.vec.regDirty = s.core.vec.regDirty := rfl
@[simp] theorem State.onMt_vec_tileDirty (s : State) (m : Nat) (f : Mt → Mt) : (s.onMt m f).core.vec.tileDirty = s.core.vec.tileDirty := rfl
@[simp] theorem State.onMt_vec_high (s : State) (m : Nat) (f : Mt → Mt) : (s.onMt m f).core.vec.high = s.core.vec.high := rfl
@[simp] theorem State.onMt_vec_fifo (s : State) (m : Nat) (f : Mt → Mt) : (s.onMt m f).core.vec.fifo = s.core.vec.fifo := rfl
@[simp] theorem State.onMt_vec_idle (s : State) (m : Nat) (f : Mt → Mt) : (s.onMt m f).core.vec.idle = s.core.vec.idle := rfl
@[simp] theorem State.onMt_vec_pipe (s : State) (m : Nat) (f : Mt → Mt) : (s.onMt m f).core.vec.pipe = s.core.vec.pipe := rfl
@[simp] theorem State.onMt_vec_queue (s : State) (m : Nat) (f : Mt → Mt) : (s.onMt m f).core.vec.queue = s.core.vec.queue := rfl
@[simp] theorem State.onMt_vec_nextEntry (s : State) (m : Nat) (f : Mt → Mt) : (s.onMt m f).core.vec.nextEntry = s.core.vec.nextEntry := rfl
@[simp] theorem State.onMt_vec_cmds (s : State) (m : Nat) (f : Mt → Mt) : (s.onMt m f).core.vec.cmds = s.core.vec.cmds := rfl
@[simp] theorem State.onMt_vec_blocks (s : State) (m : Nat) (f : Mt → Mt) : (s.onMt m f).core.vec.blocks = s.core.vec.blocks := rfl
@[simp] theorem State.onMt_vec_held (s : State) (m : Nat) (f : Mt → Mt) : (s.onMt m f).core.vec.held = s.core.vec.held := rfl
@[simp] theorem State.onMt_vec_barriers (s : State) (m : Nat) (f : Mt → Mt) : (s.onMt m f).core.vec.barriers = s.core.vec.barriers := rfl
@[simp] theorem State.onMt_vec_early (s : State) (m : Nat) (f : Mt → Mt) : (s.onMt m f).core.vec.early = s.core.vec.early := rfl
@[simp] theorem State.onMt_vec_late (s : State) (m : Nat) (f : Mt → Mt) : (s.onMt m f).core.vec.late = s.core.vec.late := rfl

/-! ### wordDone -/

@[simp] theorem State.wordDone_no (s : State) : (s.wordDone).core.no = s.core.no := rfl
@[simp] theorem State.wordDone_phase (s : State) : (s.wordDone).core.phase = s.core.phase := rfl
@[simp] theorem State.wordDone_ct (s : State) : (s.wordDone).core.ct = s.core.ct := rfl
@[simp] theorem State.wordDone_csr (s : State) : (s.wordDone).core.csr = s.core.csr := rfl
@[simp] theorem State.wordDone_ltime (s : State) : (s.wordDone).core.ltime = s.core.ltime := rfl
@[simp] theorem State.wordDone_copies (s : State) : (s.wordDone).core.copies = s.core.copies := rfl
@[simp] theorem State.wordDone_leases (s : State) : (s.wordDone).core.leases = s.core.leases := rfl
@[simp] theorem State.wordDone_dropAt (s : State) : (s.wordDone).core.dropAt = s.core.dropAt := rfl
@[simp] theorem State.wordDone_moduleTime (s : State) : (s.wordDone).core.moduleTime = s.core.moduleTime := rfl
@[simp] theorem State.wordDone_tickAt (s : State) : (s.wordDone).core.tickAt = s.core.tickAt := rfl
@[simp] theorem State.wordDone_tlb (s : State) : (s.wordDone).core.tlb = s.core.tlb := rfl
@[simp] theorem State.wordDone_misses (s : State) : (s.wordDone).core.misses = s.core.misses := rfl
@[simp] theorem State.wordDone_missed (s : State) : (s.wordDone).core.missed = s.core.missed := rfl
@[simp] theorem State.wordDone_chain (s : State) : (s.wordDone).core.chain = s.core.chain := rfl
@[simp] theorem State.wordDone_events (s : State) : (s.wordDone).core.events = s.core.events := rfl
@[simp] theorem State.wordDone_awaiting (s : State) : (s.wordDone).core.awaiting = s.core.awaiting := rfl
@[simp] theorem State.wordDone_perf (s : State) : (s.wordDone).core.perf = s.core.perf := rfl
@[simp] theorem State.wordDone_grant (s : State) : (s.wordDone).core.grant = s.core.grant := rfl
@[simp] theorem State.wordDone_asid (s : State) : (s.wordDone).core.asid = s.core.asid := rfl
@[simp] theorem State.wordDone_prevAsid (s : State) : (s.wordDone).core.prevAsid = s.core.prevAsid := rfl
@[simp] theorem State.wordDone_pendingSince (s : State) : (s.wordDone).core.pendingSince = s.core.pendingSince := rfl
@[simp] theorem State.wordDone_stopForced (s : State) : (s.wordDone).core.stopForced = s.core.stopForced := rfl
@[simp] theorem State.wordDone_noticeTaken (s : State) : (s.wordDone).core.noticeTaken = s.core.noticeTaken := rfl
@[simp] theorem State.wordDone_ready (s : State) : (s.wordDone).core.ready = s.core.ready := rfl
@[simp] theorem State.wordDone_curMt (s : State) : (s.wordDone).core.curMt = s.core.curMt := rfl
@[simp] theorem State.wordDone_triggered (s : State) : (s.wordDone).core.triggered = s.core.triggered := rfl
@[simp] theorem State.wordDone_others (s : State) : (s.wordDone).others = s.others := rfl
@[simp] theorem State.wordDone_mem (s : State) : (s.wordDone).mem = s.mem := rfl
@[simp] theorem State.wordDone_host (s : State) : (s.wordDone).host = s.host := rfl
@[simp] theorem State.wordDone_dir (s : State) : (s.wordDone).dir = s.dir := rfl
@[simp] theorem State.wordDone_disp (s : State) : (s.wordDone).disp = s.disp := rfl
@[simp] theorem State.wordDone_sheep (s : State) : (s.wordDone).sheep = s.sheep := rfl
@[simp] theorem State.wordDone_base (s : State) : (s.wordDone).base = s.base := rfl
@[simp] theorem State.wordDone_posted (s : State) : (s.wordDone).posted = s.posted := rfl
@[simp] theorem State.wordDone_agent (s : State) : (s.wordDone).agent = s.agent := rfl
@[simp] theorem State.wordDone_stalled (s : State) : (s.wordDone).stalled = s.stalled := rfl
@[simp] theorem State.wordDone_stateMissed (s : State) : (s.wordDone).missed = s.missed := rfl
@[simp] theorem State.wordDone_asks (s : State) : (s.wordDone).asks = s.asks := rfl
@[simp] theorem State.wordDone_seat (s : State) : (s.wordDone).seat = s.seat := rfl
@[simp] theorem State.wordDone_defers (s : State) : (s.wordDone).defers = s.defers := rfl
@[simp] theorem State.wordDone_agenda (s : State) : (s.wordDone).agenda = s.agenda := rfl
@[simp] theorem State.wordDone_fresh (s : State) : (s.wordDone).fresh = s.fresh := rfl

@[simp] theorem State.wordDone_vec_regs (s : State) : (s.wordDone).core.vec.regs = s.core.vec.regs := rfl
@[simp] theorem State.wordDone_vec_acc (s : State) : (s.wordDone).core.vec.acc = s.core.vec.acc := rfl
@[simp] theorem State.wordDone_vec_stash (s : State) : (s.wordDone).core.vec.stash = s.core.vec.stash := rfl
@[simp] theorem State.wordDone_vec_fly (s : State) : (s.wordDone).core.vec.fly = s.core.vec.fly := rfl
@[simp] theorem State.wordDone_vec_stamps (s : State) : (s.wordDone).core.vec.stamps = s.core.vec.stamps := rfl
@[simp] theorem State.wordDone_vec_masks (s : State) : (s.wordDone).core.vec.masks = s.core.vec.masks := rfl
@[simp] theorem State.wordDone_vec_regDirty (s : State) : (s.wordDone).core.vec.regDirty = s.core.vec.regDirty := rfl
@[simp] theorem State.wordDone_vec_tileDirty (s : State) : (s.wordDone).core.vec.tileDirty = s.core.vec.tileDirty := rfl
@[simp] theorem State.wordDone_vec_high (s : State) : (s.wordDone).core.vec.high = s.core.vec.high := rfl
@[simp] theorem State.wordDone_vec_fifo (s : State) : (s.wordDone).core.vec.fifo = s.core.vec.fifo := rfl
@[simp] theorem State.wordDone_vec_idle (s : State) : (s.wordDone).core.vec.idle = s.core.vec.idle := rfl
@[simp] theorem State.wordDone_vec_pipe (s : State) : (s.wordDone).core.vec.pipe = s.core.vec.pipe := rfl
@[simp] theorem State.wordDone_vec_queue (s : State) : (s.wordDone).core.vec.queue = s.core.vec.queue := rfl
@[simp] theorem State.wordDone_vec_nextEntry (s : State) : (s.wordDone).core.vec.nextEntry = s.core.vec.nextEntry := rfl
@[simp] theorem State.wordDone_vec_cmds (s : State) : (s.wordDone).core.vec.cmds = s.core.vec.cmds := rfl
@[simp] theorem State.wordDone_vec_blocks (s : State) : (s.wordDone).core.vec.blocks = s.core.vec.blocks := rfl
@[simp] theorem State.wordDone_vec_held (s : State) : (s.wordDone).core.vec.held = s.core.vec.held := rfl
@[simp] theorem State.wordDone_vec_barriers (s : State) : (s.wordDone).core.vec.barriers = s.core.vec.barriers := rfl
@[simp] theorem State.wordDone_vec_early (s : State) : (s.wordDone).core.vec.early = s.core.vec.early := rfl
@[simp] theorem State.wordDone_vec_late (s : State) : (s.wordDone).core.vec.late = s.core.vec.late := rfl

/-! ### raiseTime -/

@[simp] theorem State.raiseTime_no (s : State) (t : LTime) : (s.raiseTime t).core.no = s.core.no := by
  simp only [State.raiseTime, Core.raiseTo, Core.later]; split <;> rfl
@[simp] theorem State.raiseTime_phase (s : State) (t : LTime) : (s.raiseTime t).core.phase = s.core.phase := by
  simp only [State.raiseTime, Core.raiseTo, Core.later]; split <;> rfl
@[simp] theorem State.raiseTime_ct (s : State) (t : LTime) : (s.raiseTime t).core.ct = s.core.ct := by
  simp only [State.raiseTime, Core.raiseTo, Core.later]; split <;> rfl
@[simp] theorem State.raiseTime_csr (s : State) (t : LTime) : (s.raiseTime t).core.csr = s.core.csr := by
  simp only [State.raiseTime, Core.raiseTo, Core.later]; split <;> rfl
@[simp] theorem State.raiseTime_vec (s : State) (t : LTime) : (s.raiseTime t).core.vec = s.core.vec := by
  simp only [State.raiseTime, Core.raiseTo, Core.later]; split <;> rfl
@[simp] theorem State.raiseTime_moduleTime (s : State) (t : LTime) : (s.raiseTime t).core.moduleTime = s.core.moduleTime := by
  simp only [State.raiseTime, Core.raiseTo, Core.later]; split <;> rfl
@[simp] theorem State.raiseTime_tickAt (s : State) (t : LTime) : (s.raiseTime t).core.tickAt = s.core.tickAt := by
  simp only [State.raiseTime, Core.raiseTo, Core.later]; split <;> rfl
@[simp] theorem State.raiseTime_tlb (s : State) (t : LTime) : (s.raiseTime t).core.tlb = s.core.tlb := by
  simp only [State.raiseTime, Core.raiseTo, Core.later]; split <;> rfl
@[simp] theorem State.raiseTime_misses (s : State) (t : LTime) : (s.raiseTime t).core.misses = s.core.misses := by
  simp only [State.raiseTime, Core.raiseTo, Core.later]; split <;> rfl
@[simp] theorem State.raiseTime_missed (s : State) (t : LTime) : (s.raiseTime t).core.missed = s.core.missed := by
  simp only [State.raiseTime, Core.raiseTo, Core.later]; split <;> rfl
@[simp] theorem State.raiseTime_events (s : State) (t : LTime) : (s.raiseTime t).core.events = s.core.events := by
  simp only [State.raiseTime, Core.raiseTo, Core.later]; split <;> rfl
@[simp] theorem State.raiseTime_awaiting (s : State) (t : LTime) : (s.raiseTime t).core.awaiting = s.core.awaiting := by
  simp only [State.raiseTime, Core.raiseTo, Core.later]; split <;> rfl
@[simp] theorem State.raiseTime_perf (s : State) (t : LTime) : (s.raiseTime t).core.perf = s.core.perf := by
  simp only [State.raiseTime, Core.raiseTo, Core.later]; split <;> rfl
@[simp] theorem State.raiseTime_grant (s : State) (t : LTime) : (s.raiseTime t).core.grant = s.core.grant := by
  simp only [State.raiseTime, Core.raiseTo, Core.later]; split <;> rfl
@[simp] theorem State.raiseTime_asid (s : State) (t : LTime) : (s.raiseTime t).core.asid = s.core.asid := by
  simp only [State.raiseTime, Core.raiseTo, Core.later]; split <;> rfl
@[simp] theorem State.raiseTime_prevAsid (s : State) (t : LTime) : (s.raiseTime t).core.prevAsid = s.core.prevAsid := by
  simp only [State.raiseTime, Core.raiseTo, Core.later]; split <;> rfl
@[simp] theorem State.raiseTime_pendingSince (s : State) (t : LTime) : (s.raiseTime t).core.pendingSince = s.core.pendingSince := by
  simp only [State.raiseTime, Core.raiseTo, Core.later]; split <;> rfl
@[simp] theorem State.raiseTime_stopForced (s : State) (t : LTime) : (s.raiseTime t).core.stopForced = s.core.stopForced := by
  simp only [State.raiseTime, Core.raiseTo, Core.later]; split <;> rfl
@[simp] theorem State.raiseTime_noticeTaken (s : State) (t : LTime) : (s.raiseTime t).core.noticeTaken = s.core.noticeTaken := by
  simp only [State.raiseTime, Core.raiseTo, Core.later]; split <;> rfl
@[simp] theorem State.raiseTime_ready (s : State) (t : LTime) : (s.raiseTime t).core.ready = s.core.ready := by
  simp only [State.raiseTime, Core.raiseTo, Core.later]; split <;> rfl
@[simp] theorem State.raiseTime_curMt (s : State) (t : LTime) : (s.raiseTime t).core.curMt = s.core.curMt := by
  simp only [State.raiseTime, Core.raiseTo, Core.later]; split <;> rfl
@[simp] theorem State.raiseTime_triggered (s : State) (t : LTime) : (s.raiseTime t).core.triggered = s.core.triggered := by
  simp only [State.raiseTime, Core.raiseTo, Core.later]; split <;> rfl
@[simp] theorem State.raiseTime_ltime (s : State) (t : LTime) : (s.raiseTime t).core.ltime = raise s.core.ltime t := by
  have h (a b : BitVec 32) : a + BitVec.ofNat 32 (b - a).toNat = b := by rw [BitVec.ofNat_toNat, BitVec.setWidth_eq]; rw [BitVec.add_comm]; exact BitVec.sub_add_cancel _ _
  simp only [State.raiseTime, Core.raiseTo, Core.later]; split <;> exact h _ _
@[simp] theorem State.raiseTime_others (s : State) (t : LTime) : (s.raiseTime t).others = s.others := rfl
@[simp] theorem State.raiseTime_mem (s : State) (t : LTime) : (s.raiseTime t).mem = s.mem := rfl
@[simp] theorem State.raiseTime_host (s : State) (t : LTime) : (s.raiseTime t).host = s.host := rfl
@[simp] theorem State.raiseTime_dir (s : State) (t : LTime) : (s.raiseTime t).dir = s.dir := rfl
@[simp] theorem State.raiseTime_disp (s : State) (t : LTime) : (s.raiseTime t).disp = s.disp := rfl
@[simp] theorem State.raiseTime_sheep (s : State) (t : LTime) : (s.raiseTime t).sheep = s.sheep := rfl
@[simp] theorem State.raiseTime_base (s : State) (t : LTime) : (s.raiseTime t).base = s.base := rfl
@[simp] theorem State.raiseTime_posted (s : State) (t : LTime) : (s.raiseTime t).posted = s.posted := rfl
@[simp] theorem State.raiseTime_agent (s : State) (t : LTime) : (s.raiseTime t).agent = s.agent := rfl
@[simp] theorem State.raiseTime_stalled (s : State) (t : LTime) : (s.raiseTime t).stalled = s.stalled := rfl
@[simp] theorem State.raiseTime_stateMissed (s : State) (t : LTime) : (s.raiseTime t).missed = s.missed := rfl
@[simp] theorem State.raiseTime_asks (s : State) (t : LTime) : (s.raiseTime t).asks = s.asks := rfl
@[simp] theorem State.raiseTime_seat (s : State) (t : LTime) : (s.raiseTime t).seat = s.seat := rfl
@[simp] theorem State.raiseTime_defers (s : State) (t : LTime) : (s.raiseTime t).defers = s.defers := rfl
@[simp] theorem State.raiseTime_agenda (s : State) (t : LTime) : (s.raiseTime t).agenda = s.agenda := rfl
@[simp] theorem State.raiseTime_fresh (s : State) (t : LTime) : (s.raiseTime t).fresh = s.fresh := rfl

/-! ### Reading registers -/

/-- x0 reads 0. -/
@[simp] theorem Ct.getX_zero (c : Ct) : c.getX 0 = 0 := rfl
/-- A register after a write; a write to x0 is discarded. -/
theorem Ct.getX_setX (c : Ct) (r q : XReg) (v : Word) : (c.setX r v).getX q = if q = r ∧ r ≠ 0 then v else c.getX q := by
  by_cases hr : r = 0
  · simp [Ct.setX, hr]
  · simp only [Ct.setX, hr, if_false, Ct.getX, Store.get_set]
    by_cases hq : q = 0
    · simp only [hq, if_true]; rw [if_neg]; rintro ⟨h, -⟩; exact hr h.symm
    · have h' : ¬r = 0#5 := hr
      simp only [hq, if_false, BitVec.toNat_inj]; simp [h']
/-- The other fields of the control thread after a write of a register. -/
theorem Ct.setX_eq (c : Ct) (r : XReg) (v : Word) : { c.setX r v with x := c.x } = c := by
  unfold Ct.setX; split <;> rfl
@[simp] theorem Ct.setX_zero (c : Ct) (v : Word) : c.setX 0 v = c := by simp [Ct.setX]
@[simp] theorem Ct.setX_pc (c : Ct) (r : XReg) (v : Word) : (c.setX r v).pc = c.pc := by unfold Ct.setX; split <;> rfl
@[simp] theorem Ct.setX_user (c : Ct) (r : XReg) (v : Word) : (c.setX r v).user = c.user := by unfold Ct.setX; split <;> rfl
@[simp] theorem Ct.setX_sie (c : Ct) (r : XReg) (v : Word) : (c.setX r v).sie = c.sie := by unfold Ct.setX; split <;> rfl
@[simp] theorem Ct.setX_sip (c : Ct) (r : XReg) (v : Word) : (c.setX r v).sip = c.sip := by unfold Ct.setX; split <;> rfl
@[simp] theorem Ct.setX_stvec (c : Ct) (r : XReg) (v : Word) : (c.setX r v).stvec = c.stvec := by unfold Ct.setX; split <;> rfl
@[simp] theorem Ct.setX_sscratch (c : Ct) (r : XReg) (v : Word) : (c.setX r v).sscratch = c.sscratch := by unfold Ct.setX; split <;> rfl
@[simp] theorem Ct.setX_sepc (c : Ct) (r : XReg) (v : Word) : (c.setX r v).sepc = c.sepc := by unfold Ct.setX; split <;> rfl
@[simp] theorem Ct.setX_scause (c : Ct) (r : XReg) (v : Word) : (c.setX r v).scause = c.scause := by unfold Ct.setX; split <;> rfl
@[simp] theorem Ct.setX_stval (c : Ct) (r : XReg) (v : Word) : (c.setX r v).stval = c.stval := by unfold Ct.setX; split <;> rfl
@[simp] theorem Ct.setX_sstatus (c : Ct) (r : XReg) (v : Word) : (c.setX r v).sstatus = c.sstatus := by unfold Ct.setX; split <;> rfl
@[simp] theorem Ct.setX_satp (c : Ct) (r : XReg) (v : Word) : (c.setX r v).satp = c.satp := by unfold Ct.setX; split <;> rfl
@[simp] theorem Ct.setX_scounteren (c : Ct) (r : XReg) (v : Word) : (c.setX r v).scounteren = c.scounteren := by unfold Ct.setX; split <;> rfl
@[simp] theorem Ct.setX_senvcfg (c : Ct) (r : XReg) (v : Word) : (c.setX r v).senvcfg = c.senvcfg := by unfold Ct.setX; split <;> rfl
@[simp] theorem Ct.setX_reservation (c : Ct) (r : XReg) (v : Word) : (c.setX r v).reservation = c.reservation := by unfold Ct.setX; split <;> rfl
@[simp] theorem Ct.setX_windowReservation (c : Ct) (r : XReg) (v : Word) : (c.setX r v).windowReservation = c.windowReservation := by unfold Ct.setX; split <;> rfl
@[simp] theorem Ct.setX_early (c : Ct) (r : XReg) (v : Word) : (c.setX r v).early = c.early := by unfold Ct.setX; split <;> rfl
@[simp] theorem Ct.setX_wait (c : Ct) (r : XReg) (v : Word) : (c.setX r v).wait = c.wait := by unfold Ct.setX; split <;> rfl
@[simp] theorem Ct.setX_pendingX (c : Ct) (r : XReg) (v : Word) : (c.setX r v).pendingX = c.pendingX := by unfold Ct.setX; split <;> rfl
@[simp] theorem Ct.setX_waitaStart (c : Ct) (r : XReg) (v : Word) : (c.setX r v).waitaStart = c.waitaStart := by unfold Ct.setX; split <;> rfl

theorem State.getX_setX (s : State) (r q : XReg) (v : Word) : (s.setX r v).getX q = if q = r ∧ r ≠ 0 then v else s.getX q :=
  Ct.getX_setX _ _ _ _
@[simp] theorem State.getX_advance (s : State) (n : Nat) (q : XReg) : (s.advance n).getX q = s.getX q := rfl
theorem State.getX_result (s : State) (r q : XReg) (v : Word) : (s.result r v).getX q = if q = r ∧ r ≠ 0 then v else s.getX q :=
  Ct.getX_setX _ _ _ _
@[simp] theorem State.setX_ct (s : State) (r : XReg) (v : Word) : (s.setX r v).core.ct = s.core.ct.setX r v := rfl
theorem State.result_ct (s : State) (r : XReg) (v : Word) :
    (s.result r v).core.ct = { s.core.ct.setX r v with pc := s.core.ct.pc + 4, wait := none, waitaStart := none } := by
  simp [State.result, State.advance, State.pastInstr, State.onCt, State.setX, State.note, Core.note]
@[simp] theorem State.result_ct_pc (s : State) (r : XReg) (v : Word) : (s.result r v).core.ct.pc = s.core.ct.pc + 4 := by
  simp [State.result_ct]

/-! ### The vector array -/

theorem vlmaxOf_pos (c : BitVec 2) : 0 < vlmaxOf c := by revert c; decide
/-- Two registers of one micro-thread are kept apart. -/
theorem regSlot_inj {c : BitVec 2} {r q m : Nat} : regSlot c r m = regSlot c q m ↔ r = q := by
  have := vlmaxOf_pos c
  simp only [regSlot, Nat.add_right_cancel_iff]
  exact ⟨fun h => Nat.eq_of_mul_eq_mul_right this h, fun h => by rw [h]⟩
/-- Registers of micro-threads within VLMAX are kept apart. -/
theorem regSlot_inj' {c : BitVec 2} {r q m k : Nat} (hm : m < vlmaxOf c) (hk : k < vlmaxOf c) :
    regSlot c r m = regSlot c q k ↔ r = q ∧ m = k := by
  constructor
  · intro h
    simp only [regSlot] at h
    have h1 := congrArg (· % vlmaxOf c) h
    simp only [Nat.mul_add_mod_self_right, Nat.mod_eq_of_lt hm, Nat.mod_eq_of_lt hk] at h1
    subst h1
    exact ⟨regSlot_inj.mp h, rfl⟩
  · rintro ⟨rfl, rfl⟩; rfl
theorem State.vreg_eq (s : State) (r m : Nat) : s.vreg r m = Store.get s.core.vec.regs (regSlot s.core.csr.nregs r m) := rfl
@[simp] theorem State.vreg_setVreg_self (s : State) (r m : Nat) (v : MWord) : (s.setVreg r m v).vreg r m = v := by
  simp [State.vreg_eq]
theorem State.vreg_setVreg (s : State) (r m q k : Nat) (v : MWord) :
    (s.setVreg r m v).vreg q k = if regSlot s.core.csr.nregs q k = regSlot s.core.csr.nregs r m then v else s.vreg q k := by
  simp [State.vreg_eq, Store.get_set]
/-- A micro-thread after its own update, and every other. -/
theorem Vec.mt_setMt (v : Vec) (m k : Nat) (t : Mt) : (v.setMt m t).mt k = if k = m then t else v.mt k := Table.get_set Mt.idle v.mts m k t
theorem State.mt_onMt (s : State) (m k : Nat) (f : Mt → Mt) : (s.onMt m f).mt k = if k = m then f (s.mt m) else s.mt k := Vec.mt_setMt _ _ _ _
@[simp] theorem State.mt_onMt_self (s : State) (m : Nat) (f : Mt → Mt) : (s.onMt m f).mt m = f (s.mt m) := by simp [State.mt_onMt]
@[simp] theorem State.mt_setVreg (s : State) (r m k : Nat) (v : MWord) : (s.setVreg r m v).mt k = s.mt k := rfl
/-- A mask after a write; a write to k0 is ignored. -/
theorem Vec.maskOf_setMask (v : Vec) (k j : BitVec 4) (x : Mask) :
    (v.setMask k x).maskOf j = if j = k ∧ k ≠ 0 then x else v.maskOf j := by
  by_cases hk : k = 0
  · simp [Vec.setMask, hk]
  · simp only [Vec.setMask, hk, if_false, Vec.maskOf, Table.get_set]
    by_cases hj : j = 0
    · simp only [hj, if_true]; rw [if_neg]; rintro ⟨h, -⟩; exact hk h.symm
    · have h' : ¬k = 0#4 := hk
      simp only [hj, if_false, BitVec.toNat_inj]; simp [h']

/-! ### Cores -/

@[simp] theorem State.coreAt_self (s : State) : s.coreAt s.core.no = s.core := by simp [State.coreAt]
/-- A core after a core is replaced: the replaced one, every other as before. -/
theorem State.coreAt_setCoreAt (s : State) (n m : Nat) (c : Core) (h : c.no = n) :
    (s.setCoreAt n c).coreAt m = if m = n then c else s.coreAt m := by
  unfold State.setCoreAt State.coreAt
  by_cases hn : n = s.core.no
  · subst hn; simp only [if_true, h]
    by_cases hm : m = s.core.no <;> simp [hm]
  · simp only [hn, if_false]
    by_cases hm : m = s.core.no
    · rw [if_pos hm, if_pos hm, if_neg (by rintro rfl; exact hn hm)]
    · rw [if_neg hm, if_neg hm]
      by_cases h2 : m = n
      · subst h2; simp
      · rw [if_neg h2, Table.get_set_other _ _ _ _ h2]

end Sys2Proof.Machine
end

