-- ==== Sys2Proof/Laws/Memory.lean ====
section
/-! SUPPORT. What the shared memory operations leave aside. A coherent access changes memory, tenures, copies, leases,
the TLB, logical time, lost granules that it repairs, and whether a sleeping WAITA is woken: nothing else. -/

namespace Sys2Proof.Machine

/-- What a read leaves aside, of the module, of each of its cores and of each die. -/
def State.readKey (s : State) : State × (Nat → Core) × (Nat → Die) :=
  (s.besideRead, fun n => (s.coreAt n).besideRead, fun d => (Table.get Die.zero s.base.dies d).besideCache)
/-- What a write leaves aside. -/
def State.writeKey (s : State) : State × (Nat → Core) × (Nat → Die) :=
  (s.besideWrite, fun n => (s.coreAt n).besideWrite, fun d => (Table.get Die.zero s.base.dies d).besideGate)

theorem readBy_iff {s t : State} : ReadBy s t ↔ t.readKey = s.readKey :=
  ⟨fun h => Prod.ext h.here (Prod.ext (funext h.cores) (funext h.dies)), fun h =>
    ⟨congrArg Prod.fst h, fun n => congrFun (congrArg (fun x => x.2.1) h) n, fun d => congrFun (congrArg (fun x => x.2.2) h) d⟩⟩
theorem writeBy_iff {s t : State} : WriteBy s t ↔ t.writeKey = s.writeKey :=
  ⟨fun h => Prod.ext h.here (Prod.ext (funext h.cores) (funext h.dies)), fun h =>
    ⟨congrArg Prod.fst h, fun n => congrFun (congrArg (fun x => x.2.1) h) n, fun d => congrFun (congrArg (fun x => x.2.2) h) d⟩⟩
theorem ReadBy.refl (s : State) : ReadBy s s := readBy_iff.2 rfl
theorem ReadBy.trans {s t u : State} (h : ReadBy s t) (k : ReadBy t u) : ReadBy s u :=
  readBy_iff.2 ((readBy_iff.1 k).trans (readBy_iff.1 h))
theorem WriteBy.refl (s : State) : WriteBy s s := writeBy_iff.2 rfl
theorem WriteBy.trans {s t u : State} (h : WriteBy s t) (k : WriteBy t u) : WriteBy s u :=
  writeBy_iff.2 ((writeBy_iff.1 k).trans (writeBy_iff.1 h))
/-- What a write leaves aside is part of what a read leaves aside. -/
theorem State.writeKey_of_readKey {s t : State} (h : t.readKey = s.readKey) : t.writeKey = s.writeKey :=
  congrArg (fun x : State × (Nat → Core) × (Nat → Die) => (x.1.besideWrite, fun n => (x.2.1 n).besideWrite, fun d => (x.2.2 d).besideGate)) h
theorem ReadBy.writeBy {s t : State} (h : ReadBy s t) : WriteBy s t := writeBy_iff.2 (State.writeKey_of_readKey (readBy_iff.1 h))

/-! ### What they leave of the core in focus -/

theorem ReadBy.getX {s t : State} (h : ReadBy s t) (r : XReg) : t.getX r = s.getX r := congrArg (fun s => s.getX r) h.here
theorem ReadBy.pc {s t : State} (h : ReadBy s t) : t.core.ct.pc = s.core.ct.pc := congrArg (fun s => s.core.ct.pc) h.here
theorem ReadBy.csr {s t : State} (h : ReadBy s t) : t.core.csr = s.core.csr := congrArg (fun s => s.core.csr) h.here
theorem ReadBy.vec {s t : State} (h : ReadBy s t) : { t.core.vec with early := [], late := [] } = { s.core.vec with early := [], late := [] } :=
  congrArg (fun s => s.core.vec) h.here
theorem ReadBy.regs {s t : State} (h : ReadBy s t) : t.core.vec.regs = s.core.vec.regs := congrArg (fun s => s.core.vec.regs) h.here
theorem ReadBy.mts {s t : State} (h : ReadBy s t) : t.core.vec.mts = s.core.vec.mts := congrArg (fun s => s.core.vec.mts) h.here
theorem ReadBy.masks {s t : State} (h : ReadBy s t) : t.core.vec.masks = s.core.vec.masks := congrArg (fun s => s.core.vec.masks) h.here
theorem ReadBy.queue {s t : State} (h : ReadBy s t) : t.core.vec.queue = s.core.vec.queue := congrArg (fun s => s.core.vec.queue) h.here
theorem ReadBy.posted {s t : State} (h : ReadBy s t) : t.posted = s.posted := congrArg (fun s => s.posted) h.here
theorem ReadBy.no {s t : State} (h : ReadBy s t) : t.core.no = s.core.no := congrArg (fun s => s.core.no) h.here
theorem ReadBy.curMt {s t : State} (h : ReadBy s t) : t.core.curMt = s.core.curMt := congrArg (fun s => s.core.curMt) h.here
theorem ReadBy.ctMode {s t : State} (h : ReadBy s t) : t.ctMode = s.ctMode := congrArg (fun s => s.ctMode) h.here
theorem ReadBy.host {s t : State} (h : ReadBy s t) : t.host = s.host := congrArg (fun s => s.host) h.here
theorem ReadBy.disp {s t : State} (h : ReadBy s t) : t.disp = s.disp := congrArg (fun s => s.disp) h.here
theorem ReadBy.sheep {s t : State} (h : ReadBy s t) : t.sheep = s.sheep := congrArg (fun s => s.sheep) h.here
theorem ReadBy.agenda {s t : State} (h : ReadBy s t) : t.agenda = s.agenda := congrArg (fun s => s.agenda) h.here
theorem ReadBy.fresh {s t : State} (h : ReadBy s t) : t.fresh = s.fresh := congrArg (fun s => s.fresh) h.here
theorem ReadBy.entries {s t : State} (h : ReadBy s t) : t.dir.entries = s.dir.entries := congrArg (fun s => s.dir.entries) h.here
theorem WriteBy.getX {s t : State} (h : WriteBy s t) (r : XReg) : t.getX r = s.getX r := congrArg (fun s => s.getX r) h.here
theorem WriteBy.pc {s t : State} (h : WriteBy s t) : t.core.ct.pc = s.core.ct.pc := congrArg (fun s => s.core.ct.pc) h.here
theorem WriteBy.csr {s t : State} (h : WriteBy s t) : t.core.csr = s.core.csr := congrArg (fun s => s.core.csr) h.here
theorem WriteBy.mts {s t : State} (h : WriteBy s t) : t.core.vec.mts = s.core.vec.mts := congrArg (fun s => s.core.vec.mts) h.here
theorem WriteBy.no {s t : State} (h : WriteBy s t) : t.core.no = s.core.no := congrArg (fun s => s.core.no) h.here
theorem WriteBy.curMt {s t : State} (h : WriteBy s t) : t.core.curMt = s.core.curMt := congrArg (fun s => s.core.curMt) h.here
theorem WriteBy.fresh {s t : State} (h : WriteBy s t) : t.fresh = s.fresh := congrArg (fun s => s.fresh) h.here

/-! ### Cores -/

@[simp] theorem Core.besideRead_setCopy (c : Core) (b : Nat) (x : Option Copy) : (c.setCopy b x).besideRead = c.besideRead := rfl
@[simp] theorem Core.besideRead_mapCopies (c : Core) (k : TKey) (b : Nat) (f : Copy → Option Copy) : (c.mapCopies k b f).besideRead = c.besideRead := rfl
@[simp] theorem Core.besideRead_setLease (c : Core) (k : TKey) (w : Nat) (r : LTime) : (c.setLease k w r).besideRead = c.besideRead := by cases k <;> rfl
@[simp] theorem Core.besideRead_wakeOn (c : Core) (b : Nat) : (c.wakeOn b).besideRead = c.besideRead := by
  unfold Core.wakeOn; split
  · split <;> rfl
  · rfl
@[simp] theorem Core.besideRead_later (c : Core) (n : Nat) : (c.later n).besideRead = c.besideRead := by
  simp only [Core.later]; split <;> rfl
@[simp] theorem Core.besideRead_raiseTo (c : Core) (t : LTime) : (c.raiseTo t).besideRead = c.besideRead := c.besideRead_later _
@[simp] theorem Core.besideRead_dropChain (c : Core) (b : Nat) : (c.dropChain b).besideRead = c.besideRead := rfl
/-- What each step of a fold keeps, the fold keeps. -/
theorem foldl_keeps {σ α β : Type} (p : σ → β) (f : σ → α → σ) (h : ∀ s x, p (f s x) = p s) (l : List α) (s : σ) :
    p (l.foldl f s) = p s := by
  induction l generalizing s with
  | nil => rfl
  | cons x l ih => exact (ih _).trans (h s x)

/-! ### The state -/

/-- A core replaced by one that differs only in what a read may change. -/
theorem State.readKey_setCoreAt (s : State) (n : Nat) (c : Core) (h : c.besideRead = (s.coreAt n).besideRead) :
    (s.setCoreAt n c).readKey = s.readKey := by
  have hno : c.no = (s.coreAt n).no := congrArg (fun c => c.no) h
  unfold State.setCoreAt
  split
  · rename_i e
    have hc : s.coreAt n = s.core := by rw [State.coreAt, if_pos e]
    rw [hc] at h hno
    refine Prod.ext (by simp only [State.readKey, State.besideRead, h]) (Prod.ext (funext fun m => ?_) rfl)
    simp only [State.readKey, State.coreAt, hno]
    split
    · exact h
    · rfl
  · rename_i e
    refine Prod.ext rfl (Prod.ext (funext fun m => ?_) rfl)
    simp only [State.readKey, State.coreAt]
    split
    · rfl
    · by_cases hm : m = n
      · subst hm; rw [Table.get_set_self, h, State.coreAt, if_neg e]
      · rw [Table.get_set_other _ _ _ _ hm]
theorem State.readKey_onCore (s : State) (n : Nat) (f : Core → Core) (h : ∀ c, (f c).besideRead = c.besideRead) :
    (s.onCore n f).readKey = s.readKey := s.readKey_setCoreAt n _ (h _)
theorem State.readKey_core (s : State) (c : Core) (h : c.besideRead = s.core.besideRead) :
    State.readKey { s with core := c } = s.readKey := by
  have := s.readKey_setCoreAt s.core.no c (by rw [State.coreAt_self]; exact h)
  rwa [State.setCoreAt, if_pos rfl] at this
/-- A state with the same cores, and the same in what a read leaves aside. -/
theorem State.readKey_same {s t : State} (hc : t.core = s.core) (ho : t.others = s.others) (hd : t.base.dies = s.base.dies)
    (h : t.besideRead = s.besideRead) : t.readKey = s.readKey := by
  refine Prod.ext h (Prod.ext (funext fun n => ?_) ?_)
  · simp only [State.readKey, State.coreAt, hc, ho]
  · simp only [State.readKey, hd]
/-- The miss queue and the place at a home: at most an access that stalls. -/
@[simp] theorem State.readKey_missQueue (s : State) (va : Nat) : (s.missQueue va).readKey = s.readKey := by
  unfold State.missQueue; split <;> rfl
@[simp] theorem State.readKey_queueUp (s : State) (k : TKey) (pa agent : Nat) (age : BitVec 32) : (s.queueUp k pa agent age).readKey = s.readKey := by
  simp only [State.queueUp]; repeat' split
  all_goals rfl
@[simp] theorem State.readKey_takePlace (s : State) (k : TKey) (pa : Nat) : (s.takePlace k pa).readKey = s.readKey := s.readKey_queueUp _ _ _ _
@[simp] theorem State.readKey_behindLantern (s : State) : s.behindLantern.readKey = s.readKey := by
  unfold State.behindLantern; split <;> rfl
@[simp] theorem State.readKey_note (s : State) (e : Nat) : (s.note e).readKey = s.readKey := s.readKey_core _ rfl
/-- A die's translation cache filled. -/
@[simp] theorem State.readKey_diePut (s : State) (e : TlbEntry) : (s.diePut e).readKey = s.readKey := by
  refine Prod.ext rfl (Prod.ext rfl (funext fun d => ?_))
  simp only [State.readKey, State.diePut]
  by_cases h : d = dieOf s.core.no
  · subst h; rw [Table.get_set_self]; rfl
  · rw [Table.get_set_other _ _ _ _ h]
@[simp] theorem State.readKey_setTenure (s : State) (k : TKey) (pa : Nat) (t : Tenure) : (s.setTenure k pa t).readKey = s.readKey := by
  cases k <;> rfl
@[simp] theorem State.readKey_writeBlock (s : State) (b : Nat) (d : BitVec 512) : (s.writeBlock b d).readKey = s.readKey := by
  refine State.readKey_same ?_ ?_ ?_ ?_ <;> simp only [State.writeBlock, State.besideRead]
@[simp] theorem State.coreAt_writeBlock (s : State) (b n : Nat) (d : BitVec 512) : (s.writeBlock b d).coreAt n = s.coreAt n := by
  have hc : (s.writeBlock b d).core = s.core := by simp only [State.writeBlock]
  have ho : (s.writeBlock b d).others = s.others := by simp only [State.writeBlock]
  simp only [State.coreAt, hc, ho]
@[simp] theorem State.readKey_repair (s : State) (pa n : Nat) : (s.repair pa n).readKey = s.readKey := rfl
@[simp] theorem State.readKey_meet (s : State) (pa n : Nat) : (s.meet pa n).readKey = s.readKey := by
  unfold State.meet; split <;> rfl
@[simp] theorem State.readKey_raiseTime (s : State) (t : LTime) : (s.raiseTime t).readKey = s.readKey := s.readKey_core _ (by simp)
@[simp] theorem State.readKey_tlbPut (s : State) (e : TlbEntry) : (s.tlbPut e).readKey = s.readKey := s.readKey_core _ rfl

/-! ### Coherence (15 R309 to R311) -/

@[simp] theorem State.readKey_clampEntry (s : State) (k : TKey) (pa : Nat) : (s.clampEntry k pa).readKey = s.readKey := s.readKey_setTenure k pa _
/-- A write-back. -/
@[simp] theorem State.readKey_writeBackEntry (s : State) (h : Nat) (k : TKey) (pa : Nat) : (s.writeBackEntry h k pa).readKey = s.readKey := by
  unfold State.writeBackEntry
  dsimp only
  rw [State.readKey_setTenure, State.readKey_setCoreAt]
  · exact foldl_keeps State.readKey _ (fun s x => s.readKey_writeBlock _ _) _ _
  · rw [foldl_keeps Core.besideRead _ (fun c x => c.besideRead_setCopy _ _), foldl_keeps (fun s : State => s.coreAt h) _ (fun s x => s.coreAt_writeBlock _ _ _)]
/-- A tenure that ends. -/
@[simp] theorem State.readKey_giveBack (s : State) (k : TKey) (pa : Nat) : (s.giveBack k pa).readKey = s.readKey := by
  unfold State.giveBack
  split
  · rfl
  · dsimp only
    rw [State.readKey_onCore _ _ _ (fun c => by simp), State.readKey_setTenure]
    simp
/-- A recall. -/
@[simp] theorem State.readKey_recallEntry (s : State) (k : TKey) (pa : Nat) : (s.recallEntry k pa).readKey = s.readKey := by
  unfold State.recallEntry
  split
  · rfl
  · rw [State.readKey_onCore _ _ (fun c => c.note 14 1) (fun c => rfl)]
    simp
@[simp] theorem State.readKey_recallFrom (s : State) (c : Nat) (k : TKey) (pa : Nat) : (s.recallFrom c k pa).readKey = s.readKey := by
  unfold State.recallFrom; split
  · rfl
  · exact s.readKey_recallEntry k pa
@[simp] theorem State.readKey_settle (s : State) (k : TKey) (pa : Nat) : (s.settle k pa).readKey = s.readKey := by
  unfold State.settle
  split
  · split
    · exact s.readKey_writeBackEntry _ _ _
    · rfl
  · rfl
/-- A lease taken. -/
@[simp] theorem State.readKey_takeLease (s : State) (k : TKey) (pa : Nat) : (s.takeLease k pa).2.readKey = s.readKey := by
  unfold State.takeLease
  dsimp only
  rw [State.readKey_raiseTime, State.readKey_core _ _ (Core.besideRead_setLease _ _ _ _)]
  simp
/-- A coherent read. -/
@[simp] theorem State.readKey_cohRead (s : State) (k : TKey) (pa n : Nat) : (s.cohRead k pa n).2.readKey = s.readKey := by
  unfold State.cohRead
  dsimp only
  split
  · exact s.readKey_settle k pa
  · rw [State.readKey_core _ _ (Core.besideRead_setCopy _ _ _)]
    split <;> simp
/-- A write taken at the home. -/
@[simp] theorem State.readKey_takeWrite (s : State) (k : TKey) (pa : Nat) (keep : Bool) : (s.takeWrite k pa keep).readKey = s.readKey := by
  unfold State.takeWrite
  dsimp only
  rw [State.readKey_raiseTime, State.readKey_setTenure]
  have h : (if ((s.settle k pa).tenure k pa).holder = some s.core.no then s.settle k pa else (s.settle k pa).takePlace k pa).readKey = s.readKey := by
    split <;> simp
  generalize (if ((s.settle k pa).tenure k pa).holder = some s.core.no then s.settle k pa else (s.settle k pa).takePlace k pa) = u at h ⊢
  rw [← h]
  split
  · simp
  · rw [State.readKey_core _ _ (Core.besideRead_mapCopies _ _ _ _)]; simp
/-- A block put. -/
@[simp] theorem State.readKey_putBlock (s : State) (k : TKey) (pa : Nat) (d : BitVec 512) : (s.putBlock k pa d).readKey = s.readKey := by
  unfold State.putBlock
  dsimp only
  rw [State.readKey_core _ _ (by simp)]
  split
  · rfl
  · exact s.readKey_writeBlock _ _
/-- A coherent write. -/
@[simp] theorem State.readKey_cohWrite (s : State) (k : TKey) (pa n v : Nat) (keep : Bool) : (s.cohWrite k pa n v keep).readKey = s.readKey := by
  simp [State.cohWrite]
@[simp] theorem State.readKey_writeHome (s : State) (k : TKey) (pa n v : Nat) : (s.writeHome k pa n v).readKey = s.readKey := by
  simp [State.writeHome]
@[simp] theorem State.readKey_homeReadBy (s : State) (k : TKey) (pa n : Nat) : (s.homeReadBy k pa n).2.readKey = s.readKey := by
  unfold State.homeReadBy
  dsimp only
  split
  · split <;> simp
  · simp
@[simp] theorem State.readKey_homeRead (s : State) (pa n : Nat) : (s.homeRead pa n).2.readKey = s.readKey := by
  unfold State.homeRead; split <;> simp
/-- A release. -/
@[simp] theorem State.readKey_writeBackAll (s : State) : s.writeBackAll.readKey = s.readKey :=
  foldl_keeps State.readKey _ (fun s x => s.readKey_writeBackEntry _ _ _) _ _

/-! ### Translation (22 R352, R353) -/

@[simp] theorem State.readKey_walkFrom (s : State) (va : Word) (l base : Nat) : (s.walkFrom va l base).2.readKey = s.readKey := by
  induction l generalizing s base with
  | zero => rfl
  | succ l ih =>
    unfold State.walkFrom
    dsimp only
    split
    · rfl
    · split
      · rfl
      · repeat' split
        all_goals simp [ih]
@[simp] theorem State.readKey_markLeaf (s : State) (pa pte : Nat) (w : Bool) : (s.markLeaf pa pte w).readKey = s.readKey := by
  unfold State.markLeaf; dsimp only; split <;> simp
@[simp] theorem State.readKey_leafOf (s : State) (va : Word) (kind : Access) (md : AccMode) : (s.leafOf va kind md).2.readKey = s.readKey := by
  have h := s.readKey_walkFrom va 5 ((s.core.ct.satp.extractLsb' 0 44).toNat * 4096)
  unfold State.leafOf State.walk
  split
  · rfl
  · split
    · rename_i e; rw [e] at h; exact h
    · rename_i e; rw [e] at h; split <;> exact h
/-- A translation. -/
@[simp] theorem State.readKey_translate (s : State) (va : Word) (kind : Access) (md : AccMode) : (s.translate va kind md).2.readKey = s.readKey := by
  have h := ((s.missQueue va.toNat).note 9).readKey_leafOf va kind md
  unfold State.translate
  dsimp only
  split
  · exact s.readKey_tlbPut _
  · split
    · simp
    · split
      · rename_i e; rw [e] at h; simpa using h
      · rename_i e; rw [e] at h; simpa using h
/-- A check of an access by virtual address. -/
@[simp] theorem State.readKey_checkVirt (s : State) (va : Word) (n : Nat) (kind : Access) (md : AccMode) :
    (s.checkVirt va n kind md).2.readKey = s.readKey := by
  have h := s.readKey_translate va kind md
  unfold State.checkVirt
  split
  · rename_i e; rw [e] at h; exact h
  · rename_i e; rw [e] at h
    split
    · exact h
    · split <;> exact h

/-! ### Reads and writes by the core in focus -/

/-- A read at a physical address. -/
@[simp] theorem State.readKey_physRead (s : State) (k : TKey) (pa n : Nat) : (s.physRead k pa n).2.readKey = s.readKey := by
  unfold State.physRead
  dsimp only
  split <;> simp
/-- A load by virtual address. -/
@[simp] theorem State.readKey_loadVirt (s : State) (va : Word) (n : Nat) (md : AccMode) : (s.loadVirt va n md).2.readKey = s.readKey := by
  have h := s.readKey_checkVirt va n .load md
  unfold State.loadVirt
  split
  · rename_i e; rw [e] at h; exact h
  · rename_i e; rw [e] at h; simpa using h
/-! ### Writes into windows and elsewhere (13 R279, 15 R324) -/

@[simp] theorem Core.besideWrite_setPartByte (c : Core) (p : Part) (w : Nat) (v : Byte) : (c.setPartByte p w v).besideWrite = c.besideWrite := by
  cases p <;> rfl
@[simp] theorem Core.besideWrite_partWrite (c : Core) (p : Part) (w n v : Nat) : (c.partWrite p w n v).besideWrite = c.besideWrite := by
  induction n generalizing c w v with
  | zero => rfl
  | succ n ih => exact (ih _ _ _).trans (c.besideWrite_setPartByte _ _ _)
@[simp] theorem Core.besideWrite_landWrite (c : Core) (p : Part) (off n v : Nat) (t : BitVec 32) : (c.landWrite p off n v t).besideWrite = c.besideWrite := by
  have h : ∀ c : Core, (c.stampWrite p off n t).besideWrite = c.besideWrite := fun _ => rfl
  exact (h _).trans (c.besideWrite_partWrite _ _ _ _)
theorem Core.besideWrite_of_read {c d : Core} (h : c.besideRead = d.besideRead) : c.besideWrite = d.besideWrite :=
  congrArg (fun c => c.besideWrite) h
@[simp] theorem Core.besideWrite_wakeOn (c : Core) (b : Nat) : (c.wakeOn b).besideWrite = c.besideWrite :=
  Core.besideWrite_of_read (c.besideRead_wakeOn b)
@[simp] theorem Core.besideWrite_loseReservation (c : Core) (b : Nat) : (c.loseReservation b).besideWrite = c.besideWrite := by
  unfold Core.loseReservation; split <;> rfl

/-- A core replaced by one that differs only in what a write may change. -/
theorem State.writeKey_setCoreAt (s : State) (n : Nat) (c : Core) (h : c.besideWrite = (s.coreAt n).besideWrite) :
    (s.setCoreAt n c).writeKey = s.writeKey := by
  have hno : c.no = (s.coreAt n).no := congrArg (fun c => c.no) h
  unfold State.setCoreAt
  split
  · rename_i e
    have hc : s.coreAt n = s.core := by rw [State.coreAt, if_pos e]
    rw [hc] at h hno
    refine Prod.ext (by simp only [State.writeKey, State.besideWrite, State.besideRead, h]) (Prod.ext (funext fun m => ?_) rfl)
    simp only [State.writeKey, State.coreAt, hno]
    split
    · exact h
    · rfl
  · rename_i e
    refine Prod.ext rfl (Prod.ext (funext fun m => ?_) rfl)
    simp only [State.writeKey, State.coreAt]
    split
    · rfl
    · by_cases hm : m = n
      · subst hm; rw [Table.get_set_self, h, State.coreAt, if_neg e]
      · rw [Table.get_set_other _ _ _ _ hm]
theorem State.writeKey_onCore (s : State) (n : Nat) (f : Core → Core) (h : ∀ c, (f c).besideWrite = c.besideWrite) :
    (s.onCore n f).writeKey = s.writeKey := s.writeKey_setCoreAt n _ (h _)
theorem State.writeKey_core (s : State) (c : Core) (h : c.besideWrite = s.core.besideWrite) :
    State.writeKey { s with core := c } = s.writeKey := by
  have := s.writeKey_setCoreAt s.core.no c (by rw [State.coreAt_self]; exact h)
  rwa [State.setCoreAt, if_pos rfl] at this
/-- A state with the same cores, and the same in what a write leaves aside. -/
theorem State.writeKey_same {s t : State} (hc : t.core = s.core) (ho : t.others = s.others) (hd : t.base.dies = s.base.dies)
    (h : t.besideWrite = s.besideWrite) : t.writeKey = s.writeKey := by
  refine Prod.ext h (Prod.ext (funext fun n => ?_) ?_)
  · simp only [State.writeKey, State.coreAt, hc, ho]
  · simp only [State.writeKey, hd]
@[simp] theorem State.writeKey_behindLantern (s : State) : s.behindLantern.writeKey = s.writeKey :=
  State.writeKey_of_readKey s.readKey_behindLantern
/-- A die ungated. -/
@[simp] theorem State.writeKey_ungateFor (s : State) (pa : Nat) : (s.ungateFor pa).writeKey = s.writeKey := by
  unfold State.ungateFor
  split
  · rename_i d _
    dsimp only
    split
    · refine Prod.ext rfl (Prod.ext rfl (funext fun e => ?_))
      simp only [State.writeKey]
      by_cases h : e = d
      · subst h; rw [Table.get_set_self]; rfl
      · rw [Table.get_set_other _ _ _ _ h]
    · rfl
  · rfl
@[simp] theorem State.writeKey_postWrite (s : State) (source : LanternSource) (pa n v : Nat) : (s.postWrite source pa n v).writeKey = s.writeKey := rfl
/-- The same change of every core. -/
theorem State.writeKey_map (s : State) (f : Core → Core) (h : ∀ c, (f c).besideWrite = c.besideWrite) (hr : ∀ n, f (Core.reset n) = Core.reset n) :
    State.writeKey { s with core := f s.core, others := s.others.map fun x => (x.1, f x.2) } = s.writeKey := by
  have hno : (f s.core).no = s.core.no := congrArg (fun c => c.no) (h s.core)
  have hg : ∀ (l : Table Core) n, Table.get (Core.reset n) (l.map fun x => (x.1, f x.2)) n = f (Table.get (Core.reset n) l n) := by
    intro l n
    induction l with
    | nil => exact (hr n).symm
    | cons x l ih =>
      simp only [List.map_cons, Table.get]
      split
      · rfl
      · exact ih
  refine Prod.ext (by simp only [State.writeKey, State.besideWrite, State.besideRead, h]) (Prod.ext (funext fun m => ?_) rfl)
  simp only [State.writeKey, State.coreAt, hno, hg]
  split <;> exact h _
@[simp] theorem State.writeKey_loseReservations (s : State) (b : Nat) : (s.loseReservations b).writeKey = s.writeKey :=
  s.writeKey_map (fun c => c.loseReservation b) (fun c => c.besideWrite_loseReservation b) (fun _ => rfl)
@[simp] theorem State.writeKey_repair (s : State) (pa n : Nat) : (s.repair pa n).writeKey = s.writeKey := rfl
@[simp] theorem State.writeKey_cohWrite (s : State) (k : TKey) (pa n v : Nat) (keep : Bool) : (s.cohWrite k pa n v keep).writeKey = s.writeKey :=
  State.writeKey_of_readKey (s.readKey_cohWrite k pa n v keep)
/-- A write that lands in a window part. -/
@[simp] theorem State.writeKey_landPart (s : State) (c : Nat) (p : Part) (off n v : Nat) (t : BitVec 32) (other : Bool) :
    (s.landPart c p off n v t other).writeKey = s.writeKey := by
  unfold State.landPart
  dsimp only
  rw [State.writeKey_onCore _ _ _ (fun c => ?_)]
  · split
    · rw [State.writeKey_loseReservations, State.writeKey_onCore _ _ _ (fun c => c.besideWrite_wakeOn _)]
    · rfl
  · split
    · rfl
    · simp
/-- A write into a window part. -/
@[simp] theorem State.writeKey_windowWrite (s : State) (c : Nat) (p : Part) (off n v : Nat) : (s.windowWrite c p off n v).writeKey = s.writeKey := by
  unfold State.windowWrite
  dsimp only
  rw [State.writeKey_landPart, State.writeKey_core _ _ (by simp)]
/-- A write at a physical address. -/
@[simp] theorem State.writeKey_physWrite (s : State) (k : TKey) (pa n v : Nat) (keep : Bool) : (s.physWrite k pa n v keep).writeKey = s.writeKey := by
  have h : (s.behindLantern.ungateFor pa).writeKey = s.writeKey := by simp
  unfold State.physWrite
  dsimp only
  generalize s.behindLantern.ungateFor pa = u at h ⊢
  have hw : State.writeKey { u with core := u.core.wakeOn (pa / 64) } = u.writeKey := u.writeKey_core _ (by simp)
  rw [← h]
  split
  · simp
  · rfl
  · simp
  · exact (State.writeKey_postWrite _ _ _ _ _).trans hw
  · exact (State.writeKey_same rfl rfl rfl (by simp only [State.besideWrite, State.besideRead])).trans hw
  · rfl
/-- A store that was left is performed. -/
@[simp] theorem State.writeKey_performStore (s : State) (l : Late) : (s.performStore l).writeKey = s.writeKey := by
  unfold State.performStore; split <;> simp
/-- Stores that were left are performed. -/
@[simp] theorem State.writeKey_drainBy (s : State) (p : Late → Bool) : (s.drainBy p).writeKey = s.writeKey := by
  unfold State.drainBy
  split
  · rfl
  · have h := (foldl_keeps State.writeKey _ State.writeKey_performStore (s.core.vec.late.filter fun l => p l && l.op.isStore)
      { s with core := { s.core with vec := { s.core.vec with late := s.core.vec.late.filter fun l => !(p l && l.op.isStore) } } }).trans
      (s.writeKey_core _ rfl)
    dsimp only
    split
    · exact (State.writeKey_same rfl rfl rfl rfl).trans h
    · exact h
@[simp] theorem State.writeKey_drain (s : State) : s.drain.writeKey = s.writeKey := s.writeKey_drainBy _
@[simp] theorem State.writeKey_drainFor (s : State) (who : Reader) (x : Spot) : (s.drainFor who x).writeKey = s.writeKey := s.writeKey_drainBy _
@[simp] theorem State.writeKey_forgetEarly (s : State) (who : Reader) (x : Spot) : (s.forgetEarly who x).writeKey = s.writeKey :=
  s.writeKey_core _ rfl
@[simp] theorem State.writeKey_onEarlies (s : State) (who : Reader) (f : List Early → List Early) : (s.onEarlies who f).writeKey = s.writeKey := by
  unfold State.onEarlies; split <;> exact s.writeKey_core _ rfl
@[simp] theorem State.writeKey_leave (s : State) (who : Reader) (x : Spot) (o : LateOp) : (s.leave who x o).writeKey = s.writeKey :=
  s.writeKey_core _ rfl
@[simp] theorem State.writeKey_inTurn (s : State) (who : Reader) (x : Spot) : (s.inTurn who x).writeKey = s.writeKey := by simp [State.inTurn]
/-- A release. -/
@[simp] theorem State.writeKey_releaseBy (s : State) (p : Late → Bool) (scope : Nat) : (s.releaseBy p scope).writeKey = s.writeKey := by
  unfold State.releaseBy
  repeat' split
  · rw [State.writeKey_of_readKey (s.drainBy p).readKey_writeBackAll, State.writeKey_drainBy]
  · simp
  · rfl
@[simp] theorem State.writeKey_release (s : State) (scope : Nat) : (s.release scope).writeKey = s.writeKey := s.writeKey_releaseBy _ _
/-- A plain load and a plain store. -/
@[simp] theorem State.writeKey_plainRead (s : State) (who : Reader) (base : Option (List Holder)) (k : TKey) (x : Spot) (dst : List Holder) :
    (s.plainRead who base k x dst).2.writeKey = s.writeKey := by
  unfold State.plainRead
  dsimp only
  split
  · simp
  · simp [State.writeKey_of_readKey (State.readKey_physRead _ k x.pa x.n)]
@[simp] theorem State.writeKey_plainWrite (s : State) (who : Reader) (k : TKey) (x : Spot) (v : Nat) (keep : Bool) :
    (s.plainWrite who k x v keep).writeKey = s.writeKey := by
  unfold State.plainWrite
  dsimp only
  split <;> simp
theorem State.writeKey_checkOwn (s : State) (who : Reader) (va : Word) (n : Nat) (md : AccMode) :
    (s.checkOwn who va n md).2.writeKey = s.writeKey := by
  have h := State.writeKey_of_readKey (s.readKey_translate va .load md)
  unfold State.checkOwn
  split
  · rename_i e; rw [e] at h; exact h
  · rename_i e; rw [e] at h
    split
    · exact h
    · dsimp only; split <;> simpa using h
theorem State.writeKey_loadPlain (s : State) (who : Reader) (base : Option (List Holder)) (va : Word) (n : Nat) (md : AccMode) (dst : List Holder) :
    (s.loadPlain who base va n md dst).2.writeKey = s.writeKey := by
  have h := s.writeKey_checkOwn who va n md
  unfold State.loadPlain
  split
  · rename_i e; rw [e] at h; exact h
  · rename_i e; rw [e] at h; simpa using h
theorem State.writeKey_storePlain (s : State) (who : Reader) (va : Word) (n v : Nat) (md : AccMode) :
    (s.storePlain who va n v md).2.writeKey = s.writeKey := by
  have h := State.writeKey_of_readKey (s.readKey_checkVirt va n .store md)
  unfold State.storePlain
  split
  · rename_i e; rw [e] at h; exact h
  · rename_i e; rw [e] at h; simpa using h
/-- A store by virtual address. -/
theorem State.writeKey_storeVirt (s : State) (va : Word) (n v : Nat) (md : AccMode) : (s.storeVirt va n v md).2.writeKey = s.writeKey := by
  have h := State.writeKey_of_readKey (s.readKey_checkVirt va n .store md)
  unfold State.storeVirt
  split
  · rename_i e; rw [e] at h; exact h
  · rename_i e; rw [e] at h; simpa using h
/-- A read and replacement of bytes. -/
@[simp] theorem State.writeKey_rmwAt (s : State) (k : TKey) (pa n : Nat) (f : Nat → Option Nat) : (s.rmwAt k pa n f).2.writeKey = s.writeKey := by
  have h : ((s.behindLantern.ungateFor pa).meet pa n).writeKey = s.writeKey := by
    rw [State.writeKey_of_readKey (State.readKey_meet _ pa n)]; simp
  unfold State.rmwAt
  dsimp only
  generalize (s.behindLantern.ungateFor pa).meet pa n = u at h ⊢
  have hw : State.writeKey { u with core := u.core.wakeOn (pa / 64) } = u.writeKey := u.writeKey_core _ (by simp)
  rw [← h]
  split
  · exact State.writeKey_of_readKey (by simp)
  · dsimp only; split
    · simp
    · rfl
  · exact (State.writeKey_same rfl rfl rfl (by simp only [State.besideWrite, State.besideRead])).trans hw
  · rfl

/-! ### Said once -/

theorem State.release_writeBy (s : State) (scope : Nat) : WriteBy s (s.release scope) := writeBy_iff.2 (s.writeKey_release scope)
theorem State.loadPlain_writeBy (s : State) (who : Reader) (base : Option (List Holder)) (va : Word) (n : Nat) (md : AccMode) (dst : List Holder) :
    WriteBy s (s.loadPlain who base va n md dst).2 := writeBy_iff.2 (s.writeKey_loadPlain who base va n md dst)
theorem State.storePlain_writeBy (s : State) (who : Reader) (va : Word) (n v : Nat) (md : AccMode) :
    WriteBy s (s.storePlain who va n v md).2 := writeBy_iff.2 (s.writeKey_storePlain who va n v md)
theorem State.translate_readBy (s : State) (va : Word) (kind : Access) (md : AccMode) : ReadBy s (s.translate va kind md).2 :=
  readBy_iff.2 (s.readKey_translate va kind md)
theorem State.checkVirt_readBy (s : State) (va : Word) (n : Nat) (kind : Access) (md : AccMode) : ReadBy s (s.checkVirt va n kind md).2 :=
  readBy_iff.2 (s.readKey_checkVirt va n kind md)
theorem State.cohRead_readBy (s : State) (k : TKey) (pa n : Nat) : ReadBy s (s.cohRead k pa n).2 := readBy_iff.2 (s.readKey_cohRead k pa n)
theorem State.physRead_readBy (s : State) (k : TKey) (pa n : Nat) : ReadBy s (s.physRead k pa n).2 := readBy_iff.2 (s.readKey_physRead k pa n)
theorem State.loadVirt_readBy (s : State) (va : Word) (n : Nat) (md : AccMode) : ReadBy s (s.loadVirt va n md).2 :=
  readBy_iff.2 (s.readKey_loadVirt va n md)
theorem State.cohWrite_writeBy (s : State) (k : TKey) (pa n v : Nat) (keep : Bool) : WriteBy s (s.cohWrite k pa n v keep) :=
  writeBy_iff.2 (s.writeKey_cohWrite k pa n v keep)
theorem State.physWrite_writeBy (s : State) (k : TKey) (pa n v : Nat) (keep : Bool) : WriteBy s (s.physWrite k pa n v keep) :=
  writeBy_iff.2 (s.writeKey_physWrite k pa n v keep)
theorem State.storeVirt_writeBy (s : State) (va : Word) (n v : Nat) (md : AccMode) : WriteBy s (s.storeVirt va n v md).2 :=
  writeBy_iff.2 (s.writeKey_storeVirt va n v md)
theorem State.rmwAt_writeBy (s : State) (k : TKey) (pa n : Nat) (f : Nat → Option Nat) : WriteBy s (s.rmwAt k pa n f).2 :=
  writeBy_iff.2 (s.writeKey_rmwAt k pa n f)
theorem State.amoAt_writeBy (s : State) (k : TKey) (pa n : Nat) (op : AmoOp) (a b : Nat) : WriteBy s (s.amoAt k pa n op a b).2 :=
  s.rmwAt_writeBy k pa n _

/-! ### The canonical form of memory, which every memory operation keeps -/

/-- Memory and host memory are in their canonical form. -/
structure State.MemWf (s : State) : Prop where
  mem : s.mem.wf = true
  host : s.host.wf = true

theorem State.MemWf.same {s t : State} (h : s.MemWf) (hm : t.mem = s.mem) (hh : t.host = s.host) : t.MemWf :=
  ⟨by rw [hm]; exact h.mem, by rw [hh]; exact h.host⟩
theorem foldl_inv {σ α : Type} (P : σ → Prop) (f : σ → α → σ) (h : ∀ s x, P s → P (f s x)) (l : List α) (s : σ) (hs : P s) : P (l.foldl f s) := by
  induction l generalizing s with
  | nil => exact hs
  | cons x l ih => exact ih _ (h s x hs)
theorem State.MemWf.setTenure {s : State} (h : s.MemWf) (k : TKey) (pa : Nat) (t : Tenure) : (s.setTenure k pa t).MemWf := by
  cases k <;> exact h.same rfl rfl
theorem State.MemWf.setCoreAt {s : State} (h : s.MemWf) (n : Nat) (c : Core) : (s.setCoreAt n c).MemWf := by
  unfold State.setCoreAt; split <;> exact h.same rfl rfl
theorem State.MemWf.writeBlock {s : State} (h : s.MemWf) (b : Nat) (d : BitVec 512) : (s.writeBlock b d).MemWf := by
  have hm : (s.writeBlock b d).mem = Memory.writeLE s.mem (64 * b) 64 d.toNat := by simp only [State.writeBlock]
  have hh : (s.writeBlock b d).host = s.host := by simp only [State.writeBlock]
  exact ⟨by rw [hm]; exact Memory.wf_writeLE _ _ _ h.mem, by rw [hh]; exact h.host⟩
theorem State.MemWf.writeBackEntry {s : State} (h : s.MemWf) (c : Nat) (k : TKey) (pa : Nat) : (s.writeBackEntry c k pa).MemWf := by
  unfold State.writeBackEntry
  dsimp only
  exact ((foldl_inv State.MemWf _ (fun s x hs => hs.writeBlock _ _) _ _ h).setCoreAt _ _).setTenure _ _ _
theorem State.MemWf.onCore {s : State} (h : s.MemWf) (n : Nat) (f : Core → Core) : (s.onCore n f).MemWf := h.setCoreAt _ _
theorem State.MemWf.clampEntry {s : State} (h : s.MemWf) (k : TKey) (pa : Nat) : (s.clampEntry k pa).MemWf := h.setTenure _ _ _
theorem State.MemWf.queueUp {s : State} (h : s.MemWf) (k : TKey) (pa agent : Nat) (age : BitVec 32) : (s.queueUp k pa agent age).MemWf := by
  simp only [State.queueUp]; repeat' split
  all_goals exact h.same rfl rfl
theorem State.MemWf.meet {s : State} (h : s.MemWf) (pa n : Nat) : (s.meet pa n).MemWf := by
  unfold State.meet; split <;> exact h.same rfl rfl
theorem State.MemWf.takePlace {s : State} (h : s.MemWf) (k : TKey) (pa : Nat) : (s.takePlace k pa).MemWf := h.queueUp _ _ _ _
theorem State.MemWf.settle {s : State} (h : s.MemWf) (k : TKey) (pa : Nat) : (s.settle k pa).MemWf := by
  unfold State.settle
  repeat' split
  · exact h.writeBackEntry _ _ _
  all_goals exact h
theorem State.MemWf.giveBack {s : State} (h : s.MemWf) (k : TKey) (pa : Nat) : (s.giveBack k pa).MemWf := by
  unfold State.giveBack
  split
  · exact h
  · exact (((h.clampEntry _ _).writeBackEntry _ _ _).setTenure _ _ _).onCore _ _
theorem State.MemWf.recallEntry {s : State} (h : s.MemWf) (k : TKey) (pa : Nat) : (s.recallEntry k pa).MemWf := by
  unfold State.recallEntry
  split
  · exact h
  · exact (h.giveBack k pa).onCore _ _
theorem State.MemWf.recallFrom {s : State} (h : s.MemWf) (c : Nat) (k : TKey) (pa : Nat) : (s.recallFrom c k pa).MemWf := by
  unfold State.recallFrom; split
  · exact h
  · exact h.recallEntry k pa
theorem State.MemWf.takeLease {s : State} (h : s.MemWf) (k : TKey) (pa : Nat) : (s.takeLease k pa).2.MemWf :=
  ((((h.takePlace k pa).clampEntry _ _).recallFrom _ _ _).setTenure k pa _).same rfl rfl
theorem State.MemWf.cohRead {s : State} (h : s.MemWf) (k : TKey) (pa n : Nat) : (s.cohRead k pa n).2.MemWf := by
  have h' := h.settle k pa
  unfold State.cohRead
  dsimp only
  split
  · exact h'
  · split
    · exact h'.same rfl rfl
    · exact (h'.takeLease k pa).same rfl rfl
theorem State.MemWf.takeWrite {s : State} (h : s.MemWf) (k : TKey) (pa : Nat) (keep : Bool) : (s.takeWrite k pa keep).MemWf := by
  unfold State.takeWrite
  dsimp only
  have h' : (if ((s.settle k pa).tenure k pa).holder = some s.core.no then s.settle k pa else (s.settle k pa).takePlace k pa).MemWf := by
    split
    · exact h.settle k pa
    · exact (h.settle k pa).takePlace k pa
  generalize (if ((s.settle k pa).tenure k pa).holder = some s.core.no then s.settle k pa else (s.settle k pa).takePlace k pa) = u at h' ⊢
  have h'' := (h'.clampEntry k pa).recallFrom s.core.no k pa
  generalize (u.clampEntry k pa).recallFrom s.core.no k pa = x at h'' ⊢
  refine State.MemWf.same (State.MemWf.setTenure ?_ k pa _) rfl rfl
  split <;> exact h''.same rfl rfl
theorem State.MemWf.putBlock {s : State} (h : s.MemWf) (k : TKey) (pa : Nat) (d : BitVec 512) : (s.putBlock k pa d).MemWf := by
  have h' : (if (s.tenure k pa).holder = some s.core.no then s else s.writeBlock (blockOf pa) d).MemWf := by
    split
    · exact h
    · exact h.writeBlock _ _
  unfold State.putBlock
  dsimp only
  generalize (if (s.tenure k pa).holder = some s.core.no then s else s.writeBlock (blockOf pa) d) = x at h' ⊢
  exact h'.same rfl rfl
/-- A coherent write. -/
theorem State.MemWf.cohWrite {s : State} (h : s.MemWf) (k : TKey) (pa n v : Nat) (keep : Bool) : (s.cohWrite k pa n v keep).MemWf :=
  ((h.takeWrite k pa keep).putBlock k pa _).same rfl rfl
theorem State.MemWf.writeHome {s : State} (h : s.MemWf) (k : TKey) (pa n v : Nat) : (s.writeHome k pa n v).MemWf :=
  (h.cohWrite k pa n v false).giveBack k pa
theorem State.MemWf.homeReadBy {s : State} (h : s.MemWf) (k : TKey) (pa n : Nat) : (s.homeReadBy k pa n).2.MemWf := by
  have h' := (((h.meet pa n).settle k pa).takePlace k pa).recallFrom s.core.no k pa
  unfold State.homeReadBy
  dsimp only
  split
  · split <;> exact h'
  · exact h'
theorem State.MemWf.homeRead {s : State} (h : s.MemWf) (pa n : Nat) : (s.homeRead pa n).2.MemWf := by
  unfold State.homeRead
  split
  · exact ((h.meet pa n).takePlace _ _).recallEntry _ _
  · exact h.homeReadBy _ _ _
theorem State.MemWf.writeBackAll {s : State} (h : s.MemWf) : s.writeBackAll.MemWf :=
  foldl_inv State.MemWf _ (fun s x hs => hs.writeBackEntry _ _ _) _ _ h
theorem State.MemWf.missQueue {s : State} (h : s.MemWf) (va : Nat) : (s.missQueue va).MemWf := by
  unfold State.missQueue; split <;> exact h.same rfl rfl
theorem State.MemWf.behindLantern {s : State} (h : s.MemWf) : s.behindLantern.MemWf := by
  unfold State.behindLantern; split <;> exact h.same rfl rfl
theorem State.MemWf.ungateFor {s : State} (h : s.MemWf) (pa : Nat) : (s.ungateFor pa).MemWf := by
  unfold State.ungateFor
  split
  · dsimp only; split <;> exact h.same rfl rfl
  · exact h
theorem State.MemWf.walkFrom {s : State} (h : s.MemWf) (va : Word) (l base : Nat) : (s.walkFrom va l base).2.MemWf := by
  induction l generalizing s base with
  | zero => exact h
  | succ l ih =>
    have h' := h.homeRead (base + (va.toNat / 2 ^ (12 + 9 * l) % 512) * 8) 8
    unfold State.walkFrom
    dsimp only
    repeat' split
    all_goals first | exact h | exact h' | exact ih h' _
theorem State.MemWf.markLeaf {s : State} (h : s.MemWf) (pa pte : Nat) (w : Bool) : (s.markLeaf pa pte w).MemWf := by
  unfold State.markLeaf; dsimp only; split
  · exact h
  · exact h.cohWrite _ _ _ _ _
theorem State.MemWf.leafOf {s : State} (h : s.MemWf) (va : Word) (kind : Access) (md : AccMode) : (s.leafOf va kind md).2.MemWf := by
  have h' := h.walkFrom va 5 ((s.core.ct.satp.extractLsb' 0 44).toNat * 4096)
  unfold State.leafOf State.walk
  split
  · exact h
  · split
    · rename_i e; rw [e] at h'; exact h'
    · rename_i e; rw [e] at h'; split <;> exact h'
theorem State.MemWf.translate {s : State} (h : s.MemWf) (va : Word) (kind : Access) (md : AccMode) : (s.translate va kind md).2.MemWf := by
  have hm : ((s.missQueue va.toNat).note 9).MemWf := (h.missQueue _).same rfl rfl
  have h' := hm.leafOf va kind md
  unfold State.translate
  dsimp only
  split
  · exact h.same rfl rfl
  · split
    · exact hm.same rfl rfl
    · split
      · rename_i e; rw [e] at h'; exact h'
      · rename_i e; rw [e] at h'; exact (h'.markLeaf _ _ _).same rfl rfl
theorem State.MemWf.checkVirt {s : State} (h : s.MemWf) (va : Word) (n : Nat) (kind : Access) (md : AccMode) :
    (s.checkVirt va n kind md).2.MemWf := by
  have h' := h.translate va kind md
  unfold State.checkVirt
  split
  · rename_i e; rw [e] at h'; exact h'
  · rename_i e; rw [e] at h'
    split
    · exact h'
    · split <;> exact h'
theorem State.MemWf.physRead {s : State} (h : s.MemWf) (k : TKey) (pa n : Nat) : (s.physRead k pa n).2.MemWf := by
  unfold State.physRead
  dsimp only
  split
  · exact (h.behindLantern.meet pa n).cohRead k pa n
  · exact h.behindLantern.meet pa n
theorem State.MemWf.loadVirt {s : State} (h : s.MemWf) (va : Word) (n : Nat) (md : AccMode) : (s.loadVirt va n md).2.MemWf := by
  have h' := h.checkVirt va n .load md
  unfold State.loadVirt
  split
  · rename_i e; rw [e] at h'; exact h'
  · rename_i e; rw [e] at h'; exact h'.physRead _ _ _
theorem State.MemWf.landPart {s : State} (h : s.MemWf) (c : Nat) (p : Part) (off n v : Nat) (t : BitVec 32) (other : Bool) :
    (s.landPart c p off n v t other).MemWf := by
  unfold State.landPart
  dsimp only
  refine State.MemWf.onCore ?_ _ _
  split
  · exact State.MemWf.same (h.onCore c fun c' => c'.wakeOn (windowAddr c p off / 64)) rfl rfl
  · exact h
theorem State.MemWf.windowWrite {s : State} (h : s.MemWf) (c : Nat) (p : Part) (off n v : Nat) : (s.windowWrite c p off n v).MemWf :=
  State.MemWf.landPart (s := { s with core := s.core.wakeOn (windowAddr c p off / 64) }) (h.same rfl rfl) _ _ _ _ _ _ _
theorem State.MemWf.physWrite {s : State} (h : s.MemWf) (k : TKey) (pa n v : Nat) (keep : Bool) : (s.physWrite k pa n v keep).MemWf := by
  have h' := h.behindLantern.ungateFor pa
  unfold State.physWrite
  dsimp only
  split
  · exact h'.cohWrite k pa n v keep
  · exact h'
  · exact (h'.windowWrite _ _ _ _ _).same rfl rfl
  · exact h'.same rfl rfl
  · exact ⟨h'.mem, Memory.wf_writeLE _ _ _ h'.host⟩
  · exact h'
theorem State.MemWf.performStore {s : State} (h : s.MemWf) (l : Late) : (s.performStore l).MemWf := by
  unfold State.performStore; split
  · exact h.physWrite _ _ _ _ _
  · exact h
theorem State.MemWf.drainBy {s : State} (h : s.MemWf) (p : Late → Bool) : (s.drainBy p).MemWf := by
  unfold State.drainBy
  split
  · exact h
  · have h' := foldl_inv State.MemWf State.performStore (fun s l hs => hs.performStore l) (s.core.vec.late.filter fun l => p l && l.op.isStore)
      { s with core := { s.core with vec := { s.core.vec with late := s.core.vec.late.filter fun l => !(p l && l.op.isStore) } } } (h.same rfl rfl)
    dsimp only
    split
    · exact h'.same rfl rfl
    · exact h'
theorem State.MemWf.drain {s : State} (h : s.MemWf) : s.drain.MemWf := h.drainBy _
theorem State.MemWf.drainFor {s : State} (h : s.MemWf) (who : Reader) (x : Spot) : (s.drainFor who x).MemWf := h.drainBy _
theorem State.MemWf.onEarlies {s : State} (h : s.MemWf) (who : Reader) (f : List Early → List Early) : (s.onEarlies who f).MemWf := by
  unfold State.onEarlies; split <;> exact h.same rfl rfl
theorem State.MemWf.releaseBy {s : State} (h : s.MemWf) (p : Late → Bool) (scope : Nat) : (s.releaseBy p scope).MemWf := by
  unfold State.releaseBy
  repeat' split
  · exact (h.drainBy p).writeBackAll
  · exact h.drainBy p
  · exact h
theorem State.MemWf.release {s : State} (h : s.MemWf) (scope : Nat) : (s.release scope).MemWf := h.releaseBy _ _
theorem State.MemWf.plainRead {s : State} (h : s.MemWf) (who : Reader) (base : Option (List Holder)) (k : TKey) (x : Spot) (dst : List Holder) :
    (s.plainRead who base k x dst).2.MemWf := by
  have h' := h.drainFor who x
  unfold State.plainRead
  dsimp only
  split
  · exact (h'.onEarlies _ _).same rfl rfl
  · exact ((h'.physRead k x.pa x.n).onEarlies _ _).same rfl rfl
theorem State.MemWf.plainWrite {s : State} (h : s.MemWf) (who : Reader) (k : TKey) (x : Spot) (v : Nat) (keep : Bool) :
    (s.plainWrite who k x v keep).MemWf := by
  have h' : ((s.drainFor who x).forgetEarly who x).MemWf := (h.drainFor who x).same rfl rfl
  unfold State.plainWrite
  dsimp only
  split
  · exact h'.same rfl rfl
  · exact h'.physWrite _ _ _ _ _
theorem State.MemWf.checkOwn {s : State} (h : s.MemWf) (who : Reader) (va : Word) (n : Nat) (md : AccMode) : (s.checkOwn who va n md).2.MemWf := by
  have h' := h.translate va .load md
  unfold State.checkOwn
  split
  · rename_i e; rw [e] at h'; exact h'
  · rename_i e; rw [e] at h'
    split
    · exact h'
    · dsimp only; split <;> exact h'.drainFor _ _
theorem State.MemWf.loadPlain {s : State} (h : s.MemWf) (who : Reader) (base : Option (List Holder)) (va : Word) (n : Nat) (md : AccMode) (dst : List Holder) :
    (s.loadPlain who base va n md dst).2.MemWf := by
  have h' := h.checkOwn who va n md
  unfold State.loadPlain
  split
  · rename_i e; rw [e] at h'; exact h'
  · rename_i e; rw [e] at h'; exact h'.plainRead _ _ _ _ _
theorem State.MemWf.storePlain {s : State} (h : s.MemWf) (who : Reader) (va : Word) (n v : Nat) (md : AccMode) :
    (s.storePlain who va n v md).2.MemWf := by
  have h' := h.checkVirt va n .store md
  unfold State.storePlain
  split
  · rename_i e; rw [e] at h'; exact h'
  · rename_i e; rw [e] at h'; exact h'.plainWrite _ _ _ _ _
theorem State.MemWf.storeVirt {s : State} (h : s.MemWf) (va : Word) (n v : Nat) (md : AccMode) : (s.storeVirt va n v md).2.MemWf := by
  have h' := h.checkVirt va n .store md
  unfold State.storeVirt
  split
  · rename_i e; rw [e] at h'; exact h'
  · rename_i e; rw [e] at h'; exact h'.physWrite _ _ _ _ _
theorem State.MemWf.rmwAt {s : State} (h : s.MemWf) (k : TKey) (pa n : Nat) (f : Nat → Option Nat) : (s.rmwAt k pa n f).2.MemWf := by
  have h' := (h.behindLantern.ungateFor pa).meet pa n
  unfold State.rmwAt
  dsimp only
  split
  · exact (h'.takeWrite _ _ _).putBlock _ _ _
  · dsimp only; split
    · exact h'.windowWrite _ _ _ _ _
    · exact h'
  · exact ⟨h'.mem, Memory.wf_writeLE _ _ _ h'.host⟩
  · exact h'
/-- A read and a write by an agent without logical time (15 R322, 23 R420). -/
theorem State.MemWf.outsideRead {s : State} (h : s.MemWf) (pa n : Nat) : (s.outsideRead pa n).2.MemWf := by
  unfold State.outsideRead
  dsimp only
  split
  · exact ((h.meet pa n).queueUp _ _ _ _).recallEntry _ _
  · exact h.meet pa n
theorem State.MemWf.outsideWrite {s : State} (h : s.MemWf) (pa n v : Nat) : (s.outsideWrite pa n v).MemWf := by
  have hu := h.ungateFor pa
  unfold State.outsideWrite
  dsimp only
  generalize s.ungateFor pa = u at hu ⊢
  split
  · have h1 := ((hu.queueUp .block pa u.outsider (u.dieTime (homeDie pa))).clampEntry .block pa).recallEntry .block pa
    exact ⟨Memory.wf_writeLE _ _ _ h1.mem, h1.host⟩
  · split
    · exact (hu.landPart _ _ _ _ _ _ _).same rfl rfl
    · exact hu
  · exact hu.same rfl rfl
  · exact ⟨hu.mem, Memory.wf_writeLE _ _ _ hu.host⟩
  · exact hu
/-- A trap. -/
theorem State.MemWf.takeTrap {s : State} (h : s.MemWf) (i : Bool) (c : Nat) (epc tval : Word) : (s.takeTrap i c epc tval).MemWf := by
  unfold State.takeTrap State.landHeld State.captureTrap
  dsimp only
  split <;> split <;> exact h.same rfl rfl
/-- Memory after reset. -/
theorem State.reset_memWf : State.reset.MemWf := ⟨rfl, rfl⟩

/-! ### Taking and leaving a trap (22 R347) -/

@[simp] theorem State.captureTrap_core (s : State) (i : Bool) (c : Nat) : (s.captureTrap i c).core = s.core := by
  unfold State.captureTrap; dsimp only; split <;> rfl
/-- What a trap changes when no MTCONF holds writes: the saved registers, the status, the level and the pc. -/
theorem State.takeTrap_ct (s : State) (i : Bool) (c : Nat) (epc tval : Word) (h : s.core.vec.held = []) :
    (s.takeTrap i c epc tval).core.ct =
      { s.core.ct with
        sepc := epc &&& ~~~1, scause := (if i then BitVec.twoPow 64 63 else 0) ||| BitVec.ofNat 64 c, stval := tval,
        sstatus := putBit (putBit (putBit s.core.ct.sstatus spieBit (s.core.ct.sstatus.getLsbD sieBit)) sieBit false) sppBit (!s.core.ct.user),
        user := false,
        pc := if i ∧ s.core.ct.stvec.getLsbD 0 then (s.core.ct.stvec &&& ~~~3) + BitVec.ofNat 64 (4 * c) else s.core.ct.stvec &&& ~~~3,
        reservation := none, windowReservation := none, wait := none, waitaStart := none } := by
  simp [State.takeTrap, State.landHeld, h]
/-- The rest of the core. -/
theorem State.takeTrap_core (s : State) (i : Bool) (c : Nat) (epc tval : Word) (h : s.core.vec.held = []) :
    (s.takeTrap i c epc tval).core = { s.core with ct := (s.takeTrap i c epc tval).core.ct } := by
  simp [State.takeTrap, State.landHeld, h, State.onCt]
/-- A trap leaves memory, other cores and the directory alone. -/
theorem State.takeTrap_rest (s : State) (i : Bool) (c : Nat) (epc tval : Word) :
    (s.takeTrap i c epc tval).mem = s.mem ∧ (s.takeTrap i c epc tval).others = s.others ∧ (s.takeTrap i c epc tval).dir = s.dir := by
  unfold State.takeTrap State.landHeld State.captureTrap
  dsimp only
  split <;> split <;> exact ⟨rfl, rfl, rfl⟩
/-- Return from a trap. -/
theorem State.leaveTrap_ct (s : State) :
    s.leaveTrap.core.ct =
      { s.core.ct with
        sstatus := putBit (putBit (putBit s.core.ct.sstatus sieBit (s.core.ct.sstatus.getLsbD spieBit)) spieBit true) sppBit false,
        user := !s.core.ct.sstatus.getLsbD sppBit, pc := s.core.ct.sepc, wait := none, waitaStart := none } := rfl

end Sys2Proof.Machine
end

