-- ==== Sys2Proof/Laws/PerInstr.lean ====
section
/-! SUPPORT. Decoding what is encoded, instruction by instruction: one lemma for each constructor of `Instr`. -/

-- The theorems of this file are checked one after another, so that checking it takes few threads.
set_option Elab.async false

namespace Sys2Proof.Laws

open Sys2Proof Sys2Proof.Machine

/-- Decoding the words of a well-formed instruction gives it back; an instruction without words has nothing to decode. -/
def RoundTrip.Statement (i : Instr) : Prop := i.wellFormed = true → HoldsLegal i →
  (∀ x, encode i = [x] → (if i.isMtWord = true then decodeMt x else decodeCt x 0) = some i) ∧
  (∀ x y, encode i = [x, y] → decodeCt x y = some i)

theorem roundTrip_none (i : Instr) (h : encode i = []) : RoundTrip.Statement i := by
  intro _ _; simp [h]

theorem roundTrip_mt (i : Instr) (x : BitVec 32) (h : encode i = [x]) (m : i.isMtWord = true)
    (d : i.wellFormed = true → decodeMt x = some i) : RoundTrip.Statement i := by
  intro w _; simp [h, m, d w]

theorem roundTrip_ct (i : Instr) (x : BitVec 32) (h : encode i = [x]) (m : i.isMtWord = false)
    (d : i.wellFormed = true → decodeCt x 0 = some i) : RoundTrip.Statement i := by
  intro w _; simp only [h, m]; simpa using d w

theorem roundTrip_two (i : Instr) (x y : BitVec 32) (h : encode i = [x, y])
    (d : i.wellFormed = true → HoldsLegal i → decodeCt x y = some i) : RoundTrip.Statement i := by
  intro w l; simp [h, d w l]

/-! ## One lemma for each constructor -/

theorem RoundTrip.add : ∀ w d a b, RoundTrip.Statement (.add w d a b) := by
  intro w d a b
  refine roundTrip_mt _ _ rfl rfl fun h => ?_
  simp (disch := decide) [decodeMt, decodeInt, legalIf, -BitVec.getLsbD_eq_getElem, encReg_fields, h]
theorem RoundTrip.sub : ∀ w d a b, RoundTrip.Statement (.sub w d a b) := by
  intro w d a b
  refine roundTrip_mt _ _ rfl rfl fun h => ?_
  simp (disch := decide) [decodeMt, decodeInt, legalIf, -BitVec.getLsbD_eq_getElem, encReg_fields, h]
theorem RoundTrip.and : ∀ w d a b, RoundTrip.Statement (.and w d a b) := by
  intro w d a b
  refine roundTrip_mt _ _ rfl rfl fun h => ?_
  simp (disch := decide) [decodeMt, decodeInt, legalIf, -BitVec.getLsbD_eq_getElem, encReg_fields, h]
theorem RoundTrip.or : ∀ w d a b, RoundTrip.Statement (.or w d a b) := by
  intro w d a b
  refine roundTrip_mt _ _ rfl rfl fun h => ?_
  simp (disch := decide) [decodeMt, decodeInt, legalIf, -BitVec.getLsbD_eq_getElem, encReg_fields, h]
theorem RoundTrip.xor : ∀ w d a b, RoundTrip.Statement (.xor w d a b) := by
  intro w d a b
  refine roundTrip_mt _ _ rfl rfl fun h => ?_
  simp (disch := decide) [decodeMt, decodeInt, legalIf, -BitVec.getLsbD_eq_getElem, encReg_fields, h]
theorem RoundTrip.andn : ∀ w d a b, RoundTrip.Statement (.andn w d a b) := by
  intro w d a b
  refine roundTrip_mt _ _ rfl rfl fun h => ?_
  simp (disch := decide) [decodeMt, decodeInt, legalIf, -BitVec.getLsbD_eq_getElem, encReg_fields, h]
theorem RoundTrip.sll : ∀ w d a b, RoundTrip.Statement (.sll w d a b) := by
  intro w d a b
  refine roundTrip_mt _ _ rfl rfl fun h => ?_
  simp (disch := decide) [decodeMt, decodeInt, legalIf, -BitVec.getLsbD_eq_getElem, encReg_fields, h]
theorem RoundTrip.srl : ∀ w d a b, RoundTrip.Statement (.srl w d a b) := by
  intro w d a b
  refine roundTrip_mt _ _ rfl rfl fun h => ?_
  simp (disch := decide) [decodeMt, decodeInt, legalIf, -BitVec.getLsbD_eq_getElem, encReg_fields, h]
theorem RoundTrip.sra : ∀ w d a b, RoundTrip.Statement (.sra w d a b) := by
  intro w d a b
  refine roundTrip_mt _ _ rfl rfl fun h => ?_
  simp (disch := decide) [decodeMt, decodeInt, legalIf, -BitVec.getLsbD_eq_getElem, encReg_fields, h]
theorem RoundTrip.min : ∀ w d a b, RoundTrip.Statement (.min w d a b) := by
  intro w d a b
  refine roundTrip_mt _ _ rfl rfl fun h => ?_
  simp (disch := decide) [decodeMt, decodeInt, legalIf, -BitVec.getLsbD_eq_getElem, encReg_fields, h]
theorem RoundTrip.max : ∀ w d a b, RoundTrip.Statement (.max w d a b) := by
  intro w d a b
  refine roundTrip_mt _ _ rfl rfl fun h => ?_
  simp (disch := decide) [decodeMt, decodeInt, legalIf, -BitVec.getLsbD_eq_getElem, encReg_fields, h]
theorem RoundTrip.minu : ∀ w d a b, RoundTrip.Statement (.minu w d a b) := by
  intro w d a b
  refine roundTrip_mt _ _ rfl rfl fun h => ?_
  simp (disch := decide) [decodeMt, decodeInt, legalIf, -BitVec.getLsbD_eq_getElem, encReg_fields, h]
theorem RoundTrip.maxu : ∀ w d a b, RoundTrip.Statement (.maxu w d a b) := by
  intro w d a b
  refine roundTrip_mt _ _ rfl rfl fun h => ?_
  simp (disch := decide) [decodeMt, decodeInt, legalIf, -BitVec.getLsbD_eq_getElem, encReg_fields, h]
theorem RoundTrip.slt : ∀ w d a b, RoundTrip.Statement (.slt w d a b) := by
  intro w d a b
  refine roundTrip_mt _ _ rfl rfl fun h => ?_
  simp (disch := decide) [decodeMt, decodeInt, legalIf, -BitVec.getLsbD_eq_getElem, encReg_fields, h]
theorem RoundTrip.sltu : ∀ w d a b, RoundTrip.Statement (.sltu w d a b) := by
  intro w d a b
  refine roundTrip_mt _ _ rfl rfl fun h => ?_
  simp (disch := decide) [decodeMt, decodeInt, legalIf, -BitVec.getLsbD_eq_getElem, encReg_fields, h]
theorem RoundTrip.seq : ∀ w d a b, RoundTrip.Statement (.seq w d a b) := by
  intro w d a b
  refine roundTrip_mt _ _ rfl rfl fun h => ?_
  simp (disch := decide) [decodeMt, decodeInt, legalIf, -BitVec.getLsbD_eq_getElem, encReg_fields, h]
theorem RoundTrip.mul : ∀ w d a b, RoundTrip.Statement (.mul w d a b) := by
  intro w d a b
  refine roundTrip_mt _ _ rfl rfl fun h => ?_
  simp (disch := decide) [decodeMt, decodeInt, legalIf, -BitVec.getLsbD_eq_getElem, encReg_fields, h]
theorem RoundTrip.mulh : ∀ w d a b, RoundTrip.Statement (.mulh w d a b) := by
  intro w d a b
  refine roundTrip_mt _ _ rfl rfl fun h => ?_
  simp (disch := decide) [decodeMt, decodeInt, legalIf, -BitVec.getLsbD_eq_getElem, encReg_fields, h]
theorem RoundTrip.mulhu : ∀ w d a b, RoundTrip.Statement (.mulhu w d a b) := by
  intro w d a b
  refine roundTrip_mt _ _ rfl rfl fun h => ?_
  simp (disch := decide) [decodeMt, decodeInt, legalIf, -BitVec.getLsbD_eq_getElem, encReg_fields, h]
theorem RoundTrip.div : ∀ w d a b, RoundTrip.Statement (.div w d a b) := by
  intro w d a b
  refine roundTrip_mt _ _ rfl rfl fun h => ?_
  simp (disch := decide) [decodeMt, decodeInt, legalIf, -BitVec.getLsbD_eq_getElem, encReg_fields, h]
theorem RoundTrip.divu : ∀ w d a b, RoundTrip.Statement (.divu w d a b) := by
  intro w d a b
  refine roundTrip_mt _ _ rfl rfl fun h => ?_
  simp (disch := decide) [decodeMt, decodeInt, legalIf, -BitVec.getLsbD_eq_getElem, encReg_fields, h]
theorem RoundTrip.rem : ∀ w d a b, RoundTrip.Statement (.rem w d a b) := by
  intro w d a b
  refine roundTrip_mt _ _ rfl rfl fun h => ?_
  simp (disch := decide) [decodeMt, decodeInt, legalIf, -BitVec.getLsbD_eq_getElem, encReg_fields, h]
theorem RoundTrip.remu : ∀ w d a b, RoundTrip.Statement (.remu w d a b) := by
  intro w d a b
  refine roundTrip_mt _ _ rfl rfl fun h => ?_
  simp (disch := decide) [decodeMt, decodeInt, legalIf, -BitVec.getLsbD_eq_getElem, encReg_fields, h]
theorem RoundTrip.clz : ∀ w d a, RoundTrip.Statement (.clz w d a) := by
  intro w d a
  refine roundTrip_mt _ _ rfl rfl fun h => ?_
  simp (disch := decide) [decodeMt, decodeInt, legalIf, -BitVec.getLsbD_eq_getElem, encReg_fields, h]
theorem RoundTrip.ctz : ∀ w d a, RoundTrip.Statement (.ctz w d a) := by
  intro w d a
  refine roundTrip_mt _ _ rfl rfl fun h => ?_
  simp (disch := decide) [decodeMt, decodeInt, legalIf, -BitVec.getLsbD_eq_getElem, encReg_fields, h]
theorem RoundTrip.popc : ∀ w d a, RoundTrip.Statement (.popc w d a) := by
  intro w d a
  refine roundTrip_mt _ _ rfl rfl fun h => ?_
  simp (disch := decide) [decodeMt, decodeInt, legalIf, -BitVec.getLsbD_eq_getElem, encReg_fields, h]
theorem RoundTrip.sel : ∀ d a b c, RoundTrip.Statement (.sel d a b c) := by
  intro d a b c
  refine roundTrip_mt _ _ rfl rfl fun h => ?_
  simp (disch := decide) [decodeMt, legalIf, -BitVec.getLsbD_eq_getElem, encReg_fields, h]
theorem RoundTrip.bfx : ∀ sign d a pos len, RoundTrip.Statement (.bfx sign d a pos len) := by
  intro sign d a pos len
  refine roundTrip_mt _ _ rfl rfl fun h => ?_
  cases sign <;> simp (disch := decide) [decodeMt, legalIf, -BitVec.getLsbD_eq_getElem, encReg_fields, h]
theorem RoundTrip.bfi : ∀ d a pos len, RoundTrip.Statement (.bfi d a pos len) := by
  intro d a pos len
  refine roundTrip_mt _ _ rfl rfl fun h => ?_
  simp (disch := decide) [decodeMt, legalIf, -BitVec.getLsbD_eq_getElem, encReg_fields, h]
theorem RoundTrip.rget : ∀ d a b, RoundTrip.Statement (.rget d a b) := by
  intro d a b
  refine roundTrip_mt _ _ rfl rfl fun h => ?_
  simp (disch := decide) [decodeMt, legalIf, -BitVec.getLsbD_eq_getElem, encReg_fields, h]
theorem RoundTrip.rput : ∀ d a b, RoundTrip.Statement (.rput d a b) := by
  intro d a b
  refine roundTrip_mt _ _ rfl rfl fun h => ?_
  simp (disch := decide) [decodeMt, legalIf, -BitVec.getLsbD_eq_getElem, encReg_fields, h]
theorem RoundTrip.mtid : ∀ d, RoundTrip.Statement (.mtid d) := by
  intro d
  refine roundTrip_mt _ _ rfl rfl fun h => ?_
  simp (disch := decide) [decodeMt, legalIf, -BitVec.getLsbD_eq_getElem, encReg_fields, h]
theorem RoundTrip.lnkrd : ∀ d, RoundTrip.Statement (.lnkrd d) := by
  intro d
  refine roundTrip_mt _ _ rfl rfl fun h => ?_
  simp (disch := decide) [decodeMt, legalIf, -BitVec.getLsbD_eq_getElem, encReg_fields, h]
theorem RoundTrip.lnkwr : ∀ a, RoundTrip.Statement (.lnkwr a) := by
  intro a
  refine roundTrip_mt _ _ rfl rfl fun h => ?_
  simp (disch := decide) [decodeMt, legalIf, -BitVec.getLsbD_eq_getElem, encReg_fields, h]
theorem RoundTrip.addi : ∀ d a imm, RoundTrip.Statement (.addi d a imm) := by
  intro d a imm
  refine roundTrip_mt _ _ rfl rfl fun h => ?_
  simp (disch := decide) [decodeMt, legalIf, -BitVec.getLsbD_eq_getElem, encImm_fields, h]
theorem RoundTrip.andi : ∀ d a imm, RoundTrip.Statement (.andi d a imm) := by
  intro d a imm
  refine roundTrip_mt _ _ rfl rfl fun h => ?_
  simp (disch := decide) [decodeMt, legalIf, -BitVec.getLsbD_eq_getElem, encImm_fields, h]
theorem RoundTrip.ori : ∀ d a imm, RoundTrip.Statement (.ori d a imm) := by
  intro d a imm
  refine roundTrip_mt _ _ rfl rfl fun h => ?_
  simp (disch := decide) [decodeMt, legalIf, -BitVec.getLsbD_eq_getElem, encImm_fields, h]
theorem RoundTrip.xori : ∀ d a imm, RoundTrip.Statement (.xori d a imm) := by
  intro d a imm
  refine roundTrip_mt _ _ rfl rfl fun h => ?_
  simp (disch := decide) [decodeMt, legalIf, -BitVec.getLsbD_eq_getElem, encImm_fields, h]
theorem RoundTrip.slli : ∀ d a sh, RoundTrip.Statement (.slli d a sh) := by
  intro d a sh
  refine roundTrip_mt _ _ rfl rfl fun h => ?_
  simp (disch := decide) [decodeMt, legalIf, cat_9_5, -BitVec.getLsbD_eq_getElem, encImm_fields, h]
theorem RoundTrip.srli : ∀ d a sh, RoundTrip.Statement (.srli d a sh) := by
  intro d a sh
  refine roundTrip_mt _ _ rfl rfl fun h => ?_
  simp (disch := decide) [decodeMt, legalIf, cat_9_5, -BitVec.getLsbD_eq_getElem, encImm_fields, h]
theorem RoundTrip.srai : ∀ d a sh, RoundTrip.Statement (.srai d a sh) := by
  intro d a sh
  refine roundTrip_mt _ _ rfl rfl fun h => ?_
  simp (disch := decide) [decodeMt, legalIf, cat_9_5, -BitVec.getLsbD_eq_getElem, encImm_fields, h]
theorem RoundTrip.lui : ∀ d imm, RoundTrip.Statement (.lui d imm) := by
  intro d imm
  refine roundTrip_mt _ _ rfl rfl fun h => ?_
  simp (disch := decide) [decodeMt, legalIf, -BitVec.getLsbD_eq_getElem, encUpper_fields, h]
theorem RoundTrip.fadd : ∀ w d a b, RoundTrip.Statement (.fadd w d a b) := by
  intro w d a b
  refine roundTrip_mt _ _ rfl rfl fun h => ?_
  simp (disch := decide) [decodeMt, decodeFp, legalIf, -BitVec.getLsbD_eq_getElem, encReg_fields, h]
theorem RoundTrip.fsub : ∀ w d a b, RoundTrip.Statement (.fsub w d a b) := by
  intro w d a b
  refine roundTrip_mt _ _ rfl rfl fun h => ?_
  simp (disch := decide) [decodeMt, decodeFp, legalIf, -BitVec.getLsbD_eq_getElem, encReg_fields, h]
theorem RoundTrip.fmul : ∀ w d a b, RoundTrip.Statement (.fmul w d a b) := by
  intro w d a b
  refine roundTrip_mt _ _ rfl rfl fun h => ?_
  simp (disch := decide) [decodeMt, decodeFp, legalIf, -BitVec.getLsbD_eq_getElem, encReg_fields, h]
theorem RoundTrip.fdiv : ∀ w d a b, RoundTrip.Statement (.fdiv w d a b) := by
  intro w d a b
  refine roundTrip_mt _ _ rfl rfl fun h => ?_
  simp (disch := decide) [decodeMt, decodeFp, legalIf, -BitVec.getLsbD_eq_getElem, encReg_fields, h]
theorem RoundTrip.fsqrt : ∀ w d a, RoundTrip.Statement (.fsqrt w d a) := by
  intro w d a
  refine roundTrip_mt _ _ rfl rfl fun h => ?_
  simp (disch := decide) [decodeMt, decodeFp, legalIf, -BitVec.getLsbD_eq_getElem, encReg_fields, h]
theorem RoundTrip.fmin : ∀ w d a b, RoundTrip.Statement (.fmin w d a b) := by
  intro w d a b
  refine roundTrip_mt _ _ rfl rfl fun h => ?_
  simp (disch := decide) [decodeMt, decodeFp, legalIf, -BitVec.getLsbD_eq_getElem, encReg_fields, h]
theorem RoundTrip.fmax : ∀ w d a b, RoundTrip.Statement (.fmax w d a b) := by
  intro w d a b
  refine roundTrip_mt _ _ rfl rfl fun h => ?_
  simp (disch := decide) [decodeMt, decodeFp, legalIf, -BitVec.getLsbD_eq_getElem, encReg_fields, h]
theorem RoundTrip.feq : ∀ w d a b, RoundTrip.Statement (.feq w d a b) := by
  intro w d a b
  refine roundTrip_mt _ _ rfl rfl fun h => ?_
  simp (disch := decide) [decodeMt, decodeFp, legalIf, -BitVec.getLsbD_eq_getElem, encReg_fields, h]
theorem RoundTrip.flt : ∀ w d a b, RoundTrip.Statement (.flt w d a b) := by
  intro w d a b
  refine roundTrip_mt _ _ rfl rfl fun h => ?_
  simp (disch := decide) [decodeMt, decodeFp, legalIf, -BitVec.getLsbD_eq_getElem, encReg_fields, h]
theorem RoundTrip.fle : ∀ w d a b, RoundTrip.Statement (.fle w d a b) := by
  intro w d a b
  refine roundTrip_mt _ _ rfl rfl fun h => ?_
  simp (disch := decide) [decodeMt, decodeFp, legalIf, -BitVec.getLsbD_eq_getElem, encReg_fields, h]
theorem RoundTrip.fsgnj : ∀ w d a b, RoundTrip.Statement (.fsgnj w d a b) := by
  intro w d a b
  refine roundTrip_mt _ _ rfl rfl fun h => ?_
  simp (disch := decide) [decodeMt, decodeFp, legalIf, -BitVec.getLsbD_eq_getElem, encReg_fields, h]
theorem RoundTrip.fsgnjn : ∀ w d a b, RoundTrip.Statement (.fsgnjn w d a b) := by
  intro w d a b
  refine roundTrip_mt _ _ rfl rfl fun h => ?_
  simp (disch := decide) [decodeMt, decodeFp, legalIf, -BitVec.getLsbD_eq_getElem, encReg_fields, h]
theorem RoundTrip.fsgnjx : ∀ w d a b, RoundTrip.Statement (.fsgnjx w d a b) := by
  intro w d a b
  refine roundTrip_mt _ _ rfl rfl fun h => ?_
  simp (disch := decide) [decodeMt, decodeFp, legalIf, -BitVec.getLsbD_eq_getElem, encReg_fields, h]
theorem RoundTrip.fclass : ∀ w d a, RoundTrip.Statement (.fclass w d a) := by
  intro w d a
  refine roundTrip_mt _ _ rfl rfl fun h => ?_
  simp (disch := decide) [decodeMt, decodeFp, legalIf, -BitVec.getLsbD_eq_getElem, encReg_fields, h]
theorem RoundTrip.fma : ∀ w d a b c, RoundTrip.Statement (.fma w d a b c) := by
  intro w d a b c
  refine roundTrip_mt _ _ rfl rfl fun h => ?_
  simp (disch := decide) [decodeMt, legalIf, -BitVec.getLsbD_eq_getElem, encReg_fields, h]
theorem RoundTrip.fms : ∀ w d a b c, RoundTrip.Statement (.fms w d a b c) := by
  intro w d a b c
  refine roundTrip_mt _ _ rfl rfl fun h => ?_
  simp (disch := decide) [decodeMt, legalIf, -BitVec.getLsbD_eq_getElem, encReg_fields, h]
theorem RoundTrip.fnma : ∀ w d a b c, RoundTrip.Statement (.fnma w d a b c) := by
  intro w d a b c
  refine roundTrip_mt _ _ rfl rfl fun h => ?_
  simp (disch := decide) [decodeMt, legalIf, -BitVec.getLsbD_eq_getElem, encReg_fields, h]
theorem RoundTrip.frcp : ∀ bf d a, RoundTrip.Statement (.frcp bf d a) := by
  intro bf d a
  refine roundTrip_mt _ _ rfl rfl fun h => ?_
  cases bf <;> simp (disch := decide) [decodeMt, decodeSfu, legalIf, -BitVec.getLsbD_eq_getElem, encReg_fields, h]
theorem RoundTrip.frsq : ∀ bf d a, RoundTrip.Statement (.frsq bf d a) := by
  intro bf d a
  refine roundTrip_mt _ _ rfl rfl fun h => ?_
  cases bf <;> simp (disch := decide) [decodeMt, decodeSfu, legalIf, -BitVec.getLsbD_eq_getElem, encReg_fields, h]
theorem RoundTrip.fexp2 : ∀ bf d a, RoundTrip.Statement (.fexp2 bf d a) := by
  intro bf d a
  refine roundTrip_mt _ _ rfl rfl fun h => ?_
  cases bf <;> simp (disch := decide) [decodeMt, decodeSfu, legalIf, -BitVec.getLsbD_eq_getElem, encReg_fields, h]
theorem RoundTrip.flog2 : ∀ bf d a, RoundTrip.Statement (.flog2 bf d a) := by
  intro bf d a
  refine roundTrip_mt _ _ rfl rfl fun h => ?_
  cases bf <;> simp (disch := decide) [decodeMt, decodeSfu, legalIf, -BitVec.getLsbD_eq_getElem, encReg_fields, h]
theorem RoundTrip.fsinpi : ∀ bf d a, RoundTrip.Statement (.fsinpi bf d a) := by
  intro bf d a
  refine roundTrip_mt _ _ rfl rfl fun h => ?_
  cases bf <;> simp (disch := decide) [decodeMt, decodeSfu, legalIf, -BitVec.getLsbD_eq_getElem, encReg_fields, h]
theorem RoundTrip.fcospi : ∀ bf d a, RoundTrip.Statement (.fcospi bf d a) := by
  intro bf d a
  refine roundTrip_mt _ _ rfl rfl fun h => ?_
  cases bf <;> simp (disch := decide) [decodeMt, decodeSfu, legalIf, -BitVec.getLsbD_eq_getElem, encReg_fields, h]
theorem RoundTrip.ftanh : ∀ bf d a, RoundTrip.Statement (.ftanh bf d a) := by
  intro bf d a
  refine roundTrip_mt _ _ rfl rfl fun h => ?_
  cases bf <;> simp (disch := decide) [decodeMt, decodeSfu, legalIf, -BitVec.getLsbD_eq_getElem, encReg_fields, h]
theorem RoundTrip.fsigm : ∀ bf d a, RoundTrip.Statement (.fsigm bf d a) := by
  intro bf d a
  refine roundTrip_mt _ _ rfl rfl fun h => ?_
  cases bf <;> simp (disch := decide) [decodeMt, decodeSfu, legalIf, -BitVec.getLsbD_eq_getElem, encReg_fields, h]
theorem RoundTrip.cvtN : ∀ w nf d a b, RoundTrip.Statement (.cvtN w nf d a b) := by
  intro w nf d a b
  refine roundTrip_mt _ _ rfl rfl fun h => ?_
  simp (disch := decide) [decodeMt, decodeCvt, legalIf, cat_3_3, -BitVec.getLsbD_eq_getElem, encReg_fields, h]
theorem RoundTrip.cvtW : ∀ w part nf d a, RoundTrip.Statement (.cvtW w part nf d a) := by
  intro w part nf d a
  refine roundTrip_mt _ _ rfl rfl fun h => ?_
  simp (disch := decide) [decodeMt, decodeCvt, legalIf, cat_2_1_3, -BitVec.getLsbD_eq_getElem, encReg_fields, h]
theorem RoundTrip.cvtFi : ∀ w d a, RoundTrip.Statement (.cvtFi w d a) := by
  intro w d a
  refine roundTrip_mt _ _ rfl rfl fun h => ?_
  simp (disch := decide) [decodeMt, decodeCvt, legalIf, -BitVec.getLsbD_eq_getElem, encReg_fields, h]
theorem RoundTrip.cvtIf : ∀ w d a, RoundTrip.Statement (.cvtIf w d a) := by
  intro w d a
  refine roundTrip_mt _ _ rfl rfl fun h => ?_
  simp (disch := decide) [decodeMt, decodeCvt, legalIf, -BitVec.getLsbD_eq_getElem, encReg_fields, h]
theorem RoundTrip.cvtq4 : ∀ d a b, RoundTrip.Statement (.cvtq4 d a b) := by
  intro d a b
  refine roundTrip_mt _ _ rfl rfl fun h => ?_
  simp (disch := decide) [decodeMt, legalIf, -BitVec.getLsbD_eq_getElem, encReg_fields, h]
theorem RoundTrip.mxscale : ∀ bf part sf d a b, RoundTrip.Statement (.mxscale bf part sf d a b) := by
  intro bf part sf d a b
  refine roundTrip_mt _ _ rfl rfl fun h => ?_
  cases bf <;> simp (disch := decide) [decodeMt, legalIf, cat_3_3, -BitVec.getLsbD_eq_getElem, encReg_fields, h]
theorem RoundTrip.pnix : ∀ q d a b, RoundTrip.Statement (.pnix q d a b) := by
  intro q d a b
  refine roundTrip_mt _ _ rfl rfl fun h => ?_
  simp (disch := decide) [decodeMt, legalIf, -BitVec.getLsbD_eq_getElem, encReg_fields, h]
theorem RoundTrip.pnit : ∀ q d a b, RoundTrip.Statement (.pnit q d a b) := by
  intro q d a b
  refine roundTrip_mt _ _ rfl rfl fun h => ?_
  simp (disch := decide) [decodeMt, legalIf, -BitVec.getLsbD_eq_getElem, encReg_fields, h]
theorem RoundTrip.ld : ∀ size d a off, RoundTrip.Statement (.ld size d a off) := by
  intro size d a off
  refine roundTrip_mt _ _ rfl rfl fun h => ?_
  simp (disch := decide) [decodeMt, legalIf, -BitVec.getLsbD_eq_getElem, encMem_fields, h]
theorem RoundTrip.st : ∀ size d a off, RoundTrip.Statement (.st size d a off) := by
  intro size d a off
  refine roundTrip_mt _ _ rfl rfl fun h => ?_
  simp (disch := decide) [decodeMt, legalIf, -BitVec.getLsbD_eq_getElem, encMem_fields, h]
theorem RoundTrip.lds : ∀ size d a off, RoundTrip.Statement (.lds size d a off) := by
  intro size d a off
  refine roundTrip_mt _ _ rfl rfl fun h => ?_
  simp (disch := decide) [decodeMt, legalIf, -BitVec.getLsbD_eq_getElem, encMem_fields, h]
theorem RoundTrip.sts : ∀ size d a off, RoundTrip.Statement (.sts size d a off) := by
  intro size d a off
  refine roundTrip_mt _ _ rfl rfl fun h => ?_
  simp (disch := decide) [decodeMt, legalIf, -BitVec.getLsbD_eq_getElem, encMem_fields, h]
theorem RoundTrip.amo : ∀ size op ord scope d a, RoundTrip.Statement (.amo size op ord scope d a) := by
  intro size op ord scope d a
  refine roundTrip_mt _ _ rfl rfl fun h => ?_
  simp (disch := decide) [decodeMt, legalIf, -BitVec.getLsbD_eq_getElem, encAtomic_fields, h]
theorem RoundTrip.amos : ∀ size op ord scope d a, RoundTrip.Statement (.amos size op ord scope d a) := by
  intro size op ord scope d a
  refine roundTrip_mt _ _ rfl rfl fun h => ?_
  simp (disch := decide) [decodeMt, legalIf, -BitVec.getLsbD_eq_getElem, encAtomic_fields, h]
theorem RoundTrip.mfence : ∀ scope pred succ, RoundTrip.Statement (.mfence scope pred succ) := by
  intro scope pred succ
  refine roundTrip_mt _ _ rfl rfl fun h => ?_
  simp (disch := decide) [decodeMt, legalIf, cat_3_2_1, cat_2_4, -BitVec.getLsbD_eq_getElem, encReg_fields, h]
theorem RoundTrip.pxf : ∀ sat d a b, RoundTrip.Statement (.pxf sat d a b) := by
  intro sat d a b
  refine roundTrip_mt _ _ rfl rfl fun h => ?_
  cases sat <;> simp (disch := decide) [decodeMt, legalIf, -BitVec.getLsbD_eq_getElem, bit1, encReg_fields, h]
theorem RoundTrip.padd : ∀ sat x d a b, RoundTrip.Statement (.padd sat x d a b) := by
  intro sat x d a b
  refine roundTrip_mt _ _ rfl rfl fun h => ?_
  cases sat <;> cases x <;> simp (disch := decide) [decodeMt, legalIf, -BitVec.getLsbD_eq_getElem, bit1, encReg_fields, h]
theorem RoundTrip.psub : ∀ sat x d a b, RoundTrip.Statement (.psub sat x d a b) := by
  intro sat x d a b
  refine roundTrip_mt _ _ rfl rfl fun h => ?_
  cases sat <;> cases x <;> simp (disch := decide) [decodeMt, legalIf, -BitVec.getLsbD_eq_getElem, bit1, encReg_fields, h]
theorem RoundTrip.pretag : ∀ sat d a, RoundTrip.Statement (.pretag sat d a) := by
  intro sat d a
  refine roundTrip_mt _ _ rfl rfl fun h => ?_
  cases sat <;> simp (disch := decide) [decodeMt, legalIf, -BitVec.getLsbD_eq_getElem, bit1, encReg_fields, h]
theorem RoundTrip.prot : ∀ sat d a b, RoundTrip.Statement (.prot sat d a b) := by
  intro sat d a b
  refine roundTrip_mt _ _ rfl rfl fun h => ?_
  cases sat <;> simp (disch := decide) [decodeMt, legalIf, -BitVec.getLsbD_eq_getElem, bit1, encReg_fields, h]
theorem RoundTrip.pchk : ∀ d a, RoundTrip.Statement (.pchk d a) := by
  intro d a
  refine roundTrip_mt _ _ rfl rfl fun h => ?_
  simp (disch := decide) [decodeMt, legalIf, -BitVec.getLsbD_eq_getElem, encReg_fields, h]
theorem RoundTrip.mfetch : ∀ imm, RoundTrip.Statement (.mfetch imm) := by
  intro imm
  refine roundTrip_mt _ _ rfl rfl fun h => ?_
  simp (disch := decide) [decodeMt, legalIf, -BitVec.getLsbD_eq_getElem, encUpper_fields, h]
theorem RoundTrip.mfetchr : ∀ a, RoundTrip.Statement (.mfetchr a) := by
  intro a
  refine roundTrip_mt _ _ rfl rfl fun h => ?_
  simp (disch := decide) [decodeMt, legalIf, -BitVec.getLsbD_eq_getElem, encReg_fields, h]
theorem RoundTrip.mtrap : ∀ code, RoundTrip.Statement (.mtrap code) := by
  intro code
  refine roundTrip_mt _ _ rfl rfl fun h => ?_
  simp (disch := decide) [decodeMt, legalIf, cat_6_8, -BitVec.getLsbD_eq_getElem, encImm_fields, h]
theorem RoundTrip.vectorCarrier : ∀ mask dt lane word, RoundTrip.Statement (.vectorCarrier mask dt lane word) := by
  intro mask dt lane word
  refine roundTrip_two _ _ _ rfl fun h l => ?_
  simp (disch := decide) [decodeCt, decodeCarrier, legalIf, -BitVec.getLsbD_eq_getElem, bit1, encCarrier_fields, encCarrier_bit, h, l.1 _ _ _ _ rfl]
theorem RoundTrip.mtconf : ∀ rd rs1, RoundTrip.Statement (.mtconf rd rs1) := by
  intro rd rs1
  refine roundTrip_ct _ _ rfl rfl fun h => ?_
  simp (disch := decide) [decodeCt, isXcopyM, decodeCustom, decodeCustom0, decodeRv, legalIf, -BitVec.getLsbD_eq_getElem, encR_fields, h]
theorem RoundTrip.setvl : ∀ rd rs1, RoundTrip.Statement (.setvl rd rs1) := by
  intro rd rs1
  refine roundTrip_ct _ _ rfl rfl fun h => ?_
  simp (disch := decide) [decodeCt, isXcopyM, decodeCustom, decodeCustom0, decodeRv, legalIf, -BitVec.getLsbD_eq_getElem, encR_fields, h]
theorem RoundTrip.vlnkput : ∀ rs1, RoundTrip.Statement (.vlnkput rs1) := by
  intro rs1
  refine roundTrip_ct _ _ rfl rfl fun h => ?_
  simp (disch := decide) [decodeCt, isXcopyM, decodeCustom, decodeCustom0, decodeRv, legalIf, -BitVec.getLsbD_eq_getElem, encR_fields, h]
theorem RoundTrip.vlnkget : ∀ rd, RoundTrip.Statement (.vlnkget rd) := by
  intro rd
  refine roundTrip_ct _ _ rfl rfl fun h => ?_
  simp (disch := decide) [decodeCt, isXcopyM, decodeCustom, decodeCustom0, decodeRv, legalIf, -BitVec.getLsbD_eq_getElem, encR_fields, h]
theorem RoundTrip.vfetch : ∀ mask rs1, RoundTrip.Statement (.vfetch mask rs1) := by
  intro mask rs1
  refine roundTrip_ct _ _ rfl rfl fun h => ?_
  simp (disch := decide) [decodeCt, isXcopyM, decodeCustom, decodeCustom0, decodeRv, legalIf, cat_1_4, -BitVec.getLsbD_eq_getElem, encR_fields, encR_bit, h]
theorem RoundTrip.vget : ∀ v rs1 rd, RoundTrip.Statement (.vget v rs1 rd) := by
  intro v rs1 rd
  refine roundTrip_ct _ _ rfl rfl fun h => ?_
  simp (disch := decide) [decodeCt, isXcopyM, decodeCustom, decodeCustom0, decodeRv, legalIf, -BitVec.getLsbD_eq_getElem, encElem_fields, h]
theorem RoundTrip.vput : ∀ v rs1 rx, RoundTrip.Statement (.vput v rs1 rx) := by
  intro v rs1 rx
  refine roundTrip_ct _ _ rfl rfl fun h => ?_
  simp (disch := decide) [decodeCt, isXcopyM, decodeCustom, decodeCustom0, decodeRv, legalIf, -BitVec.getLsbD_eq_getElem, encElem_fields, h]
theorem RoundTrip.kcmp : ∀ cond kd a b, RoundTrip.Statement (.kcmp cond kd a b) := by
  intro cond kd a b
  refine roundTrip_ct _ _ rfl rfl fun h => ?_
  simp (disch := decide) [decodeCt, isXcopyM, decodeCustom, decodeCustom0, decodeRv, legalIf, cat_4_1, -BitVec.getLsbD_eq_getElem, encElem_fields, encElem_bit, h]
theorem RoundTrip.klog : ∀ tt kd ka kb, RoundTrip.Statement (.klog tt kd ka kb) := by
  intro tt kd ka kb
  refine roundTrip_ct _ _ rfl rfl fun h => ?_
  simp (disch := decide) [decodeCt, isXcopyM, decodeCustom, decodeCustom0, decodeRv, legalIf, -BitVec.getLsbD_eq_getElem, encMask_fields, encMask_bit, h]
theorem RoundTrip.ksbf : ∀ kd ka, RoundTrip.Statement (.ksbf kd ka) := by
  intro kd ka
  refine roundTrip_ct _ _ rfl rfl fun h => ?_
  simp (disch := decide) [decodeCt, isXcopyM, decodeCustom, decodeCustom0, decodeRv, legalIf, -BitVec.getLsbD_eq_getElem, encPre_fields, encPre_bit, h]
theorem RoundTrip.ksif : ∀ kd ka, RoundTrip.Statement (.ksif kd ka) := by
  intro kd ka
  refine roundTrip_ct _ _ rfl rfl fun h => ?_
  simp (disch := decide) [decodeCt, isXcopyM, decodeCustom, decodeCustom0, decodeRv, legalIf, -BitVec.getLsbD_eq_getElem, encPre_fields, encPre_bit, h]
theorem RoundTrip.ksof : ∀ kd ka, RoundTrip.Statement (.ksof kd ka) := by
  intro kd ka
  refine roundTrip_ct _ _ rfl rfl fun h => ?_
  simp (disch := decide) [decodeCt, isXcopyM, decodeCustom, decodeCustom0, decodeRv, legalIf, -BitVec.getLsbD_eq_getElem, encPre_fields, encPre_bit, h]
theorem RoundTrip.kpop : ∀ rd ka, RoundTrip.Statement (.kpop rd ka) := by
  intro rd ka
  refine roundTrip_ct _ _ rfl rfl fun h => ?_
  simp (disch := decide) [decodeCt, isXcopyM, decodeCustom, decodeCustom0, decodeRv, legalIf, -BitVec.getLsbD_eq_getElem, encPre_fields, encPre_bit, h]
theorem RoundTrip.kfirst : ∀ rd ka, RoundTrip.Statement (.kfirst rd ka) := by
  intro rd ka
  refine roundTrip_ct _ _ rfl rfl fun h => ?_
  simp (disch := decide) [decodeCt, isXcopyM, decodeCustom, decodeCustom0, decodeRv, legalIf, -BitVec.getLsbD_eq_getElem, encPre_fields, encPre_bit, h]
theorem RoundTrip.kget : ∀ rd k rs1, RoundTrip.Statement (.kget rd k rs1) := by
  intro rd k rs1
  refine roundTrip_ct _ _ rfl rfl fun h => ?_
  simp (disch := decide) [decodeCt, isXcopyM, decodeCustom, decodeCustom0, decodeRv, legalIf, -BitVec.getLsbD_eq_getElem, encKword_fields, encKword_bit, h]
theorem RoundTrip.kput : ∀ k rs1 rs2, RoundTrip.Statement (.kput k rs1 rs2) := by
  intro k rs1 rs2
  refine roundTrip_ct _ _ rfl rfl fun h => ?_
  simp (disch := decide) [decodeCt, isXcopyM, decodeCustom, decodeCustom0, decodeRv, legalIf, -BitVec.getLsbD_eq_getElem, encKword_fields, encKword_bit, h]
theorem RoundTrip.vld : ∀ mask v size rs1, RoundTrip.Statement (.vld mask v size rs1) := by
  intro mask v size rs1
  refine roundTrip_ct _ _ rfl rfl fun h => ?_
  simp (disch := decide) [decodeCt, isXcopyM, decodeCustom, decodeCustom1, decodeRv, legalIf, -BitVec.getLsbD_eq_getElem, encVec_fields, h]
theorem RoundTrip.vlds : ∀ mask v size rs1 xs, RoundTrip.Statement (.vlds mask v size rs1 xs) := by
  intro mask v size rs1 xs
  refine roundTrip_ct _ _ rfl rfl fun h => ?_
  have hx : xs ≠ 0#5 := by
    have := h
    simp [Instr.wellFormed] at this
    exact this.2
  simp (disch := decide) [decodeCt, isXcopyM, decodeCustom, decodeCustom1, decodeRv, legalIf, -BitVec.getLsbD_eq_getElem, encVec_fields, hx, h]
theorem RoundTrip.vst : ∀ mask v size rs1, RoundTrip.Statement (.vst mask v size rs1) := by
  intro mask v size rs1
  refine roundTrip_ct _ _ rfl rfl fun h => ?_
  simp (disch := decide) [decodeCt, isXcopyM, decodeCustom, decodeCustom1, decodeRv, legalIf, -BitVec.getLsbD_eq_getElem, encVec_fields, h]
theorem RoundTrip.vsts : ∀ mask v size rs1 xs, RoundTrip.Statement (.vsts mask v size rs1 xs) := by
  intro mask v size rs1 xs
  refine roundTrip_ct _ _ rfl rfl fun h => ?_
  have hx : xs ≠ 0#5 := by
    have := h
    simp [Instr.wellFormed] at this
    exact this.2
  simp (disch := decide) [decodeCt, isXcopyM, decodeCustom, decodeCustom1, decodeRv, legalIf, -BitVec.getLsbD_eq_getElem, encVec_fields, hx, h]
theorem RoundTrip.vldx : ∀ mask v size rs1 vi, RoundTrip.Statement (.vldx mask v size rs1 vi) := by
  intro mask v size rs1 vi
  refine roundTrip_ct _ _ rfl rfl fun h => ?_
  simp (disch := decide) [decodeCt, isXcopyM, decodeCustom, decodeCustom1, decodeRv, legalIf, cat_1_4, -BitVec.getLsbD_eq_getElem, encVec_fields, encVec_bit, h]
theorem RoundTrip.vstx : ∀ mask v size rs1 vi, RoundTrip.Statement (.vstx mask v size rs1 vi) := by
  intro mask v size rs1 vi
  refine roundTrip_ct _ _ rfl rfl fun h => ?_
  simp (disch := decide) [decodeCt, isXcopyM, decodeCustom, decodeCustom1, decodeRv, legalIf, cat_1_4, -BitVec.getLsbD_eq_getElem, encVec_fields, encVec_bit, h]
theorem RoundTrip.vldff : ∀ mask v size rs1 xs, RoundTrip.Statement (.vldff mask v size rs1 xs) := by
  intro mask v size rs1 xs
  refine roundTrip_ct _ _ rfl rfl fun h => ?_
  simp (disch := decide) [decodeCt, isXcopyM, decodeCustom, decodeCustom1, decodeRv, legalIf, -BitVec.getLsbD_eq_getElem, encVec_fields, h]
theorem RoundTrip.vldmx : ∀ mask v wide rs1 xc, RoundTrip.Statement (.vldmx mask v wide rs1 xc) := by
  intro mask v wide rs1 xc
  refine roundTrip_ct _ _ rfl rfl fun h => ?_
  cases wide <;> simp (disch := decide) [decodeCt, isXcopyM, decodeCustom, decodeCustom1, decodeRv, legalIf, -BitVec.getLsbD_eq_getElem, bit1, encVec_fields, encVec_bit, h]
theorem RoundTrip.vstmx : ∀ mask v wide rs1 xc, RoundTrip.Statement (.vstmx mask v wide rs1 xc) := by
  intro mask v wide rs1 xc
  refine roundTrip_ct _ _ rfl rfl fun h => ?_
  cases wide <;> simp (disch := decide) [decodeCt, isXcopyM, decodeCustom, decodeCustom1, decodeRv, legalIf, -BitVec.getLsbD_eq_getElem, bit1, encVec_fields, encVec_bit, h]
theorem RoundTrip.vamo : ∀ mask v op scope x, RoundTrip.Statement (.vamo mask v op scope x) := by
  intro mask v op scope x
  refine roundTrip_ct _ _ rfl rfl fun h => ?_
  simp (disch := decide) [decodeCt, isXcopyM, decodeCustom, decodeCustom1, decodeRv, legalIf, -BitVec.getLsbD_eq_getElem, encVamo_fields, h]
theorem RoundTrip.vappend : ∀ mask v rs1 rd, RoundTrip.Statement (.vappend mask v rs1 rd) := by
  intro mask v rs1 rd
  refine roundTrip_ct _ _ rfl rfl fun h => ?_
  simp (disch := decide) [decodeCt, isXcopyM, decodeCustom, decodeCustom1, decodeRv, legalIf, -BitVec.getLsbD_eq_getElem, encVec_fields, h]
theorem RoundTrip.vclaim : ∀ rd rs1 rs2, RoundTrip.Statement (.vclaim rd rs1 rs2) := by
  intro rd rs1 rs2
  refine roundTrip_ct _ _ rfl rfl fun h => ?_
  simp (disch := decide) [decodeCt, isXcopyM, decodeCustom, decodeCustom1, decodeRv, legalIf, -BitVec.getLsbD_eq_getElem, encScalar_fields, encScalar_top, h]
theorem RoundTrip.ldsc : ∀ dbl rd rs1, RoundTrip.Statement (.ldsc dbl rd rs1) := by
  intro dbl rd rs1
  refine roundTrip_ct _ _ rfl rfl fun h => ?_
  cases dbl <;> simp (disch := decide) [decodeCt, isXcopyM, decodeCustom, decodeCustom1, decodeRv, legalIf, -BitVec.getLsbD_eq_getElem, bit1, encScalar_fields, encScalar_bit, h]
theorem RoundTrip.stsc : ∀ dbl rs2 rs1, RoundTrip.Statement (.stsc dbl rs2 rs1) := by
  intro dbl rs2 rs1
  refine roundTrip_ct _ _ rfl rfl fun h => ?_
  cases dbl <;> simp (disch := decide) [decodeCt, isXcopyM, decodeCustom, decodeCustom1, decodeRv, legalIf, -BitVec.getLsbD_eq_getElem, bit1, encScalar_fields, encScalar_bit, h]
theorem RoundTrip.xcopy : ∀ acq rel scope rd rs1 rs2, RoundTrip.Statement (.xcopy acq rel scope rd rs1 rs2) := by
  intro acq rel scope rd rs1 rs2
  refine roundTrip_ct _ _ rfl rfl fun h => ?_
  cases acq <;> cases rel <;> simp (disch := decide) [decodeCt, isXcopyM, decodeCustom, decodeCustom2, decodeRv, legalIf, -BitVec.getLsbD_eq_getElem, bit1, encEng_fields, encEng_bit, h]
theorem RoundTrip.xcopyM : ∀ acq rel scope rd rs1 rs2 mword, RoundTrip.Statement (.xcopyM acq rel scope rd rs1 rs2 mword) := by
  intro acq rel scope rd rs1 rs2 mword
  refine roundTrip_two _ _ _ rfl fun h l => ?_
  simp (disch := decide) [decodeCt, isXcopyM, decodeXcopyM, legalIf, -BitVec.getLsbD_eq_getElem, bit1, encEng_fields, encEng_bit, h, l.2 _ _ _ _ _ _ _ rfl]
theorem RoundTrip.xfill : ∀ acq rel scope rd rs1 rs2, RoundTrip.Statement (.xfill acq rel scope rd rs1 rs2) := by
  intro acq rel scope rd rs1 rs2
  refine roundTrip_ct _ _ rfl rfl fun h => ?_
  cases acq <;> cases rel <;> simp (disch := decide) [decodeCt, isXcopyM, decodeCustom, decodeCustom2, decodeRv, legalIf, -BitVec.getLsbD_eq_getElem, bit1, encEng_fields, encEng_bit, h]
theorem RoundTrip.xgather : ∀ acq rel scope rd rs1 rs2, RoundTrip.Statement (.xgather acq rel scope rd rs1 rs2) := by
  intro acq rel scope rd rs1 rs2
  refine roundTrip_ct _ _ rfl rfl fun h => ?_
  cases acq <;> cases rel <;> simp (disch := decide) [decodeCt, isXcopyM, decodeCustom, decodeCustom2, decodeRv, legalIf, -BitVec.getLsbD_eq_getElem, bit1, encEng_fields, encEng_bit, h]
theorem RoundTrip.xscatter : ∀ acq rel scope rd rs1 rs2, RoundTrip.Statement (.xscatter acq rel scope rd rs1 rs2) := by
  intro acq rel scope rd rs1 rs2
  refine roundTrip_ct _ _ rfl rfl fun h => ?_
  cases acq <;> cases rel <;> simp (disch := decide) [decodeCt, isXcopyM, decodeCustom, decodeCustom2, decodeRv, legalIf, -BitVec.getLsbD_eq_getElem, bit1, encEng_fields, encEng_bit, h]
theorem RoundTrip.xcollReduce : ∀ acq rel scope rd rs1 rs2, RoundTrip.Statement (.xcollReduce acq rel scope rd rs1 rs2) := by
  intro acq rel scope rd rs1 rs2
  refine roundTrip_ct _ _ rfl rfl fun h => ?_
  cases acq <;> cases rel <;> simp (disch := decide) [decodeCt, isXcopyM, decodeCustom, decodeCustom2, decodeRv, legalIf, -BitVec.getLsbD_eq_getElem, bit1, encEng_fields, encEng_bit, h]
theorem RoundTrip.xcollBroadcast : ∀ acq rel scope rd rs1 rs2, RoundTrip.Statement (.xcollBroadcast acq rel scope rd rs1 rs2) := by
  intro acq rel scope rd rs1 rs2
  refine roundTrip_ct _ _ rfl rfl fun h => ?_
  cases acq <;> cases rel <;> simp (disch := decide) [decodeCt, isXcopyM, decodeCustom, decodeCustom2, decodeRv, legalIf, -BitVec.getLsbD_eq_getElem, bit1, encEng_fields, encEng_bit, h]
theorem RoundTrip.xcollAllgather : ∀ acq rel scope rd rs1 rs2, RoundTrip.Statement (.xcollAllgather acq rel scope rd rs1 rs2) := by
  intro acq rel scope rd rs1 rs2
  refine roundTrip_ct _ _ rfl rfl fun h => ?_
  cases acq <;> cases rel <;> simp (disch := decide) [decodeCt, isXcopyM, decodeCustom, decodeCustom2, decodeRv, legalIf, -BitVec.getLsbD_eq_getElem, bit1, encEng_fields, encEng_bit, h]
theorem RoundTrip.xresume : ∀ rd rs1, RoundTrip.Statement (.xresume rd rs1) := by
  intro rd rs1
  refine roundTrip_ct _ _ rfl rfl fun h => ?_
  simp (disch := decide) [decodeCt, isXcopyM, decodeCustom, decodeCustom2, decodeRv, legalIf, -BitVec.getLsbD_eq_getElem, bit1, encEng_fields, encEng_top, h]
theorem RoundTrip.xcancel : ∀ rd rs1, RoundTrip.Statement (.xcancel rd rs1) := by
  intro rd rs1
  refine roundTrip_ct _ _ rfl rfl fun h => ?_
  simp (disch := decide) [decodeCt, isXcopyM, decodeCustom, decodeCustom2, decodeRv, legalIf, -BitVec.getLsbD_eq_getElem, bit1, encEng_fields, encEng_top, h]
theorem RoundTrip.mma : ∀ fmt asrc t rs1 rs2, RoundTrip.Statement (.mma fmt asrc t rs1 rs2) := by
  intro fmt asrc t rs1 rs2
  refine roundTrip_ct _ _ rfl rfl fun h => ?_
  simp (disch := decide) [decodeCt, isXcopyM, decodeCustom, decodeCustom2, decodeRv, legalIf, cat_4_2_1, -BitVec.getLsbD_eq_getElem, encR_fields, encR_bit, h]
theorem RoundTrip.mmas : ∀ fmt t rs1 rs2, RoundTrip.Statement (.mmas fmt t rs1 rs2) := by
  intro fmt t rs1 rs2
  refine roundTrip_ct _ _ rfl rfl fun h => ?_
  simp (disch := decide) [decodeCt, isXcopyM, decodeCustom, decodeCustom2, decodeRv, legalIf, cat_4_3, -BitVec.getLsbD_eq_getElem, encR_fields, encR_bit, h]
theorem RoundTrip.mdrain : ∀ fmt dkind t rs1 rs2, RoundTrip.Statement (.mdrain fmt dkind t rs1 rs2) := by
  intro fmt dkind t rs1 rs2
  refine roundTrip_ct _ _ rfl rfl fun h => ?_
  simp (disch := decide) [decodeCt, isXcopyM, decodeCustom, decodeCustom2, decodeRv, legalIf, cat_4_2_1, -BitVec.getLsbD_eq_getElem, encR_fields, encR_bit, h]
theorem RoundTrip.mzero : ∀ t, RoundTrip.Statement (.mzero t) := by
  intro t
  refine roundTrip_ct _ _ rfl rfl fun h => ?_
  simp (disch := decide) [decodeCt, isXcopyM, decodeCustom, decodeCustom2, decodeRv, legalIf, -BitVec.getLsbD_eq_getElem, encR_fields, h]
theorem RoundTrip.mload : ∀ t rs1 rs2, RoundTrip.Statement (.mload t rs1 rs2) := by
  intro t rs1 rs2
  refine roundTrip_ct _ _ rfl rfl fun h => ?_
  simp (disch := decide) [decodeCt, isXcopyM, decodeCustom, decodeCustom2, decodeRv, legalIf, -BitVec.getLsbD_eq_getElem, encR_fields, h]
theorem RoundTrip.tnew : ∀ rd rs1, RoundTrip.Statement (.tnew rd rs1) := by
  intro rd rs1
  refine roundTrip_ct _ _ rfl rfl fun h => ?_
  simp (disch := decide) [decodeCt, isXcopyM, decodeCustom, decodeCustom3, decodeRv, legalIf, -BitVec.getLsbD_eq_getElem, encR_fields, h]
theorem RoundTrip.tfree : ∀ rd rs1, RoundTrip.Statement (.tfree rd rs1) := by
  intro rd rs1
  refine roundTrip_ct _ _ rfl rfl fun h => ?_
  simp (disch := decide) [decodeCt, isXcopyM, decodeCustom, decodeCustom3, decodeRv, legalIf, -BitVec.getLsbD_eq_getElem, encR_fields, h]
theorem RoundTrip.tsplit : ∀ rd rs1 rs2, RoundTrip.Statement (.tsplit rd rs1 rs2) := by
  intro rd rs1 rs2
  refine roundTrip_ct _ _ rfl rfl fun h => ?_
  simp (disch := decide) [decodeCt, isXcopyM, decodeCustom, decodeCustom3, decodeRv, legalIf, -BitVec.getLsbD_eq_getElem, encR_fields, h]
theorem RoundTrip.tacq : ∀ rd rs1 rs2, RoundTrip.Statement (.tacq rd rs1 rs2) := by
  intro rd rs1 rs2
  refine roundTrip_ct _ _ rfl rfl fun h => ?_
  simp (disch := decide) [decodeCt, isXcopyM, decodeCustom, decodeCustom3, decodeRv, legalIf, -BitVec.getLsbD_eq_getElem, encR_fields, h]
theorem RoundTrip.trel : ∀ rd rs1, RoundTrip.Statement (.trel rd rs1) := by
  intro rd rs1
  refine roundTrip_ct _ _ rfl rfl fun h => ?_
  simp (disch := decide) [decodeCt, isXcopyM, decodeCustom, decodeCustom3, decodeRv, legalIf, -BitVec.getLsbD_eq_getElem, encR_fields, h]
theorem RoundTrip.tinfo : ∀ rd rs1 rs2, RoundTrip.Statement (.tinfo rd rs1 rs2) := by
  intro rd rs1 rs2
  refine roundTrip_ct _ _ rfl rfl fun h => ?_
  simp (disch := decide) [decodeCt, isXcopyM, decodeCustom, decodeCustom3, decodeRv, legalIf, -BitVec.getLsbD_eq_getElem, encR_fields, h]
theorem RoundTrip.fnew : ∀ rd rs1, RoundTrip.Statement (.fnew rd rs1) := by
  intro rd rs1
  refine roundTrip_ct _ _ rfl rfl fun h => ?_
  simp (disch := decide) [decodeCt, isXcopyM, decodeCustom, decodeCustom3, decodeRv, legalIf, -BitVec.getLsbD_eq_getElem, encR_fields, h]
theorem RoundTrip.fset : ∀ rd rs1 rs2, RoundTrip.Statement (.fset rd rs1 rs2) := by
  intro rd rs1 rs2
  refine roundTrip_ct _ _ rfl rfl fun h => ?_
  simp (disch := decide) [decodeCt, isXcopyM, decodeCustom, decodeCustom3, decodeRv, legalIf, -BitVec.getLsbD_eq_getElem, encR_fields, h]
theorem RoundTrip.fsplit : ∀ rd rs1 rs2, RoundTrip.Statement (.fsplit rd rs1 rs2) := by
  intro rd rs1 rs2
  refine roundTrip_ct _ _ rfl rfl fun h => ?_
  simp (disch := decide) [decodeCt, isXcopyM, decodeCustom, decodeCustom3, decodeRv, legalIf, -BitVec.getLsbD_eq_getElem, encR_fields, h]
theorem RoundTrip.fdel : ∀ rd rs1, RoundTrip.Statement (.fdel rd rs1) := by
  intro rd rs1
  refine roundTrip_ct _ _ rfl rfl fun h => ?_
  simp (disch := decide) [decodeCt, isXcopyM, decodeCustom, decodeCustom3, decodeRv, legalIf, -BitVec.getLsbD_eq_getElem, encR_fields, h]
theorem RoundTrip.ofence : ∀ pred succ scope, RoundTrip.Statement (.ofence pred succ scope) := by
  intro pred succ scope
  refine roundTrip_ct _ _ rfl rfl fun h => ?_
  simp (disch := decide) [decodeCt, isXcopyM, decodeCustom, decodeCustom3, decodeRv, legalIf, -BitVec.getLsbD_eq_getElem, encOfence_fields, h]
theorem RoundTrip.waitaEq : ∀ rd rs1 rs2 rs3, RoundTrip.Statement (.waitaEq rd rs1 rs2 rs3) := by
  intro rd rs1 rs2 rs3
  refine roundTrip_ct _ _ rfl rfl fun h => ?_
  simp (disch := decide) [decodeCt, isXcopyM, decodeCustom, decodeCustom3, decodeRv, legalIf, -BitVec.getLsbD_eq_getElem, encWaita_fields, h]
theorem RoundTrip.waitaNe : ∀ rd rs1 rs2 rs3, RoundTrip.Statement (.waitaNe rd rs1 rs2 rs3) := by
  intro rd rs1 rs2 rs3
  refine roundTrip_ct _ _ rfl rfl fun h => ?_
  simp (disch := decide) [decodeCt, isXcopyM, decodeCustom, decodeCustom3, decodeRv, legalIf, -BitVec.getLsbD_eq_getElem, encWaita_fields, h]
theorem RoundTrip.waitaGeu : ∀ rd rs1 rs2 rs3, RoundTrip.Statement (.waitaGeu rd rs1 rs2 rs3) := by
  intro rd rs1 rs2 rs3
  refine roundTrip_ct _ _ rfl rfl fun h => ?_
  simp (disch := decide) [decodeCt, isXcopyM, decodeCustom, decodeCustom3, decodeRv, legalIf, -BitVec.getLsbD_eq_getElem, encWaita_fields, h]
theorem RoundTrip.waitaLtu : ∀ rd rs1 rs2 rs3, RoundTrip.Statement (.waitaLtu rd rs1 rs2 rs3) := by
  intro rd rs1 rs2 rs3
  refine roundTrip_ct _ _ rfl rfl fun h => ?_
  simp (disch := decide) [decodeCt, isXcopyM, decodeCustom, decodeCustom3, decodeRv, legalIf, -BitVec.getLsbD_eq_getElem, encWaita_fields, h]
theorem RoundTrip.notify : ∀ scope rs1 rs2, RoundTrip.Statement (.notify scope rs1 rs2) := by
  intro scope rs1 rs2
  refine roundTrip_ct _ _ rfl rfl fun h => ?_
  simp (disch := decide) [decodeCt, isXcopyM, decodeCustom, decodeCustom3, decodeRv, legalIf, cat_4_3, -BitVec.getLsbD_eq_getElem, encR_fields, h]
theorem RoundTrip.barinit : ∀ rs1 rs2, RoundTrip.Statement (.barinit rs1 rs2) := by
  intro rs1 rs2
  refine roundTrip_ct _ _ rfl rfl fun h => ?_
  simp (disch := decide) [decodeCt, isXcopyM, decodeCustom, decodeCustom3, decodeRv, legalIf, -BitVec.getLsbD_eq_getElem, encR_fields, h]
theorem RoundTrip.bararv : ∀ rs1, RoundTrip.Statement (.bararv rs1) := by
  intro rs1
  refine roundTrip_ct _ _ rfl rfl fun h => ?_
  simp (disch := decide) [decodeCt, isXcopyM, decodeCustom, decodeCustom3, decodeRv, legalIf, -BitVec.getLsbD_eq_getElem, encR_fields, h]
theorem RoundTrip.barwait : ∀ rs1, RoundTrip.Statement (.barwait rs1) := by
  intro rs1
  refine roundTrip_ct _ _ rfl rfl fun h => ?_
  simp (disch := decide) [decodeCt, isXcopyM, decodeCustom, decodeCustom3, decodeRv, legalIf, -BitVec.getLsbD_eq_getElem, encR_fields, h]
theorem RoundTrip.ltsync : ∀ rd rs1, RoundTrip.Statement (.ltsync rd rs1) := by
  intro rd rs1
  refine roundTrip_ct _ _ rfl rfl fun h => ?_
  simp (disch := decide) [decodeCt, isXcopyM, decodeCustom, decodeCustom3, decodeRv, legalIf, -BitVec.getLsbD_eq_getElem, encR_fields, h]
theorem RoundTrip.jexit : ∀ rs1, RoundTrip.Statement (.jexit rs1) := by
  intro rs1
  refine roundTrip_ct _ _ rfl rfl fun h => ?_
  simp (disch := decide) [decodeCt, isXcopyM, decodeCustom, decodeCustom3, decodeRv, legalIf, -BitVec.getLsbD_eq_getElem, encR_fields, h]
theorem RoundTrip.tmark : ∀ rs1, RoundTrip.Statement (.tmark rs1) := by
  intro rs1
  refine roundTrip_ct _ _ rfl rfl fun h => ?_
  simp (disch := decide) [decodeCt, isXcopyM, decodeCustom, decodeCustom3, decodeRv, legalIf, -BitVec.getLsbD_eq_getElem, encR_fields, h]
theorem RoundTrip.fence : ∀ fm pred succ, RoundTrip.Statement (.fence fm pred succ) := by
  intro fm pred succ
  refine roundTrip_ct _ _ rfl rfl fun h => ?_
  simp (disch := decide) [decodeCt, isXcopyM, decodeCustom, decodeRv, legalIf, -BitVec.getLsbD_eq_getElem, encFence_fields, h]
theorem RoundTrip.sfenceVma : ∀ rs1 rs2, RoundTrip.Statement (.sfenceVma rs1 rs2) := by
  intro rs1 rs2
  refine roundTrip_ct _ _ rfl rfl fun h => ?_
  simp (disch := decide) [decodeCt, isXcopyM, decodeCustom, decodeRv, -BitVec.getLsbD_eq_getElem, encR_fields, encR_ne]
theorem RoundTrip.lr : ∀ dbl aq rl rd rs1, RoundTrip.Statement (.lr dbl aq rl rd rs1) := by
  intro dbl aq rl rd rs1
  refine roundTrip_ct _ _ rfl rfl fun h => ?_
  cases dbl <;> cases aq <;> cases rl <;> simp (disch := decide) [decodeCt, isXcopyM, decodeCustom, decodeRv, legalIf, -BitVec.getLsbD_eq_getElem, bit1, encAmo_fields, encAmo_bit, h]
theorem RoundTrip.sc : ∀ dbl aq rl rd rs1 rs2, RoundTrip.Statement (.sc dbl aq rl rd rs1 rs2) := by
  intro dbl aq rl rd rs1 rs2
  refine roundTrip_ct _ _ rfl rfl fun h => ?_
  cases dbl <;> cases aq <;> cases rl <;> simp (disch := decide) [decodeCt, isXcopyM, decodeCustom, decodeRv, legalIf, -BitVec.getLsbD_eq_getElem, bit1, encAmo_fields, encAmo_bit, h]
theorem RoundTrip.riscvAmo : ∀ op dbl aq rl rd rs1 rs2, RoundTrip.Statement (.riscvAmo op dbl aq rl rd rs1 rs2) := by
  intro op dbl aq rl rd rs1 rs2
  refine roundTrip_ct _ _ rfl rfl fun h => ?_
  cases op
  case cas => simp [Instr.wellFormed] at h
  all_goals cases dbl <;> cases aq <;> cases rl <;> simp (disch := decide) [decodeCt, isXcopyM, decodeCustom, decodeRv, AmoOp.funct5, legalIf, -BitVec.getLsbD_eq_getElem, bit1, encAmo_fields, encAmo_bit, h]
theorem RoundTrip.registerWrite : ∀ a0 a1 a2, RoundTrip.Statement (.registerWrite a0 a1 a2) := fun _ _ _ => roundTrip_none _ rfl
theorem RoundTrip.mtcfgWrite : ∀ a0 a1, RoundTrip.Statement (.mtcfgWrite a0 a1) := fun _ _ => roundTrip_none _ rfl
theorem RoundTrip.vlWrite : ∀ a0 a1, RoundTrip.Statement (.vlWrite a0 a1) := fun _ _ => roundTrip_none _ rfl
theorem RoundTrip.vspaceWrite : ∀ a0 a1, RoundTrip.Statement (.vspaceWrite a0 a1) := fun _ _ => roundTrip_none _ rfl
theorem RoundTrip.flagCsrAccess : ∀ a0 a1 a2 a3, RoundTrip.Statement (.flagCsrAccess a0 a1 a2 a3) := fun _ _ _ _ => roundTrip_none _ rfl
theorem RoundTrip.satpWrite : ∀ a0 a1, RoundTrip.Statement (.satpWrite a0 a1) := fun _ _ => roundTrip_none _ rfl
theorem RoundTrip.panicmarkWrite : ∀ a0 a1, RoundTrip.Statement (.panicmarkWrite a0 a1) := fun _ _ => roundTrip_none _ rfl
theorem RoundTrip.savectlReady : ∀ a0 a1, RoundTrip.Statement (.savectlReady a0 a1) := fun _ _ => roundTrip_none _ rfl
theorem RoundTrip.perfselSelect : ∀ a0 a1 a2, RoundTrip.Statement (.perfselSelect a0 a1 a2) := fun _ _ _ => roundTrip_none _ rfl
theorem RoundTrip.perfselProgram : ∀ a0 a1 a2, RoundTrip.Statement (.perfselProgram a0 a1 a2) := fun _ _ _ => roundTrip_none _ rfl
theorem RoundTrip.perfselWriteValue : ∀ a0 a1 a2, RoundTrip.Statement (.perfselWriteValue a0 a1 a2) := fun _ _ _ => roundTrip_none _ rfl
theorem RoundTrip.perfselSetThreshold : ∀ a0 a1 a2, RoundTrip.Statement (.perfselSetThreshold a0 a1 a2) := fun _ _ _ => roundTrip_none _ rfl
theorem RoundTrip.perfselClearFlags : ∀ a0 a1 a2, RoundTrip.Statement (.perfselClearFlags a0 a1 a2) := fun _ _ _ => roundTrip_none _ rfl
theorem RoundTrip.perfselSetTraceBuffer : ∀ a0 a1 a2, RoundTrip.Statement (.perfselSetTraceBuffer a0 a1 a2) := fun _ _ _ => roundTrip_none _ rfl
theorem RoundTrip.perfselSetSamplePeriod : ∀ a0 a1 a2, RoundTrip.Statement (.perfselSetSamplePeriod a0 a1 a2) := fun _ _ _ => roundTrip_none _ rfl
theorem RoundTrip.perfselSetBreakpoint : ∀ a0 a1 a2, RoundTrip.Statement (.perfselSetBreakpoint a0 a1 a2) := fun _ _ _ => roundTrip_none _ rfl
theorem RoundTrip.perfselClearBreakpoint : ∀ a0 a1 a2, RoundTrip.Statement (.perfselClearBreakpoint a0 a1 a2) := fun _ _ _ => roundTrip_none _ rfl
theorem RoundTrip.mtfinfoSelect : ∀ a0 a1 a2 a3, RoundTrip.Statement (.mtfinfoSelect a0 a1 a2 a3) := fun _ _ _ _ => roundTrip_none _ rfl
theorem RoundTrip.mtfinfoResume : ∀ a0 a1 a2 a3, RoundTrip.Statement (.mtfinfoResume a0 a1 a2 a3) := fun _ _ _ _ => roundTrip_none _ rfl
theorem RoundTrip.mtfinfoSkip : ∀ a0 a1 a2 a3, RoundTrip.Statement (.mtfinfoSkip a0 a1 a2 a3) := fun _ _ _ _ => roundTrip_none _ rfl
theorem RoundTrip.mtfinfoClear : ∀ a0 a1 a2 a3, RoundTrip.Statement (.mtfinfoClear a0 a1 a2 a3) := fun _ _ _ _ => roundTrip_none _ rfl
theorem RoundTrip.mtfinfoSelectLowest : ∀ a0 a1 a2 a3, RoundTrip.Statement (.mtfinfoSelectLowest a0 a1 a2 a3) := fun _ _ _ _ => roundTrip_none _ rfl
theorem RoundTrip.regqueue : ∀ a0 a1, RoundTrip.Statement (.regqueue a0 a1) := fun _ _ => roundTrip_none _ rfl
theorem RoundTrip.resetqueue : ∀ a0 a1, RoundTrip.Statement (.resetqueue a0 a1) := fun _ _ => roundTrip_none _ rfl
theorem RoundTrip.queueResetComplete : ∀ a0, RoundTrip.Statement (.queueResetComplete a0) := fun _ => roundTrip_none _ rfl
theorem RoundTrip.attest : ∀ a0 a1, RoundTrip.Statement (.attest a0 a1) := fun _ _ => roundTrip_none _ rfl
theorem RoundTrip.assign : ∀ a0 a1, RoundTrip.Statement (.assign a0 a1) := fun _ _ => roundTrip_none _ rfl
theorem RoundTrip.regiontab : ∀ a0 a1, RoundTrip.Statement (.regiontab a0 a1) := fun _ _ => roundTrip_none _ rfl
theorem RoundTrip.fwloadWrite : ∀ a0, RoundTrip.Statement (.fwloadWrite a0) := fun _ => roundTrip_none _ rfl
theorem RoundTrip.mresetWrite : ∀ a0, RoundTrip.Statement (.mresetWrite a0) := fun _ => roundTrip_none _ rfl
theorem RoundTrip.pwrcapWrite : ∀ a0, RoundTrip.Statement (.pwrcapWrite a0) := fun _ => roundTrip_none _ rfl
theorem RoundTrip.hlogWrite : ∀ a0, RoundTrip.Statement (.hlogWrite a0) := fun _ => roundTrip_none _ rfl
theorem RoundTrip.queueDoorbell : ∀ a0 a1 a2 a3, RoundTrip.Statement (.queueDoorbell a0 a1 a2 a3) := fun _ _ _ _ => roundTrip_none _ rfl
theorem RoundTrip.regionDoorbell : ∀ a0 a1 a2, RoundTrip.Statement (.regionDoorbell a0 a1 a2) := fun _ _ _ => roundTrip_none _ rfl
theorem RoundTrip.periodStart : ∀ a0, RoundTrip.Statement (.periodStart a0) := fun _ => roundTrip_none _ rfl
theorem RoundTrip.gangAnchor : ∀ a0 a1, RoundTrip.Statement (.gangAnchor a0 a1) := fun _ _ => roundTrip_none _ rfl
theorem RoundTrip.anchorWindowExpiry : ∀ a0 a1, RoundTrip.Statement (.anchorWindowExpiry a0 a1) := fun _ _ => roundTrip_none _ rfl
theorem RoundTrip.mgmtTaskRelease : ∀ a0, RoundTrip.Statement (.mgmtTaskRelease a0) := fun _ => roundTrip_none _ rfl
theorem RoundTrip.slotCmdBind : ∀ a0 a1, RoundTrip.Statement (.slotCmdBind a0 a1) := fun _ _ => roundTrip_none _ rfl
theorem RoundTrip.slotCmdClear : ∀ a0, RoundTrip.Statement (.slotCmdClear a0) := fun _ => roundTrip_none _ rfl
theorem RoundTrip.slotCmdUnmap : ∀ a0, RoundTrip.Statement (.slotCmdUnmap a0) := fun _ => roundTrip_none _ rfl
theorem RoundTrip.gangStart : ∀ a0 a1, RoundTrip.Statement (.gangStart a0 a1) := fun _ _ => roundTrip_none _ rfl
theorem RoundTrip.preemptForcedStop : ∀ a0, RoundTrip.Statement (.preemptForcedStop a0) := fun _ => roundTrip_none _ rfl
theorem RoundTrip.preemptStop : ∀ a0, RoundTrip.Statement (.preemptStop a0) := fun _ => roundTrip_none _ rfl
theorem RoundTrip.saveComplete : ∀ a0, RoundTrip.Statement (.saveComplete a0) := fun _ => roundTrip_none _ rfl
theorem RoundTrip.vqDistribute : ∀ a0, RoundTrip.Statement (.vqDistribute a0) := fun _ => roundTrip_none _ rfl
theorem RoundTrip.vqRetire : ∀ a0, RoundTrip.Statement (.vqRetire a0) := fun _ => roundTrip_none _ rfl
theorem RoundTrip.mtTakeItem : ∀ a0, RoundTrip.Statement (.mtTakeItem a0) := fun _ => roundTrip_none _ rfl
theorem RoundTrip.blockStart : ∀ a0, RoundTrip.Statement (.blockStart a0) := fun _ => roundTrip_none _ rfl
theorem RoundTrip.linkDeliver : ∀ a0, RoundTrip.Statement (.linkDeliver a0) := fun _ => roundTrip_none _ rfl
theorem RoundTrip.mtDataReturn : ∀ a0, RoundTrip.Statement (.mtDataReturn a0) := fun _ => roundTrip_none _ rfl
theorem RoundTrip.pageWalkComplete : ∀ a0 a1, RoundTrip.Statement (.pageWalkComplete a0 a1) := fun _ _ => roundTrip_none _ rfl
theorem RoundTrip.engineCommandStart : ∀ a0, RoundTrip.Statement (.engineCommandStart a0) := fun _ => roundTrip_none _ rfl
theorem RoundTrip.engineCommandComplete : ∀ a0, RoundTrip.Statement (.engineCommandComplete a0) := fun _ => roundTrip_none _ rfl
theorem RoundTrip.engineFault : ∀ a0, RoundTrip.Statement (.engineFault a0) := fun _ => roundTrip_none _ rfl
theorem RoundTrip.collectiveContribution : ∀ a0 a1, RoundTrip.Statement (.collectiveContribution a0 a1) := fun _ _ => roundTrip_none _ rfl
theorem RoundTrip.homeReadRequest : ∀ a0 a1 a2, RoundTrip.Statement (.homeReadRequest a0 a1 a2) := fun _ _ _ => roundTrip_none _ rfl
theorem RoundTrip.homeWriteRequest : ∀ a0 a1 a2 a3 a4, RoundTrip.Statement (.homeWriteRequest a0 a1 a2 a3 a4) := fun _ _ _ _ _ => roundTrip_none _ rfl
theorem RoundTrip.recall : ∀ a0 a1, RoundTrip.Statement (.recall a0 a1) := fun _ _ => roundTrip_none _ rfl
theorem RoundTrip.forwardServed : ∀ a0 a1, RoundTrip.Statement (.forwardServed a0 a1) := fun _ _ => roundTrip_none _ rfl
theorem RoundTrip.recallTimeout : ∀ a0, RoundTrip.Statement (.recallTimeout a0) := fun _ => roundTrip_none _ rfl
theorem RoundTrip.windowAccess : ∀ a0 a1 a2 a3 a4, RoundTrip.Statement (.windowAccess a0 a1 a2 a3 a4) := fun _ _ _ _ _ => roundTrip_none _ rfl
theorem RoundTrip.sliceClampSweep : ∀ a0, RoundTrip.Statement (.sliceClampSweep a0) := fun _ => roundTrip_none _ rfl
theorem RoundTrip.counterWrap : ∀ a0, RoundTrip.Statement (.counterWrap a0) := fun _ => roundTrip_none _ rfl
theorem RoundTrip.counterThreshold : ∀ a0, RoundTrip.Statement (.counterThreshold a0) := fun _ => roundTrip_none _ rfl
theorem RoundTrip.breakpointFire : ∀ a0 a1, RoundTrip.Statement (.breakpointFire a0 a1) := fun _ _ => roundTrip_none _ rfl
theorem RoundTrip.coreRetire : ∀ a0, RoundTrip.Statement (.coreRetire a0) := fun _ => roundTrip_none _ rfl
theorem RoundTrip.spareMapped : ∀ a0, RoundTrip.Statement (.spareMapped a0) := fun _ => roundTrip_none _ rfl
theorem RoundTrip.coreSelfTestEnd : ∀ a0 a1, RoundTrip.Statement (.coreSelfTestEnd a0 a1) := fun _ _ => roundTrip_none _ rfl
theorem RoundTrip.lanternCatch : ∀ a0 a1 a2 a3, RoundTrip.Statement (.lanternCatch a0 a1 a2 a3) := fun _ _ _ _ => roundTrip_none _ rfl
theorem RoundTrip.fatalError : ∀ a0, RoundTrip.Statement (.fatalError a0) := fun _ => roundTrip_none _ rfl
theorem RoundTrip.ctScalarLoad : ∀ kind rd rs1 off, RoundTrip.Statement (.ctScalarLoad kind rd rs1 off) := by
  intro kind rd rs1 off
  refine roundTrip_ct _ _ rfl rfl fun h => ?_
  obtain ⟨size, signed⟩ := kind
  have hs : signed = true ∨ size ≠ 3#2 := by simpa [Instr.wellFormed] using h
  have hn : ¬(BitVec.ofBool (!signed) ++ size : BitVec 3) = 7#3 := by
    clear h; revert hs; revert size; cases signed <;> decide
  simp (disch := decide) [decodeCt, isXcopyM, decodeCustom, decodeRv, legalIf, cat_1_2, -BitVec.getLsbD_eq_getElem, bit1, encLoad_fields, encLoad_bit, hn, h]
theorem RoundTrip.ctScalarStore : ∀ kind rs2 rs1 off, RoundTrip.Statement (.ctScalarStore kind rs2 rs1 off) := by
  intro kind rs2 rs1 off
  refine roundTrip_ct _ _ rfl rfl fun h => ?_
  simp (disch := decide) [decodeCt, isXcopyM, decodeCustom, decodeRv, legalIf, cat_1_2, -BitVec.getLsbD_eq_getElem, encR_fields, encR_bit, split_offset, h]
theorem RoundTrip.restoreComplete : ∀ a0, RoundTrip.Statement (.restoreComplete a0) := fun _ => roundTrip_none _ rfl
theorem RoundTrip.staleMessage : ∀ a0 a1, RoundTrip.Statement (.staleMessage a0 a1) := fun _ _ => roundTrip_none _ rfl
theorem RoundTrip.hostCxlRead : ∀ a0 a1, RoundTrip.Statement (.hostCxlRead a0 a1) := fun _ _ => roundTrip_none _ rfl
theorem RoundTrip.hostCxlWrite : ∀ a0 a1 a2, RoundTrip.Statement (.hostCxlWrite a0 a1 a2) := fun _ _ _ => roundTrip_none _ rfl
theorem RoundTrip.sramScrub : ∀ a0, RoundTrip.Statement (.sramScrub a0) := fun _ => roundTrip_none _ rfl
theorem RoundTrip.ddrPatrolScrub : ∀ a0, RoundTrip.Statement (.ddrPatrolScrub a0) := fun _ => roundTrip_none _ rfl
theorem RoundTrip.guylineDown : ∀ a0, RoundTrip.Statement (.guylineDown a0) := fun _ => roundTrip_none _ rfl
theorem RoundTrip.guylineRetrain : ∀ a0, RoundTrip.Statement (.guylineRetrain a0) := fun _ => roundTrip_none _ rfl
theorem RoundTrip.dieClockGate : ∀ a0, RoundTrip.Statement (.dieClockGate a0) := fun _ => roundTrip_none _ rfl
theorem RoundTrip.diePowerGate : ∀ a0, RoundTrip.Statement (.diePowerGate a0) := fun _ => roundTrip_none _ rfl
theorem RoundTrip.thermalWarning : ∀ a0 a1, RoundTrip.Statement (.thermalWarning a0 a1) := fun _ _ => roundTrip_none _ rfl
theorem RoundTrip.thermalHold : ∀ a0 a1, RoundTrip.Statement (.thermalHold a0 a1) := fun _ _ => roundTrip_none _ rfl
theorem RoundTrip.thermalRelease : ∀ a0 a1, RoundTrip.Statement (.thermalRelease a0 a1) := fun _ _ => roundTrip_none _ rfl
theorem RoundTrip.thermalHoldLimit : ∀ a0, RoundTrip.Statement (.thermalHoldLimit a0) := fun _ => roundTrip_none _ rfl
theorem RoundTrip.coolantOutOfLimits : ∀ a0 a1, RoundTrip.Statement (.coolantOutOfLimits a0 a1) := fun _ _ => roundTrip_none _ rfl
theorem RoundTrip.managementCoreGate : ∀ a0, RoundTrip.Statement (.managementCoreGate a0) := fun _ => roundTrip_none _ rfl
theorem RoundTrip.powerLoss : ∀ a0, RoundTrip.Statement (.powerLoss a0) := fun _ => roundTrip_none _ rfl
theorem RoundTrip.storageError : ∀ a0 a1, RoundTrip.Statement (.storageError a0 a1) := fun _ _ => roundTrip_none _ rfl
theorem RoundTrip.vsync : RoundTrip.Statement .vsync := roundTrip_ct _ _ rfl rfl fun _ => by decide
theorem RoundTrip.jtrig : RoundTrip.Statement .jtrig := roundTrip_ct _ _ rfl rfl fun _ => by decide
theorem RoundTrip.fenceI : RoundTrip.Statement .fenceI := roundTrip_ct _ _ rfl rfl fun _ => by decide
theorem RoundTrip.wfi : RoundTrip.Statement .wfi := roundTrip_ct _ _ rfl rfl fun _ => by decide
theorem RoundTrip.moduleReset : RoundTrip.Statement .moduleReset := roundTrip_none _ rfl
theorem RoundTrip.capApplied : RoundTrip.Statement .capApplied := roundTrip_none _ rfl
theorem RoundTrip.sheepdogPass : RoundTrip.Statement .sheepdogPass := roundTrip_none _ rfl
theorem RoundTrip.trapTaken : RoundTrip.Statement .trapTaken := roundTrip_none _ rfl
theorem RoundTrip.ctWaitComplete : RoundTrip.Statement .ctWaitComplete := roundTrip_none _ rfl
theorem RoundTrip.waitaWake : RoundTrip.Statement .waitaWake := roundTrip_none _ rfl
theorem RoundTrip.waitaTimeout : RoundTrip.Statement .waitaTimeout := roundTrip_none _ rfl
theorem RoundTrip.ltimeSelfIncrement : RoundTrip.Statement .ltimeSelfIncrement := roundTrip_none _ rfl
theorem RoundTrip.leaseDrop : RoundTrip.Statement .leaseDrop := roundTrip_none _ rfl
theorem RoundTrip.moduleTimeBroadcast : RoundTrip.Statement .moduleTimeBroadcast := roundTrip_none _ rfl
theorem RoundTrip.perfSample : RoundTrip.Statement .perfSample := roundTrip_none _ rfl
theorem RoundTrip.lanternReplay : RoundTrip.Statement .lanternReplay := roundTrip_none _ rfl
theorem RoundTrip.sheepdogWatchdog : RoundTrip.Statement .sheepdogWatchdog := roundTrip_none _ rfl
theorem RoundTrip.fatalCoreTimeout : RoundTrip.Statement .fatalCoreTimeout := roundTrip_none _ rfl
theorem RoundTrip.sret : RoundTrip.Statement .sret := roundTrip_ct _ _ rfl rfl fun _ => by decide

end Sys2Proof.Laws
end

