-- ==== Sys2Proof/Laws/Words.lean ====
section
/-! SUPPORT. Micro-thread words: what the shared operations of their meanings do, said once. -/

namespace Sys2Proof.Machine

/-- A word whose sources are intact has its effect. -/
theorem State.word_intact {s : State} {i : Instr} (f : State → State) (h : s.intact i) : s.word i f = .next (f s) := by
  unfold State.word; rw [h]
/-- A word whose source register `r` is uncorrectable faults with code 14 and has no other effect. -/
theorem State.word_lost {s : State} {i : Instr} {r : Nat} (f : State → State) (h : s.lostSource i = some r) :
    s.word i f = .next (s.mtFaultAt 14 0 s.me.blk s.me.ix (BitVec.ofNat 64 r) true) := by
  unfold State.word; rw [h]

@[simp] theorem State.reg_wordDone (s : State) (r : Nat) : s.wordDone.reg r = s.reg r := rfl
@[simp] theorem State.opnd_wordDone (s : State) (w : BitVec 2) (b : VReg) : s.wordDone.opnd w b = s.opnd w b := rfl
/-- The micro-thread that runs has gone on by one word. -/
@[simp] theorem State.me_wordDone (s : State) : s.wordDone.me = s.me.next := by simp [State.wordDone, State.me]
@[simp] theorem State.reg_setReg_self (s : State) (r : Nat) (v : MWord) : (s.setReg r v).reg r = v := by
  simp [State.setReg, State.reg]
theorem State.reg_setReg (s : State) (r q : Nat) (v : MWord) : (s.setReg r v).reg q = if q = r then v else s.reg q := by
  simp [State.setReg, State.reg, State.vreg_setVreg, regSlot_inj]
theorem State.pair_setPair (s : State) (r : Nat) (v : Word) : (s.setPair r v).pair r = v := by
  have h : v.extractLsb' 32 32 ++ v.extractLsb' 0 32 = v := by
    refine BitVec.eq_of_getLsbD_eq fun i hi => ?_
    simp only [BitVec.getLsbD_append, BitVec.getLsbD_extractLsb']
    split
    · simp [*]
    · rw [show 32 + (i - 32) = i by omega]; simp; omega
  simp [State.setPair, State.pair, State.reg_setReg, h]

/-- D reads back as it was written: whole under .p, its low 32 bits else. -/
theorem State.opnd_setD (s : State) (w : BitVec 2) (d : VReg) (v : Word) :
    (s.setD w d v).opnd w d = if w = 3 then v else (v.setWidth 32).setWidth 64 := by
  unfold State.opnd State.setD
  split
  · exact State.pair_setPair s _ v
  · simp

/-- Raising no flag changes no record. -/
@[simp] theorem FlagIx.raise_zero (f : FlagIx) (m : Nat) : f.raise m 0#5 = f := by simp [FlagIx.raise, lowIx]
theorem queue_raise_zero (q : List Entry) (id m : Nat) :
    (q.map fun e => if e.id = id then { e with flags := e.flags.raise m 0 } else e) = q := by simp
/-- The entries after flags are raised. -/
theorem State.raiseFlags_queue (s : State) (fl : Flags) : (s.raiseFlags fl).core.vec.queue =
    s.core.vec.queue.map fun e => if e.id = s.me.entry then { e with flags := e.flags.raise s.core.curMt fl } else e := by
  unfold State.raiseFlags State.raiseAt
  split
  · subst_vars; rw [queue_raise_zero]
  · rfl

/-- Writing one register, raising flags and ending the word. -/
theorem State.setReg_does (s : State) (r : Nat) (v : MWord) (fl : Flags) :
    WordDoes s ((s.setReg r v).raiseFlags fl).wordDone [r] fl false Mt.next := by
  have hv : ((s.setReg r v).raiseFlags fl).besideWord = s.besideWord ∧ ((s.setReg r v).raiseFlags fl).core.vec.mts = s.core.vec.mts ∧
      ((s.setReg r v).raiseFlags fl).core.vec.regs = (s.setReg r v).core.vec.regs ∧
      ((s.setReg r v).raiseFlags fl).core.vec.regDirty = (s.setReg r v).core.vec.regDirty ∧
      ((s.setReg r v).raiseFlags fl).core.vec.high = (s.setReg r v).core.vec.high ∧
      ((s.setReg r v).raiseFlags fl).core.vec.masks = s.core.vec.masks ∧
      ((s.setReg r v).raiseFlags fl).core.curMt = s.core.curMt ∧
      ((s.setReg r v).raiseFlags fl).core.vec.stamps = (s.setReg r v).core.vec.stamps ∧
      ((s.setReg r v).raiseFlags fl).core.vec.early = (s.setReg r v).core.vec.early ∧
      ((s.setReg r v).raiseFlags fl).core.events = s.core.events ∧
      ((s.setReg r v).raiseFlags fl).core.vec.pipe = s.core.vec.pipe := by
    unfold State.raiseFlags State.raiseAt
    split <;> exact ⟨rfl, rfl, rfl, rfl, rfl, rfl, rfl, rfl, rfl, rfl, rfl⟩
  obtain ⟨h1, h2, h3, h4, h5, h6, h7, h8, h9, h10, h11⟩ := hv
  refine ⟨fun k hk => ?_, fun q hq => ?_, ?_, fun k hk => ?_, fun e he => ?_, .inl (by rw [State.wordDone_vec_pipe, h11]), fun e _ => ?_, fun k => ?_, ?_, fun m => ?_, h1⟩
  · have := hk r (by simp)
    rw [State.wordDone_vec_regs, h3]
    simp [State.setReg, Store.get_set, this]
  · rw [State.wordDone_vec_regDirty, h4]
    simp [State.setReg, BitVec.getLsbD_twoPow]
    grind
  · rw [State.wordDone_vec_high, h5]
    simp [State.setReg]
  · have := hk r (by simp)
    rw [State.wordDone_vec_stamps, h8]
    simp [State.setReg, Store.get_set, this]
  · rw [State.wordDone_vec_early, h9] at he
    exact ⟨e, he, rfl⟩
  · rw [State.wordDone_events, h10]
  · simp [State.mask, Vec.maskOf, h6]
  · exact State.raiseFlags_queue _ _
  · simp only [State.wordDone, State.mt_onMt, h7]
    simp only [State.mt, Vec.mt, h2]
    split <;> simp_all

/-- Writing one register and ending the word. -/
theorem State.setReg_writes (s : State) (r : Nat) (v : MWord) : WordWrites s (s.setReg r v).wordDone [r] :=
  State.setReg_does s r v 0

/-- Writing a pair and ending the word. -/
theorem State.setPair_writes (s : State) (d : VReg) (v : Word) : WordWrites s (s.setPair d.toNat v).wordDone (span d 2) := by
  refine ⟨fun k hk => ?_, fun q hq => ?_, ?_, fun k hk => ?_, fun e he => ?_, .inl rfl, fun e _ => rfl, fun k => ?_, ?_, fun m => ?_, rfl⟩
  · have h0 := hk d.toNat (by simp [span, List.range_succ])
    have h1 := hk (d.toNat + 1) (by simp [span, List.range_succ])
    simp [State.setPair, State.setReg, Store.get_set, h0, h1]
  · simp [State.setPair, State.setReg, BitVec.getLsbD_twoPow, span, List.range_succ]
    grind
  · simp [State.setPair, State.setReg, span, List.range_succ]
  · have h0 := hk d.toNat (by simp [span, List.range_succ])
    have h1 := hk (d.toNat + 1) (by simp [span, List.range_succ])
    simp [State.setPair, State.setReg, Store.get_set, h0, h1]
  · exact ⟨e, he, rfl⟩
  · simp [State.mask, Vec.maskOf, State.setPair, State.setReg]
  · rw [queue_raise_zero]; rfl
  · simp only [State.wordDone, State.setPair, State.setReg, State.mt_onMt, State.mt_setVreg, State.setVreg_curMt]
    split <;> simp_all

/-- Writing D under a width class and ending the word. -/
theorem State.setD_writes (s : State) (w : BitVec 2) (d : VReg) (v : Word) :
    WordWrites s (s.setD w d v).wordDone (span d (widthSpan w)) := by
  unfold State.setD widthSpan
  split
  · exact State.setPair_writes s d v
  · simpa [span, List.range_succ] using State.setReg_writes s d.toNat _

/-! ## Lanes -/

/-- The lanes of a register, taken apart again. -/
theorem lane32 (x : BitVec 32) : (x.setWidth 64).extractLsb' 0 32 = x := by
  refine BitVec.eq_of_getLsbD_eq fun i hi => ?_
  simp only [BitVec.getLsbD_extractLsb', BitVec.getLsbD_setWidth]
  grind
theorem lanes16 (x0 x1 : BitVec 16) {l : Nat} (h : l < 2) :
    ((x1 ++ x0).setWidth 64).extractLsb' (16 * l) 16 = if l = 0 then x0 else x1 := by
  refine BitVec.eq_of_getLsbD_eq fun i hi => ?_
  obtain rfl | rfl : l = 0 ∨ l = 1 := by omega
  all_goals
    simp only [BitVec.getLsbD_extractLsb', BitVec.getLsbD_setWidth, BitVec.getLsbD_append]
    grind
theorem lanes8 (x0 x1 x2 x3 : BitVec 8) {l : Nat} (h : l < 4) :
    ((x3 ++ x2 ++ x1 ++ x0).setWidth 64).extractLsb' (8 * l) 8
      = if l = 0 then x0 else if l = 1 then x1 else if l = 2 then x2 else x3 := by
  refine BitVec.eq_of_getLsbD_eq fun i hi => ?_
  obtain rfl | rfl | rfl | rfl : l = 0 ∨ l = 1 ∨ l = 2 ∨ l = 3 := by omega
  all_goals
    simp only [BitVec.getLsbD_extractLsb', BitVec.getLsbD_setWidth, BitVec.getLsbD_append]
    grind

/-- A lane of the result is the operation of the same lanes of the operands. -/
theorem laneOf_intLanes (w : BitVec 2) (op : (n : Nat) → BitVec n → BitVec n → BitVec n) (a b : Word) {l : Nat}
    (h : l < laneCount w) : laneOf w l (intLanes w op a b) = op (laneBits w) (laneOf w l a) (laneOf w l b) := by
  have h4 : w = 0 ∨ w = 1 ∨ w = 2 ∨ w = 3 := by clear h; revert w; decide
  rcases h4 with rfl | rfl | rfl | rfl
  · obtain rfl : l = 0 := by change l < 1 at h; omega
    exact lane32 _
  · have hl : l < 2 := h
    refine (lanes16 _ _ hl).trans ?_
    obtain rfl | rfl : l = 0 ∨ l = 1 := by omega
    all_goals rfl
  · have hl : l < 4 := h
    refine (lanes8 _ _ _ _ hl).trans ?_
    obtain rfl | rfl | rfl | rfl : l = 0 ∨ l = 1 ∨ l = 2 ∨ l = 3 := by omega
    all_goals rfl
  · obtain rfl : l = 0 := by change l < 1 at h; omega
    change (op 64 (a.extractLsb' 0 64) (b.extractLsb' 0 64)).extractLsb' 0 64 = op 64 (a.extractLsb' 0 64) (b.extractLsb' 0 64)
    simp

/-- The lanes of a 32-bit register lie in its low 32 bits. -/
theorem laneOf_low (w : BitVec 2) (hw : w ≠ 3) (v : Word) {l : Nat} (h : l < laneCount w) :
    laneOf w l ((v.setWidth 32).setWidth 64) = laneOf w l v := by
  refine BitVec.eq_of_getLsbD_eq fun i hi => ?_
  have h4 : w = 0 ∨ w = 1 ∨ w = 2 := by clear h hi; revert w; decide
  have hb : laneBits w * l + i < 32 := by
    rcases h4 with rfl | rfl | rfl
    · change l < 1 at h; change i < 32 at hi; change 32 * l + i < 32; omega
    · change l < 2 at h; change i < 16 at hi; change 16 * l + i < 32; omega
    · change l < 4 at h; change i < 8 at hi; change 8 * l + i < 32; omega
  simp only [laneOf, BitVec.getLsbD_extractLsb', BitVec.getLsbD_setWidth]
  grind
/-- Lanes of D after the word. -/
theorem laneOf_setD (s : State) (w : BitVec 2) (d : VReg) (v : Word) {l : Nat} (h : l < laneCount w) :
    laneOf w l ((s.setD w d v).wordDone.opnd w d) = laneOf w l v := by
  rw [State.opnd_wordDone, State.opnd_setD]
  split
  · rfl
  · exact laneOf_low w ‹_› v h

/-- An integer word of A and B (06 R126). -/
theorem intWord_next {s : State} {i : Instr} {w : BitVec 2} {d a b : VReg} {op : (n : Nat) → BitVec n → BitVec n → BitVec n}
    (h : s.intact i) : ∃ t, intWord i w d a b op s = .next t ∧
      (∀ l < laneCount w, laneOf w l (t.opnd w d) = op _ (laneOf w l (s.opndA w a)) (laneOf w l (s.opnd w b))) ∧
      WordWrites s t (span d (widthSpan w)) :=
  ⟨_, State.word_intact _ h, fun l hl => by rw [laneOf_setD s w d _ hl, laneOf_intLanes w op _ _ hl], State.setD_writes s w d _⟩
/-- An integer word of A alone. -/
theorem intWord1_next {s : State} {i : Instr} {w : BitVec 2} {d a : VReg} {op : (n : Nat) → BitVec n → BitVec n}
    (h : s.intact i) : ∃ t, intWord1 i w d a op s = .next t ∧
      (∀ l < laneCount w, laneOf w l (t.opnd w d) = op _ (laneOf w l (s.opndA w a))) ∧
      WordWrites s t (span d (widthSpan w)) :=
  ⟨_, State.word_intact _ h,
    fun l hl => by rw [laneOf_setD s w d _ hl, laneOf_intLanes w (fun n x _ => op n x) _ _ hl], State.setD_writes s w d _⟩
/-- A word whose result is one register. -/
theorem oneWord_next {s : State} {i : Instr} {d : VReg} {f : State → MWord} (h : s.intact i) :
    ∃ t, oneWord i d f s = .next t ∧ t.reg d.toNat = f s ∧ WordWrites s t [d.toNat] :=
  ⟨_, State.word_intact _ h, by simp, State.setReg_writes s _ _⟩

end Sys2Proof.Machine
end

