-- ==== Sys2Proof/Tests/Slice0.lean ====
section
/-! SUPPORT. The model's own tests: instructions that are refused as ill formed, words written out from the encoding tables, one
step on small states with results that the manual works out, and, for each statement, a state that meets its hypotheses. -/

-- The theorems of this file are checked one after another, so that checking it takes few threads.
set_option Elab.async false

namespace Sys2Proof.Tests

open Sys2Proof Sys2Proof.Machine

/-! ## States -/

/-- A core at user level whose micro-thread 0 is ready to run a word, with registers. -/
def mtWith (rs : List (Nat × MWord)) : State := rs.foldl (fun s r => s.setReg r.1 r.2) (State.reset.loadWord 0)
/-- A core that runs a job at user level, with x registers. -/
def ctWith (xs : List (XReg × Word)) : State := xs.foldl (fun s r => s.setX r.1 r.2) (State.reset.loadCt 0)
/-- The same core at supervisor level. -/
def kernelWith (xs : List (XReg × Word)) : State := (ctWith xs).onCt fun c => { c with user := false }
/-- The state after an instruction. -/
def after (i : Instr) (s : State) : State := match exec i s with | .next t => t | _ => s

/-- With a vector length. -/
def withVl (n : Nat) (s : State) : State := s.onCsr fun c => { c with vl := n }
/-- With a grant. -/
def granted (n : Nat) (s : State) : State := { s with core := { s.core with grant := n } }
/-- An entry of a queue, as issued with VL 4. -/
def entryOf (q : VQueue) (op : VOp) : Entry :=
  { id := 0, q := q, op := op, vl := 4, space := 0, mask := 0, vfrm := 0, pc := 0, resumed := false, distributed := false, after := 0, dt := false, value := 0,
    flags := .none }
/-- With entries in the vector queues. -/
def withQueue (es : List Entry) (s : State) : State := s.onVec fun v => { v with queue := es }

/-! ## Ill-formed instructions are refused -/

/-- One term for each check of WellFormed.lean. -/
theorem test_ill_formed : ∀ i ∈ ([.add 3 1 2 4, .clz 3 2 1, .bfx false 0 0 32 0, .bfi 0 0 0 40, .fadd 3 0 0 0, .fma 3 0 0 0 0, .cvtN 3 0 0 0 0,
    .cvtW 1 0 0 0 0, .cvtFi 3 0 0, .cvtq4 0 4 0, .mxscale true 2 0 0 0 0, .mxscale false 0 3 0 0 0, .pnix 1 0 0 0, .pnit 9 0 0 0, .ld 2 0 1 0,
    .st 3 1 2 0, .lds 3 1 0 0, .amo 1 0 0 2 0 0, .amo 2 10 0 2 0 0, .amo 2 0 0 0 0 0, .amos 2 9 0 1 1 0, .mfence 5 1 1, .mfence 2 0 1,
    .mfence 2 1 0, .pxf false 2 4 0, .padd false false 0 0 2, .pretag false 0 1, .mfetchr 3, .vectorCarrier 11 false 0 0, .vfetch 11 0,
    .kcmp 6 0 0 0, .kcmp 0 10 0 0, .klog 0 0 11 0, .ksbf 10 0, .kpop 0 12, .kget 0 11 0, .kput 10 0 0, .vld 11 0 0 0, .vld 0 1 3 0,
    .vlds 0 0 0 0 0, .vsts 0 0 0 0 0, .vldmx 0 1 false 0 0, .vamo 0 0 10 1 0, .vamo 0 0 0 0 0, .vamo 0 1 9 1 0, .xcopy false false 5 0 0 0,
    .xcopyM false false 5 0 0 0 0, .mma 13 0 0 0 0, .mma 0 3 0 0 0, .mmas 13 0 0 0, .mdrain 4 0 0 0 0, .mdrain 0 3 0 0 0, .ofence 0 1 1,
    .ofence 1 1 5, .notify 0 0 0, .riscvAmo .cas false false false 0 0 0, .registerWrite (.csr 0x800) 0 0, .registerWrite (.mmio 0 8) 0 0,
    .regqueue 257 0, .slotCmdClear 192, .mtTakeItem 8192, .homeReadRequest 568 0 0, .sliceClampSweep 4, .counterWrap 12,
    .coreRetire 192, .fatalError 0, .ctScalarLoad ⟨3, false⟩ 0 0 0, .guylineDown 24, .dieClockGate 4, .managementCoreGate 4] : List Instr),
    i.wellFormed = false := by decide +kernel

/-! ## Words written out -/

/-- Integer words, each written out from the fields of spec/opcode_table.json. -/
theorem test_decode_integer : ∀ p ∈ ([(0x40893141, .add 1 5 19 34), (0x41893141, .sub 1 5 19 34), (0x42893141, .and 1 5 19 34), (0x43893141, .or 1 5 19 34),
   (0x44893141, .xor 1 5 19 34), (0x45893141, .andn 1 5 19 34), (0x46893141, .sll 1 5 19 34), (0x47893141, .srl 1 5 19 34),
   (0x48893141, .sra 1 5 19 34), (0x49893141, .min 1 5 19 34), (0x4A893141, .max 1 5 19 34), (0x4B893141, .minu 1 5 19 34),
   (0x4C893141, .maxu 1 5 19 34), (0x4D893141, .slt 1 5 19 34), (0x4E893141, .sltu 1 5 19 34), (0x4F893141, .seq 1 5 19 34),
   (0x50893141, .mul 1 5 19 34), (0x51893141, .mulh 1 5 19 34), (0x52893141, .mulhu 1 5 19 34), (0x53893141, .div 1 5 19 34),
   (0x54893141, .divu 1 5 19 34), (0x55893141, .rem 1 5 19 34), (0x56893141, .remu 1 5 19 34), (0x57013141, .clz 1 5 19),
   (0x58013141, .ctz 1 5 19), (0x59013141, .popc 1 5 19)] : List (BitVec 32 × Instr)),
    decodeMt p.1 = some p.2 := by decide +kernel

/-- Registers words, each written out from the fields of spec/opcode_table.json. -/
theorem test_decode_registers : ∀ p ∈ ([(0x29893142, .sel 5 19 34 41), (0x4A0D3143, .bfx true 5 19 3 10), (0x0A0D3144, .bfi 5 19 3 10), (0x00893145, .rget 5 19 34),
   (0x00893146, .rput 5 19 34), (0x00000147, .mtid 5), (0x01000147, .lnkrd 5), (0x02013007, .lnkwr 19)] : List (BitVec 32 × Instr)),
    decodeMt p.1 = some p.2 := by decide +kernel

/-- Immediate words, each written out from the fields of spec/opcode_table.json. -/
theorem test_decode_immediate : ∀ p ∈ ([(0x0A953150, .addi 5 19 0x2a5), (0x0A953151, .andi 5 19 0x2a5), (0x0A953152, .ori 5 19 0x2a5), (0x0A953153, .xori 5 19 0x2a5),
   (0x00553154, .slli 5 19 21), (0x00553155, .srli 5 19 21), (0x00553156, .srai 5 19 21), (0xABCDE157, .lui 5 0xabcde)] : List (BitVec 32 × Instr)),
    decodeMt p.1 = some p.2 := by decide +kernel

/-- Float words, each written out from the fields of spec/opcode_table.json. -/
theorem test_decode_float : ∀ p ∈ ([(0x40893158, .fadd 1 5 19 34), (0x41893158, .fsub 1 5 19 34), (0x42893158, .fmul 1 5 19 34), (0x43893158, .fdiv 1 5 19 34),
   (0x44013158, .fsqrt 1 5 19), (0x45893158, .fmin 1 5 19 34), (0x46893158, .fmax 1 5 19 34), (0x47893158, .feq 1 5 19 34),
   (0x48893158, .flt 1 5 19 34), (0x49893158, .fle 1 5 19 34), (0x4A893158, .fsgnj 1 5 19 34), (0x4B893158, .fsgnjn 1 5 19 34),
   (0x4C893158, .fsgnjx 1 5 19 34), (0x4D013158, .fclass 1 5 19), (0x69893159, .fma 1 5 19 34 41), (0x6989315A, .fms 1 5 19 34 41),
   (0x6989315B, .fnma 1 5 19 34 41), (0x4001315C, .frcp true 5 19), (0x4101315C, .frsq true 5 19), (0x4201315C, .fexp2 true 5 19),
   (0x4301315C, .flog2 true 5 19), (0x4401315C, .fsinpi true 5 19), (0x4501315C, .fcospi true 5 19), (0x4601315C, .ftanh true 5 19),
   (0x4701315C, .fsigm true 5 19)] : List (BitVec 32 × Instr)),
    decodeMt p.1 = some p.2 := by decide +kernel

/-- Convert words, each written out from the fields of spec/opcode_table.json. -/
theorem test_decode_convert : ∀ p ∈ ([(0x0189315D, .cvtN 0 1 5 19 34), (0x1901315D, .cvtW 0 1 1 5 19), (0xA001315D, .cvtFi 2 5 19), (0x7001315D, .cvtIf 1 5 19),
   (0x0089815E, .cvtq4 5 24 34), (0x4989315F, .mxscale true 1 1 5 19 34), (0x05893160, .pnix 5 5 19 34), (0x05893161, .pnit 5 5 19 34)] : List (BitVec 32 × Instr)),
    decodeMt p.1 = some p.2 := by decide +kernel

/-- Memory words, each written out from the fields of spec/opcode_table.json. -/
theorem test_decode_memory : ∀ p ∈ ([(0xA7112168, .ld 2 5 18 0x9c4), (0xA7112169, .st 2 5 18 0x9c4), (0xA711316A, .lds 2 5 19 0x9c4), (0xA711316B, .sts 2 5 19 0x9c4),
   (0x8D41216C, .amo 2 3 1 2 5 18), (0xA54131AD, .amos 2 9 1 2 6 19), (0x1640002E, .mfence 2 3 1)] : List (BitVec 32 × Instr)),
    decodeMt p.1 = some p.2 := by decide +kernel

/-- Frame words, each written out from the fields of spec/opcode_table.json. -/
theorem test_decode_frame : ∀ p ∈ ([(0x02894230, .pxf true 8 20 34), (0x03914231, .padd true true 8 20 36), (0x03914232, .psub true true 8 20 36), (0x02014233, .pretag true 8 20),
   (0x02894234, .prot true 8 20 34), (0x00013175, .pchk 5 19)] : List (BitVec 32 × Instr)),
    decodeMt p.1 = some p.2 := by decide +kernel

/-- Chain words, each written out from the fields of spec/opcode_table.json. -/
theorem test_decode_chain : ∀ p ∈ ([(0xFFFF9038, .mfetch 0xffff9), (0x00012039, .mfetchr 18), (0x029C003A, .mtrap 0xa7)] : List (BitVec 32 × Instr)),
    decodeMt p.1 = some p.2 := by decide +kernel

/-- Dispatch words, each written out from the fields of spec/opcode_table.json. -/
theorem test_decode_dispatch : ∀ p ∈ ([(0x0009038B, .mtconf 7 18), (0x0209038B, .setvl 7 18), (0x0400000B, .vsync), (0x0609000B, .vlnkput 18),
   (0x0800038B, .vlnkget 7), (0x0A39000B, .vfetch 3 18), (0x02C9138B, .vget 44 18 7), (0x06C91B8B, .vput 44 18 23),
   (0x8933220B, .kcmp 4 3 19 34), (0x9653300B, .klog 9 3 5 6), (0x0053400B, .ksbf 3 5), (0x0853400B, .ksif 3 5),
   (0x1053400B, .ksof 3 5), (0x1850438B, .kpop 7 5), (0x2050438B, .kfirst 7 5), (0x5009538B, .kget 7 5 18),
   (0x39D9500B, .kput 3 18 29)] : List (BitVec 32 × Instr)),
    decodeCt p.1 0 = some p.2 := by decide +kernel

/-- Vector memory words, each written out from the fields of spec/opcode_table.json. -/
theorem test_decode_vector_memory : ∀ p ∈ ([(0x3B29002B, .vld 3 44 2 18), (0x3B290AAB, .vlds 3 44 2 18 21), (0x3B29102B, .vst 3 44 2 18), (0x3B291AAB, .vsts 3 44 2 18 21),
   (0x3B1926AB, .vldx 3 44 1 18 13), (0x3B292EAB, .vstx 3 44 2 18 13), (0x3B293AAB, .vldff 3 44 2 18 21), (0x3B1944AB, .vldmx 3 44 true 18 9),
   (0x3B3944AB, .vstmx 3 44 true 18 9), (0x3B255A2B, .vamo 3 44 9 2 20), (0x3B0963AB, .vappend 3 44 18 7), (0x075963AB, .vclaim 7 18 29),
   (0x082963AB, .ldsc true 7 18), (0x0F79602B, .stsc true 29 18)] : List (BitVec 32 × Instr)),
    decodeCt p.1 0 = some p.2 := by decide +kernel

/-- Engine words, each written out from the fields of spec/opcode_table.json. -/
theorem test_decode_engine : ∀ p ∈ ([(0x91D903DB, .xcopy true false 2 7 18 29), (0x95D903DB, .xfill true false 2 7 18 29), (0x91D913DB, .xgather true false 2 7 18 29), (0x93D913DB, .xscatter true false 2 7 18 29),
   (0x91D923DB, .xcollReduce true false 2 7 18 29), (0x93D923DB, .xcollBroadcast true false 2 7 18 29), (0x95D923DB, .xcollAllgather true false 2 7 18 29), (0x000933DB, .xresume 7 18),
   (0x020933DB, .xcancel 7 18), (0x05D9435B, .mma 0 1 6 18 29), (0x03D9435B, .mmas 0 6 18 29), (0x11D9535B, .mdrain 1 0 6 18 29),
   (0x0000635B, .mzero 6), (0x03D9635B, .mload 6 18 29)] : List (BitVec 32 × Instr)),
    decodeCt p.1 0 = some p.2 := by decide +kernel

/-- System words, each written out from the fields of spec/opcode_table.json. -/
theorem test_decode_system : ∀ p ∈ ([(0x000903FB, .tnew 7 18), (0x020903FB, .tfree 7 18), (0x05D903FB, .tsplit 7 18 29), (0x07D903FB, .tacq 7 18 29),
   (0x080903FB, .trel 7 18), (0x0BD903FB, .tinfo 7 18 29), (0x000913FB, .fnew 7 18), (0x03D913FB, .fset 7 18 29),
   (0x05D913FB, .fsplit 7 18 29), (0x060913FB, .fdel 7 18), (0x3140207B, .ofence 3 1 2), (0x59D933FB, .waitaEq 7 18 29 11),
   (0x5BD933FB, .waitaNe 7 18 29 11), (0x5DD933FB, .waitaGeu 7 18 29 11), (0x5FD933FB, .waitaLtu 7 18 29 11), (0x05D9407B, .notify 2 18 29),
   (0x01D9507B, .barinit 18 29), (0x0209507B, .bararv 18), (0x0409507B, .barwait 18), (0x000963FB, .ltsync 7 18),
   (0x0200607B, .jtrig), (0x0409607B, .jexit 18), (0x0609607B, .tmark 18)] : List (BitVec 32 × Instr)),
    decodeCt p.1 0 = some p.2 := by decide +kernel
/-- Carriers, xcopy.m and the RISC-V instructions with a row, by 05 R118, R121 and the ratified encodings: the carrier of 05 R118,
fence rw,rw; fence.i; sfence.vma a0,a1; lr.w a0,(a1); sc.d.rl a0,a2,(a1); amoadd.w.aq a0,a2,(a1); wfi; sret; lbu a5,-1(s1);
ld a5,0(s1); sd a1,8(s1). -/
theorem test_decode_others : ∀ p ∈ ([(0x0000193F, 0x07185119, .vectorCarrier 2 true 1 0x07185119),
    (0x4AD607DB, 0x00B541DB, .xcopyM false true 1 15 12 13 0x00B541DB), (0x0330000F, 0, .fence 0 3 3), (0x0000100F, 0, .fenceI),
    (0x12B50073, 0, .sfenceVma 10 11), (0x1005A52F, 0, .lr false false false 10 11), (0x1AC5B52F, 0, .sc true false true 10 11 12),
    (0x04C5A52F, 0, .riscvAmo .add false true false 10 11 12), (0x10500073, 0, .wfi), (0x10200073, 0, .sret),
    (0xFFF4C783, 0, .ctScalarLoad ⟨0, false⟩ 15 9 0xFFF), (0x0004B783, 0, .ctScalarLoad ⟨3, true⟩ 15 9 0),
    (0x00B4B423, 0, .ctScalarStore ⟨3⟩ 11 9 8)] : List (BitVec 32 × BitVec 32 × Instr)),
    decodeCt p.1 p.2.1 = some p.2.2 := by decide +kernel

/-- Words that no rule defines, or with a bit of an unused field, decode to nothing (05 R109, R123). -/
theorem test_decode_refuses :
    ([0x1A000001, 0x40000007, 0x80000002, 0x00000008, 0xC0000018, 0x00800014] : List (BitVec 32)).all (fun x => (decodeMt x).isNone) = true ∧
    ([0x0100700B, 0x0010000B, 0x0000702B, 0x0600005B, 0x0C00007B] : List (BitVec 32)).all (fun x => (decodeCt x 0).isNone) = true ∧
    (decodeCt 0x0000793F 0x07185119).isNone = true ∧ (decodeCt 0x0000003F 0x00000038).isNone = true := by decide +kernel

/-! ## One step: results that the manual works out -/

/-- 06 R128: the worked example of div.x4. -/
theorem test_div_x4 : (after (.div 2 3 4 5) (mtWith [(4, 0x80F90A07), (5, 0xFF00FD02)])).reg 3 = 0x80FFFD03 := by decide +kernel

/-- 06 R132: a field that reaches past bit 31 takes copies of bit 31 under ext=sign, and zeros else. -/
theorem test_bfx_past_the_top :
    (after (.bfx true 1 2 28 7) (mtWith [(2, 0x9A31F70C)])).reg 1 = 0xFFFFFFF9 ∧
    (after (.bfx false 1 2 28 7) (mtWith [(2, 0x9A31F70C)])).reg 1 = 0x00000009 := by decide +kernel

/-- 07 R149: 1.5 + 2.25 is 3.75. -/
theorem test_fadd : (after (.fadd 0 1 2 3) (mtWith [(2, 0x3FC00000), (3, 0x40100000)])).reg 1 = 0x40700000 := by decide +kernel

/-- 07 R158: INT16 257 into BF16 is 256 under RNE. -/
theorem test_cvt_if_bf16 : (after (.cvtIf 1 1 2) (mtWith [(2, 0x00000101)])).reg 1 = 0x00004380 := by decide +kernel

/-- 07 R159: 0.3 gives 0x1, 0.25 gives 0x0, −0.1 gives 0x8, 7 gives 0x7, an infinity gives the largest finite, and a NaN gives +0 and
clears the kv bit. -/
theorem test_cvtq4 :
    let s := after (.cvtq4 1 8 0) (mtWith [(8, 0x3E99999A), (9, 0x3E800000), (10, 0xBDCCCCCD), (11, 0x40E00000), (12, 0xFF800000), (13, 0x7FC00000)])
    s.reg 1 = 0x000F7801 ∧ (s.mask kvCode).getLsbD 0 = false ∧ (s.mask kvCode).getLsbD 1 = true := by decide +kernel

/-- 07 R160: E5M2F 2^−16 under scale 0 underflows BF16. -/
theorem test_mxscale_underflow : (after (.mxscale true 0 1 1 2 3) (mtWith [(2, 1), (3, 0)])).reg 1 = 0 := by decide +kernel

/-- 03 R63, 07 R162: −37 under q = 6 reads as −10. -/
theorem test_pnix : ((after (.pnix 6 1 2 3) (mtWith [(2, 0x01000101), (3, 0x00000001)])).reg 1).extractLsb' 0 8 = 0xF6 := by decide +kernel

/-- 06 R134: rget reads register A + B, and faults with code 2 at NREGS. -/
theorem test_rget : (after (.rget 1 48 2) (mtWith [(2, 15), (63, 7)])).reg 1 = 7 ∧
    ((after (.rget 1 48 2) (mtWith [(2, 16)])).me.fault.map (·.code)) = some 2 := by decide +kernel

/-- 09 R188: SETVL takes the least of the request, VLMAX and the grant. -/
theorem test_setvl : (after (.setvl 5 6) (granted 2000 (ctWith [(6, 5000)]))).getX 5 = 1024 ∧
    (after (.setvl 5 6) (granted 600 (ctWith [(6, 5000)]))).core.csr.vl = 600 := by
  decide +kernel

/-- 09 R193: with VL = 4, `v.addi v2, v1.next` gives element 1 the value 30 of element 2, and element 3 the value 0. -/
theorem test_lane_next :
    let s := withVl 4 ((((ctWith []).setVreg 1 0 10).setVreg 1 1 20).setVreg 1 2 30 |>.setVreg 1 3 40)
    let t := after (.vqDistribute .compute) (after (.vectorCarrier 0 false 2 0x00001090) s)
    ((t.mt 1).queue.map fun x => match x with | .word _ _ _ _ sp => sp | _ => none) = [some [30]] ∧
    ((t.mt 3).queue.map fun x => match x with | .word _ _ _ _ sp => sp | _ => none) = [some [0]] := by decide +kernel

/-- 03 R85: elements 17 and 250 overflow and element 40 divides by zero: VFFIRSTA. -/
theorem test_first_indexes :
    let e : Entry := { entryOf .compute (.carrier 0x18 0) with distributed := true, flags := { nv := none, dz := some 40, ov := some 17, uf := none, nx := some 17 } }
    (after (.vqRetire .compute) (withQueue [e] (ctWith []))).core.csr.vffirsta = 0x0000030044050000 := by decide +kernel

/-! ## Hypotheses that are met

For each statement of Certificates/Slice0/Obligations.lean with hypotheses, a state and operands that meet them, clause by clause. -/

/-- Memory that holds numbers of some bytes at some rising addresses. -/
def imageOf (l : List (Nat × Nat × Nat)) : List Host.Cell :=
  l.flatMap fun (a, n, v) => (List.range n).filterMap fun k => if v / 256 ^ k % 256 = 0 then none else some (a + k, BitVec.ofNat 8 (v / 256 ^ k))

/-- The page that maps the low 256 TiB to itself is in memory. -/
def mapped (s : State) : State := { s with mem := Memory.writeLE s.mem loadRoot 8 loadPte }

theorem of_ok {ε α σ : Type} {P : α → σ → Prop} (x : Except ε α × σ) (a : α) (h : x.1.toOption = some a) (p : P a x.2) :
    ∃ a s, x = (.ok a, s) ∧ P a s := by
  obtain ⟨r, t⟩ := x
  cases r with
  | error e => simp [Except.toOption] at h
  | ok b => simp [Except.toOption] at h; subst h; exact ⟨b, t, rfl, p⟩

theorem of_error {ε α σ : Type} (x : Except ε α × σ) (e : ε) (h : x.1.toOption.isNone = true) (d : ∀ e', x.1 = .error e' → e' = e) :
    ∃ s, x = (.error e, s) := by
  obtain ⟨r, t⟩ := x
  cases r with
  | error e' => exact ⟨t, by rw [d e' rfl]⟩
  | ok b => simp [Except.toOption] at h

theorem of_block {σ : Type} (x : BlockFetch × σ) (ws : List MWord) (h : x.1 = .block ws) : ∃ ws s, x = (.block ws, s) :=
  ⟨ws, x.2, by rw [← h]⟩

/-- No copy of a core is dirty. -/
def clean (s : State) : Bool :=
  s.others.isEmpty && s.core.copies.wf none && s.core.copies.all fun p => match p.2 with | some x => !x.dirty | none => true

theorem get_clean (t : Table (Option Copy)) (c : t.all (fun p => match p.2 with | some x => !x.dirty | none => true) = true) (b : Nat) (x : Copy)
    (h : Table.get none t b = some x) : x.dirty = false := by
  induction t with
  | nil => simp [Table.get] at h
  | cons p t ih =>
    obtain ⟨k, v⟩ := p
    simp only [Table.get] at h
    split at h
    · subst h; simpa using (List.all_eq_true.mp c) _ (List.mem_cons_self ..)
    · exact ih (List.all_eq_true.mpr fun q hq => (List.all_eq_true.mp c) q (List.mem_cons_of_mem _ hq)) h

/-- A state of one core without dirty copies has one writer at a time, under every entry. -/
theorem coherent_of_clean (s : State) (h : clean s = true) : s.Coherent ∧ ∀ k pa, s.underKey k pa := by
  simp only [clean, Bool.and_eq_true, List.isEmpty_iff] at h
  obtain ⟨⟨ho, hw⟩, hc⟩ := h
  have only : ∀ c ∈ s.coresListed, c = s.core := by simp [State.coresListed, ho]
  have no : ∀ c ∈ s.coresListed, ∀ b x, c.copy b = some x → x.dirty = true → False := by
    intro c m b x hx hd
    rw [only c m] at hx
    have := get_clean s.core.copies hc b x hx
    simp [this] at hd
  exact ⟨⟨by simp [ho], fun c m => by rw [only c m]; exact hw, fun c m b x hx hd => (no c m b x hx hd).elim⟩,
    fun k pa c m x hx hd => (no c m _ x hx hd).elim⟩

/-! ### Micro-thread words -/

theorem witness_lanes : ∀ x ∈ laneOps, (mtWith []).intact (x.1 3 2 4 6) := by
  unfold State.intact; decide +kernel

theorem witness_bit_words :
    ((mtWith []).intact (.clz 2 1 2) ∧ (mtWith []).intact (.ctz 2 1 2) ∧ (mtWith []).intact (.popc 3 2 4)) ∧
    (∀ x ∈ oneRegister (mtWith []) 1 2 3 4 0x2000 0xFFFFF 31, (mtWith []).intact x.1) ∧
    (Instr.bfx true 1 2 31 31).wellFormed = true ∧ (mtWith []).intact (.bfx true 1 2 31 31) ∧
    (Instr.bfi 1 2 0 31).wellFormed = true ∧ (mtWith []).intact (.bfi 1 2 0 31) := by
  unfold State.intact; decide +kernel

/-- The last register that exists, and the first that does not. -/
theorem witness_indexed_and_links :
    (let s := mtWith [(2, 15)]
     s.intact (.rget 1 48 2) ∧ (48 : VReg).toNat + (s.reg 2).toNat < s.nregs ∧ s.lostReg s.core.curMt [63] = none ∧ s.intact (.rput 48 1 2)) ∧
    (let s := mtWith [(2, 16)]
     s.intact (.rget 1 48 2) ∧ s.nregs ≤ (48 : VReg).toNat + (s.reg 2).toNat ∧ s.intact (.rput 48 1 2)) ∧
    (let s := (mtWith []).onMt 0 fun m => { m with slot := some 9 }
     s.me.slot = some 9 ∧ s.intact (.lnkrd 1) ∧ s.intact (.lnkwr 1)) := by
  unfold State.intact; decide +kernel

theorem witness_float_words : (∀ x ∈ floatOps 0 false 1 2 3 4 (mtWith []).rmode, (mtWith []).intact x.1) ∧
    ∀ x ∈ floatOps 1 true 1 2 3 4 (mtWith []).rmode, (mtWith []).intact x.1 := by
  unfold State.intact; decide +kernel

/-- A NaN operand in each place, the last code of a format, and one that is no NaN. -/
theorem witness_number_rules :
    (Fmt.fp32.decode 0x7F800001).isNan = true ∧
    (Fmt.fp32.decode 0x7F800001).isSig = true ∧ (Fmt.bf16.decode 0x7FFF).isNan = true ∧
    (0xFF < 2 ^ Fmt.e4.width ∧ (Fmt.e4.decode 0xFF).isNan = false) ∧ (Fmt.fp16.decode 0x7C00).isNan = false := by decide +kernel

theorem witness_conversions :
    (mtWith []).intact (.cvtN 1 2 1 2 3) ∧ (mtWith []).intact (.cvtW 0 1 0 1 2) ∧ (mtWith []).intact (.cvtq4 1 56 3) ∧
    (mtWith []).intact (.mxscale true 1 0 1 2 3) := by
  unfold State.intact; decide +kernel

/-- The least and the greatest number of planes. -/
theorem witness_planes : (2 : BitVec 6).toNat ≤ 8 ∧ 2 ≤ (8 : BitVec 6).toNat ∧ ∀ q ∈ ([2, 8] : List (BitVec 6)),
    (mtWith []).intact (.pnix q 1 2 3) ∧ (mtWith []).intact (.pnit q 1 2 3) := by
  unfold State.intact; decide +kernel

/-- Registers 2 and 3 hold the address of the last doubleword of a block of DDR, with the page table in place. -/
def ddrAt : State := mapped (mtWith [(2, 0x3038)])
/-- The same for a word of another core's stash. -/
def stashAt : State := mapped (mtWith [(2, (BitVec.ofNat 64 (windowAddr 5 .stash 0x40)).extractLsb' 0 32), (3, (BitVec.ofNat 64 (windowAddr 5 .stash 0x40)).extractLsb' 32 32)])

theorem witness_loads :
    (∃ pa s1, ddrAt.checkOwn (.mt ddrAt.core.curMt) (ddrAt.pairA 2 + (0 : BitVec 12).signExtend 64) 8 ddrAt.userMode = (.ok pa, s1) ∧
      (placeOf pa = .ddr ∧ pa % 64 + 8 ≤ 64 ∧ clean s1 = true ∧ s1.core.copy (blockOf pa) = none)) ∧
    ddrAt.intact (.ld 3 4 2 0) ∧ (ddrAt.pairA 2 + (0 : BitVec 12).signExtend 64).toNat % 8 = 0 ∧
    (let s := mtWith [(2, 0x1FFFF8)]
     s.intact (.lds 3 4 2 0) ∧ ((s.regA 2 0).toNat : Int) % 8 = 0 ∧ ((s.regA 2 0).toNat : Int) + 8 ≤ 0x20_0000 ∧
       (s.drainFor (.mt s.core.curMt) (s.stashSpot 0x1FFFF8 8)).partLost .stash 0x1FFFF8 8 = false ∧ s.core.no < 192) := by
  refine ⟨of_ok _ 0x3038 ?_ ?_, ?_⟩ <;> try unfold State.intact
  all_goals decide +kernel

theorem witness_stores :
    (∃ pa s1, ddrAt.checkVirt (ddrAt.pairA 2 + (0 : BitVec 12).signExtend 64) 8 .store ddrAt.userMode = (.ok pa, s1) ∧
      (placeOf pa = .ddr ∧ pa % 64 + 8 ≤ 64 ∧ clean s1 = true)) ∧ ddrAt.intact (.st 3 4 2 0) ∧
    (∃ pa s1, stashAt.checkVirt (stashAt.pairA 2 + (0 : BitVec 12).signExtend 64) 4 .store stashAt.userMode = (.ok pa, s1) ∧
      pa = windowAddr 5 .stash 0x40) ∧ stashAt.intact (.st 2 4 2 0) ∧ (mtWith [(2, 0x1FFFF8)]).intact (.sts 3 4 2 0) := by
  refine ⟨of_ok _ 0x3038 ?_ ?_, ?_, of_ok _ (windowAddr 5 .stash 0x40) ?_ ?_, ?_⟩ <;> try unfold State.intact
  all_goals decide +kernel

theorem witness_atomics :
    (∃ pa s1, ddrAt.checkAtomic (.mt 0) (ddrAt.pairA 2) 8 ddrAt.userMode false = (.ok pa, s1) ∧ (placeOf pa = .ddr ∧ clean s1 = true)) ∧
    ddrAt.intact (.amo 3 9 1 2 4 2) ∧ (ddrAt.pairA 2).toNat % 8 = 0 ∧
    (∃ pa s1, stashAt.checkAtomic (.mt 0) (stashAt.pairA 2) 4 stashAt.userMode false = (.ok pa, s1) ∧ (pa = windowAddr 5 .stash 0x40 ∧ clean s1 = true)) ∧
    (mtWith [(2, 0x1FFFFC)]).intact (.amos 2 0 0 1 4 2) ∧ (let s := mtWith [(2, 0x1FFFFC)]; (s.drainFor (.mt 0) (s.stashSpot 0x1FFFFC 4)).partLost .stash 0x1FFFFC 4 = false) := by
  refine ⟨of_ok _ 0x3038 ?_ ?_, ?_, ?_, of_ok _ (windowAddr 5 .stash 0x40) ?_ ?_, ?_⟩ <;> try unfold State.intact
  all_goals decide +kernel

/-- A misaligned address, an offset at the end of the stash, a page that nothing maps, and bytes that do not exist. -/
theorem witness_memory_faults :
    ((mtWith [(2, 2)]).intact (.ld 2 4 2 0) ∧ ((mtWith [(2, 2)]).pairA 2 + (0 : BitVec 12).signExtend 64).toNat % 4 ≠ 0) ∧
    ((mtWith [(2, 0x200000)]).intact (.lds 2 4 2 0) ∧ (0x20_0000 : Int) < ((mtWith [(2, 0x200000)]).regA 2 0).toNat + 4) ∧
    (∃ s1, (mtWith []).checkOwn (.mt 0) 0 4 (mtWith []).userMode = (.error .page, s1)) ∧
    (∃ s1, (mapped (mtWith [])).checkOwn (.mt 0) 0xBF00000000 4 (mapped (mtWith [])).userMode = (.error .access, s1)) ∧
    (∃ s1, (mtWith []).checkVirt 0 4 .store (mtWith []).userMode = (.error .page, s1)) ∧
    (∃ s1, (mapped (mtWith [])).checkVirt 0xBF00000000 4 .store (mapped (mtWith [])).userMode = (.error .access, s1)) ∧
    ∃ s1, (mtWith []).checkAtomic (.mt 0) 0 4 (mtWith []).userMode false = (.error .page, s1) := by
  refine ⟨?_, ?_, ⟨_, rfl⟩, ⟨_, rfl⟩, ⟨_, rfl⟩, ⟨_, rfl⟩, ⟨_, rfl⟩⟩ <;> try unfold State.intact
  all_goals decide +kernel

theorem holds_unique {s : State} {a v w : Nat} (hv : s.holds a 8 v) (hw : s.holds a 8 w) (lv : v < 2 ^ 64) (lw : w < 2 ^ 64) : v = w := by
  have e := fun j (h : j < 8) => (hv j h).symm.trans (hw j h)
  have h0 := e 0 (by decide); have h1 := e 1 (by decide); have h2 := e 2 (by decide); have h3 := e 3 (by decide)
  have h4 := e 4 (by decide); have h5 := e 5 (by decide); have h6 := e 6 (by decide); have h7 := e 7 (by decide)
  simp only [Nat.reducePow, Nat.pow_zero, Nat.div_one] at h0 h1 h2 h3 h4 h5 h6 h7 lv lw
  omega

/-- The walk of an address whose leaf stands in the root table, and of one that nothing maps. -/
theorem walks_to_leaf : WalksTo ddrAt 0x3038 (.ok (loadRoot, loadPte, 4)) 5 ((ddrAt.core.ct.satp.extractLsb' 0 44).toNat * 4096) := by
  refine ⟨fun h => absurd h (by decide +kernel), fun _ h => absurd h (by decide +kernel), fun _ _ v lv hv => ?_⟩
  have : v = loadPte := holds_unique hv (by unfold State.holds; decide +kernel) lv (by decide)
  subst this
  exact ⟨fun h => absurd h (by decide +kernel), fun _ _ => by rfl, fun _ h => absurd h (by decide +kernel), fun _ h => absurd h (by decide +kernel)⟩
theorem walks_nowhere : WalksTo (mtWith []) 0x3038 (.error .page) 5 (((mtWith []).core.ct.satp.extractLsb' 0 44).toNat * 4096) := by
  refine ⟨fun h => absurd h (by decide +kernel), fun _ h => absurd h (by decide +kernel), fun _ _ v lv hv => ?_⟩
  have : v = 0 := holds_unique hv (by unfold State.holds; decide +kernel) lv (by decide)
  subst this
  exact ⟨fun _ => rfl, fun h => absurd (.inl (by decide +kernel)) h, fun h => absurd (.inl (by decide +kernel)) h, fun h => absurd (.inl (by decide +kernel)) h⟩

/-- Caches that are empty; a leaf that permits the access and one that does not; an entry of the TLB, one of the die's cache, that serve
it; and an address that is not canonical. -/
theorem witness_translations :
    (ddrAt.core.tlb = [] ∧ ddrAt.dieCache (dieOf ddrAt.core.no) = [] ∧ clean ddrAt = true ∧ LeafLets loadPte .store ddrAt.userMode ∧
      ¬ LeafLets loadPte .load ddrAt.superMode) ∧
    (let s := (ddrAt.translate 0x3038 .store ddrAt.userMode).2
     let e := leafEntry 0 0x3038 loadPte 4 0xDF
     s.core.tlb.find? (fun e => e.serves s.asidNow 0x3038 .store s.userMode) = some e ∧
     ({ s with core := { s.core with tlb := [] } } : State).core.tlb = [] ∧
       (s.dieCache (dieOf s.core.no)).find? (fun e => e.serves s.asidNow 0x3038 .store s.userMode) = some e) ∧
    ((1 <<< 57 : Word).getLsbD 57 ≠ (1 <<< 57 : Word).getLsbD 56) ∧
    ((ddrAt.translate 0xBF00000000 .load ddrAt.userMode).1.toOption = some 0xBF00000000 ∧
      (ddrAt.translate 0xBF00000000 .load ddrAt.userMode).2.reaches 0xBF00000000 false = false) := by
  unfold LeafLets; decide +kernel

/-- A target that is misaligned, and one whose block is at hand. -/
theorem witness_chain :
    (mtWith [(2, 2)]).intact (.mfetchr 2) ∧ ((mtWith [(2, 2)]).pairA 2).toNat % 4 ≠ 0 ∧
    ∃ ws s1, (mapped { mtWith [] with mem := Memory.writeLE [] 0x3000 8 0x10B10C0000 }).fetchBlock 0x3000 = (.block ws, s1) := by
  refine ⟨?_, ?_, of_block _ [0x10] ?_⟩ <;> try unfold State.intact
  all_goals decide +kernel

/-! ### Vector instructions and entries -/

/-- A core with VL 4 whose VSPACE is the stash, and x registers. -/
def vecWith (xs : List (XReg × Word)) : State := withVl 4 ((ctWith xs).onCsr fun c => { c with vspace := 1 })
/-- Entries enough to fill a queue of 32. -/
def full (q : VQueue) (s : State) : State := withQueue ((List.range 32).map fun k => { entryOf q (.kpop 0 1) with id := k }) s

/-- A queue with room and one without, registers that exist, and one that does not under 8 registers. -/
theorem witness_vector_dispatch :
    (∀ x ∈ issues (vecWith []) 1 2 3 4 5 false 0 0x1042 0 1 2 5 6 7, (∀ r ∈ x.regs, r < (vecWith []).nregs) ∧
      (∀ r ∈ x.regs, r < 64 → (vecWith []).regEmpty.getLsbD r = true → (vecWith []).core.csr.fepol.getLsbD r = false) ∧
      (vecWith []).queueFull x.q = false ∧ (full x.q (vecWith [])).queueFull x.q = true) ∧
    (let s := (vecWith []).onCsr fun c => { c with nregs := 0 }
     ∃ x ∈ issues s 1 2 3 4 5 false 0 0x1042 0 8 2 5 6 7, ∃ r ∈ x.regs, s.nregs ≤ r) ∧
    ((ctWith [(10, 2)]).getX 10).toNat % 4 ≠ 0 ∧
    (let s := mapped { ctWith [(10, 0x3000)] with mem := Memory.writeLE [] 0x3000 4 0xB10C0041 }
     (∃ h s1, s.fetchMWord (s.getX 10) = (.ok h, s1) ∧
       (s1.fepolTrap (List.range ((h.extractLsb' 4 6).toNat + 1)) = none ∧ s1.queueFull .compute = false))) := by
  refine ⟨by decide +kernel, by decide +kernel, by decide +kernel, of_ok _ 0xB10C0041 ?_ ?_⟩
  all_goals decide +kernel

/-- Elements that all lie in the stash, and elements 2 and 3 that lie beyond it. -/
theorem witness_vector_memory :
    (∀ x ∈ vecMems (vecWith [(10, 0x40), (11, 4)]) 0 8 2 10 11 9,
      VecReady (vecWith [(10, 0x40), (11, 4)]) (if x.write then .store else .load) 0 0 (span 8 1 ++ x.ix) x.ix ∧
      ((vecWith [(10, 0x40), (11, 4)]).checkElems 4 x.write x.addr ((vecWith [(10, 0x40), (11, 4)]).activeFrom 0 0)).2.1 = none) ∧
    ∀ x ∈ (vecMems (vecWith [(10, 0x1FFFF8), (11, 4)]) 0 8 2 10 11 9).take 4,
      let c := (vecWith [(10, 0x1FFFF8), (11, 4)]).checkElems 4 x.write x.addr ((vecWith [(10, 0x1FFFF8), (11, 4)]).activeFrom 0 0)
      c.2.1.isSome = true ∧ c.1 ≠ [] := by
  unfold VecReady; decide +kernel

/-- The same for vldff, for MX blocks, and for atomics in space 1, with an even and an odd register in space 0. -/
theorem witness_vector_special :
    (let s := vecWith [(10, 0x1FFFF8)]
     let s0 := s.onCsr fun c => { c with vresume := 0 }
     let c := s0.checkElems 4 false (fun m => ((s.getX 10).toNat : Int) + 4 * m) (s0.activeFrom 0 0)
     VecReady s .load 0 0 (span 8 1) [] ∧ c.2.1.isSome = true ∧ c.1 ≠ []) ∧
    (let s := vecWith [(10, 0x40), (11, 0x80)]
     let s0 := s.onCsr fun c => { c with vresume := 0 }
     (s0.checkElems 4 false (fun m => ((s.getX 10).toNat : Int) + 4 * m) (s0.activeFrom 0 0)).2.1 = none ∧
     (∀ write : Bool, VecReady s (if write then .store else .load) 0 0 (span 8 2) [] ∧
      (s.checkMx write true (s.getX 10).toNat (s.getX 11).toNat (s.activeFrom 0 0) none (s.activeFrom 0 0)).2.1 = none) ∧
     VecReady s .store 0 0 (span 8 1 ++ [2]) [2] ∧
     (s.checkAmos 1 (fun m => ((s.vreg 2 m).toNat : Int)) (s.activeFrom 0 0)).2.1 = none) ∧
    (let s := (vecWith []).onCsr fun c => { c with vspace := 0 }
     s.core.csr.vspace = 0 ∧ (2 : BitVec 5).toNat % 2 = 0 ∧ (3 : BitVec 5).toNat % 2 = 1 ∧ VecReady s .store 0 0 (span 8 1 ++ [2, 3]) [2, 3]) := by
  refine ⟨?_, ?_, ?_⟩ <;> unfold VecReady <;> decide +kernel

/-- One entry alone in the queues, with a value in the FIFO. -/
theorem witness_entry_effects : ∀ op ∈ ([.kcmp 10 1 2 3, .klog 9 1 2 3, .kpre 0 1 2, .kpre 1 1 2, .kpre 2 1 2, .kpop 5 1, .kfirst 5 1, .kget 5 1 127,
    .kput 1 7 0, .vget 1 3 5, .vput 1 3 9, .linkPut 7, .linkGet 5, .fetch 0x3000, .carrier 0x1090 2] : List VOp),
    let e := entryOf .compute op
    let s := (withQueue [e] (vecWith [])).onVec fun v => { v with fifo := [4] }
    s.toDistribute .compute = some e ∧ s.canDistribute e = true := by decide +kernel

/-- A mask bit that is set, one that is not, and a micro-thread with a fault. -/
theorem witness_queues_at_work :
    (let e := { entryOf .compute (.fetch 0x3000) with mask := 1, vl := 2 }
     let f : MtFault := { code := 3, mcode := 0, block := 0, wordIx := 0, addr := 0, carrier := false, inReg := false, dropped := 2 }
     let s := ((withQueue [e] (vecWith [])).onVec fun v => { v with masks := Table.set 0 v.masks 1 3 }).onMt 1 fun m => { m with phase := .faulted, fault := some f }
     s.toDistribute .compute = some e ∧ s.canDistribute e = true ∧ e.isItem = true ∧ (s.mask e.mask).getLsbD 0 = true ∧
       (s.mt 0).fault = none ∧ (s.mt 1).fault = some f ∧ (s.mask e.mask).getLsbD 2 = false) ∧
    (let e := { entryOf .compute (.carrier 0x18 0) with distributed := true, resumed := true, flags := { FlagIx.none with ov := some 8191 } }
     let s := withQueue [e] (vecWith [])
     s.toRetire .compute = some e ∧ e.flagging = true ∧ (some 8191 ∈ e.flags.list)) ∧
    (let e := { entryOf .compute (.kpop 5 1) with distributed := true, value := 9 }
     let s := (withQueue [e] (vecWith [])).onCt fun c => { c with pendingX := [(0, 5)] }
     s.toRetire .compute = some e ∧ e.flagging = false ∧ s.core.ct.pendingX.find? (fun p => p.1 == e.id) = some (0, 5)) := by decide +kernel

theorem in_stash {c o pa n : Nat} (h : ∀ j < n, placeOf (pa + j) = .window c .stash (o + j)) (z : 0 < n) : inPlace pa n := by
  refine ⟨.inr ⟨c, .stash, o, by decide, h⟩, fun c' o' e => ?_⟩
  have := h 0 z
  simp [e] at this

/-- Elements in the stash, and an atomic whose scope is the home's, or narrower. -/
theorem witness_vector_effects :
    (let x : Elem := { m := 0, va := 0x40, pa := windowAddr 0 .stash 0x40 }
     let y : Elem := { m := 3, va := 0x44, pa := windowAddr 0 .stash 0x44 }
     let e := { entryOf .load (.load 8 2 [x, y]) with id := 1 }
     let s := withQueue [entryOf .compute (.vput 8 3 7), e] (vecWith [])
     s.toDistribute .load = some e ∧ s.canDistribute e = true ∧ s.elemReady e 4 x = true ∧ s.elemReady e 4 y = false ∧
       s.elemRefused x 4 false = none ∧ x.m < s.vlmax ∧ s.core.vec.late = [] ∧ s.core.vec.early = [] ∧ s.defers = false) ∧
    (let x : Elem := { m := 3, va := 0x40, pa := windowAddr 0 .stash 0x40 }
     let e := entryOf .load (.load 8 2 [x])
     let s := (withQueue [e] (vecWith [])).onVec fun v => { v with early := [{ reader := .elem e.id 3, spot := e.spot x 4, value := 9, after := [] }] }
     s.toDistribute .load = some e ∧ s.canDistribute e = true ∧ s.elemReady e 4 x = true ∧ s.elemRefused x 4 false = none ∧
       s.earlyValue (.elem e.id x.m) (some []) (e.spot x 4) = some 9) ∧
    (let x : Elem := { m := 3, va := 0x40, pa := windowAddr 0 .stash 0x40 }
     let e := entryOf .store (.store 8 2 [x])
     let s := { withQueue [e] (vecWith []) with defers := true }
     s.toDistribute .store = some e ∧ s.canDistribute e = true ∧ s.elemReady e 4 x = true ∧ s.elemRefused x 4 true = none ∧
       s.defers = true ∧ s.mayLeave x.pa = true) ∧
    (let x : Elem := { m := 3, va := 0x40, pa := windowAddr 0 .stash 0x40 }
     let e := entryOf .load (.load 8 2 [x])
     let s := withQueue [e] (vecWith [])
     s.toDistribute .load = some e ∧ s.canDistribute e = true ∧ s.elemReady e 4 x = true ∧ s.elemRefused x 4 false = none ∧ inPlace x.pa 4 ∧ x.m < s.vlmax) ∧
    (let x : Elem := { m := 3, va := 0x40, pa := windowAddr 0 .stash 0x40 }
     let y : Elem := { m := 4, va := 0x44, pa := windowAddr 0 .stash 0x44 }
     let e := entryOf .store (.store 8 2 [x, y])
     let s := withQueue [e] (vecWith [])
     s.toDistribute .store = some e ∧ s.canDistribute e = true ∧ s.elemReady e 4 x = true ∧ s.elemReady e 4 y = true ∧ s.elemRefused x 4 true = none ∧ s.elemRefused y 4 true = none ∧
       inPlace x.pa 4 ∧ inPlace y.pa 4 ∧ x.pa + 4 ≤ y.pa) ∧
    (let x : Elem := { m := 3, va := 0x40, pa := windowAddr 0 .stash 0x40 }
     let e := { entryOf .store (.amo 8 9 1 [x]) with space := 1 }
     let s := withQueue [e] (vecWith [])
     s.toDistribute .store = some e ∧ s.canDistribute e = true ∧ s.homeScope (s.elemKey e x) x.pa ≤ (1 : BitVec 3).toNat ∧
       s.reaches x.pa true = true ∧ s.lostAt x.pa 4 = false ∧ ∀ j < 4, placeOf (x.pa + j) = .window 0 .stash (0x40 + j)) ∧
    (let x : Elem := { m := 3, va := 0x40, pa := windowAddr 50 .stash 0x40 }
     let e := { entryOf .store (.amo 8 9 1 [x]) with space := 0 }
     let s := withQueue [e] (vecWith [])
     s.toDistribute .store = some e ∧ s.canDistribute e = true ∧ (1 : BitVec 3).toNat < s.homeScope (s.elemKey e x) x.pa) := by
  refine ⟨by decide +kernel, by decide +kernel, by decide +kernel, ⟨by decide +kernel, by decide +kernel, by decide +kernel, by decide +kernel,
      in_stash (c := 0) (o := 0x40) (by decide +kernel) (by decide), by decide +kernel⟩,
    ⟨by decide +kernel, by decide +kernel, by decide +kernel, by decide +kernel, by decide +kernel, by decide +kernel, in_stash (c := 0) (o := 0x40) (by decide +kernel) (by decide),
      in_stash (c := 0) (o := 0x44) (by decide +kernel) (by decide), by decide +kernel⟩, by decide +kernel, by decide +kernel⟩

/-- Micro-threads 0 to 5, each at one of the points of 02 R38 to R41. -/
def pointsOf : State :=
  let s := mapped { vecWith [] with mem := Memory.writeLE [] 0x3000 8 0x10B10C0000 }
  (((((s.onMt 0 fun m => { m with queue := [.word 0 0x2000 0x1090 0 none] }).onMt 1 fun m => { m with queue := [.block 0 0x3000 0] }).onMt 2
    fun m => { m with phase := .waitLink, words := [0x01000047], slot := some 5 }).onMt 3
    fun m => { m with phase := .linkPending, link := some 6 }).onMt 4 fun m => { m with phase := .ready, words := [0x28], dataWait := true })

theorem witness_micro_thread_steps :
    ((pointsOf.mt 0).phase = .stopped ∧ pointsOf.itemReady 0 = true ∧ (pointsOf.mt 0).queue = [.word 0 0x2000 0x1090 0 none]) ∧
    ((pointsOf.mt 1).phase = .stopped ∧ pointsOf.itemReady 1 = true ∧ (pointsOf.mt 1).queue = [.block 0 0x3000 0] ∧ (0x3000 : Word).toNat % 4 = 0 ∧
      ∃ ws s1, State.fetchBlock ({ pointsOf with core := { pointsOf.core with curMt := 1 } }.onMt 1 fun t =>
        { t with queue := [], blk := 0x3000, words := [], ix := 0, carrier := false, span := none, vfrm := 0, age := 0, entry := 0 }) 0x3000 =
          (.block ws, s1)) ∧
    ((pointsOf.mt 2).phase = .waitLink ∧ (pointsOf.mt 2).words ≠ [] ∧
      ((pointsOf.mt 2).words.all fun w => (namesOf w).all fun r => !(pointsOf.emptyFor (pointsOf.mt 2)).getLsbD r) = true ∧ (pointsOf.mt 2).slot.isSome = true) ∧
    ((pointsOf.mt 3).phase = .linkPending ∧ (pointsOf.mt 3).link = some 6 ∧ pointsOf.linkRoom 3 = true ∧ pointsOf.core.csr.vl ≤ 3 + 1) ∧
    (pointsOf.mt 4).dataWait = true ∧
    (let s := { pointsOf with core := { pointsOf.core with misses := [3] } }
     3 ∈ s.core.misses ∧ ∃ pa s1, State.translate { s with core := { s.core with misses := [] } } 0x3000 .load s.ctMode = (.ok pa, s1) ∧ (pa = 0x3000)) := by
  refine ⟨by decide +kernel, ⟨by decide +kernel, by decide +kernel, by decide +kernel, by decide +kernel, of_block _ [0x10] (by decide +kernel)⟩,
    by decide +kernel, by decide +kernel, by decide +kernel, by decide +kernel, of_ok _ 0x3000 (by decide +kernel) (by decide +kernel)⟩

/-! ### Frames -/

/-- The frames of the example of 03 R70: index 1 is the root, 2 its child. -/
def rootRec : FrameRec := { FrameRec.ofBytes 0 with gen := 1, exp := -6, rot := [2 ^ 30, 0, 0, 0, 2 ^ 30, 0, 0, 0, 2 ^ 30], extent := 1002 }
def childRec : FrameRec :=
  ⟨0x01000001, 1, -10, 0, 0, 1, 0, [0, -(2 ^ 30), 0, 2 ^ 30, 0, 0, 0, 0, 2 ^ 30], [1000, -5, 0], 96, 0, 0, 0⟩
/-- A frame table of four records at 0x4000, which supervisor level reads 256 TiB higher, that holds them, both read once, and a value in quad 4 with B in register 8. -/
def frames (v : List MWord) (b : MWord) : State :=
  let s := mtWith ((List.range 4).map (fun k => (4 + k, v.getD k 0)) ++ [(8, b)])
  let s := { s with mem := imageOf [(loadRoot, 16, loadPte + 0xCF * 2 ^ 64), (0x4080, 128, rootRec.toBytes), (0x4100, 128, childRec.toBytes)] }.onCsr
    fun c => { c with framebase := 0x1_0000_0000_4002 }
  ((s.readFrame 1).2.readFrame 2).2
def tag1 : MWord := 0x01000001
def tag2 : MWord := 0x01000002
def signed (xs : List Int) : List MWord := xs.map (BitVec.ofInt 32)

/-- 03 R70: (100, −24, 7) in the child is (1002, 1, 0) in its parent, and comes back as (96, −32, 0). -/
theorem test_pxf_example :
    ((after (.pxf false 12 4 8) (frames (tag2 :: signed [100, -24, 7]) tag1)).quad 12).offs = [1002, 1, 0] ∧
    ((after (.pxf false 12 4 8) (frames (tag1 :: signed [1002, 1, 0]) tag2)).quad 12).offs = [96, -32, 0] := by decide +kernel

theorem reads_of (s : State) (t : BitVec 32) (r : FrameRec) (a : tagIndex t < s.core.csr.frameCount) (l : s.core.chain.length ≤ 512)
    (h : (s.chainHit (tagIndex t)).map (fun e => FrameRec.ofBytes e.data) = some r) (n : s.core.vec.late = []) : ReadsRecord s t r := by
  obtain ⟨e, he, hr⟩ := Option.map_eq_some_iff.mp h
  exact ⟨a, l, e, he, hr.symm, by simp [n]⟩

/-- A value in the child with the root as target, the way back, and one frame for both. -/
def goingUp : State := frames (tag2 :: signed [100, -24, 7]) tag1
def goingDown : State := frames (tag1 :: signed [1002, 1, 0]) tag2
def staying : State := frames (tag1 :: signed [1002, 1, 0]) tag1

/-- Both records are at hand. -/
theorem witness_frame_records :
    (ReadsRecord goingUp tag1 rootRec ∧ ReadsRecord goingUp tag2 childRec) ∧ (ReadsRecord goingDown tag1 rootRec ∧ ReadsRecord goingDown tag2 childRec) ∧
    ReadsRecord staying tag1 rootRec := by
  refine ⟨⟨reads_of _ _ _ ?_ ?_ ?_ ?_, reads_of _ _ _ ?_ ?_ ?_ ?_⟩, ⟨reads_of _ _ _ ?_ ?_ ?_ ?_, reads_of _ _ _ ?_ ?_ ?_ ?_⟩, reads_of _ _ _ ?_ ?_ ?_ ?_⟩
  all_goals decide +kernel

/-- The three paths of the links. -/
theorem witness_frame_links :
    (let s := goingUp
     (∀ i ∈ [Instr.pxf false 12 4 8, .prot true 12 4 8], s.intact i) ∧ (s.quadA 4).tag = tag2 ∧ s.reg (8 : VReg).toNat = tag1 ∧
       Current childRec tag2 ∧ Current rootRec tag1 ∧ tagIndex tag2 ≠ tagIndex tag1 ∧ childRec.parent = tag1 ∧ rootRec.level + 1 = childRec.level) ∧
    (let s := goingDown
     (∀ i ∈ [Instr.pxf false 12 4 8, .prot true 12 4 8], s.intact i) ∧ (s.quadA 4).tag = tag1 ∧ s.reg (8 : VReg).toNat = tag2) ∧
    (let s := staying
     (∀ i ∈ [Instr.pxf false 12 4 8, .prot true 12 4 8], s.intact i) ∧ (s.quadA 4).tag = tag1 ∧ s.reg (8 : VReg).toNat = tag1) := by
  unfold State.intact Current; decide +kernel

theorem witness_frame_words :
    (let s := staying
     (s.quadA 4).tag = tag1 ∧ Current rootRec tag1 ∧ (s.quad 8).tag = tag1 ∧
       ∀ i ∈ [Instr.padd true true 12 4 8, .psub false false 12 4 8, .pretag false 12 4, .pchk 12 4], s.intact i) ∧
    (let s := goingDown
     (s.quadA 4).tag = tag1 ∧ (s.quad 8).tag ≠ tag1 ∧ ∀ i ∈ [Instr.padd true false 12 4 8, .psub false false 12 4 8], s.intact i) := by
  unfold State.intact Current; decide +kernel

/-! ### Configuration and registers of the core -/

/-- A running core at user level, drained and not, and with a fault recorded. -/
def withFault : State := (ctWith [(6, 0x1F02)]).onVec fun v => { v with masks := Table.set 0 v.masks kfCode.toNat (1 <<< 8191) }
theorem witness_configuration :
    ((4 : Word).toNat % 16 ≤ 4 ∧ ((5 : Word).toNat % 16 = 5 ∧ (kernelWith []).core.ct.user = false)) ∧
    (let s := full .store (vecWith []); (s.drained && s.enginesDoneOrFaulted) = false) ∧
    ((withFault.drained && withFault.enginesDoneOrFaulted) = true ∧ withFault.mask kfCode ≠ 0) ∧
    (let s := ctWith [(6, 0x1F02)]; (s.drained && s.enginesDoneOrFaulted) = true ∧ s.mask kfCode = 0) := by decide +kernel

theorem witness_csr_writes :
    (plainCsrs.all fun x => (!(kernelWith []).core.ct.user || decide (0x800 ≤ x.1.toNat)) && ((kernelWith []).csrRead x.1).isSome) = true ∧
    (let s := ctWith []
     ((0x105 : BitVec 12).extractLsb' 8 2 ≠ 0 ∧ s.core.ct.user = true) ∧ (0xC00 : BitVec 12).extractLsb' 10 2 = 3 ∧ s.csrRead 0x8FF = none) := by
  decide +kernel

theorem witness_own_row_csrs :
    (let s := withQueue [{ entryOf .compute (.carrier 0x18 0) with distributed := true }] (vecWith []); s.flagsPending = true) ∧
    (let s := kernelWith []
     s.flagsPending = false ∧ s.core.ct.user = false ∧ (0 : Word).extractLsb' 60 4 ≠ 10 ∧ (satpOf 3 1).extractLsb' 60 4 = 10 ∧ s.disp.tags.length < 4096) := by
  decide +kernel

/-- The last micro-thread, FAULTED at the first of two words, and no FAULTED one. -/
def oneFaulted : State :=
  (kernelWith []).onMt 1023 fun m =>
    { m with phase := .faulted, words := [0x28, 0x10],
             fault := some { code := 3, mcode := 0, block := 0, wordIx := 0, addr := 0, carrier := false, inReg := false, dropped := 0 } }
theorem witness_micro_thread_fault_commands :
    (oneFaulted.core.ct.user = false ∧ (1023 : BitVec 13).toNat < oneFaulted.vlmax ∧ oneFaulted.faultedFrom 1023 = some 1023 ∧
      ((oneFaulted.mt 1023).fault.all fun f => !f.carrier && f.code != 13 && decide (f.wordIx + 1 < (oneFaulted.mt 1023).words.length)) = true ∧
      (oneFaulted.mt 1023).fault.isSome = true) ∧
    ((kernelWith []).core.ct.user = false ∧ ((kernelWith []).mt 1023).fault = none ∧ (kernelWith []).faultedFrom 1023 = none) := by decide +kernel

/-- A counter one short of its wrap, one short of its threshold, a sample that is due, and both breakpoints met. -/
def profiled : State :=
  let s := { kernelWith [] with base := { (kernelWith []).base with cycle := 2000 } }.onMt 3 fun m => { m with phase := .ready, words := [0x28], blk := 0x3000 }
  { s with core := { s.core with perf := { s.core.perf with
      counters := [(2, { Counter.zero with value := 2 ^ 48 - 1 }), (11, { Counter.zero with value := 6, threshold := 7 })],
      period := 1024, pcBreak := some s.core.ct.pc, blockBreak := some 0x3000 } } }
theorem witness_profiling :
    profiled.core.ct.user = false ∧
    ((11 : BitVec 4).toNat ≤ 11 ∧ (0x100 : BitVec 56).toNat < 512 ∧ (0x100 : BitVec 56).toNat % 256 ≤ 17 ∧ (0x100 : BitVec 56).toNat % 256 = 0) ∧
    (0x40004 : BitVec 56).toNat / 16 % 256 = 0 ∧ profiled.reaches ((0x40004 : BitVec 56).toNat / 4096 * 4096) true = true ∧
    ((profiled.core.perf.counter 2).value + 1 = 2 ^ 48) ∧
    ((profiled.core.perf.counter 11).threshold ≠ 0 ∧ (profiled.core.perf.counter 11).value + 1 = (profiled.core.perf.counter 11).threshold ∧
      (profiled.core.perf.counter 11).threshold < 2 ^ 48) ∧
    (profiled.core.phase = .running ∧ profiled.core.perf.period ≠ 0 ∧ profiled.core.perf.sampledAt + profiled.core.perf.period ≤ profiled.base.cycle) ∧
    profiled.core.perf.breakPending = none ∧ (profiled.core.perf.pcBreak = some profiled.core.ct.pc ∧ profiled.core.csr.vresume = 0) ∧
    (profiled.core.perf.blockBreak = some (profiled.mt 3).blk ∧ (profiled.mt 3).phase = .ready ∧ (profiled.mt 3).carrier = false ∧ (profiled.mt 3).ix = 0 ∧
      (profiled.mt 3).words ≠ []) := by decide +kernel

/-! ### Engine commands -/

def plainDesc (space esize rank base : Nat) (ext : List Nat) (stride : List Int) : TileDesc :=
  { base := BitVec.ofNat 64 base, space := space, esize := esize, rank := rank, aliased := false, readonly := false, ext := ext, stride := stride }
/-- A LIVE entry of the directory, of generation 7. -/
def liveTile (index : Nat) (d : TileDesc) : TileEntry :=
  { asid := 0, table := 0x1_0000_0000_8000, index := index, state := .live, gen := 7, group := 0, child0 := 0, child1 := 0, splitDim := 0, splitAt := 0, lo := d.lo.toNat,
    hi := d.hi.toNat, desc := d, ten := index, pins := [], waitFrom := 0, freer := none, home := 0, path := [] }
/-- Tiles 1 and 2 of 8 words, 3 and 4 of 2 rows, an index tile 5 of 2 and a group tile 6 of this core alone, all in the stash, and a tile 7 of
DDR; the table is at 0x8000, which supervisor level reads 256 TiB higher. -/
def tiled (xs : List (XReg × Word)) : State :=
  let s := mapped (ctWith xs)
  { s with
    mem := Memory.writeLE s.mem (loadRoot + 8) 8 0xCF
    core := { s.core with csr := { s.core.csr with tilebase := 0x1_0000_0000_8003, xnotify := 0x7_0020_0040 },
                          vec := { s.core.vec with stash := [(0x200, 0xFF), (0x201, 0xFF)] } }
    dir := { s.dir with nextTen := 8, entries :=
      [liveTile 1 (plainDesc 1 2 1 0 [8, 1, 1, 1] [4, 0, 0, 0]), liveTile 2 (plainDesc 1 2 1 0x40 [8, 1, 1, 1] [4, 0, 0, 0]),
       liveTile 3 (plainDesc 1 2 2 0x80 [4, 2, 1, 1] [4, 16, 0, 0]), liveTile 4 (plainDesc 1 2 2 0xC0 [4, 2, 1, 1] [4, 16, 0, 0]),
       liveTile 5 (plainDesc 1 2 1 0x100 [2, 1, 1, 1] [4, 0, 0, 0]), liveTile 6 (plainDesc 1 3 1 0x200 [1, 1, 1, 1] [8, 0, 0, 0]),
       liveTile 7 (plainDesc 0 2 1 0x5000 [8, 1, 1, 1] [4, 0, 0, 0])] } }
def handleOf (i : Nat) : Word := (mkHandle 7 i).setWidth 64
def refOf (i : Nat) (d : TileDesc) : TileRef := { handle := mkHandle 7 i, desc := d, asid := 0, table := 0x1_0000_0000_8000, index := i }
def ref1 : TileRef := refOf 1 (plainDesc 1 2 1 0 [8, 1, 1, 1] [4, 0, 0, 0])
def ref2 : TileRef := refOf 2 (plainDesc 1 2 1 0x40 [8, 1, 1, 1] [4, 0, 0, 0])
def ref3 : TileRef := refOf 3 (plainDesc 1 2 2 0x80 [4, 2, 1, 1] [4, 16, 0, 0])
def ref4 : TileRef := refOf 4 (plainDesc 1 2 2 0xC0 [4, 2, 1, 1] [4, 16, 0, 0])
def ref5 : TileRef := refOf 5 (plainDesc 1 2 1 0x100 [2, 1, 1, 1] [4, 0, 0, 0])
def ref6 : TileRef := refOf 6 (plainDesc 1 3 1 0x200 [1, 1, 1, 1] [8, 0, 0, 0])
def copying : State := tiled [(10, handleOf 1), (11, handleOf 2)]
def both (lo hi : Nat) : Word := handleOf lo ||| (handleOf hi <<< 32)
def withCmds (cs : List Cmd) (s : State) : State := { s with core := { s.core with vec := { s.core.vec with cmds := cs }, csr := { s.core.csr with xissued := 16 } } }
/-- A command as issued. -/
def order (seq : Nat) (kind : CmdKind) (i : Instr) (r1 r2 : Word) : Cmd :=
  { seq := seq, kind := kind, insn := (instrBits i).setWidth 64, acq := false, rel := false, scope := 1, rs1 := r1, rs2 := r2, mrs1 := 0, mrs2 := 0,
    notify := 0x7_0020_0040, phase := .queued, matrixPart := false, progress := 0, code := 0, addr := 0, recorded := false, trapTaken := false,
    src := none, dst := none, idx := none, matTile := none, afterEntry := 1, marks := [], tiles := 0, own := false, aRegs := 0, members := [],
    status := [], staged := false, failed := false, stamp := none }

theorem result_of {ε α : Type} (x : Except ε α) (a : α) (h : x.toOption = some a) : x = .ok a := by
  cases x <;> simp_all [Except.toOption]

theorem witness_copy_issue :
    copying.copyTiles (copying.getX 10) (copying.getX 11) = .ok (ref1, ref2) ∧
    copying.checkHandle ((copying.getX 11).extractLsb' 0 32) true anyShape = .ok ref2 ∧
    (let s := tiled [(10, both 3 5), (11, both 4 5)]
     s.rowTiles ((s.getX 10).extractLsb' 0 32) ((s.getX 11).extractLsb' 0 32) ((s.getX 10).extractLsb' 32 32) false = .ok (ref3, ref4, ref5) ∧
     s.rowTiles ((s.getX 10).extractLsb' 0 32) ((s.getX 11).extractLsb' 0 32) ((s.getX 11).extractLsb' 32 32) true = .ok (ref3, ref4, ref5)) ∧
    copying.core.vec.cmds.length < 16 ∧ 16 ≤ (withCmds ((List.range 16).map fun k => order k .mzero (.mzero 0) 0 0) copying).core.vec.cmds.length ∧
    (let s := tiled [(10, handleOf 1), (11, handleOf 3 + 1 <<< 20)]
     (∃ v, s.copyTiles (s.getX 10) (s.getX 11) = .error v) ∧ (∃ v, s.checkHandle ((s.getX 11).extractLsb' 0 32) true anyShape = .error v) ∧
     (∃ v, s.rowTiles ((s.getX 10).extractLsb' 0 32) ((s.getX 11).extractLsb' 0 32) ((s.getX 10).extractLsb' 32 32) false = .error v) ∧
     ∃ v, s.rowTiles ((s.getX 10).extractLsb' 0 32) ((s.getX 11).extractLsb' 0 32) ((s.getX 11).extractLsb' 32 32) true = .error v) := by
  refine ⟨result_of _ _ ?_, result_of _ _ ?_, ⟨result_of _ _ ?_, result_of _ _ ?_⟩, ?_, ?_, ⟨_, rfl⟩, ⟨_, rfl⟩, ⟨_, rfl⟩, ⟨_, rfl⟩⟩
  all_goals decide +kernel

/-- Operands that pass, a reserved bit, and a misaligned address or a row beyond the stash. -/
theorem witness_matrix_issue :
    (∀ i ∈ [Instr.mma 5 0 31 10 11, .mma 0 1 31 10 11], (ctWith []).checkMma ((instrBits i).extractLsb' 0 32) 0 0 = .ok none) ∧
    (ctWith []).checkMma ((instrBits (.mmas 5 31 10 11)).extractLsb' 0 32) 0 0 = .ok none ∧
    (ctWith []).checkDrain ((instrBits (.mdrain 5 0 31 10 11)).extractLsb' 0 32) 0 0 = .ok none ∧ checkMload 0x1FE000 0 = .ok none ∧
    (ctWith []).checkMma ((instrBits (.mma 5 0 31 10 11)).extractLsb' 0 32) 0 (1 <<< 63) = .illegal ∧
    (ctWith []).checkMma ((instrBits (.mma 5 0 31 10 11)).extractLsb' 0 32) 4 0 = .bad 4 4 ∧
    (ctWith []).checkDrain ((instrBits (.mdrain 5 0 31 10 11)).extractLsb' 0 32) 0 (32 <<< 32) = .illegal ∧
    checkMload 0x1FFFFC 0 = .bad 5 0x200000 ∧ checkMload (1 <<< 21) 0 = .illegal ∧ (ctWith []).core.csr.fepol.getLsbD 63 = false ∧
    ((ctWith []).onCsr fun c => { c with fepol := 1 <<< 63 }).core.csr.fepol.getLsbD 63 = true ∧ (ctWith []).tileEmpty.getLsbD 31 = false ∧
    (withCmds [{ order 5 .mzero (.mzero 31) 0 0 with phase := .running, marks := [{ core := 0, regs := 0, tiles := BitVec.twoPow 32 31 }] }] (ctWith [])).tileEmpty.getLsbD 31 = true ∧
    (let s := tiled [(10, handleOf 1), (11, handleOf 2)]
     s.checkMma ((instrBits (.mma 5 0 31 12 13)).extractLsb' 0 32) (s.getX 12) (s.getX 13) = .ok none ∧ s.core.vec.cmds.length < 16) := by
  decide +kernel

/-- The members of a group of one core. -/
theorem witness_collective_issue :
    ((ctWith []).core.csr.xnotify.getLsbD 21 = false ∧
      ∃ e ∈ (withQueue [entryOf .load (.load 8 2 [{ m := 0, va := 0x40, pa := 0x40 }])] (vecWith [])).core.vec.queue, e.isMemory = true ∧ e.distributed = false) ∧
    (let s := tiled [(10, both 1 6), (11, handleOf 2 + 6 <<< 32)]
     s.core.csr.xnotify.getLsbD 21 = true ∧ ((s.getX 11).extractLsb' 32 32).toNat ≤ 6 ∧
     s.checkHandle ((s.getX 10).extractLsb' 0 32) false (fun t => t.esize == (if ((s.getX 11).extractLsb' 32 32).toNat = 1 then 1 else 2)) = .ok ref1 ∧
     s.checkHandle ((s.getX 11).extractLsb' 0 32) true anyShape = .ok ref2 ∧
     s.checkHandle ((s.getX 10).extractLsb' 32 32) false groupShape = .ok ref6 ∧ ref1.desc.esize = ref2.desc.esize ∧
     ref2.desc.count = 1 * ref1.desc.count ∧ ref2.desc.count = ref6.desc.count * ref1.desc.count ∧
     (∃ ms s1, s.readMembers ref6 ref6.desc.count 0 = (.ok ms, s1) ∧ (ms.contains (0xFFFF + s.core.no * 65536) = true)) ∧ s.core.vec.cmds.length < 16) := by
  refine ⟨by decide +kernel, by decide +kernel, by decide +kernel, result_of _ _ ?_, result_of _ _ ?_, result_of _ _ ?_, by decide +kernel,
    by decide +kernel, by decide +kernel, of_ok _ [0xFFFF] ?_ ?_, by decide +kernel⟩
  all_goals decide +kernel

/-- Work on tiles reads rows without an effect on the state. -/
theorem aRow_keeps (s : State) (w : BitVec 32) (r1 : Word) (i : Nat) (h : mwSrc w ≤ 1) : (s.aRow w r1 none i).2 = s := by
  rcases (by omega : mwSrc w = 0 ∨ mwSrc w = 1) with h | h <;> simp only [State.aRow, h]
  split <;> rfl

/-- A mma of INT8 rows in the stash and one of BF16 rows in registers, with A and B at 0. -/
def multiplies : List Cmd := [order 5 .mma (.mma 5 0 31 10 11) 0 0, order 5 .mma (.mma 1 1 0 10 11) 0 0, order 5 .mmas (.mmas 5 31 10 11) 0 0]
theorem witness_matrix_work :
    (∀ c ∈ order 5 .mzero (.mzero 31) 0 0 :: order 5 .mload (.mload 31 10 11) 0x1FE000 256 :: multiplies, Starts (withCmds [c] (ctWith [])) c) ∧
    (ctWith []).base.lost = [] ∧
    ∀ c ∈ multiplies, let s := withCmds [c] (ctWith []); mwSrc c.mword ≤ 1 ∧ (s.bColumns (mwFmt c.mword) c.rs2 64).toOption.isSome = true ∧
      ∀ i < 32, (s.aRow c.mword c.rs1 none i).1.toOption.isSome = true := by
  unfold Starts; decide +kernel

/-- Tiles of 4 words by 2 rows, an index tile of one word and a destination in the stash; the index word is 1, and 9. -/
def tileOf (i base : Nat) (ext : List Nat) : TileRef :=
  refOf i (plainDesc 1 2 2 base ext [4, if ext[0]? = some 1 then 4 else 16, 0, 0])
def copies (ix : Nat) (c : Cmd) : State := (withCmds [c] (ctWith [])).onVec fun v => { v with stash := Table.set 0 [] 0x100 ix }
def copyOrder (k : CmdKind) (a b x : TileRef) : Cmd :=
  { order 5 k (.xfill false false 1 1 10 11) 0x1234 0 with src := some a, dst := some b, idx := some x }
def copyA : TileRef := tileOf 3 0x80 [4, 2, 1, 1]
def copyB : TileRef := tileOf 4 0xC0 [4, 2, 1, 1]
def copyX : TileRef := tileOf 5 0x100 [1, 2, 1, 1]
theorem witness_copy_commands :
    (∀ k ∈ [CmdKind.fill, .copy, .copyMatrix, .gather, .scatter], StartsCopy (copies 1 (copyOrder k copyA copyB copyX)) (copyOrder k copyA copyB copyX) copyB) ∧
    (copies 1 (copyOrder .copy copyA copyB copyX)).inStash copyA ∧ (copies 1 (copyOrder .copy copyA copyB copyX)).inStash copyX ∧ Apart copyA copyB ∧ Apart copyX copyB ∧
    copyA.desc.count = copyB.desc.count ∧ copyA.desc.bytes = copyB.desc.bytes ∧ copyX.desc.bytes = 4 ∧ copyA.desc.extent 0 = copyB.desc.extent 0 ∧ 0 < copyA.desc.extent 0 ∧
    copyA.desc.count = copyA.desc.extent 0 * copyA.desc.rows ∧ copyB.desc.count = copyA.desc.extent 0 * copyB.desc.rows ∧ copyX.desc.count = copyB.desc.rows ∧
    ((copies 1 (copyOrder .gather copyA copyB copyX)).elem copyX 0 < copyA.desc.rows ∧ (copies 1 (copyOrder .gather copyA copyB copyX)).elem copyX 1 < copyA.desc.rows) ∧
    copyA.desc.rows ≤ (copies 9 (copyOrder .gather copyA copyB copyX)).elem copyX 0 := by
  refine ⟨?_, ?_, ?_, ?_, ?_, ?_⟩ <;> (try unfold StartsCopy) <;> (try unfold State.inStash) <;> (try unfold Apart) <;> (try unfold Distinct) <;> decide +kernel

/-- A drain of BF16 into the stash, and one of words into the registers of 32 micro-threads. -/
theorem witness_drain_commands :
    (let c := order 5 .mdrain (.mdrain 0 0 31 10 11) 0x40 0
     Starts (withCmds [c] (ctWith [])) c ∧ mwFmt c.mword = 0 ∧ mwSrc c.mword = 0 ∧ drainSize 0 = 2 ∧ (ctWith []).base.lost = [] ∧ (ctWith []).core.no < 192) ∧
    (let c := order 5 .mdrain (.mdrain 15 1 31 10 11) (0 + 2 <<< 8) 0
     let s := withCmds [c] (ctWith [])
     Starts s c ∧ mwFmt c.mword = 15 ∧ mwSrc c.mword = 1 ∧ 0 + 16 * drainSize 15 ≤ s.nregs ∧ 2 + 32 ≤ s.vlmax) := by
  unfold Starts; decide +kernel

theorem witness_collective_starts :
    let a := tileOf 3 0x80 [4, 2, 1, 1]
    let c := { order 5 .reduce (.xcollReduce false false 1 1 10 11) 0 0 with src := some a, members := [0xFFFF], status := [none] }
    let s := withCmds [c] (ctWith [])
    s.core.phase = .running ∧ s.held s.core.no = false ∧ s.cmd c.seq = some c ∧ c.phase = .queued ∧ c.kind.isColl = true ∧ s.mayCollect c = true ∧
      s.core.vec.late = [] ∧ s.overFor c = false ∧ s.inStash a ∧ s.base.lost = [] := by
  unfold State.inStash; decide +kernel

/-- A command that may complete, one with a CODE, one whose member's contribution failed, a FAULTED one, a queued one, and none. -/
theorem witness_engine_progress :
    (let c := { order 5 .fill (.xfill false false 1 1 10 11) 0 0 with phase := .running }
     let s := withCmds [c] (ctWith []); s.cmd c.seq = some c ∧ s.mayComplete c = true ∧ c.notify.getLsbD 21 = true ∧
       4 * (c.notify.extractLsb' 2 19).toNat + 4 ≤ 0x20_0000) ∧
    (let c := { order 5 .fill (.xfill false false 1 1 10 11) 0 0 with phase := .running, code := 2, addr := 0x40 }
     let s := withCmds [c] (ctWith []); s.cmd c.seq = some c ∧ c.phase = .running ∧ c.code ≠ 0) ∧
    (let c := { order 5 .reduce (.xcollReduce false false 1 1 10 11) 0 0 with phase := .running, members := [0xFFFF, 0x1FFFF], status := [some 1, none] }
     let x : Contribution := { member := 0x1FFFF, kind := .reduce, op := 0, members := [0xFFFF, 0x1FFFF], data := none, taken := [] }
     let s := { withCmds [c] (ctWith []) with dir := { (ctWith []).dir with staged := [x] } }
     s.cmd c.seq = some c ∧ c.kind.isColl = true ∧ c.phase = .running ∧ c.code = 0 ∧ c.status[1]? = some none ∧
       s.contribution c (c.members.getD 1 0) = some x ∧ x.data = none) ∧
    (let c := { order 5 .fill (.xfill false false 1 1 10 11) 0 0 with phase := .faulted, code := 2 }
     let s := withCmds [c] (ctWith [(10, 5)]); s.cmd c.seq = some c ∧ (s.getX 10).toNat = c.seq ∧ c.phase = .faulted) ∧
    (let c := order 5 .fill (.xfill false false 1 1 10 11) 0 0
     let s := withCmds [c] (ctWith [(10, 5), (11, 6)]); s.cmd c.seq = some c ∧ (s.getX 10).toNat = c.seq ∧ c.phase ≠ .faulted ∧ c.phase = .queued ∧
       s.cmd (s.getX 11).toNat = none) := by decide +kernel

/-! ### Tiles and frame records -/

/-- Tile 7 under no tenure, and held by the core. -/
def loose : State := tiled [(10, handleOf 7), (11, 8)]
def held : State := loose.setTenure (.tile 7) 0 { wts := some 5, rts := some 5, holder := some 0, home := some 5, version := 0 }
theorem witness_tile_tenure :
    ((liveTile 7 (plainDesc 0 2 1 0x5000 [8, 1, 1, 1] [4, 0, 0, 0])).state = .live ∧ loose.entryAt loose.asidNow 7 =
      some (liveTile 7 (plainDesc 0 2 1 0x5000 [8, 1, 1, 1] [4, 0, 0, 0])) ∧ 7 < loose.core.csr.tileCount ∧ loose.entryAt loose.asidNow 0 = none) ∧
    (tiled []).current 0 = none ∧
    (let e := liveTile 7 (plainDesc 0 2 1 0x5000 [8, 1, 1, 1] [4, 0, 0, 0])
     loose.current ((loose.getX 10).setWidth 32) = some e ∧ loose.leaves e = [e] ∧ (loose.tenure (.tile e.ten) 0).holder = none ∧
       held.current ((held.getX 10).setWidth 32) = some e ∧ held.leaves e = [e] ∧ (held.tenure (.tile e.ten) 0).holder = some held.core.no ∧
       (loose.core.copies.all fun c => match c.2 with | some c => !c.dirty | none => true) = true ∧
       (held.core.copies.all fun c => match c.2 with | some c => !c.dirty | none => true) = true) := by decide +kernel

/-- A table with one entry taken, and the bytes of a descriptor of the stash, of DDR, and of none. -/
def fewTiles (e : TileEntry) (d : TileDesc) (xs : List (XReg × Word)) : State :=
  let s := tiled xs
  { s with mem := Memory.writeLE s.mem 0x6000 64 d.toBytes, dir := { s.dir with entries := [e] } }
def aTile : TileDesc := plainDesc 1 2 1 0x300 [8, 1, 1, 1] [4, 0, 0, 0]
def aDdrTile : TileDesc := plainDesc 0 2 1 0x7000 [8, 1, 1, 1] [4, 0, 0, 0]
def one : TileEntry := liveTile 1 (plainDesc 1 2 1 0 [8, 1, 1, 1] [4, 0, 0, 0])
theorem witness_tnew :
    (let s := fewTiles one { aTile with rank := 5 } [(10, 0x6000)]
     (s.getX 10).toNat % 64 = 0 ∧ ∃ x s1, s.begins.loadPlain .ct none (s.getX 10) 64 s.userMode [] = (.ok x, s1) ∧ (descOk x s1.core.ct.user = false)) ∧
    (let s := fewTiles one aTile [(10, 0x6000)]
     ∃ x s1, s.begins.loadPlain .ct none (s.getX 10) 64 s.userMode [] = (.ok x, s1) ∧ (descOk x s1.core.ct.user = true ∧ (TileDesc.ofBytes x).space ≠ 0 ∧
       ∃ l s2, s1.findFree 1 = (.ok l, s2) ∧ (l = [(2, 0)] ∧ ∃ pa s3, s2.tablePlace 2 = (.ok pa, s3) ∧ (pa = 0x8100)))) ∧
    (let s := fewTiles one aDdrTile [(10, 0x6000)]
     ∃ x s1, s.begins.loadPlain .ct none (s.getX 10) 64 s.userMode [] = (.ok x, s1) ∧ (descOk x s1.core.ct.user = true ∧ x = aDdrTile.toBytes ∧
       ∃ l s2, s1.findFree 1 = (.ok l, s2) ∧ (l = [(2, 0)] ∧ ∃ pa s3, s2.tablePlace 2 = (.ok pa, s3) ∧
         ((s3.joinTenure aDdrTile.lo.toNat aDdrTile.hi.toNat false s3.dir.nextTen (mkHandle 0 2)).isSome = true ∧
          ∃ pins s4, s3.pinPages false aDdrTile.hi.toNat 2 aDdrTile.lo.toNat = (.ok pins, s4) ∧
            ((s4.pinnedPages s4.asidNow).length + (pins.filter fun p => !(s4.pinnedPages s4.asidNow).contains p.va).length ≤ 16384))))) := by
  refine ⟨⟨by decide +kernel, of_ok _ (TileDesc.toBytes { aTile with rank := 5 }) ?_ ?_⟩,
    of_ok _ aTile.toBytes ?_ ⟨?_, ?_, of_ok _ [(2, 0)] ?_ ⟨rfl, of_ok _ 0x8100 ?_ rfl⟩⟩,
    of_ok _ aDdrTile.toBytes ?_ ⟨?_, rfl, of_ok _ [(2, 0)] ?_ ⟨rfl, of_ok _ 0x8100 ?_ ⟨?_, of_ok _ [⟨0, 2 ^ 48, 0, false, false⟩] ?_ ?_⟩⟩⟩⟩
  all_goals decide +kernel

/-- A table that is full, and a tile of DDR where another lies. -/
theorem witness_tnew_statuses :
    (let s := { tiled [(10, 0x6000)] with mem := (fewTiles one aTile []).mem }
     ∃ x s1, s.begins.loadPlain .ct none (s.getX 10) 64 s.userMode [] = (.ok x, s1) ∧ (descOk x s1.core.ct.user = true ∧
       ∃ l s2, s1.findFree 1 = (.ok l, s2) ∧ (l = []))) ∧
    (let s := fewTiles (liveTile 6 aDdrTile) aDdrTile [(10, 0x6000)]
     ∃ x s1, s.begins.loadPlain .ct none (s.getX 10) 64 s.userMode [] = (.ok x, s1) ∧ (descOk x s1.core.ct.user = true ∧ x = aDdrTile.toBytes ∧
       ∃ l s2, s1.findFree 1 = (.ok l, s2) ∧ (l = [(1, 0)] ∧ ∃ e ∈ s2.dir.entries, e.asid = s2.asidNow ∧ e.desc.space = 0 ∧ e.state ≠ .forward ∧
         aDdrTile.lo.toNat / 64 ≤ e.hi / 64 ∧ e.lo / 64 ≤ aDdrTile.hi.toNat / 64 ∧ aDdrTile.aliased = false))) := by
  refine ⟨of_ok _ aTile.toBytes ?_ ⟨?_, of_ok _ [] ?_ rfl⟩, of_ok _ aDdrTile.toBytes ?_ ⟨?_, rfl, of_ok _ [(1, 0)] ?_ ⟨rfl, ?_⟩⟩⟩
  all_goals decide +kernel

theorem loop_nodup (l acc : List Nat) (n : l.Nodup) (d : ∀ x ∈ l, x ∉ acc) : List.eraseDupsBy.loop (· == ·) l acc = acc.reverse ++ l := by
  induction l generalizing acc with
  | nil => simp [List.eraseDupsBy.loop]
  | cons a l ih =>
    have ha : acc.any (fun b => a == b) = false := by
      rw [List.any_eq_false]; intro x hx e; simp at e; exact d a (List.mem_cons_self ..) (e ▸ hx)
    rw [List.eraseDupsBy.loop, ha]
    rw [ih (a :: acc) (List.nodup_cons.mp n).2 fun x hx h => by
      rcases List.mem_cons.mp h with rfl | h
      · exact (List.nodup_cons.mp n).1 hx
      · exact d x (List.mem_cons_of_mem _ hx) h]
    simp

/-- Pages enough to reach the limit of an address space, and a tile of another page. -/
def manyPages : List Pin := (List.range 16384).map fun k => { va := 4096 * (k + 16), bytes := 4096, pa := 4096 * (k + 16), readSeen := false, writeSeen := false }
theorem many_pages : (manyPages.map (·.va)).eraseDups = manyPages.map (·.va) := by
  have n : (manyPages.map (·.va)).Nodup := by
    simp only [manyPages, List.map_map]
    refine List.pairwise_map.mpr (List.nodup_range.imp fun h => ?_)
    simp only [Function.comp]; omega
  rw [List.eraseDups, List.eraseDupsBy, loop_nodup _ _ n (by simp), List.reverse_nil, List.nil_append]
def pinned : State := fewTiles { one with pins := manyPages } aDdrTile [(10, 0x6000)]
theorem pinned_pages (u : State) (h : u.asidNow = 0) (d : u.dir.entries = [{ one with pins := manyPages }]) :
    u.pinnedPages u.asidNow = manyPages.map (·.va) := by
  have h0 : (0 == 0) = true := rfl
  simp only [State.pinnedPages, h, d, List.filter_cons, List.filter_nil, one, liveTile, h0, if_true, List.flatMap_cons, List.flatMap_nil, List.append_nil,
    many_pages]
theorem beyond_limit (l : List Nat) (h : l = manyPages.map (·.va)) (p : Pin) (z : p.va = 0) :
    16384 < l.length + ([p].filter fun q => !l.contains q.va).length := by
  have n : l.contains 0 = false := by
    rw [h, List.contains_eq_any_beq, List.any_eq_false]; intro x hx; simp only [manyPages, List.map_map, List.mem_map] at hx
    obtain ⟨k, -, rfl⟩ := hx; simp only [Function.comp]; simp
  have : l.length = 16384 := by simp [h, manyPages]
  rw [List.filter_cons, z, n]; simp [this]
set_option maxRecDepth 20000 in
set_option exponentiation.threshold 512 in
theorem witness_tnew_pinfull :
    ∃ x s1, pinned.begins.loadPlain .ct none (pinned.getX 10) 64 pinned.userMode [] = (.ok x, s1) ∧ (descOk x s1.core.ct.user = true ∧ x = aDdrTile.toBytes ∧
      ∃ l s2, s1.findFree 1 = (.ok l, s2) ∧ (l = [(2, 0)] ∧
        ∃ pins u, s2.pinPages false aDdrTile.hi.toNat 2 aDdrTile.lo.toNat = (.ok pins, u) ∧
          (16384 < (u.pinnedPages u.asidNow).length + (pins.filter fun p => !(u.pinnedPages u.asidNow).contains p.va).length))) := by
  refine of_ok _ aDdrTile.toBytes (by decide +kernel) ⟨by decide +kernel, rfl, of_ok _ [(2, 0)] (by decide +kernel) ⟨rfl, of_ok _ [⟨0, 2 ^ 48, 0, false, false⟩] ?_ ?_⟩⟩
  · decide +kernel
  · exact beyond_limit _ (pinned_pages _ (by decide +kernel) (by rfl)) _ rfl

/-- A LIVE tile and a FORWARD one that its handle still names; a bad dimension, a place at either end, and what makes a split and a free whole. -/
def forwardOne : TileEntry := { one with state := .forward, gen := 8, child0 := mkHandle 0 2, child1 := mkHandle 0 3 }
theorem witness_tsplit :
    (let s := fewTiles forwardOne aTile [(10, handleOf 1)]; s.current ((s.getX 10).setWidth 32) = some forwardOne ∧ forwardOne.state = .forward) ∧
    (one.state = .live ∧ one.desc.rank ≤ (1 : Word).toNat % 4 ∧ (0 : Nat) < 1 ∧ one.desc.extent 0 ≤ 8) ∧
    (let s := fewTiles one aTile [(10, handleOf 1), (11, 3 <<< 32)]
     s.current ((s.getX 10).setWidth 32) = some one ∧ one.state = .live ∧ (s.getX 11).toNat / 4 % 2 ^ 30 = 0 ∧
       (s.getX 11).toNat % 4 < one.desc.rank ∧ 1 ≤ (s.getX 11).toNat / 2 ^ 32 ∧ (s.getX 11).toNat / 2 ^ 32 < one.desc.extent 0 ∧ one.desc.space ≠ 0 ∧
       ∃ l s1, s.begins.findFree 2 = (.ok l, s1) ∧ (l = [(2, 0), (3, 0)] ∧ ∃ p0 s2, s1.tablePlace 2 = (.ok p0, s2) ∧ (p0 = 0x8100 ∧
         ∃ p1 s3, s2.tablePlace 3 = (.ok p1, s3) ∧ (p1 = 0x8180 ∧ ∃ pp s4, s3.tablePlace one.index = (.ok pp, s4) ∧ (pp = 0x8080))))) ∧
    (let s := fewTiles one aTile [(10, 2)]; s.current ((s.getX 10).setWidth 32) = none) := by
  refine ⟨by decide +kernel, by decide +kernel, ⟨by decide +kernel, rfl, by decide +kernel, by decide +kernel, by decide +kernel, by decide +kernel,
    by decide, of_ok _ [(2, 0), (3, 0)] ?_ ⟨rfl, of_ok _ 0x8100 ?_ ⟨rfl, of_ok _ 0x8180 ?_ ⟨rfl, of_ok _ 0x8080 ?_ rfl⟩⟩⟩⟩, ?_⟩
  all_goals decide +kernel

/-- A tile that only supervisor level names, one that shares its tenure, and a table without two free entries. -/
theorem witness_tile_failures :
    (let e : TileEntry := liveTile 1 (plainDesc 5 2 1 0 [8, 1, 1, 1] [4, 0, 0, 0])
     let s := fewTiles e aTile [(10, handleOf 1)]; s.current ((s.getX 10).setWidth 32) = some e ∧ ¬ s.mayName e) ∧
    (let e := liveTile 1 aDdrTile
     let s := { fewTiles e aTile [(10, handleOf 1), (11, 3 <<< 32)] with dir := { (tiled []).dir with entries := [e, { liveTile 2 aDdrTile with ten := 1 }] } }
     s.current ((s.getX 10).setWidth 32) = some e ∧ s.mayName e ∧ e.desc.space = 0 ∧
       ∃ o ∈ s.dir.entries, o.asid = e.asid ∧ o.index ≠ e.index ∧ o.ten = e.ten) ∧
    (let s := tiled [(10, handleOf 1), (11, 3 <<< 32)]
     ∃ e, s.current ((s.getX 10).setWidth 32) = some e ∧ ((e.desc.space ≠ 0) ∧ ∃ l s1, s.begins.findFree 2 = (.ok l, s1) ∧ (l.length < 2))) := by
  unfold State.mayName
  refine ⟨by decide +kernel, by decide +kernel, _, rfl, by decide +kernel, of_ok _ [] ?_ (by decide)⟩
  all_goals decide +kernel

theorem witness_tfree :
    (let s := fewTiles forwardOne aTile [(10, handleOf 1)]; ∃ pa s1, s.tablePlace one.index = (.ok pa, s1) ∧ (pa = 0x8080)) ∧
    (let s := fewTiles one aTile [(10, handleOf 1)]
     one.desc.space ≠ 0 ∧ ∃ pa s1, s.tablePlace one.index = (.ok pa, s1) ∧
       (let e' := { one with state := .draining, freer := some (s.core.csr.jobid, s.core.csr.gangix) }
        let s2 := ((s1.release 3).acquired.setEntry e').throughTo 0x8080 e' false
        let s3 := s2.setEntry { e' with waitFrom := s2.core.ltime }
        s3.mayFree { e' with waitFrom := s2.core.ltime } = true ∧ ∃ pa' s4, s3.tablePlace one.index = (.ok pa', s4) ∧ (pa' = 0x8080))) := by
  refine ⟨of_ok _ 0x8080 ?_ ?_, by decide, of_ok _ 0x8080 ?_ ⟨?_, of_ok _ 0x8080 ?_ rfl⟩⟩
  all_goals decide +kernel

/-- 11 R250: in an empty table TNEW takes index 1, a split of it at 3 gives 3 and 2, and TFREE of the FORWARD entry gives 0. -/
theorem test_tile_life :
    let s := fewTiles { one with index := 6, ten := 6 } aTile [(10, 0x6000), (11, 3 <<< 32)]
    let s := after (.tnew 12 10) s
    let t := after (.tsplit 13 12 11) s
    s.getX 12 = 1 ∧ t.getX 13 = 0x3_0000_0002 ∧ (after (.tfree 14 12) t).getX 14 = 0 := by decide +kernel

/-- A frame table with records 1 to 3, and a template at 0x6000. -/
def withFrames (r1 r2 r3 : FrameRec) (template : Nat) (xs : List (XReg × Word)) : State :=
  let s := ctWith xs
  { s with mem := imageOf [(loadRoot, 16, loadPte + 0xCF * 2 ^ 64), (0x4080, 128, r1.toBytes), (0x4100, 128, r2.toBytes), (0x4180, 128, r3.toBytes),
      (0x6000, 128, template)] }.onCsr fun c => { c with framebase := 0x1_0000_0000_4002 }
def gone : FrameRec := { rootRec with state := 2 }
/-- Templates: a root and a child for index 1, and successors 2 and 3. -/
def rootTemplate : Nat := rootRec.toBytes + 2 ^ (8 * 0x60)
def childTemplate : Nat := { childRec with parent := 0x01000002 }.toBytes + 2 ^ (8 * 0x60)
def splitTemplate : Nat := 2 + 5 * 2 ^ 32 + 0x01000002 * 2 ^ 64 + 0x01000003 * 2 ^ 96
theorem witness_fnew :
    (let s := withFrames gone rootRec rootRec rootTemplate [(10, 0x6000)]
     (s.getX 10).toNat % 16 = 0 ∧ ∃ tp s1, s.begins.loadPieces (s.getX 10) 8 = (.ok tp, s1) ∧ (tp = rootTemplate ∧ tp / 2 ^ (8 * 0x60) % 2 ^ 32 = 1 ∧
       (FrameRec.ofBytes tp).level = 0 ∧ (∀ x ∈ (FrameRec.ofBytes tp).rot, -(2 ^ 30) ≤ x ∧ x ≤ 2 ^ 30) ∧ (FrameRec.ofBytes tp).extent < 2 ^ 31 ∧
       1 < s1.core.csr.frameCount ∧ ∃ old s2, s1.homeRecord 1 = (.ok old, s2) ∧ ((FrameRec.ofBytes old).state = 2 ∧
         ∃ pa s3, s2.checkVirt (s2.frameAddr 1) 128 .store s2.superMode = (.ok pa, s3) ∧ (pa = 0x4080)))) ∧
    (let s := withFrames gone rootRec rootRec childTemplate [(10, 0x6000)]
     ∃ tp s1, s.begins.loadPieces (s.getX 10) 8 = (.ok tp, s1) ∧ (tp = childTemplate ∧ (FrameRec.ofBytes tp).level ≠ 0 ∧ (FrameRec.ofBytes tp).parent = 0x01000002 ∧
       ∃ old s2, s1.homeRecord 1 = (.ok old, s2) ∧ (old = gone.toBytes ∧
         ∃ px s3, s2.homeRecord 2 = (.ok px, s3) ∧ (Current (FrameRec.ofBytes px) 0x01000002 ∧ (FrameRec.ofBytes px).level < 15 ∧
           ∃ pa s4, s3.checkVirt (s3.frameAddr 1) 128 .store s3.superMode = (.ok pa, s4) ∧ (pa = 0x4080))))) := by
  refine ⟨⟨?_, of_ok _ rootTemplate ?_ ⟨rfl, ?_, ?_, ?_, ?_, ?_, of_ok _ gone.toBytes ?_ ⟨?_, of_ok _ 0x4080 ?_ rfl⟩⟩⟩,
    of_ok _ childTemplate ?_ ⟨rfl, ?_, ?_, of_ok _ gone.toBytes ?_ ⟨rfl, of_ok _ rootRec.toBytes ?_ ⟨?_, ?_, of_ok _ 0x4080 ?_ rfl⟩⟩⟩⟩ <;>
    try unfold Current
  all_goals decide +kernel

theorem witness_fset_fsplit_fdel :
    (let s := withFrames rootRec rootRec rootRec rootTemplate [(10, 0x01000001), (11, 0x6000)]
     (s.getX 11).toNat % 16 = 0 ∧ tagIndex ((s.getX 10).setWidth 32) = 1 ∧ ∃ tp s1, s.begins.loadPieces (s.getX 11) 8 = (.ok tp, s1) ∧ (tp = rootTemplate ∧
       ∃ old s2, s1.homeRecord 1 = (.ok old, s2) ∧ (Current (FrameRec.ofBytes old) 0x01000001 ∧
         ∃ pa s3, s2.checkVirt (s2.frameAddr 1) 128 .store s2.superMode = (.ok pa, s3) ∧ (pa = 0x4080)))) ∧
    (let s := withFrames rootRec rootRec rootRec splitTemplate [(10, 0x01000001), (11, 0x6000)]
     ∃ tp s1, s.begins.loadPieces (s.getX 11) 1 = (.ok tp, s1) ∧ (tp = splitTemplate ∧ tp % 256 ≤ 2 ∧
       ∃ old s2, s1.homeRecord 1 = (.ok old, s2) ∧ (old = rootRec.toBytes ∧
         ∃ x0 s3, s2.homeRecord 2 = (.ok x0, s3) ∧ (x0 = rootRec.toBytes ∧ ∃ x1 s4, s3.homeRecord 3 = (.ok x1, s4) ∧ (x1 = rootRec.toBytes ∧
           (∀ p ∈ [((0x01000002 : BitVec 32), FrameRec.ofBytes rootRec.toBytes), (0x01000003, FrameRec.ofBytes rootRec.toBytes)],
             Current p.2 p.1 ∧ tagIndex p.1 ≠ 1 ∧ (p.2.level = 0 ∨ tagIndex p.2.parent ≠ 1)) ∧
           ∃ pa s5, s4.checkVirt (s4.frameAddr 1) 128 .store s4.superMode = (.ok pa, s5) ∧ (pa = 0x4080)))))) ∧
    (∀ x ∈ [(rootRec, (0x01000001 : Word)), ({ rootRec with state := 1, splitAxis := 2 }, 0x00000001)],
      let s := withFrames x.1 rootRec rootRec 0 [(10, x.2)]
      let o := FrameRec.ofBytes x.1.toBytes
      (s.begins.homeRecord 1).1.toOption = some x.1.toBytes ∧
      (o.state = 0 ∧ ((s.getX 10).setWidth 32 : BitVec 32).extractLsb' 24 8 = o.gen ∨
        o.state = 1 ∧ o.splitAxis ≤ 2 ∧ ((s.getX 10).setWidth 32 : BitVec 32).extractLsb' 24 8 = o.gen - 1) ∧
      o.level ≤ 15 ∧ o.extent < 2 ^ 31 ∧
      ((s.begins.homeRecord 1).2.checkVirt ((s.begins.homeRecord 1).2.frameAddr 1) 128 .store (s.begins.homeRecord 1).2.superMode).1.toOption = some 0x4080) := by
  refine ⟨⟨?_, ?_, of_ok _ rootTemplate ?_ ⟨rfl, of_ok _ rootRec.toBytes ?_ ⟨?_, of_ok _ 0x4080 ?_ rfl⟩⟩⟩,
    of_ok _ splitTemplate ?_ ⟨rfl, ?_, of_ok _ rootRec.toBytes ?_ ⟨rfl, of_ok _ rootRec.toBytes ?_ ⟨rfl, of_ok _ rootRec.toBytes ?_
      ⟨rfl, ?_, of_ok _ 0x4080 ?_ rfl⟩⟩⟩⟩, ?_⟩ <;> try unfold Current
  all_goals decide +kernel

/-- Templates: of index 0, with a wrong extent, and with a parent that the tag does not name; records that are LIVE, malformed, of another
generation, at LEVEL 15, and whose parent is record 1. -/
def wide : FrameRec := { rootRec with extent := 2 ^ 31 }
def deepest : FrameRec := { rootRec with level := 15 }
def old : FrameRec := { rootRec with gen := 2 }
def ofOne : FrameRec := { rootRec with level := 1, parent := 0x01000001 }
/-- What fnew reads: the template, the record that it names, and the parent's record. -/
def fnewReads (s : State) (tp : Nat) (o : FrameRec) : Bool :=
  (s.begins.loadPieces (s.getX 10) 8).1.toOption == some tp && ((s.begins.loadPieces (s.getX 10) 8).2.homeRecord 1).1.toOption == some o.toBytes
def fnewParent (s : State) (p : FrameRec) : Bool :=
  ((((s.begins.loadPieces (s.getX 10) 8).2.homeRecord 1).2).homeRecord 2).1.toOption == some p.toBytes
theorem witness_fnew_fails :
    (∀ tp ∈ [0, 4 * 2 ^ (8 * 0x60)], let s := withFrames gone rootRec rootRec tp [(10, 0x6000)]
      (s.begins.loadPieces (s.getX 10) 8).1.toOption = some tp ∧ (tp / 2 ^ (8 * 0x60) % 2 ^ 32 = 0 ∨ s.core.csr.frameCount ≤ tp / 2 ^ (8 * 0x60) % 2 ^ 32)) ∧
    (fnewReads (withFrames rootRec rootRec rootRec rootTemplate [(10, 0x6000)]) rootTemplate rootRec = true ∧ (FrameRec.ofBytes rootRec.toBytes).state ≠ 2) ∧
    (let tp := wide.toBytes + 2 ^ (8 * 0x60)
     fnewReads (withFrames gone rootRec rootRec tp [(10, 0x6000)]) tp gone = true ∧ (FrameRec.ofBytes tp).level = 0 ∧ ¬(FrameRec.ofBytes tp).extent < 2 ^ 31) ∧
    (∀ p ∈ [wide, old, deepest], let s := withFrames gone p rootRec childTemplate [(10, 0x6000)]
      fnewReads s childTemplate gone = true ∧ fnewParent s p = true) ∧
    Malformed (FrameRec.ofBytes wide.toBytes) ∧
    (¬ Malformed (FrameRec.ofBytes old.toBytes) ∧ ¬ Current (FrameRec.ofBytes old.toBytes) 0x01000002) ∧
    (Current (FrameRec.ofBytes deepest.toBytes) 0x01000002 ∧ (FrameRec.ofBytes deepest.toBytes).level = 15) ∧
    (ctWith [(10, 2), (11, 2)]).getX 10 = 2 ∧ (ctWith [(10, 2), (11, 2)]).getX 11 = 2 := by
  unfold Malformed Current; decide +kernel

/-- The same for fset, fsplit and fdel: what they read through rs2, and the record of index 1. -/
def editReads (s : State) (n tp : Nat) (o : FrameRec) : Bool :=
  (s.begins.loadPieces (s.getX 11) n).1.toOption == some tp && ((s.begins.loadPieces (s.getX 11) n).2.homeRecord 1).1.toOption == some o.toBytes
def successor (s : State) (k : Nat) (p : FrameRec) : Bool :=
  let s2 := ((s.begins.loadPieces (s.getX 11) 1).2.homeRecord 1).2
  (s2.homeRecord 2).1.toOption == some rootRec.toBytes && ((if k = 0 then s2 else (s2.homeRecord 2).2).homeRecord (2 + k)).1.toOption == some p.toBytes
    || k == 0 && (s2.homeRecord 2).1.toOption == some p.toBytes
theorem witness_fset_fsplit_fdel_fail :
    (∀ o ∈ [wide, old], ∀ x ∈ [(8, rootTemplate), (1, splitTemplate)],
      editReads (withFrames o rootRec rootRec x.2 [(10, 0x01000001), (11, 0x6000)]) x.1 x.2 o = true) ∧
    Malformed (FrameRec.ofBytes wide.toBytes) ∧ (¬ Malformed (FrameRec.ofBytes old.toBytes) ∧ ¬ Current (FrameRec.ofBytes old.toBytes) 0x01000001) ∧
    (let tp := wide.toBytes
     editReads (withFrames rootRec rootRec rootRec tp [(10, 0x01000001), (11, 0x6000)]) 8 tp rootRec = true ∧ ¬(FrameRec.ofBytes tp).extent < 2 ^ 31) ∧
    (editReads (withFrames rootRec rootRec rootRec (splitTemplate + 1) [(10, 0x01000001), (11, 0x6000)]) 1 (splitTemplate + 1) rootRec = true ∧
      2 < (splitTemplate + 1) % 256) ∧
    (∀ p ∈ [wide, old, ofOne], successor (withFrames rootRec p rootRec splitTemplate [(10, 0x01000001), (11, 0x6000)]) 0 p = true ∧
      successor (withFrames rootRec rootRec p splitTemplate [(10, 0x01000001), (11, 0x6000)]) 1 p = true) ∧
    (Current (FrameRec.ofBytes ofOne.toBytes) 0x01000002 ∧ (FrameRec.ofBytes ofOne.toBytes).level ≠ 0 ∧ tagIndex (FrameRec.ofBytes ofOne.toBytes).parent = 1) ∧
    (∀ o ∈ [wide, old], ((withFrames o rootRec rootRec 0 [(10, 0x01000001)]).begins.homeRecord 1).1.toOption = some o.toBytes) ∧
    (¬((FrameRec.ofBytes old.toBytes).state = 0 ∧ (1 : BitVec 8) = (FrameRec.ofBytes old.toBytes).gen) ∧
      ¬((FrameRec.ofBytes old.toBytes).state = 1 ∧ (1 : BitVec 8) = (FrameRec.ofBytes old.toBytes).gen - 1)) := by
  unfold Malformed Current; decide +kernel

/-! ### The control thread -/

/-- A word of DDR and a word of the own stash, at hand. -/
def atDdr : State := mapped (ctWith [(10, 0x303C), (11, 1), (12, 5)])
def atStash : State := (ctWith [(10, 0x1FFFFC)]).onCsr fun c => { c with vspace := 1 }
/-- A core that sleeps on a word, with its time over. -/
def sleeping (woken : Bool) : State :=
  let s := atDdr.onCt fun c => { c with wait := some (.sleep (.waitaEq 1 10 11 12) 0x303C 0 woken), waitaStart := some 0 }
  { s with base := { s.base with cycle := 5 } }
theorem witness_waiting_on_words :
    (atDdr.wordSpaceOk = true ∧ (atDdr.getX 10).toNat % 4 = 0 ∧ atDdr.wordBlocked (atDdr.getX 10) false = false ∧
      ∃ p s1, atDdr.wordPlace (atDdr.getX 10) false = (.ok p, s1) ∧ (p = (0x303C, .block))) ∧
    (atStash.wordSpaceOk = true ∧ ∃ p s1, atStash.wordPlace (atStash.getX 10) false = (.ok p, s1) ∧ (p = (windowAddr 0 .stash 0x1FFFFC, .block))) ∧
    ((sleeping true).core.ct.wait = some (.sleep (.waitaEq 1 10 11 12) 0x303C 0 true)) ∧
    ((sleeping false).core.ct.wait = some (.sleep (.waitaEq 1 10 11 12) 0x303C 0 false) ∧ (sleeping false).sleepEnds 0x303C 0 = true ∧
      (sleeping false).sleepExpired (.waitaEq 1 10 11 12) = true) := by
  refine ⟨⟨by decide +kernel, by decide +kernel, by decide +kernel, of_ok _ (0x303C, .block) ?_ rfl⟩,
    ⟨by decide +kernel, of_ok _ (windowAddr 0 .stash 0x1FFFFC, .block) ?_ rfl⟩, ?_, ?_⟩
  all_goals decide +kernel

/-- Another core, of another die, that sleeps on the block written. -/
def withSleeper : State :=
  { atDdr with others := [(191, { Core.reset 191 with ct := { Ct.reset with wait := some (.sleep (.waitaEq 1 10 11 12) 0x3000 0 false) } })] }
theorem witness_notifies :
    withSleeper.wordSpaceOk = true ∧ (withSleeper.getX 10).toNat % 4 = 0 ∧ withSleeper.wordBlocked (withSleeper.getX 10) true = false ∧
    (∃ p s1, withSleeper.wordPlace (withSleeper.getX 10) true = (.ok p, s1) ∧ (p = (0x303C, .block) ∧ s1.core.copies = [] ∧ placeOf 0x303C = .ddr ∧
      0x303C % 64 + 4 ≤ 64)) ∧
    191 ≠ withSleeper.core.no ∧ ((2 : BitVec 3) = 2 → 40 / 48 = withSleeper.core.no / 48) ∧
    (withSleeper.coreAt 191).ct.wait = some (.sleep (.waitaEq 1 10 11 12) 0x3000 0 false) ∧ 0x3000 / 64 = 0x303C / 64 := by
  refine ⟨by decide +kernel, by decide +kernel, by decide +kernel, of_ok _ (0x303C, .block) ?_ ?_, ?_⟩
  all_goals decide +kernel

/-- A gang of one core; a home beyond it; the arrivals before the last and the last; a phase joined that goes on, and one that is over. -/
def inGang (b : Barrier) (xs : List (XReg × Word)) : State :=
  ((ctWith xs).onCsr fun c => { c with gangsize := 1 }).onVec fun v => { v with barriers := [(31, b)] }
def arrivedOf (a : BitVec 16) : State := inGang { Barrier.zero with count := 3, arrived := a } [(10, 0x1F)]
def joinedOf (p : BitVec 8) : State := inGang { Barrier.zero with phase := 255, arvPhase := some p } [(10, 0x1F)]
theorem witness_barriers :
    (inGang .zero [(10, 0x011F)]).core.csr.gangsize.toNat ≤ (((inGang .zero [(10, 0x011F)]).getX 10).extractLsb' 8 16).toNat ∧
    (((arrivedOf 1).getX 10).extractLsb' 8 16).toNat < (arrivedOf 1).core.csr.gangsize.toNat ∧
    (((arrivedOf 1).getX 10).extractLsb' 8 16).toNat = (arrivedOf 1).core.csr.gangix.toNat ∧
    ((arrivedOf 1).core.barrier 31).arrived = 1 ∧ ((arrivedOf 2).core.barrier 31).arrived = 2 ∧ ((arrivedOf 1).core.barrier 31).arvPhase = none ∧
    (joinedOf 254).barPlace (((joinedOf 254).getX 10).extractLsb' 8 16).toNat = some (.core 0) ∧
    ((joinedOf 254).core.barrier 31).arvPhase = some 254 ∧ ((joinedOf 255).core.barrier 31).arvPhase = some 255 ∧
    ((joinedOf 255).barrierAt (.core 0) 31).phase = 255 := by decide +kernel

/-- A core whose control thread has left a load of DDR. -/
def leftSome : State := (ctWith []).onVec fun v => { v with late := [{ who := .ct, spot := virtSpot 0x3000 0x3000 8, op := .load 5 3 true }] }
theorem witness_fences :
    ((withQueue [entryOf .load (.carrier 0x18 0)] (vecWith [])).fenceWaits 4 = true ∧ (ctWith []).fenceWaits 0xF = false) ∧
    ((ctWith []).core.ct.user = true ∧ (kernelWith []).core.ct.user = false) ∧
    (∃ l ∈ leftSome.core.vec.late, (l.who == Reader.ct) = true ∧ l.op.isStore = false) := by decide +kernel

/-- The window of LTIME against the module time. -/
theorem witness_time_and_job_end :
    (let d := ((ctWith [(10, 0x100000)]).getX 10).setWidth 32 - (ctWith []).core.ltime
     let room := (((ctWith []).core.moduleTime + 0x10_0000 - (ctWith []).core.ltime)).toNat
     0 < d.toNat ∧ d.toNat < 2 ^ 31 ∧ room < 2 ^ 31) ∧
    (let s := ctWith [(10, 0x400000)]; let room := (s.core.moduleTime + 0x10_0000 - s.core.ltime).toNat
     room < 2 ^ 31 ∧ room < ((s.getX 10).setWidth 32 - s.core.ltime).toNat) ∧
    (let s := { ctWith [] with core := { (ctWith []).core with ltime := 0x200000 } }
     2 ^ 31 ≤ (s.core.moduleTime + 0x10_0000 - s.core.ltime).toNat) ∧
    (let s := ctWith []
     s.core.vec.queue = [] ∧ s.core.vec.cmds = [] ∧ s.core.triggered = false ∧ s.drained = true ∧ s.mask kfCode = 0 ∧ s.base.capctl.getLsbD 0 = false) ∧
    (withFault.drained = true ∧ withFault.core.vec.cmds = [] ∧ withFault.mask kfCode ≠ 0) ∧
    (withQueue [entryOf .load (.carrier 0x18 0)] (vecWith [])).core.vec.queue ≠ [] ∧ (withQueue [entryOf .load (.carrier 0x18 0)] (vecWith [])).drained = false ∧
    (let s := { ctWith [] with base := { (ctWith []).base with capctl := 1 }, core := { (ctWith []).core with perf := { Perf.reset with traceLog := 4 } } }
     s.base.capctl.getLsbD 0 = true ∧ s.records ∧ s.Coherent) ∧
    (let s := { ctWith [] with core := { (ctWith []).core with triggered := true } }; s.core.triggered = true) := by
  refine ⟨by decide +kernel, by decide +kernel, by decide +kernel, by decide +kernel, by decide +kernel, by decide +kernel, by decide +kernel,
    ⟨by decide +kernel, by unfold State.records; decide +kernel, (coherent_of_clean _ (by decide +kernel)).1⟩, by decide +kernel⟩

/-- A doubleword at the end of a block of DDR, and one at the end of another core's stash. -/
def atPlace (pa : Nat) : State := mapped (ctWith [(10, BitVec.ofNat 64 pa), (11, 7)])
def places : List Nat := [0x3038, windowAddr 191 .stash 0x1FFFF8]
theorem witness_scalar_memory : ∀ pa ∈ places,
    ((atPlace pa).getX 10 + (0 : BitVec 12).signExtend 64).toNat % 8 = 0 ∧
    (atPlace pa).scalarBlocked ((atPlace pa).getX 10) 8 true = false ∧ (atPlace pa).scalarBlocked ((atPlace pa).getX 10) 8 false = false ∧
    ((atPlace pa).checkVirt ((atPlace pa).getX 10) 8 .load (atPlace pa).ctMode).1.toOption = some pa ∧
    ((atPlace pa).checkVirt ((atPlace pa).getX 10) 8 .store (atPlace pa).ctMode).1.toOption = some pa ∧
    clean ((atPlace pa).checkVirt ((atPlace pa).getX 10) 8 .store (atPlace pa).ctMode).2 = true ∧
    (placeOf pa = .ddr ∨ placeOf pa = .window 191 .stash 0x1FFFF8) ∧ pa % 64 + 8 ≤ 64 ∧
    ((atPlace pa).checkOwn .ct ((atPlace pa).getX 10) 8 (atPlace pa).ctMode).1.toOption = some pa ∧
    ((atPlace pa).checkOwn .ct ((atPlace pa).getX 10) 8 (atPlace pa).ctMode).2.defers = false ∧
    (let s := { atPlace pa with defers := true }
     ((s.checkOwn .ct (s.getX 10) 8 s.ctMode).2.defers = true ∧ (s.checkOwn .ct (s.getX 10) 8 s.ctMode).2.mayLeave pa = true)) := by decide +kernel

/-- The same for atomics, with a reservation and without. -/
theorem witness_scalar_atomics : ∀ pa ∈ places,
    ((atPlace pa).checkAtomic .ct ((atPlace pa).getX 10) 8 (atPlace pa).ctMode true).1.toOption = some pa ∧
    clean ((atPlace pa).checkAtomic .ct ((atPlace pa).getX 10) 8 (atPlace pa).ctMode true).2 = true ∧
    (placeOf pa = .ddr ∨ ∀ j < 8, placeOf (pa + j) = .window 191 .stash (0x1FFFF8 + j)) ∧
    (let s := after (.lr true false false 5 10) (atPlace pa)
     s.reserved (s.keyFor (some pa)) pa = true ∧ (atPlace pa).reserved ((atPlace pa).keyFor (some pa)) pa = false) := by decide +kernel

/-- A claim record at the end of the stash, and an append record with room for all but one of the active elements. -/
def withRecords (xs : List (XReg × Word)) : State :=
  (vecWith xs).onVec fun v => { v with stash := [(0x60, 0), (0x68, 3), (0x70, 0), (0x71, 1), (0x1FFFF8, 9)] }
theorem witness_work_records :
    (let s := withRecords [(10, 0x1FFFF0), (11, 20)]
     s.core.csr.vspace = 1 ∧ s.core.no < 192 ∧ s.base.lost = [] ∧ clean ((s.inTurn .ct (s.stashSpot 0x1FFFF0 16)).release 3) = true ∧ s.linkGetBefore s.core.vec.nextEntry = false ∧ (s.getX 10).toNat % 16 = 0 ∧ (s.getX 10).toNat + 16 ≤ 0x20_0000) ∧
    (let s := withRecords [(10, 0x60)]
     (s.getX 10).toNat % 32 = 0 ∧ (s.getX 10).toNat + 32 ≤ 0x20_0000 ∧ (2 : VReg).toNat < s.nregs ∧ s.fepolTrap [2] = none ∧ s.maskPending 0 = false ∧
       s.queueFull .store = false ∧ s.bytesHeld s.core.vec.nextEntry 1 true [((s.getX 10).toNat, 24)] = false ∧ clean (s.inTurn .ct (s.stashSpot 0x60 24)) = true ∧
       s.core.partRead .stash 0x70 8 = 0x100 ∧ s.core.partRead .stash 0x68 8 = 3 ∧ s.core.partRead .stash 0x60 8 = 0) := by decide +kernel

/-! ### Traps, waits and slots -/

/-- A core with commands, of which the second is FAULTED. -/
def aFault : Cmd := { order 6 .fill (.xfill false false 1 1 10 11) 0 0 with phase := .faulted, code := 5 }
def faulting : State := withCmds [order 5 .mzero (.mzero 0) 0 0, aFault] (ctWith [])
/-- A core with a fault recorded under MTFI. -/
def underMtfi : State := withFault.onCsr fun c => { c with mtfi := true }
/-- A core at supervisor level for which the last two interrupts pend and are enabled. -/
def interrupted : State := (kernelWith []).onCt fun c => { c with sip := 2, sie := 2, sstatus := 2 }
/-- A core on which the block breakpoint has fired. -/
def brokenAt : State := { ctWith [] with core := { (ctWith []).core with perf := { (ctWith []).core.perf with breakPending := some (0x3000, 0x2000) } } }
theorem witness_traps_and_returns :
    (faulting.core.phase = .running ∧ faulting.core.ct.wait = none ∧ faulting.core.ct.user = true ∧ faulting.core.stopDue = false ∧
      faulting.core.vec.cmds = [order 5 .mzero (.mzero 0) 0 0] ++ aFault :: [] ∧ (∀ c ∈ [order 5 .mzero (.mzero 0) 0 0], ¬ c.faultPends) ∧ aFault.faultPends ∧
      ∀ c ∈ [order 5 .mzero (.mzero 0) 0 0] ++ [], c.seq ≠ aFault.seq) ∧
    ((∀ c ∈ underMtfi.core.vec.cmds, ¬ c.faultPends) ∧ underMtfi.core.csr.mtfi = true ∧ underMtfi.mask kfCode ≠ 0 ∧ underMtfi.core.stopDue = false ∧
      underMtfi.core.phase = .running ∧ underMtfi.core.ct.wait = none ∧ underMtfi.core.ct.user = true) ∧
    (interrupted.core.phase = .running ∧ interrupted.core.ct.wait = none ∧ interrupted.core.ct.sstatus.getLsbD 1 = true ∧
      interrupted.core.stopDue = false ∧ interrupted.core.vec.cmds = [] ∧ interrupted.core.csr.mtfi = false ∧ interrupted.core.perf.breakPending = none ∧
      ([16, 9, 1, 5, 17] : List Nat) = [16, 9] ++ 1 :: [5, 17] ∧ (interrupted.sipNow &&& interrupted.core.ct.sie).getLsbD 1 = true ∧
      ∀ k ∈ [16, 9], (interrupted.sipNow &&& interrupted.core.ct.sie).getLsbD k = false) ∧
    ((∀ i ∈ [16, 9, 1, 5, 17], ((kernelWith []).sipNow &&& (kernelWith []).core.ct.sie).getLsbD i = false) ∧ (kernelWith []).core.ct.user = false ∧
      (kernelWith []).core.ct.sstatus.getLsbD 1 = false ∧ (kernelWith []).core.vec.cmds = [] ∧ (kernelWith []).core.csr.mtfi = false ∧
      (kernelWith []).core.perf.breakPending = none ∧ (kernelWith []).core.stopDue = false) ∧
    (brokenAt.core.phase = .running ∧ brokenAt.core.ct.wait = none ∧ brokenAt.core.ct.user = true ∧ brokenAt.core.stopDue = false ∧ brokenAt.core.vec.cmds = [] ∧
      brokenAt.mask kfCode = 0 ∧ brokenAt.core.perf.breakPending = some (0x3000, 0x2000) ∧ brokenAt.core.vec.queue = [] ∧ brokenAt.core.csr.vresume = 0 ∧
      (0x3000 : Word) ≠ 0x2000) ∧
    (let s := { ctWith [] with core := { (ctWith []).core with pendingSince := some 0, ready := true } }; s.core.stopDue = true) ∧
    ((full .load (vecWith [])).drained = false ∧ withFault.drained = true ∧ withFault.mask kfCode ≠ 0 ∧ (ctWith []).drained = true ∧
      (ctWith []).mask kfCode = 0) := by
  unfold Cmd.faultPends; decide +kernel

def waitsFor (w : Wait) (s : State) : State := s.onCt fun c => { c with wait := some w }
theorem witness_waits_end :
    (waitsFor (.instr .vsync) (ctWith [])).core.ct.wait = some (.instr .vsync) ∧
    ((waitsFor .wfi interrupted).core.ct.wait = some .wfi ∧ (waitsFor .wfi interrupted).wfiDone = true ∧
      (waitsFor .wfi (kernelWith [])).wfiDone = false) ∧
    ((sleeping true).core.ct.wait = some (.sleep (.waitaEq 1 10 11 12) 0x303C 0 true)) ∧
    (let s := waitsFor (.sleep (.waitaEq 1 10 11 13) (windowAddr 0 .stash 0) 0 false) (ctWith [(13, -1)])
     s.sleepEnds (windowAddr 0 .stash 0) 0 = false ∧ s.sleepExpired (.waitaEq 1 10 11 13) = false) ∧
    (let s := waitsFor (.elemTrap 13 0x40 2 0 0) (withQueue [entryOf .load (.load 8 2 [])] (vecWith []))
     s.core.ct.wait = some (.elemTrap 13 0x40 2 0 0) ∧ (∃ x ∈ s.core.vec.queue, x.id = 0) ∧ ∀ x ∈ (vecWith []).core.vec.queue, x.id ≠ 0) := by
  decide +kernel

/-- A core of the module, whose others are at rest. -/
theorem numbered (s : State) (h : s.others = []) : ∀ k, (s.coreAt k).no = k := by
  intro k; simp only [State.coreAt, h, Table.get]; split <;> simp_all [Core.reset]

def aBind (ix : Nat) : BindRec :=
  { gangIx := ix, gangSize := 2, cls := 2, commit := 4, gangId := 9, region := 0, asid := 7, entry := 0x2000, arg := 5, jobId := 1, grant := 64,
    restore := false, ncommit := 2, lives := 0, ctx := 0x10000, liveb := 0, rootPpn := 1 }
def slots (l : List (Nat × Slot)) : State := { State.reset with disp := { State.reset.disp with slots := l } }
/-- Slots in each state, and a gang of two whose slots are bound. -/
def bothBound : State := slots [(0, { state := .binding, bind := some (aBind 0), heldFor := none }), (191, { state := .binding, bind := some (aBind 1), heldFor := none })]
theorem slotsBound (k : Nat) (r : BindRec) : (k, r) ∈ [(0, aBind 0), (191, aBind 1)] ↔
    bothBound.slot k = { state := .binding, bind := some r, heldFor := none } ∧ r.gangId = 9 ∧ r.commit = 4 := by
  simp only [State.slot, bothBound, slots, Table.get, List.mem_cons, Prod.mk.injEq, List.not_mem_nil, or_false]
  constructor
  · rintro (⟨rfl, rfl⟩ | ⟨rfl, rfl⟩) <;> decide
  · rintro ⟨h, -, -⟩
    split at h
    · rename_i e; subst e; injection h with _ h _; injection h with h; exact .inl ⟨rfl, h.symm⟩
    · split at h
      · rename_i e; subst e; injection h with _ h _; injection h with h; exact .inr ⟨rfl, h.symm⟩
      · simp [Slot.free] at h

theorem witness_slots_and_binding :
    ((bothBound.slot 5).state = .free ∧ (bothBound.slot 0).state ≠ .free ∧ (bothBound.slot 0).state = .binding ∧ (bothBound.slot 0).state ≠ .running ∧
      ((slots [(3, { state := .running, bind := some (aBind 0), heldFor := none })]).slot 3).state = .running) ∧
    bothBound.disp.slots.Nodup ∧ (bothBound.disp.slots.map (·.1)).Nodup ∧ (∀ k, (bothBound.coreAt k).no = k) ∧
    (let l := [(0, aBind 0), (191, aBind 1)]
     (l.map (·.1)).Nodup ∧ (∀ k r, (k, r) ∈ l ↔ bothBound.slot k = { state := .binding, bind := some r, heldFor := none } ∧ r.gangId = 9 ∧ r.commit = 4) ∧
       (∀ x ∈ l, x.2.ncommit = l.length) ∧ (l.map fun x => x.2.gangIx).Nodup ∧ (∀ x ∈ l, (bothBound.takeTag x.2.asid true).isSome = true)) := by
  refine ⟨by decide +kernel, by decide +kernel, by decide +kernel, numbered _ rfl, by decide +kernel, slotsBound, by decide +kernel, by decide +kernel, by decide +kernel⟩

/-- A core to be stopped, one that is being saved, and one to restore from a record of 1024 bytes at 0x10000. -/
def stopping : State := { ctWith [] with core := { (ctWith []).core with pendingSince := some 0, stopForced := true } }
def saving : State := { slots [(0, { state := .unmapping, bind := some (aBind 0), heldFor := none })] with core := { (ctWith []).core with phase := .saving } }
def restoring (size : Nat) : State :=
  { slots [(0, { state := .running, bind := some { aBind 0 with restore := true }, heldFor := none })] with
    core := { (ctWith []).core with phase := .restoring }, mem := imageOf [(0x10000, 32, size * 2 ^ 64 + 0x2000 * 2 ^ 128)] }
theorem witness_preemption_save_restore :
    ((stopping.coreAt 0).phase = .running ∧ (stopping.coreAt 0).pendingSince.isSome = true ∧ (stopping.coreAt 0).stopForced = true ∧
      (stopping.coreAt 0).ct.wait ≠ some .wfi ∧ (0 : Nat) + (stopping.coreAt 0).csr.grace ≤ { stopping with base := { stopping.base with cycle := 16384 } }.base.cycle ∧ (stopping.coreAt 0).vec.late = []) ∧
    ((∀ k, (saving.coreAt k).no = k) ∧ (saving.coreAt 0).phase = .saving ∧ (saving.focusOn 0).savable = true ∧ (saving.slot 0).bind = some (aBind 0) ∧
      (let u := (saving.focusOn 0).readyToSave (aBind 0)
       u.spanReaches (aBind 0).ctx (8 * (u.saveRecord 0 0).length) true = true ∧ (aBind 0).ctx % 64 = 0 ∧
         (aBind 0).ctx + 8 * (u.saveRecord 0 0).length ≤ Config.ddrBytes ∧ u.Coherent ∧ ∀ a, u.underKey .block a) ∧
      (let s : State := { saving with disp := { saving.disp with slots := [(0, { state := .unmapping, bind := some { aBind 0 with ctx := 0xBF00000000 }, heldFor := none })] } }
       let u := (s.focusOn 0).readyToSave { aBind 0 with ctx := 0xBF00000000 }
       (s.focusOn 0).savable = true ∧ u.spanReaches 0xBF00000000 (8 * (u.saveRecord 0 0).length) true = false)) ∧
    ((∀ k, ((restoring 1024).coreAt k).no = k) ∧ ((restoring 1024).slot 0).bind = some { aBind 0 with restore := true } ∧
      ((restoring 1024).coreAt 0).phase = .restoring ∧
      (let u := (restoring 1024).focusOn 0
       let x := (u.readRecord 0x10000 128).1.foldr (fun v r => v + 2 ^ 64 * r) 0
       u.spanReaches 0x10000 1024 false = true ∧ u.lostAt 0x10000 1024 = false ∧ fieldAt x 4 32 % 2 = 0 ∧ fieldAt x 8 64 = 1024 ∧
         (u.readRecord 0x10000 128).2.spanReaches 0x10000 1024 false = true ∧ (u.readRecord 0x10000 128).2.lostAt 0x10000 1024 = false) ∧
      fieldAt (((restoring 1023).focusOn 0).readRecord 0x10000 128 |>.1.foldr (fun v r => v + 2 ^ 64 * r) 0) 8 64 < 1024) := by
  refine ⟨by decide +kernel, ⟨numbered _ rfl, by decide +kernel, by decide +kernel, by decide +kernel,
    ⟨by decide +kernel, by decide +kernel, by decide +kernel, coherent_of_clean _ (by decide +kernel) |>.1, fun a => (coherent_of_clean _ (by decide +kernel)).2 _ a⟩,
    by decide +kernel⟩, numbered _ rfl, ?_⟩
  decide +kernel

/-! ### Functions, queues and Sheepdog -/

/-- Memory from 0x10000 on, and pages of functions. -/
def functions (l : List (Nat × FnPage)) (mem : List (Nat × Nat × Nat)) (f : Sheepdog → Sheepdog) : State :=
  { State.reset with mem := imageOf mem, base := { State.reset.base with pages := l, cycle := 5000, fw := .running, regionTab := some 0x20000, regionLog := 4 },
                     sheep := f State.reset.sheep }
def busyWith (op : Nat) (arg : Word) (resetting : Option Nat) : FnPage :=
  { FnPage.zero with farg := arg, arg := arg, busy := true, lastOp := BitVec.ofNat 8 op, resetting := resetting }
def aCap (base : Word) (length : Nat) : Capability := { base := base, length := length, perms := 0, otype := 0, tag := true }
def aQueue (gq localq : Nat) : Queue :=
  { gq := gq, fn := 0, localq := localq, ringCap := aCap 0x40000 2048, statusCap := aCap 0x50000 64, recordCap := aCap 0 (2 ^ 20), ctxCap := aCap 0x60000 1, ctxStride := 0,
    logSize := 4, task := false, asid := 7, root := 0, rootPpn := 1, head := 0, done := 0, tail := 0, state := .active, errCode := 0, errIdx := 0, errAddr := 0 }
def aRegion : Region :=
  { parent := 0xFFFF, level := 0, cls := 2, fdomain := 0, budget := 0, period := 1, maxCores := 0, used := 3, cores := BitVec.allOnes 192,
    res := [0, 0, 0, 0], age := [0, 0, 0, 0], window := [1, 1, 1, 1], channels := 0, addr := 0x20000, phase := some 0, started := some 2500, blocked := true }
/-- A registration record of a ring at 0x40000. -/
def goodRec : Nat := 0x40000 + 0x50000 * 2 ^ 64 + 2 ^ 20 * 2 ^ 192 + 0x60000 * 2 ^ 256 + 4 * 2 ^ 352 + 3 * 2 ^ 368 + 7 * 2 ^ 384 + 1 * 2 ^ 416
def registering (r : Nat) (qs : List Queue) : State := functions [(0, busyWith 1 0x10000 none)] [(0x10000, 64, r)] fun d => { d with queues := qs }
theorem witness_regqueue :
    (registering goodRec []).started 0 1 0x10000 ∧ ¬ (registering goodRec []).started 0 2 0x10000 ∧ (0x10000 : Word).toNat % 64 = 0 ∧
    (registering goodRec []).readable 0x10000 64 = true ∧ (functions [(0, busyWith 1 0xBF00000000 none)] [] id).readable 0xBF00000000 64 = false ∧
    (RegRec.parse ((registering goodRec []).outsideNat 0x10000 8).1).ok = true ∧ (RegRec.parse 0).ok = false ∧
    ((registering goodRec []).mayActOn 0 0 = true ∧ (registering goodRec []).mayActOn 1 0 = false) ∧
    (let s1 := ((registering goodRec [aQueue 0 5]).outsideNat 0x10000 8).2
     let r := RegRec.parse goodRec
     (∀ q ∈ s1.sheep.queues, ¬ (q.state ≠ .reset ∧ ((q.fn = 0 ∧ q.localq = r.localq) ∨ (q.asid = r.asid ∧ q.rootPpn ≠ r.rootPpn)))) ∧
       (s1.populated r.ring (128 * 2 ^ r.logSize) = true ∧ s1.populated r.status 64 = true ∧
         0 < r.ctxBase + r.ctxStride * 2 ^ r.logSize ∧ s1.reaches (r.ctxBase + r.ctxStride * 2 ^ r.logSize - 1) false = true) ∧
       (∀ q ∈ s1.sheep.queues, q.gq ≠ 1) ∧ ∀ k < 1, ∃ q ∈ s1.sheep.queues, q.gq = k) ∧
    (let s1 := ((registering goodRec [aQueue 0 3]).outsideNat 0x10000 8).2
     ∃ q ∈ s1.sheep.queues, q.state ≠ .reset ∧ q.fn = 0 ∧ q.localq = (RegRec.parse goodRec).localq) ∧
    (let r := RegRec.parse (goodRec + 0xBF00000000); (registering goodRec []).populated r.ring (128 * 2 ^ r.logSize) = false) := by
  unfold State.started; decide +kernel

theorem registering_queues (qs : List Queue) : (registering goodRec qs).sheep.queues = qs := rfl

/-- 4096 queues leave no number free. -/
theorem witness_no_space : ∃ qs, ∀ g < 4096, ∃ q ∈ (registering goodRec qs).sheep.queues, q.gq = g := by
  refine ⟨(List.range 4096).map fun g => aQueue g 5, fun g h => ⟨aQueue g 5, ?_, rfl⟩⟩
  rw [registering_queues]
  exact List.mem_map.mpr ⟨g, List.mem_range.mpr h, rfl⟩

theorem witness_assign_regiontab_resetqueue :
    (let s := functions [(0, busyWith 4 0x100_0000 none)] [] fun d => { d with regions := [(0, some aRegion)] }
     s.started 0 4 0x100_0000 ∧ ((0x100_0000 : Word).extractLsb' 16 9).toNat = 256 ∧ s.regionOf 0 ≠ none ∧ s.regionOf 1 = none) ∧
    (let s := functions [(0, busyWith 5 0x2_0004 none)] [] id
     s.started 0 5 0x2_0004 ∧ s.readable 0x20000 (128 * 2 ^ 4) = true ∧ ((0x2_0004 : Word).extractLsb' 0 4).toNat = 4) ∧
    (let s := functions [(0, busyWith 2 5 none)] [] fun d => { d with queues := [aQueue 0 3, aQueue 1 5] }
     s.started 0 2 5 ∧ (aQueue 1 5).fn = 0 ∧ (aQueue 1 5).localq = ((5 : Word).extractLsb' 0 9).toNat ∧ (aQueue 1 5).state ≠ .reset ∧
       (∀ o ∈ [aQueue 0 3], ¬ (o.fn = 0 ∧ o.localq = 5))) ∧
    (let s := functions [(0, busyWith 2 5 (some 1))] [] fun d => { d with queues := [{ aQueue 1 5 with state := .resetting }] }
     s.queueOf 1 = some { aQueue 1 5 with state := .resetting } ∧ (s.fnPage 0).resetting = some 1 ∧ s.queueOf 0 = none) := by
  unfold State.started; decide +kernel

/-- TAIL beside DONE: equal, one more, as many as the ring holds, and one too many. -/
def ringing : State := functions [] [] fun d => { d with queues := [{ aQueue 0 3 with tail := 2 ^ 32 - 1, done := 2 ^ 32 - 1 }], regions := [(0, some aRegion)] }
theorem witness_doorbells :
    (let s := { ringing with base := { ringing.base with mgmtGated := 1 } }; s.base.mgmtGated.getLsbD 0 = true ∧ s.base.lantern.length < 64) ∧
    64 ≤ ({ ringing.base with lantern := List.replicate 64 ⟨.function 0, 0, 4, 1⟩ } : Basecamp).lantern.length ∧
    ringing.base.mgmtGated.getLsbD 0 = false ∧ ((8 : Nat) = 8 ∧ (15 : Word).toNat < 2 ^ 32) ∧ (2 : Nat) ≠ 4 ∧
    (∀ q ∈ ringing.sheep.queues, ¬ (q.fn = 0 ∧ q.localq = 4)) ∧
    (let q := { aQueue 0 3 with tail := 2 ^ 32 - 1, done := 2 ^ 32 - 1 }
     ringing.sheep.queues = [] ++ q :: [] ∧ q.fn = 0 ∧ q.localq = 3 ∧ ringing.base.fw ≠ .fatal ∧ q.task = false ∧ q.state = .active ∧
       ringing.queueOf q.gq = some q ∧ 15 ≠ q.tail ∧ (distance32 q.done 15 ≤ 2 ^ q.logSize ∧ distance32 q.tail 15 < 2 ^ 31) ∧
       2 ^ q.logSize < distance32 q.done 16) ∧
    (ringing.base.regionTab ≠ none ∧ 15 < 2 ^ ringing.base.regionLog ∧ ringing.mayActOn 0 15 = true ∧
      ringing.readable (ringing.base.regionTab.getD 0 + 128 * 15) 128 = true ∧ ¬ 16 < 2 ^ ringing.base.regionLog) ∧
    (let s := { ringing with base := { ringing.base with regionTab := some 0xBF00000000 } }
     s.mayActOn 0 0 = true ∧ s.readable 0xBF00000000 128 = false) ∧
    (∀ x ∈ [(1, true), (16, false)],
      let s := { ringing with mem := imageOf [(0x20000 + 128 * 15, 128, 0xFFFF + 3 * 2 ^ 24 + x.1 * 2 ^ (8 * 0x20))], sheep := { ringing.sheep with regions := [(0, some { aRegion with cores := 3 })] } }
      let r := Region.parse (s.outsideNat (0x20000 + 128 * 15) 16).1 (0x20000 + 128 * 15) (s.regionOf 15)
      (r.parent = 0xFFFF ∧ s.coresConflict 15 r.cores = x.2)) := by decide +kernel

/-- A management task of queue 0 whose die is warm. -/
def aTask : MgmtTask := { queue := 0, record := 0x70000, trigger := .thermal 3, above := false, last := some 16, coalesced := 0, crossed := false, pending := false }
/-- A job that waits for a core, a gang that runs, and a management task of queue 0. -/
def aJob (uid : Nat) (st : JobState) (gang : Nat) : Job :=
  { uid := uid, queue := 0, index := uid, node := none, parent := none,
    jr := { entry := 0, arg := 0, compAddr := 0, compVal := 0, grant := 1, gang := 1, early := false, restartable := false, bypass := false, graph := false,
            region := 0, liveb := 0, lives := 0, reads := [], writes := [] },
    record := aCap 0x40000 128, state := st, deps := [], needs := [], fullDep := false, holds := false, status := 0, exits := [], trigs := [], gang := gang, commit := gang,
    members := [], saved := [], since := 0, started := false, everTriggered := false, outgrown := false }
def working (anchors : List Anchor) (done : Nat) : State :=
  let s := functions [] [] fun d =>
    { d with queues := [{ aQueue 0 0 with tail := 17, done := done, head := done }], regions := [(0, some { aRegion with cores := 1 })],
             jobs := [aJob 1 .ready 0, aJob 2 .running 9], anchors := anchors,
             tasks := [aTask] }
  { s with disp := { s.disp with slots := [(0, { state := .running, bind := some { aBind 0 with gangSize := 1 }, heldFor := none })] } }
theorem witness_sheepdog_work :
    (let s := working [] 1
     s.regionOf 0 = some { aRegion with cores := 1 } ∧ 2500 + s.periodOf 0 * 2500 ≤ s.base.cycle ∧
       s.base.cycle - 1 < 2500 + s.periodOf 0 * 2500) ∧
    (let s := working [] 1
     s.anchorOf 0 2 = none ∧ oldest (s.candidates 0 2) = some (aJob 1 .ready 0) ∧ (aJob 1 .ready 0).since + s.ageOf 0 2 ≤ s.base.cycle ∧ s.candidates 0 1 = []) ∧
    (let s := working [⟨0, 2, 1, 2500⟩] 1
     s.anchorOf 0 2 = some ⟨0, 2, 1, 2500⟩ ∧ s.job 1 = some (aJob 1 .ready 0) ∧ 2500 + s.windowOf 0 2 ≤ s.base.cycle ∧
       (s.disp.slots.map (·.1)).Nodup ∧ (s.freeSlots 0).length + s.comingIn 0 2 < (aJob 1 .ready 0).need ∧
       ((s.runningGangs 0).filter fun x => decide (2 ≤ x.2.1)) = [(9, 2, 1)]) ∧
    (let s := working [⟨0, 2, 1, 2501⟩] 1; s.base.cycle < 2501 + s.windowOf 0 2) ∧
    (∀ d ∈ [1, 17], let s := working [] d
      s.sheep.tasks[0]? = some aTask ∧ s.triggerNow aTask.trigger = false ∧
        ({ s with base := { s.base with dies := [(3, { Die.zero with warn := true })] } } : State).triggerNow aTask.trigger = true ∧ aTask.above = false ∧
        aTask.pending = false ∧ s.sheep.tasks[1]? = none ∧
        ({ aTask with crossed := true }).crossed = true ∧ clean s = true ∧ (aQueue 0 0).ring % 128 = 0 ∧
        (d = 1 → s.taskBusy aTask = true) ∧
        (d = 17 → s.taskBusy aTask = false ∧
          distance32 d 17 < 2 ^ 4)) ∧
    (2 ^ 4 ≤ distance32 1 17 ∧ (working [] 1).base.serving = true ∧ State.reset.base.serving = false) := by decide +kernel

/-! ### Homes, time, the fleet, basecamp -/

/-- Two cores and a block of DDR: nobody holds its tenure, or core 191 does. -/
def homed (holder : Option Nat) (forwards : List Forward) : State :=
  { ctWith [] with dir := { State.reset.dir with blocks := [(64, { wts := some 5, rts := some 9, holder := holder, home := some 3, version := 0 })], forwards := forwards } }
theorem witness_homes :
    (∀ k, ((homed none []).coreAt k).no = k) ∧ placeOf 0x103F = .ddr ∧
    (isAgent 0 = true ∧ isAgent 528 = true ∧ isAgent 192 = false ∧ agentCore 528 = none ∧ agentCore 447 = some 191 ∧
      (homed (some 191) []).mustWait 0 0 0 0x103F = true ∧ (homed none []).mustWait 0 0 0 0x103F = false ∧ (homed none []).mustWait 528 0 0 0x103F = false ∧ ((homed none []).coreAt 0).copy (blockOf 0x103F) = none ∧
      0x1038 % 8 = 0 ∧ ((homed none []).tenure .block 0x1038).holder = none ∧ ((homed (some 191) []).tenure .block 0x1038).holder = some 191) ∧
    ((homed none []).Coherent ∧ (homed none []).underKey .block 0x1038) ∧
    ((homed none []).senderOf 0 = (homed none []).incarnationOf 0 ∧
      (let s := { homed none [] with dir := { (homed none []).dir with incarnation := [(0, 1)] } }; s.senderOf 0 ≠ s.incarnationOf 0 ∧ s.base.logBase = 0) ∧
      (homed (some 191) []).senderOf 528 = (homed (some 191) []).incarnationOf 528 ∧
      (homed (some 191) []).mustWait 528 ((homed (some 191) []).dieTime (homeDie 0x103F)) 0 0x103F = true ∧
      (homed none []).mustWait 528 ((homed none []).dieTime (homeDie 0x103F)) 0 0x103F = false ∧ (homed (some 191) []).base.lantern = [] ∧
      (∃ f ∈ (homed (some 191) [⟨some ⟨0, .ct⟩, some .block, 0, 6, 0, 0, 0, 0x1008, false, 0, 0⟩]).forwardsOf 0 0x1000, f.seat ≠ none)) ∧
    ((homed none []).forwardsOf 0 0x1000 = [] ∧
      (homed (some 191) [⟨none, none, 0, 7, 0, 0, 0, 0x1000, true, 8, 1⟩, ⟨none, none, 3, 6, 0, 0, 0, 0x1008, false, 0, 0⟩]).forwardsOf 0 0x1000 =
        [⟨none, none, 0, 7, 0, 0, 0, 0x1000, true, 8, 1⟩, ⟨none, none, 3, 6, 0, 0, 0, 0x1008, false, 0, 0⟩] ∧
      ∀ f ∈ ([⟨none, none, 0, 7, 0, 0, 0, 0x1000, true, 8, 1⟩, ⟨none, none, 3, 6, 0, 0, 0, 0x1008, false, 0, 0⟩] : List Forward), (f.age - 6).toNat < 2 ^ 30) ∧
    (placeOf 0xBF00000000 ≠ .ddr ∧ placeOf (windowAddr 191 .regs 0x40) = .window 191 .regs 0x40 ∧
      (homed none []).reaches (windowAddr 191 .regs 0x40) true = false ∧ windowAddr 5 .stash 0x1FFFF8 % 8 = 0 ∧
      placeOf (windowAddr 5 .stash 0x1FFFF8) = .window 5 .stash 0x1FFFF8 ∧ (homed none []).reaches (windowAddr 5 .stash 0x1FFFF8) true = true) :=
  ⟨numbered _ rfl, by decide +kernel, by decide +kernel,
    ⟨(coherent_of_clean _ (by decide +kernel)).1, (coherent_of_clean _ (by decide +kernel)).2 _ _⟩, by decide +kernel, by decide +kernel, by decide +kernel⟩

/-- A core at the end of a tick, and one whose LTIME has moved 2^29 ticks. -/
def late : State := { ctWith [] with base := { (ctWith []).base with cycle := 1024 } }
theorem witness_logical_time :
    (late.core.tickAt + late.core.csr.lttick ≤ late.base.cycle ∧ (ctWith []).base.cycle < (ctWith []).core.tickAt + (ctWith []).core.csr.lttick) ∧
    (let s := { late with core := { late.core with ltime := BitVec.ofNat 32 (2 ^ 29), leases := [(1, ⟨1, some 2⟩)] } }
     2 ^ 29 ≤ (s.core.ltime - s.core.dropAt).toNat ∧ s.core.tickAt + s.core.csr.lttick ≤ s.base.cycle ∧
       2 ^ 29 ≤ (s.core.ltime - s.core.dropAt).toNat + 1 ∧ (late.core.ltime - late.core.dropAt).toNat + 1 < 2 ^ 29) ∧
    (∀ x ∈ [(2 ^ 28 + 1, 0, false), (2 ^ 28 + 1, 2 ^ 29 - 1, true)],
      let s := { late with core := { late.core with ltime := BitVec.ofNat 32 (2 ^ 30), dropAt := BitVec.ofNat 32 (2 ^ 30 - x.2.1) },
                           others := [(47, { Core.reset 47 with ltime := BitVec.ofNat 32 (2 ^ 30 + x.1), phase := .running })] }
      let lag := (s.moduleTimeNow - s.core.ltime).toNat
      2 ^ 28 < lag ∧ lag < 2 ^ 31 ∧ decide (2 ^ 29 ≤ (s.core.ltime - s.core.dropAt).toNat + (lag - 2 ^ 28)) = x.2.2) ∧
    (Table.wf Tenure.untouched (homed none []).dir.blocks = true ∧ Table.wf Tenure.untouched (homed none []).dir.tiles = true) ∧
    ((7 : Nat) ≠ late.incarnationOf 3 ∧ 0 = late.incarnationOf 3) ∧
    ((homed (some 191) []).dir.forwards = [] ∧ (homed (some 191) []).base.logBase = 0 ∧ ((homed (some 191) []).tenure .block 0x1000).holder = some 191) := by
  decide +kernel

theorem witness_losing_a_core :
    (let s := slots [(3, { state := .running, bind := some (aBind 0), heldFor := none }), (4, { state := .running, bind := some (aBind 1), heldFor := none })]
     (s.slot 3).bind = some (aBind 0) ∧ s.slot 4 = { state := .running, bind := some (aBind 1), heldFor := none } ∧ (s.coreAt 4).phase ≠ .saving ∧ (s.slot 5).bind = none) ∧
    (let s := { State.reset with base := { State.reset.base with retired := [(47, 1)], sparesUsed := [(0, 1)] } }
     Table.get 0 s.base.retired 47 = 1 ∧ Table.get 0 s.base.sparesUsed (dieOf 47) < 2 ∧ Table.get 0 s.base.retired 46 ≠ 1) ∧
    (47 ∉ State.reset.base.selfTest ∧ 47 ∈ ({ State.reset.base with selfTest := [47] } : Basecamp).selfTest) := by decide +kernel

/-- Each bound of FleetEvents, met and one short. -/
def aged (c : Nat) (d : Die) : State :=
  { State.reset with base := { State.reset.base with cycle := c, dies := [(3, d)], linksDown := 1 <<< 23, lost := [7], hlog := 0x10_0000, capPending := true } }
theorem witness_fleet_events :
    (7 ∈ (aged 0 .zero).base.lost ∧ 8 ∉ (aged 0 .zero).base.lost) ∧
    ((aged aSecond .zero).base.linksDown.getLsbD 23 = true ∧ Table.get 0 (aged aSecond .zero).base.linkRetry 23 + aSecond ≤ (aged aSecond .zero).base.cycle ∧
      (aged aSecond .zero).base.linksDown.getLsbD 22 = false) ∧
    ((aged 0 .zero).base.hlog.toNat / 4096 ≠ 0 ∧ State.reset.base.hlog.toNat / 4096 = 0 ∧ (aged 0 .zero).reaches 0x10_0000 true = true) ∧
    (Table.get Die.zero (aged 0 .zero).base.dies 3).heldSince = none ∧
    (let s := aged (10 * aSecond) { Die.zero with heldSince := some 0 }
     (Table.get Die.zero s.base.dies 3).heldSince = some 0 ∧ 0 + 10 * aSecond ≤ s.base.cycle ∧ s.base.cycle < 1 + 10 * aSecond) ∧
    (let s := aged (aSecond / 1000 * 101) { Die.zero with idleSince := some 0, clockGated := true }
     s.dieIdle 3 = true ∧ (Table.get Die.zero s.base.dies 3).idleSince = some 0 ∧ 0 + aSecond / 1000 * 101 ≤ s.base.cycle ∧
       (Table.get Die.zero s.base.dies 3).clockGated = true) ∧
    ((aged 0 .zero).base.capPending = true ∧ State.reset.base.capPending = false) ∧
    (ringing.sheep.doorbells = [] ∧ ringing.sheep.reports = [] ∧ (functions [] [] fun d => { d with doorbells := [0] }).sheep.doorbells ≠ []) := by
  decide +kernel

theorem witness_the_lantern :
    (let s := { State.reset with base := { State.reset.base with mgmtGated := 1 } }
     s.gatedTarget (Config.basecampBase + 0x100_0000) = true ∧ s.base.lantern.length < 64 ∧ s.gatedTarget (Config.basecampBase + 0xFF_FFF8) = false) ∧
    (let s := { State.reset with base := { State.reset.base with
        lantern := [⟨.function 256, Config.basecampBase + 0x100_0000 + 0x1000 * 256 + 8 * 510, 4, 1⟩] } }
     (256 ≤ 256 ∧ 510 ≤ 510) ∧ s.base.lantern = [⟨.function 256, Config.basecampBase + 0x100_0000 + 0x1000 * 256 + 8 * 510, 4, 1⟩]) := by decide +kernel

/-- A page that is busy and one that is not; an image of zeros in recovery; a core within an instruction and one at a boundary. -/
def withFw (f : FwState) (s : State) : State := { s with base := { s.base with fw := f } }
theorem witness_firmware_and_reset :
    ((functions [(3, busyWith 1 0 none)] [] id).fnPage 3).busy = true ∧ ((functions [] [] id).fnPage 256).busy = false ∧
    ((withFw .recovery State.reset).base.fw = .recovery ∧ imageReason 0 ((withFw .recovery State.reset).bytesAt 0 8) ≠ 0 ∧
      (withFw .running State.reset).base.fw = .running ∧ State.reset.base.fw ≠ .recovery ∧ State.reset.base.fw ≠ .running) ∧
    (let s := functions [(0, busyWith 3 0x10000 none)] [] id
     s.started 0 3 0x10000 ∧ (0x10000 : Word).toNat % 4096 = 0 ∧ (s.populated 0x10000 3501 && !s.lostAt 0x10000 32) = true ∧ s.uncached ∧
       (∀ j < 3501, placeOf (0x10000 + j) = .ddr)) ∧
    (let s := functions [(0, busyWith 3 0xBF00000000 none)] [] id
     s.started 0 3 0xBF00000000 ∧ (0xBF00000000 : Word).toNat % 4096 = 0 ∧ (s.populated 0xBF00000000 3501 && !s.lostAt 0xBF00000000 32) = false) ∧
    (State.reset.base.fw ≠ .fatal ∧ State.reset.base.fatalAt = none ∧ (∀ c ∈ State.reset.coresListed, c.midInstruction = false)) ∧
    (let s := waitsFor (.elemTrap 13 0x40 2 0 0) (ctWith []); ∃ c ∈ s.coresListed, c.midInstruction = true) ∧
    (let s := { functions [] [] (fun d => { d with doorbells := [0], workSince := some 3 }) with
        base := { (functions [] [] id).base with cycle := 3 + aSecond / 100 } }
     s.base.serving = true ∧ s.sheep.hasWork = true ∧ s.sheep.workSince = some 3 ∧ 3 + aSecond / 100 ≤ s.base.cycle) ∧
    (let s := { waitsFor (.elemTrap 13 0x40 2 0 0) (ctWith []) with base := { State.reset.base with fatalAt := some (0, 2), cycle := aSecond / 1000 } }
     s.base.fatalAt = some (0, 2) ∧ s.base.fw ≠ .fatal ∧ 0 + aSecond / 1000 ≤ s.base.cycle ∧ (s.coreAt 0).no = 0 ∧ (s.coreAt 0).midInstruction = true) ∧
    ((0 : Word) ≠ 0x5EB0_0001) := by
  have ddr : ∀ j < 3501, placeOf (0x10000 + j) = .ddr := by
    intro j h
    have : 0x10000 + j < Config.ddrBytes := by simp [Config.ddrBytes]; omega
    simp [placeOf, this]
  refine ⟨by decide +kernel, by decide +kernel, by decide +kernel, ⟨by unfold State.started; decide +kernel, by decide, by decide +kernel,
    by unfold State.uncached; decide +kernel, ddr⟩, ⟨by unfold State.started; decide +kernel, by decide, by decide +kernel⟩, by decide +kernel, by decide +kernel,
    by decide +kernel, by decide +kernel, by decide⟩

/-! ### Stepping -/

/-- tnew a0, a1 and xcopy.m stand at the pc; csrrs; nothing is mapped; a word that decodes and one that does not; an event. -/
def fetching (w : Nat) : State := State.reset.loadCt w
theorem witness_step_runs_the_instruction :
    ((fetching 0x0005857B).posted = [] ∧ (fetching 0x0005857B).agenda = .ct :: [] ∧ (fetching 0x0005857B).base.powered = true ∧ (fetching 0x0005857B).base.fatalAt = none ∧
      (fetching 0x0005857B).core.phase = .running ∧ (fetching 0x0005857B).held (fetching 0x0005857B).core.no = false ∧
      (let u : State := { fetching 0x0005857B with agenda := [], core := { (fetching 0x0005857B).core with awaiting := false } }
       u.core.stopDue = false ∧ u.trapDue = none ∧ u.breakHolds = false ∧ u.core.ct.wait = none ∧ u.pcBreakHit = false)) ∧
    (let u := { fetching 0x0005857B with agenda := [] }
     ∃ x s1, u.fetchParcels u.core.ct.pc 2 = (.ok x, s1) ∧ ((Instr.tnew 10 11).size = 2 * 2 ∧
       decodeCt (BitVec.ofNat 32 x) (BitVec.ofNat 32 (x / 2 ^ 32)) = some (.tnew 10 11) ∧ s1.owes (ctUses (.tnew 10 11)) = false)) ∧
    (let u := { fetching 0x00B541DB_4AD607DB with agenda := [] }
     let i := Instr.xcopyM false true 1 15 12 13 0x00B541DB
     ∃ x s1, u.fetchParcels u.core.ct.pc 4 = (.ok x, s1) ∧ (i.size = 2 * 4 ∧
       decodeCt (BitVec.ofNat 32 x) (BitVec.ofNat 32 (x / 2 ^ 32)) = some i ∧ s1.owes (ctUses i) = false)) ∧
    (let u := { fetching 0x80402573 with agenda := [] }
     u.fetchCt.1 = .base 4 (.csr .set 10 (.reg 0) 0x804)) ∧
    (∃ s1, ({ fetching 0 with agenda := [], mem := [] } : State).fetchHalf (fetching 0).core.ct.pc = (.error .page, s1)) ∧
    ((State.reset.loadWord 0x28).agenda = .mt 0 :: [] ∧
      (let u := { State.reset.loadWord 0x28 with agenda := [] }
       (u.mt 0).phase = .ready ∧ (u.mt 0).dataWait = false ∧ u.picks 0 = true ∧ u.blockBreakHit 0 = false ∧ (u.mt 0).words[(u.mt 0).ix]? = some 0x28) ∧
      decodeMt 0x28 = some (.ld 0 0 0 0) ∧ decodeMt 0x1A000001 = none) ∧
    isEvent .leaseDrop = true := by
  refine ⟨by decide +kernel, of_ok _ 0x0005857B ?_ ?_, of_ok _ 0x00B541DB_4AD607DB ?_ ?_, ?_, ⟨_, rfl⟩, ?_, by decide⟩
  all_goals decide +kernel

theorem witness_decode_inverts_encode : ∀ i ∈ [Instr.vectorCarrier 2 true 1 0x07185119, .xcopyM false true 1 15 12 13 0x00B541DB, .add 2 63 63 63],
    i.wellFormed = true ∧ (encode i).length ≤ 2 := by decide +kernel

theorem witness_holds_legal : HoldsLegal (.vectorCarrier 2 true 1 0x07185119) ∧ HoldsLegal (.xcopyM false true 1 15 12 13 0x00B541DB) := by
  refine ⟨⟨fun m dt l w h => ?_, fun a r sc rd r1 r2 w h => (Instr.noConfusion h)⟩, fun m dt l w h => (Instr.noConfusion h), fun a r sc rd r1 r2 w h => ?_⟩
  · injection h with h1 h2 h3 h4; subst h3 h4; decide +kernel
  · injection h with h1 h2 h3 h4 h5 h6 h7; subst h7; decide +kernel

/-- The invariant holds at reset, and a step from there answers a next state. -/
theorem witness_step_keeps_inv : State.reset.Inv ∧ ∃ t, step State.reset = .next t := ⟨⟨by decide, by decide⟩, ⟨_, rfl⟩⟩

/-! ### Accesses out of their turn, and other clauses -/

/-- A load of micro-thread 0 that has been performed early, and a turn that leaves stores. -/
def withEarly (x : Spot) (v : Nat) (s : State) : State :=
  s.onVec fun w => { w with early := [{ reader := .mt 0, spot := x, value := v, after := [] }] }
def earlyDdr : State := withEarly (virtSpot 0x3038 0x3038 8) 7 ddrAt
theorem witness_early_loads_and_left_stores :
    (∃ pa s1, earlyDdr.checkOwn (.mt 0) (earlyDdr.pairA 2 + (0 : BitVec 12).signExtend 64) 8 earlyDdr.userMode = (.ok pa, s1) ∧
      (pa = 0x3038 ∧ s1.earlyValue (.mt 0) (earlyDdr.addressFrom 2 2) (virtSpot 0x3038 0x3038 8) = some 7 ∧ s1.core.vec.late = [])) ∧
    (let s0 := mtWith [(2, 0x1FFFF8)]
     let s := withEarly (s0.stashSpot 0x1FFFF8 8) 9 s0
     s.earlyValue (.mt 0) (s.addressFrom 2 1) (s.stashSpot 0x1FFFF8 8) = some 9 ∧ (9 : Nat) < 2 ^ (8 * 8)) ∧
    (let s := { ddrAt with defers := true }
     s.defers = true ∧ s.mayLeave 0x3038 = true ∧ s.mayLeave (windowAddr 0 .stash 0) = true ∧ s.mayLeave (windowAddr 5 .stash 0) = true ∧ s.mayLeave (windowAddr 5 .regs 0) = false ∧
       ddrAt.defers = false) ∧
    (let s := atDdr.onCt fun c => { c with early := [{ reader := .ct, spot := virtSpot 0x303C 0x303C 4, value := 3, after := [] }] }
     s.earlyValue .ct (some [.x (10 : XReg).toNat]) (virtSpot 0x303C 0x303C 4) = some 3) := by
  refine ⟨of_ok _ 0x3038 ?_ ?_, ?_⟩
  all_goals decide +kernel

/-- Data that arrives for a destination in the own stash: the last of a reduction, member 0's of a broadcast, a segment of an all-gather. -/
def arriving (k : CmdKind) (status : List (Option Nat)) : Cmd :=
  { order 5 k (.xcollReduce false false 1 1 10 11) 0 0 with
    phase := .running, members := [0xFFFF, 0x1FFFF], status := status, dst := some ref2 }
def arrived (k : CmdKind) (status : List (Option Nat)) (m : Nat) : State :=
  { withCmds [arriving k status] (ctWith []) with dir := { (ctWith []).dir with
      staged := [{ member := m, kind := k, op := 0, members := [0xFFFF, 0x1FFFF], data := some [1, 2], taken := [] },
                 { member := 0xFFFF + 0x1FFFF - m, kind := k, op := 0, members := [0xFFFF, 0x1FFFF], data := some [3, 4], taken := [] }] } }
theorem witness_collective_data :
    (∀ x ∈ [(CmdKind.reduce, [some 0, none], 1, 0x1FFFF), (.broadcast, [none, none], 0, 0xFFFF), (.allgather, [some 0, none], 1, 0x1FFFF)],
      let c := arriving x.1 x.2.1
      let s := arrived x.1 x.2.1 x.2.2.2
      s.cmd c.seq = some c ∧ c.kind.isColl = true ∧ c.phase = .running ∧ c.code = 0 ∧ c.status[x.2.2.1]? = some none ∧
        (c.kind = .allgather → (c.status.take x.2.2.1).all Option.isSome = true) ∧
        ((s.contribution c (c.members.getD x.2.2.1 0)).map Contribution.data) = some (some [1, 2]) ∧ c.dst = some ref2 ∧ c.progress = 0 ∧
        ref2.desc.space = 1 ∧ s.core.phase = .running ∧ s.core.no < 256 ∧
        (∀ i < 4, 0 ≤ ref2.desc.addr i ∧ ref2.desc.addr i + ref2.desc.bytes ≤ 0x20_0000)) ∧
    (let c := arriving .reduce [some 0, none]
     (c.status.set 1 (some 0)).all (· == some 0) = true ∧
       (reduceAll (c.rs2.extractLsb' 32 32).toNat ((arrived .reduce [some 0, none] 0x1FFFF).allData c)).length = 2) := by decide +kernel

/-- A handle of a tile of space 5 at user level, and a free that waits for a lease. -/
def kernelTile : TileEntry := { one with desc := { one.desc with space := 5 } }
theorem witness_tiles_refused_and_waiting :
    (let s := fewTiles kernelTile aTile [(10, handleOf 1)]
     s.current ((s.getX 10).setWidth 32) = some kernelTile ∧ ¬ s.mayName kernelTile ∧ s.mayName one ∧ s.dir.forwards = []) ∧
    (let e := { liveTile 1 aDdrTile with ten := 1 }
     let s := (fewTiles e aTile [(10, handleOf 1)]).setTenure (.tile 1) 0 { wts := some 0, rts := some 50, holder := none, home := some 0, version := 0 }
     s.current ((s.getX 10).setWidth 32) = some e ∧ s.mayName e ∧ e.state = .live ∧ ∃ pa s1, s.tablePlace e.index = (.ok pa, s1) ∧ (pa = 0x8080 ∧
       let e1 := { e with state := .draining, freer := some (s.core.csr.jobid, s.core.csr.gangix) }
       let s2 := ((s1.release 3).acquired.setEntry e1).throughTo 0x8080 e1 false
       let e2 := { e1 with waitFrom := s2.core.ltime }
       ((s2.setEntry e2).recallEntry (.tile e.ten) e.home).mayFree e2 = false)) := by
  unfold State.mayName
  refine ⟨by decide +kernel, by decide +kernel, by decide +kernel, by decide +kernel, of_ok _ 0x8080 ?_ ⟨rfl, ?_⟩⟩
  all_goals decide +kernel

/-- A store-conditional whose reservation holds, and one that has none. -/
theorem witness_store_conditional : ∀ pa ∈ places,
    let s := after (.lr true false false 5 10) (atPlace pa)
    ((atPlace pa).placeBare ((atPlace pa).getX 10) .store (atPlace pa).ctMode).1.toOption = some pa ∧ (s.placeBare (s.getX 10) .store s.ctMode).1.toOption = some pa ∧
      s.scalarBlocked (s.getX 10) 8 true = false ∧ (s.placeBare (s.getX 10) .store s.ctMode).2.reaches pa true = true ∧ reservable pa = true ∧
      (s.placeBare (s.getX 10) .store s.ctMode).2.reserved ((s.placeBare (s.getX 10) .store s.ctMode).2.keyFor (some (s.getX 10).toNat)) pa = true ∧
      ((atPlace pa).placeBare ((atPlace pa).getX 10) .store (atPlace pa).ctMode).2.reserved (((atPlace pa).placeBare ((atPlace pa).getX 10) .store (atPlace pa).ctMode).2.keyFor (some pa)) pa = false ∧
      ((s.placeBare (s.getX 10) .store s.ctMode).2.checkVirt (s.getX 10) 8 .store (s.placeBare (s.getX 10) .store s.ctMode).2.ctMode).1.toOption = some pa := by decide +kernel

/-- A queued request has waited for core 191 as long as a recall may, and one cycle less. -/
theorem witness_recall_over :
    (let s := { homed (some 191) [⟨none, none, 0, 7, 0, 5, 0, 0x1000, true, 8, 1⟩] with base := { State.reset.base with cycle := 5 + 2 ^ 22 } }
     s.recallOver 191 = true ∧ s.recallOver 528 = true ∧ s.recallOver 190 = false ∧ agentCore 191 = some 191 ∧ s.isRetired 191 = false ∧
       (∀ f ∈ s.dir.forwards, agentCore f.agent ≠ some 191) ∧
       ({ s with base := { s.base with retired := [(191, 1)] } } : State).isRetired 191 = true) ∧
    (let s := { homed (some 191) [⟨none, none, 0, 7, 0, 6, 0, 0x1000, true, 8, 1⟩] with base := { State.reset.base with cycle := 5 + 2 ^ 22 } }
     s.recallOver 191 = false) ∧
    ((homed (some 191) []).forwardsBehind 191 = [] ∧ (homed (some 191) []).base.logBase = 0) := by decide +kernel

/-- A correctable granule of DDR and one of a core's stash, the fifteenth and the sixteenth of an hour; a guyline that stays down. -/
def worn (n : Nat) : State :=
  { State.reset with base := { State.reset.base with cycle := 3600 * aSecond - 1, soft := [7, windowAddr 5 .stash 8 / 8], corrected := List.replicate n (5, 0) } }
theorem witness_corrections :
    (7 ∈ (worn 15).base.soft ∧ 7 ∉ (worn 15).base.lost ∧ placeOf (8 * 7) = .ddr ∧ (windowAddr 5 .stash 8 / 8) ∈ (worn 15).base.soft ∧
      placeOf (8 * (windowAddr 5 .stash 8 / 8)) = .window 5 .stash 8) ∧
    (∀ k ∈ [14, 15], let s := worn k
      ((((5, s.base.cycle) :: s.base.corrected.filter fun x => decide (s.base.cycle < x.2 + 3600 * aSecond)).filter fun x => x.1 == 5).length = k + 1)) ∧
    ((withFw .fatal (aged aSecond .zero)).base.fw = .fatal ∧ (aged aSecond .zero).base.fw ≠ .fatal) ∧
    ((Table.get Die.zero (aged 0 .zero).base.dies 3).heldSince = none ∧ (105 : Nat) ≤ 105 ∧
      (Table.get Die.zero (aged 0 { Die.zero with heldSince := some 0 }).base.dies 3).heldSince ≠ none) := by
  decide +kernel

/-- A source that the lantern holds, a full lantern, and a write that goes on. -/
theorem witness_lantern_holds :
    (let l : List HeldWrite := List.replicate 64 ⟨.agent 3, 0, 4, 1⟩
     let s := { State.reset with base := { State.reset.base with lantern := l } }
     (∃ h ∈ s.base.lantern, h.source = .agent 3) ∧ 64 ≤ s.base.lantern.length ∧
       ¬ (s.gatedTarget 0 = true ∨ ∃ h ∈ s.base.lantern, h.source = .agent 4)) := by
  refine ⟨⟨_, List.mem_cons_self .., rfl⟩, by decide +kernel, by decide +kernel⟩

/-- A job of a queue that is reset has a slot. -/
theorem witness_reset_unmaps :
    let j := { aJob 2 .running 9 with queue := 0 }
    j.live = true ∧ j.gang ≠ 0 ∧ ((working [] 1).slot 0).state = .running ∧ ((working [] 1).slot 0).bind = some { aBind 0 with gangSize := 1 } ∧
      ({ aBind 0 with gangSize := 1 } : BindRec).gangId = j.gang := by decide +kernel

/-- The lane's pick among two ready micro-threads, the older one's turn and the other's; a posted write; an event whose core is held. -/
def twoReady : State :=
  let s := (State.reset.loadWord 0x28).onMt 0 fun m => { m with age := 2 }
  { s.onMt 64 fun m => { m with phase := .ready, words := [0x28], age := 1 } with agenda := [] }
theorem witness_picks_and_posted :
    (twoReady.picks 64 = true ∧ twoReady.picks 0 = false ∧ (twoReady.mt 0).phase = .ready ∧ (twoReady.mt 0).dataWait = false ∧
      twoReady.mtReady 0 = true ∧ twoReady.mtReady 64 = true ∧ twoReady.mtRuns 0 = true ∧ 0 % 64 = 64 % 64) ∧
    (let u := { State.reset.loadWord 0x28 with agenda := [] }; u.picks 0 = true) ∧
    ((ctWith []).mayStep (.vqDistribute .load) = true ∧
      ({ ctWith [] with base := { (ctWith []).base with dies := [(0, { Die.zero with heldSince := some 0 })] } } : State).mayStep (.vqDistribute .load) = false) ∧
    (let s := { State.reset with posted := [.pwrcapWrite 700] }
     ∃ t, s.posted = Instr.pwrcapWrite 700 :: [] ∧ exec (.pwrcapWrite 700) { s with posted := [] } = .next t ∧ t.stalled = false) ∧
    (let s := { State.reset with posted := [.lanternCatch (.agent 3) (Config.basecampBase + 0x100_0000) 4 1],
                                 base := { State.reset.base with mgmtGated := 1, lantern := List.replicate 64 ⟨.agent 3, 0, 4, 1⟩ } }
     ∃ t, exec (.lanternCatch (.agent 3) (Config.basecampBase + 0x100_0000) 4 1) { s with posted := [] } = .next t ∧ t.stalled = true) := by
  refine ⟨by decide +kernel, by decide +kernel, by decide +kernel, ⟨_, rfl, rfl, rfl⟩, ⟨_, rfl, ?_⟩⟩
  decide +kernel

/-! ### Tags, logs, dumps -/

/-- 4096 tags are taken: of the address spaces 0 to 4095 none is busy; each has a tile that lives. -/
def allTags : List Nat := List.range 4096
def tagged (es : List TileEntry) : State :=
  { kernelWith [] with disp := { (kernelWith []).disp with tags := allTags }, dir := { (kernelWith []).dir with entries := es } }
theorem last_tag : allTags = List.range 4095 ++ 4095 :: [] := List.range_succ (n := 4095)
theorem tags_are (es : List TileEntry) : (tagged es).disp.tags = allTags := by simp only [tagged]
theorem witness_tags :
    (4096 ∉ (tagged []).disp.tags ∧ 4096 ≤ (tagged []).disp.tags.length ∧
      ∃ l, (tagged []).disp.tags = l ++ 4095 :: [] ∧ (tagged []).asidBusy 4095 = false) ∧
    ∃ es, ∀ x ∈ (tagged es).disp.tags, (tagged es).asidBusy x = true := by
  refine ⟨⟨by simp [tags_are, allTags, List.mem_range], by simp [tags_are, allTags], List.range 4095, (tags_are []).trans last_tag, by decide +kernel⟩,
    (List.range 4096).map fun a => { one with asid := a }, fun x hx => ?_⟩
  rw [tags_are, allTags] at hx
  simp only [State.asidBusy, Bool.or_eq_true, List.any_eq_true]
  exact .inr ⟨{ one with asid := x }, by simp only [tagged]; exact List.mem_map.mpr ⟨x, hx, rfl⟩, by simp [one, liveTile]⟩

/-- A log that takes records, and a place for the dump; heat that rises past 95 °C, with WARN clear and with it set. -/
theorem witness_logs_and_dumps :
    ((aged 0 .zero).logs ∧ ¬ State.reset.logs ∧ (aged 0 .zero).uncached ∧ placeOf (aged 0 .zero).logPlace = .ddr) ∧
    (let s := { State.reset with base := { State.reset.base with dumpAddr := 0x20_0000 } }
     s.base.fw ≠ .fatal ∧ s.base.fatalAt = none ∧ (∀ c ∈ s.coresListed, c.midInstruction = false) ∧ s.base.dumpAddr.toNat ≠ 0 ∧
       s.base.dumpAddr.toNat % 64 = 0 ∧ s.base.dumpAddr.toNat + 200704 ≤ Config.ddrBytes ∧ s.Coherent ∧ ∀ x, s.underKey .block x) ∧
    (let s := { State.reset with base := { State.reset.base with dumpAddr := 0xBF00000000 } }; s.spanReaches s.base.dumpAddr.toNat 200704 true = false) ∧
    ((Table.get Die.zero (aged 0 .zero).base.dies 3).warn = false ∧ (Table.get Die.zero (aged 0 { Die.zero with warn := true }).base.dies 3).warn = true) := by
  refine ⟨⟨by unfold State.logs; decide +kernel, by unfold State.logs; decide +kernel, by unfold State.uncached; decide +kernel, by decide +kernel⟩,
    ⟨by decide +kernel, by decide +kernel, by decide +kernel, by decide +kernel, by decide +kernel, by decide +kernel, (coherent_of_clean _ (by decide +kernel)).1,
      fun x => (coherent_of_clean _ (by decide +kernel)).2 _ x⟩, by decide +kernel, by decide +kernel⟩

/-- A ready micro-thread of a lane whose list of micro-threads names each once; the slot of an inactive element that is older. -/
theorem witness_lane_slots :
    (let u := { State.reset.loadWord 0x28 with agenda := [], seat := some ⟨0, .mt 0⟩ }
     (u.mt 0).phase = .ready ∧ u.core.vec.pipe.contains 0 = false ∧ (u.core.vec.mts.map (·.1)).Nodup ∧ u.picks 0 = true) ∧
    (let u := twoReady.onVec fun v => { v with idle := [{ age := 0, m := 128, waits := 0 }] }
     (u.core.vec.mts.map (·.1)).Nodup ∧ u.picks 64 = false ∧ 128 % 64 = 64 % 64) := by decide +kernel

end Sys2Proof.Tests
end

section
/-! PROOF. 06 R126 to R128: the integer words of A and B act lane by lane. What the model does to one lane is first brought to
the form in which the rule gives it; the state's side is `intWord_next`. -/

namespace Sys2Proof.Machine

/-! ## One lane -/

section OneLane

variable {n : Nat} (a b : BitVec n)

/-- An arithmetic shift is the signed quotient, rounded down (06 R127, s(a) div 2^c). -/
theorem sshiftRight_eq_div (k : Nat) : a.sshiftRight k = BitVec.ofInt n (a.toInt / 2 ^ k) := by
  rw [BitVec.sshiftRight_eq, Int.shiftRight_eq_div_pow, Int.natCast_pow]; rfl

/-- Two conditions choose alike where one gives the other and, in between, there is nothing to choose. -/
theorem ite_of_imp {α : Type} {p q : Prop} [Decidable p] [Decidable q] {x y : α} (hpq : p → q) (hq : q → ¬ p → x = y) :
    (if p then x else y) = if q then x else y := by
  by_cases hp : p
  · rw [if_pos hp, if_pos (hpq hp)]
  · rw [if_neg hp]
    split
    case isTrue h => exact (hq h hp).symm
    case isFalse => rfl

theorem min_by_slt : (if b.slt a then b else a) = if a.toInt ≤ b.toInt then a else b := by
  simp only [BitVec.slt_iff_toInt_lt, ← Int.not_le, ite_not]

theorem max_by_slt : (if a.slt b then b else a) = if a.toInt ≤ b.toInt then b else a := by
  simp only [BitVec.slt_iff_toInt_lt]
  exact ite_of_imp Int.le_of_lt fun hle hlt => BitVec.eq_of_toInt_eq (Int.le_antisymm (Int.not_lt.mp hlt) hle)

theorem min_by_ult : (if b.ult a then b else a) = if a.toNat ≤ b.toNat then a else b := by
  simp only [BitVec.ult_iff_toNat_lt, ← Nat.not_le, ite_not]

theorem max_by_ult : (if a.ult b then b else a) = if a.toNat ≤ b.toNat then b else a := by
  simp only [BitVec.ult_iff_toNat_lt]
  exact ite_of_imp Nat.le_of_lt fun hle hlt => BitVec.eq_of_toNat_eq (Nat.le_antisymm (Nat.not_lt.mp hlt) hle)

theorem lane01_slt : lane01 n (a.slt b) = if a.toInt < b.toInt then 1 else 0 := by
  simp only [lane01, BitVec.slt_iff_toInt_lt]

theorem lane01_ult : lane01 n (a.ult b) = if a.toNat < b.toNat then 1 else 0 := by
  simp only [lane01, BitVec.ult_iff_toNat_lt]

theorem lane01_beq : lane01 n (a == b) = if a = b then 1 else 0 := by
  simp only [lane01, beq_iff_eq]

/-- The low bits of a product do not depend on the signs that the lanes are given. -/
theorem mul_eq_ofInt : a * b = BitVec.ofInt n (a.toInt * b.toInt) := by
  rw [BitVec.ofInt_mul, BitVec.ofInt_toInt, BitVec.ofInt_toInt]

/-- A lane of all ones is −1 where the lane has bits. -/
theorem toInt_neg_one_of_pos (hn : 0 < n) : (-1 : BitVec n).toInt = -1 := by
  change (-1#n).toInt = -1
  rw [BitVec.neg_one_eq_allOnes, BitVec.toInt_allOnes, if_pos hn]

/-- The overflow of a signed division gives the dividend back: −(−2^(n−1)) wraps to itself (06 R128). -/
theorem intMin_tdiv_neg_one :
    BitVec.ofInt n ((BitVec.intMin n).toInt.tdiv (-1 : BitVec n).toInt) = BitVec.intMin n := by
  rcases Nat.eq_zero_or_pos n with hn | hn
  · exact BitVec.eq_of_zero_length hn
  · rw [toInt_neg_one_of_pos hn, Int.tdiv_neg, Int.tdiv_one, BitVec.ofInt_neg, BitVec.ofInt_toInt, BitVec.neg_intMin]

/-- Nothing remains of a division by −1. -/
theorem tmod_neg_one : BitVec.ofInt n (a.toInt.tmod (-1 : BitVec n).toInt) = 0 := by
  rcases Nat.eq_zero_or_pos n with hn | hn
  · exact BitVec.eq_of_zero_length hn
  · rw [toInt_neg_one_of_pos hn, Int.tmod_neg, Int.tmod_one]; exact BitVec.ofInt_ofNat n 0

theorem laneDiv_eq : laneDiv a b = if b = 0 then -1 else if a = BitVec.intMin n ∧ b = -1 then a
    else BitVec.ofInt n (a.toInt.tdiv b.toInt) := by
  unfold laneDiv
  by_cases hb : b = 0
  · rw [if_pos hb, if_pos hb]; exact BitVec.neg_one_eq_allOnes.symm
  · rw [if_neg hb, if_neg hb]
    split
    case isTrue h => obtain ⟨rfl, rfl⟩ := h; exact intMin_tdiv_neg_one
    case isFalse => rfl

theorem laneDivu_eq : laneDivu a b = if b = 0 then -1 else BitVec.ofNat n (a.toNat / b.toNat) := by
  rw [laneDivu, ← BitVec.neg_one_eq_allOnes]; rfl

theorem laneRem_eq : laneRem a b = if b = 0 then a else if a = BitVec.intMin n ∧ b = -1 then 0
    else BitVec.ofInt n (a.toInt - b.toInt * a.toInt.tdiv b.toInt) := by
  rw [laneRem, Int.tmod_def]
  by_cases hb : b = 0
  · rw [if_pos hb, if_pos hb]
  · rw [if_neg hb, if_neg hb]
    split
    case isTrue h => obtain ⟨-, rfl⟩ := h; rw [← Int.tmod_def]; exact tmod_neg_one a
    case isFalse => rfl

theorem laneRemu_eq : laneRemu a b = if b = 0 then a else BitVec.ofNat n (a.toNat - b.toNat * (a.toNat / b.toNat)) := by
  rw [laneRemu, Nat.mod_def]

end OneLane

/-! ## The words -/

/-- What `x.1` builds is an integer word of A and B, and `x.2` is its operation (06 R126). -/
def ActsByLanes (x : (BitVec 2 → VReg → VReg → VReg → Instr) × ((n : Nat) → BitVec n → BitVec n → BitVec n)) : Prop :=
  ∀ (s : State) (w : BitVec 2) (d a b : VReg), exec (x.1 w d a b) s = intWord (x.1 w d a b) w d a b x.2 s

/-- A word acts by an operation where the model computes another one that agrees with it on every lane. -/
theorem ActsByLanes.of_eq {c : BitVec 2 → VReg → VReg → VReg → Instr} {op op' : (n : Nat) → BitVec n → BitVec n → BitVec n}
    (he : ActsByLanes (c, op')) (h : ∀ n a b, op' n a b = op n a b) : ActsByLanes (c, op) := by
  obtain rfl : op' = op := funext fun n => funext fun a => funext fun b => h n a b
  exact he

/-- Every word of A and B acts by the operation that the rule gives it: ten compute it as it is written there, the others
another one that is equal on every lane. -/
theorem laneOps_actByLanes : ∀ x ∈ laneOps, ActsByLanes x := by
  simp only [laneOps, List.forall_mem_cons]
  refine ⟨?add, ?sub, ?and, ?or, ?xor, ?andn, ?sll, ?srl, ?sra, ?min, ?max, ?minu, ?maxu, ?slt, ?sltu, ?seq, ?mul, ?mulh, ?mulhu,
    ?div, ?divu, ?rem, ?remu, List.forall_mem_nil _⟩
  case add | sub | and | or | xor | andn | sll | srl | mulh | mulhu => exact fun _ _ _ _ _ => rfl
  case sra => exact .of_eq (fun _ _ _ _ _ => rfl) fun _ a b => sshiftRight_eq_div a (shiftCount b)
  case min => exact .of_eq (fun _ _ _ _ _ => rfl) fun _ => min_by_slt
  case max => exact .of_eq (fun _ _ _ _ _ => rfl) fun _ => max_by_slt
  case minu => exact .of_eq (fun _ _ _ _ _ => rfl) fun _ => min_by_ult
  case maxu => exact .of_eq (fun _ _ _ _ _ => rfl) fun _ => max_by_ult
  case slt => exact .of_eq (fun _ _ _ _ _ => rfl) fun _ => lane01_slt
  case sltu => exact .of_eq (fun _ _ _ _ _ => rfl) fun _ => lane01_ult
  case seq => exact .of_eq (fun _ _ _ _ _ => rfl) fun _ => lane01_beq
  case mul => exact .of_eq (fun _ _ _ _ _ => rfl) fun _ => mul_eq_ofInt
  case div => exact .of_eq (fun _ _ _ _ _ => rfl) fun _ => laneDiv_eq
  case divu => exact .of_eq (fun _ _ _ _ _ => rfl) fun _ => laneDivu_eq
  case rem => exact .of_eq (fun _ _ _ _ _ => rfl) fun _ => laneRem_eq
  case remu => exact .of_eq (fun _ _ _ _ _ => rfl) fun _ => laneRemu_eq

/-- Settles O1: every word of the list acts by its operation, and an integer word whose sources are intact has its effect. -/
theorem integerLanes : Obligations.IntegerLanes := by
  intro x hx s w d a b h
  rw [laneOps_actByLanes x hx s w d a b]
  exact intWord_next h

end Sys2Proof.Machine
end

section
/-! PROOF. 06 R127, R129 to R133, R136: the words that count bits, the words whose result is one register, and bit fields. -/

namespace Sys2Proof.Machine

/-! ## Counting the bits of one lane (06 R127) -/

section OneLane

variable {n : Nat} (a : BitVec n)

/-- The number of zero bits above the highest one bit; all of them where there is none. -/
def zerosAbove : Nat := if a = 0 then n else n - 1 - a.toNat.log2

theorem laneClz_eq : laneClz a = BitVec.ofNat n (zerosAbove a) := rfl

theorem zerosAbove_le : zerosAbove a ≤ n := by
  unfold zerosAbove; split <;> omega

/-- The highest one bit of a lane that has one. -/
theorem log2_lt_width {a : BitVec n} (h : a ≠ 0) : a.toNat.log2 < n :=
  (Nat.log2_lt fun h0 => h (BitVec.eq_of_toNat_eq h0)).mpr a.isLt

theorem getMsbD_before_zerosAbove {j : Nat} (hj : j < zerosAbove a) : a.getMsbD j = false := by
  unfold zerosAbove at hj
  split at hj
  case isTrue h => rw [h]; exact BitVec.getMsbD_zero
  case isFalse h =>
    have hlog := log2_lt_width h
    have hpow : a.toNat < 2 ^ (n - 1 - j) := Nat.lt_of_lt_of_le Nat.lt_log2_self (Nat.pow_le_pow_right (by decide) (by omega))
    rw [BitVec.getMsbD_eq_getLsbD, ← BitVec.testBit_toNat, Nat.testBit_lt_two_pow hpow, Bool.and_false]

theorem getMsbD_zerosAbove (h : zerosAbove a < n) : a.getMsbD (zerosAbove a) = true := by
  have ha : a ≠ 0 := fun h0 => by rw [zerosAbove, if_pos h0] at h; exact Nat.lt_irrefl n h
  have hlog := log2_lt_width ha
  have hbit : a.toNat.testBit a.toNat.log2 = true := Nat.testBit_log2 fun h0 => ha (BitVec.eq_of_toNat_eq h0)
  rw [BitVec.getMsbD_eq_getLsbD, ← BitVec.testBit_toNat, decide_eq_true h, Bool.true_and, zerosAbove, if_neg ha,
    show n - 1 - (n - 1 - a.toNat.log2) = a.toNat.log2 by omega, hbit]

/-- Counting `f` bits upwards from bit `k` comes to the first one bit met, or to the end. -/
theorem ctzFrom_spec (f k : Nat) : k ≤ ctzFrom a f k ∧ ctzFrom a f k ≤ k + f ∧
    (∀ j, k ≤ j → j < ctzFrom a f k → a.getLsbD j = false) ∧ (ctzFrom a f k < k + f → a.getLsbD (ctzFrom a f k) = true) := by
  induction f generalizing k with
  | zero => exact ⟨Nat.le_refl k, Nat.le_refl k, fun j h1 h2 => absurd h2 (Nat.not_lt.mpr h1), fun h => absurd h (Nat.lt_irrefl k)⟩
  | succ f ih =>
    rw [ctzFrom]
    split
    case isTrue h => exact ⟨Nat.le_refl k, by omega, fun j h1 h2 => absurd h2 (Nat.not_lt.mpr h1), fun _ => h⟩
    case isFalse h =>
      obtain ⟨hlow, hhigh, hzero, hone⟩ := ih (k + 1)
      refine ⟨by omega, by omega, fun j h1 h2 => ?_, fun h => hone (by omega)⟩
      rcases Nat.eq_or_lt_of_le h1 with rfl | h1
      · exact eq_false_of_ne_true h
      · exact hzero j h1 h2

theorem lanePopc_eq : lanePopc a = BitVec.ofNat n ((List.range n).countP fun k => a.getLsbD k) := by
  rw [lanePopc, List.countP_eq_length_filter]

end OneLane

/-- 06 R127: the words that count bits. -/
theorem bitCounts_hold : bitCountsClaim := by
  intro s w d a
  refine ⟨fun h => ?clz, fun h => ?ctz, fun h => ?popc⟩
  case clz =>
    obtain ⟨t, ht, hlanes, hw⟩ := intWord1_next (w := w) (d := d) (a := a) (op := fun _ x => laneClz x) h
    exact ⟨t, ht, hw, fun l hl => ⟨_, zerosAbove_le _, (hlanes l hl).trans (laneClz_eq _),
      fun _ => getMsbD_before_zerosAbove _, getMsbD_zerosAbove _⟩⟩
  case ctz =>
    obtain ⟨t, ht, hlanes, hw⟩ := intWord1_next (w := w) (d := d) (a := a) (op := fun _ x => laneCtz x) h
    refine ⟨t, ht, hw, fun l hl => ?_⟩
    obtain ⟨-, hhigh, hzero, hone⟩ := ctzFrom_spec (laneOf w l (s.opndA w a)) (laneBits w) 0
    rw [Nat.zero_add] at hhigh hone
    exact ⟨_, hhigh, hlanes l hl, fun j => hzero j j.zero_le, hone⟩
  case popc =>
    obtain ⟨t, ht, hlanes, hw⟩ := intWord1_next (w := w) (d := d) (a := a) (op := fun _ x => lanePopc x) h
    exact ⟨t, ht, hw, fun l hl => (hlanes l hl).trans (lanePopc_eq _)⟩

/-! ## Words whose result is one register (06 R129 to R131, R136) -/

/-- lui's value: the immediate above twelve zero bits (06 R130). -/
theorem append_zeros_eq (i : BitVec 20) : i ++ (0 : BitVec 12) = BitVec.ofNat 32 (i.toNat * 2 ^ 12) := by
  apply BitVec.eq_of_toNat_eq
  rw [BitVec.toNat_append, BitVec.toNat_ofNat, Nat.mod_eq_of_lt (by omega), Nat.shiftLeft_eq]
  exact Nat.or_zero _

theorem shiftLeft_eq_mul (x : MWord) (k : Nat) : x <<< k = x * BitVec.ofNat 32 (2 ^ k) := by
  rw [BitVec.shiftLeft_eq_mul_twoPow]; congr 1
  apply BitVec.eq_of_toNat_eq; rw [BitVec.toNat_twoPow, BitVec.toNat_ofNat]

theorem ushiftRight_eq_div (x : MWord) (k : Nat) : x >>> k = BitVec.ofNat 32 (x.toNat / 2 ^ k) := by
  apply BitVec.eq_of_toNat_eq
  rw [BitVec.toNat_ushiftRight, Nat.shiftRight_eq_div_pow, BitVec.toNat_ofNat,
    Nat.mod_eq_of_lt (Nat.lt_of_le_of_lt (Nat.div_le_self _ _) x.isLt)]

/-- A word of one register whose value is `v`. -/
theorem oneWord_writes {s : State} {i : Instr} {d : VReg} {f : State → MWord} {v : MWord}
    (he : ∀ s, exec i s = oneWord i d f s) (hv : f s = v) (h : s.intact i) :
    ∃ t, exec i s = .next t ∧ t.reg d.toNat = v ∧ WordWrites s t [d.toNat] := by
  subst hv; rw [he]; exact oneWord_next h

/-- 06 R129 to R131, R136: sel, mtid, the immediate words and lui. -/
theorem oneRegisterWords_hold : oneRegisterWordsClaim := by
  intro s d a b c i14 i20 sh
  simp only [oneRegister, List.forall_mem_cons]
  refine ⟨?sel, ?mtid, ?addi, ?andi, ?ori, ?xori, ?slli, ?srli, ?srai, ?lui, List.forall_mem_nil _⟩
  case sel | mtid | addi | andi | ori | xori => exact oneWord_writes (fun _ => rfl) rfl
  case slli => exact oneWord_writes (fun _ => rfl) (shiftLeft_eq_mul _ _)
  case srli => exact oneWord_writes (fun _ => rfl) (ushiftRight_eq_div _ _)
  case srai => exact oneWord_writes (fun _ => rfl) (sshiftRight_eq_div _ _)
  case lui => exact oneWord_writes (fun _ => rfl) (append_zeros_eq i20)

/-! ## Bit fields (06 R132, R133) -/

/-- The mask of `len` one bits from bit `pos`; bits at or above 32 are dropped. -/
theorem getLsbD_maskFrom (pos len k : Nat) : (BitVec.ofNat 32 ((2 ^ len - 1) * 2 ^ pos)).getLsbD k =
    decide (k < 32 ∧ pos ≤ k ∧ k < pos + len) := by
  rw [BitVec.getLsbD_ofNat, Nat.testBit_mul_two_pow, Nat.testBit_two_pow_sub_one, Bool.eq_iff_iff]
  simp only [Bool.and_eq_true, decide_eq_true_eq]
  omega

theorem getLsbD_lowBits (x : MWord) (len k : Nat) : (lowBits x len).getLsbD k = (decide (k < len) && x.getLsbD k) := by
  rw [lowBits, BitVec.getLsbD_ofNat, Nat.testBit_mod_two_pow, BitVec.testBit_toNat]
  by_cases hk : k < 32
  · rw [decide_eq_true hk, Bool.true_and]
  · rw [decide_eq_false hk, Bool.false_and, BitVec.getLsbD_of_ge x k (Nat.le_of_not_lt hk), Bool.and_false]

theorem toNat_lowBits_lt (x : MWord) (len : Nat) : (lowBits x len).toNat < 2 ^ len := by
  rw [lowBits, BitVec.toNat_ofNat]
  exact Nat.lt_of_le_of_lt (Nat.mod_le _ _) (Nat.mod_lt _ (Nat.two_pow_pos _))

/-- A field is negative where its top bit is one. -/
theorem le_toNat_lowBits_iff (x : MWord) (m : Nat) : 2 ^ m ≤ (lowBits x (m + 1)).toNat ↔ x.getLsbD m = true := by
  have hbit : (lowBits x (m + 1)).toNat.testBit m = x.getLsbD m := by
    rw [BitVec.testBit_toNat, getLsbD_lowBits, decide_eq_true m.lt_succ_self, Bool.true_and]
  rw [← hbit]
  exact ⟨fun h => Nat.testBit_of_two_pow_le_and_two_pow_add_one_gt h (toNat_lowBits_lt x (m + 1)), Nat.ge_two_pow_of_testBit⟩

/-- −2^len, as a word, is the mask of every bit from bit `len`. -/
theorem neg_two_pow_eq_mask {len : Nat} (h : len ≤ 32) :
    -BitVec.ofNat 32 (2 ^ len) = BitVec.ofNat 32 ((2 ^ (32 - len) - 1) * 2 ^ len) := by
  apply BitVec.eq_of_toNat_eq
  rw [Nat.sub_mul, ← Nat.pow_add, Nat.sub_add_cancel h, Nat.one_mul]
  rcases Nat.eq_or_lt_of_le h with rfl | h
  · rfl
  · have hlt : 2 ^ len < 2 ^ 32 := Nat.pow_lt_pow_right (by decide) h
    rw [BitVec.toNat_neg, BitVec.toNat_ofNat, BitVec.toNat_ofNat, Nat.mod_eq_of_lt hlt]

/-- Taking 2^len from a field of `len` bits sets every bit above it. -/
theorem lowBits_sub_pow (x : MWord) {len : Nat} (h : len ≤ 32) :
    lowBits x len - BitVec.ofNat 32 (2 ^ len) = lowBits x len ||| BitVec.ofNat 32 ((2 ^ (32 - len) - 1) * 2 ^ len) := by
  have hdisjoint : lowBits x len &&& BitVec.ofNat 32 ((2 ^ (32 - len) - 1) * 2 ^ len) = 0#32 := by
    refine BitVec.eq_of_getLsbD_eq fun k hk => ?_
    rw [BitVec.getLsbD_and, getLsbD_lowBits, getLsbD_maskFrom]
    by_cases hl : k < len
    · rw [decide_eq_false (p := k < 32 ∧ _) (by omega), Bool.and_false, BitVec.getLsbD_zero]
    · rw [decide_eq_false hl, Bool.false_and, Bool.false_and, BitVec.getLsbD_zero]
  rw [BitVec.sub_eq_add_neg, neg_two_pow_eq_mask h, BitVec.add_eq_or_of_and_eq_zero _ _ hdisjoint]

/-- The bits of a signed field of `m + 1` bits: those of the value, then copies of the field's top bit. -/
theorem getLsbD_signedField (x : MWord) {m k : Nat} (hm : m < 32) (hk : k < 32) :
    (if 2 ^ m ≤ (lowBits x (m + 1)).toNat then lowBits x (m + 1) - BitVec.ofNat 32 (2 ^ (m + 1)) else lowBits x (m + 1)).getLsbD k
      = if k ≤ m then x.getLsbD k else x.getLsbD m := by
  simp only [le_toNat_lowBits_iff, lowBits_sub_pow x (Nat.succ_le_of_lt hm)]
  split
  case isTrue hx =>
    rw [BitVec.getLsbD_or, getLsbD_lowBits, getLsbD_maskFrom, hx]
    by_cases hkm : k ≤ m
    · rw [if_pos hkm, decide_eq_true (Nat.lt_succ_of_le hkm), decide_eq_false (by omega), Bool.true_and, Bool.or_false]
    · rw [if_neg hkm, decide_eq_true (p := k < 32 ∧ _) (by omega), Bool.or_true]
  case isFalse hx =>
    rw [getLsbD_lowBits, eq_false_of_ne_true hx]
    by_cases hkm : k ≤ m
    · rw [if_pos hkm, decide_eq_true (Nat.lt_succ_of_le hkm), Bool.true_and]
    · rw [if_neg hkm, decide_eq_false (by omega), Bool.false_and]

/-- bfx's shifted value holds the bits of A as the rule reads them: 0, or copies of bit 31, above bit 31 (06 R132). -/
theorem getLsbD_shifted (sign : Bool) (x : MWord) (pos : Nat) {k : Nat} (hk : k < 32) :
    (if sign then x.sshiftRight pos else x >>> pos).getLsbD k = fieldBit sign x (pos + k) := by
  cases sign
  case false =>
    rw [if_neg Bool.false_ne_true, BitVec.getLsbD_ushiftRight, fieldBit, Bool.false_and]
    split
    case isTrue => rfl
    case isFalse h => exact BitVec.getLsbD_of_ge x _ (Nat.le_of_not_lt h)
  case true =>
    rw [if_pos rfl, BitVec.getLsbD_sshiftRight, fieldBit, BitVec.msb_eq_getLsbD_last, decide_eq_false (Nat.not_le.mpr hk)]; rfl

/-- 06 R132: the bits of bfx's result. -/
theorem getLsbD_bfxField (sign : Bool) (x : MWord) (pos : Nat) {m k : Nat} (hm : m < 32) (hk : k < 32) :
    (bfxField sign x pos (m + 1)).getLsbD k = if k ≤ m then fieldBit sign x (pos + k) else sign && fieldBit sign x (pos + m) := by
  rw [← getLsbD_shifted sign x pos hk, ← getLsbD_shifted sign x pos hm, bfxField]
  cases sign
  case false =>
    simp only [Bool.false_eq_true, false_and, if_false, getLsbD_lowBits, Nat.lt_succ_iff, Bool.false_and]
    by_cases hkm : k ≤ m
    · rw [if_pos hkm, decide_eq_true hkm, Bool.true_and]
    · rw [if_neg hkm, decide_eq_false hkm, Bool.false_and]
  case true =>
    simp only [true_and, if_true, Nat.add_sub_cancel, Bool.true_and]
    exact getLsbD_signedField _ hm hk

/-- 06 R133: the bits of bfi's result. -/
theorem getLsbD_bfiMerge (old x : MWord) (pos m : Nat) {k : Nat} (hk : k < 32) :
    (bfiMerge old x pos (m + 1)).getLsbD k = if pos ≤ k ∧ k ≤ pos + m then x.getLsbD (k - pos) else old.getLsbD k := by
  simp only [bfiMerge, BitVec.getLsbD_or, BitVec.getLsbD_and, BitVec.getLsbD_not, BitVec.getLsbD_shiftLeft, getLsbD_maskFrom]
  by_cases h : pos ≤ k ∧ k ≤ pos + m
  · rw [if_pos h, decide_eq_true (p := k < 32 ∧ _) ⟨hk, h.1, Nat.lt_succ_of_le h.2⟩, decide_eq_false (Nat.not_lt.mpr h.1), decide_eq_true hk]
    simp only [Bool.not_true, Bool.not_false, Bool.and_false, Bool.and_true, Bool.true_and, Bool.false_or]
  · rw [if_neg h, decide_eq_false (p := k < 32 ∧ _) (by omega), decide_eq_true hk]
    simp only [Bool.not_false, Bool.and_true, Bool.true_and, Bool.and_false, Bool.or_false]

/-- 06 R132, R133: bfx and bfi. -/
theorem bitFields_hold : bitFieldsClaim := by
  intro s sign d a pos len
  refine ⟨fun hwf h => ?bfx, fun _ h => ?bfi⟩
  case bfx =>
    obtain ⟨-, hlen⟩ : pos.toNat < 32 ∧ len.toNat < 32 := of_decide_eq_true hwf
    obtain ⟨t, ht, hd, hw⟩ := oneWord_writes
      (f := fun s => bfxField sign (s.regA a 0) pos.toNat (len.toNat + 1)) (fun _ => rfl) rfl h
    exact ⟨t, ht, hw, fun k hk => by rw [hd]; exact getLsbD_bfxField sign _ _ hlen hk⟩
  case bfi =>
    obtain ⟨t, ht, hd, hw⟩ := oneWord_writes
      (f := fun s => bfiMerge (s.reg d.toNat) (s.regA a 0) pos.toNat (len.toNat + 1)) (fun _ => rfl) rfl h
    exact ⟨t, ht, hw, fun k hk => by rw [hd]; exact getLsbD_bfiMerge _ _ _ _ hk⟩

/-- Settles O51: the three claims, each proved above. -/
theorem bitWords : Obligations.BitWords := ⟨bitCounts_hold, oneRegisterWords_hold, bitFields_hold⟩

end Sys2Proof.Machine
end

section
/-! PROOF. 07 R161 to R163: the plane words. A result register is packed from elements, an element is read from its planes with
the sign plane first, and both are given bit by bit. -/

namespace Sys2Proof.Machine

/-! ## Packed elements (03 R61) -/

/-- Bit `j` of packed element `k`; the elements past the last are 0. -/
theorem testBit_packElems (n : Nat) (xs : List Nat) (k : Nat) {j : Nat} (hj : j < n) :
    (packElems n xs).testBit (n * k + j) = (xs.getD k 0).testBit j := by
  induction xs generalizing k with
  | nil => rw [packElems, List.getD_nil, Nat.zero_testBit, Nat.zero_testBit]
  | cons x xs ih =>
    rw [packElems, Nat.add_comm (x % 2 ^ n), Nat.testBit_two_pow_mul_add _ (Nat.mod_lt x (Nat.two_pow_pos n))]
    cases k with
    | zero =>
      rw [Nat.mul_zero, Nat.zero_add, if_pos hj, Nat.testBit_mod_two_pow, decide_eq_true hj, Bool.true_and, List.getD_cons_zero]
    | succ k =>
      have hpos : n * (k + 1) + j = n * k + j + n := by rw [Nat.mul_succ]; omega
      rw [hpos, if_neg (by omega), Nat.add_sub_cancel, ih, List.getD_cons_succ]

/-- Bit `j` of element `k` in a register that packs `m` elements of `n` bits. -/
theorem getLsbD_packRange (f : Nat → Nat) {n m k j : Nat} (hm : n * m ≤ 32) (hk : k < m) (hj : j < n) :
    (BitVec.ofNat 32 (packElems n ((List.range m).map f))).getLsbD (n * k + j) = (f k).testBit j := by
  have hpos : n * k + j < 32 := calc
    n * k + j < n * (k + 1) := Nat.add_lt_add_left hj _
    _ ≤ n * m := Nat.mul_le_mul_left n hk
    _ ≤ 32 := hm
  have hget : ((List.range m).map f).getD k 0 = f k := by simp [List.getD_eq_getElem?_getD, hk]
  rw [BitVec.getLsbD_ofNat, decide_eq_true hpos, Bool.true_and, testBit_packElems n _ k hj, hget]

/-- Bit `i` of a register that packs 32 single bits. -/
theorem getLsbD_packBits (f : Nat → Bool) {i : Nat} (hi : i < 32) :
    (BitVec.ofNat 32 (packElems 1 ((List.range 32).map fun i => (f i).toNat))).getLsbD i = f i := by
  have hbit := getLsbD_packRange (fun i => (f i).toNat) (Nat.le_refl (1 * 32)) hi Nat.one_pos
  rwa [Nat.one_mul, Nat.add_zero, Nat.testBit_bool_toNat, decide_eq_true rfl, Bool.true_and] at hbit

/-! ## An element read from its planes (07 R161, R162) -/

/-- The number whose bits, from the most significant one down, are `f 0` to `f (q - 1)`. -/
def planesNat (f : Nat → Bool) (q : Nat) : Nat := (List.range q).foldl (fun w p => 2 * w + (f p).toNat) 0

theorem planesNat_succ (f : Nat → Bool) (q : Nat) : planesNat f (q + 1) = 2 * planesNat f q + (f q).toNat := by
  rw [planesNat, List.range_succ, List.foldl_append]; rfl

theorem testBit_planesNat (f : Nat → Bool) (q j : Nat) :
    (planesNat f q).testBit j = (decide (j < q) && f (q - 1 - j)) := by
  induction q generalizing j with
  | zero => exact Nat.zero_testBit j
  | succ q ih =>
    have hbit : (planesNat f (q + 1)).testBit j = if j < 1 then (f q).toNat.testBit j else (planesNat f q).testBit (j - 1) := by
      rw [planesNat_succ]
      exact Nat.testBit_two_pow_mul_add (i := 1) _ (Bool.toNat_lt (f q)) j
    rw [hbit]
    cases j with
    | zero =>
      rw [if_pos Nat.one_pos, Nat.testBit_bool_toNat, decide_eq_true rfl, Bool.true_and, decide_eq_true q.succ_pos, Bool.true_and,
        show q + 1 - 1 - 0 = q from rfl]
    | succ j =>
      rw [if_neg (by omega), Nat.add_sub_cancel, ih, show q + 1 - 1 - (j + 1) = q - 1 - j by omega]
      simp only [Nat.add_lt_add_iff_right]

theorem planesNat_lt (f : Nat → Bool) (q : Nat) : planesNat f q < 2 ^ q :=
  Nat.lt_pow_two_of_testBit _ fun j hj => by
    rw [testBit_planesNat, decide_eq_false (Nat.not_lt.mpr hj), Bool.false_and]

/-- The same number, as a word of `q` bits. -/
def planesWord (f : Nat → Bool) (q : Nat) : BitVec q := BitVec.ofNat q (planesNat f q)

theorem getLsbD_planesWord (f : Nat → Bool) {q j : Nat} (hj : j < q) : (planesWord f q).getLsbD j = f (q - 1 - j) := by
  rw [planesWord, BitVec.getLsbD_ofNat, testBit_planesNat, decide_eq_true hj, Bool.true_and, Bool.true_and]

/-- The most significant plane is the sign. -/
theorem msb_planesWord (f : Nat → Bool) {q : Nat} (hq : 0 < q) : (planesWord f q).msb = f 0 := by
  rw [BitVec.msb_eq_getLsbD_last, getLsbD_planesWord f (Nat.sub_lt hq Nat.one_pos), Nat.sub_self]

/-- The signed value, as R162 computes it from the unsigned one. -/
theorem toInt_planesWord (f : Nat → Bool) {q : Nat} (hq : 0 < q) : (planesWord f q).toInt =
    if 2 ^ (q - 1) ≤ planesNat f q then (planesNat f q : Int) - 2 ^ q else planesNat f q := by
  have hpow : 2 ^ q = 2 * 2 ^ (q - 1) := by rw [← Nat.pow_succ', Nat.succ_eq_add_one, Nat.sub_add_cancel hq]
  rw [planesWord, BitVec.toInt_eq_toNat_cond, BitVec.toNat_ofNat, Nat.mod_eq_of_lt (planesNat_lt f q)]
  by_cases hneg : 2 ^ (q - 1) ≤ planesNat f q
  · rw [if_pos hneg, if_neg (by omega), Int.natCast_pow]; rfl
  · rw [if_neg hneg, if_pos (by omega)]

/-- pnix's element is the signed value of its planes. -/
theorem pniElem_eq_toInt (a b : MWord) (k : Nat) {q : Nat} (hq : 0 < q) :
    pniElem a b k q = (planesWord (planeBit a b · k) q).toInt :=
  (toInt_planesWord (planeBit a b · k) hq).symm

/-- The byte that pnix stores is that value, sign-extended. -/
theorem pniElem_mod_eq_signExtend (a b : MWord) (k : Nat) {q : Nat} (hq : 0 < q) :
    (pniElem a b k q % 256).toNat = ((planesWord (planeBit a b · k) q).signExtend 8).toNat := by
  rw [pniElem_eq_toInt a b k hq, BitVec.signExtend, BitVec.toNat_ofInt]; rfl

/-- The bits of that byte: the first `q` planes from the last one up, and plane 0 above them. -/
theorem testBit_pniElem (a b : MWord) (k : Nat) {q j : Nat} (hq : 0 < q) (hj : j < 8) :
    (pniElem a b k q % 256).toNat.testBit j = planeBit a b (q - 1 - j) k := by
  rw [pniElem_mod_eq_signExtend a b k hq, BitVec.testBit_toNat, BitVec.getLsbD_signExtend, decide_eq_true hj, Bool.true_and]
  split
  case isTrue h => exact getLsbD_planesWord _ h
  case isFalse h => rw [msb_planesWord _ hq, show q - 1 - j = 0 by omega]

/-! ## The words -/

/-- Settles O4: pnix packs four sign-extended elements, pnit 32 bits. -/
theorem planeWords : Obligations.PlaneWords := by
  intro s q d a b hq _
  refine ⟨fun h => ?pnix, fun h => ?pnit⟩
  case pnix =>
    obtain ⟨t, ht, hd, hw⟩ := oneWord_writes (i := .pnix q d a b) (fun _ => rfl) rfl h
    refine ⟨t, ht, hw, fun k hk j hj => ?_⟩
    rw [hd, getLsbD_packRange _ (by decide) hk hj, testBit_pniElem _ _ _ (by omega) hj]
  case pnit =>
    obtain ⟨t, ht, hd, hw⟩ := oneWord_writes (i := .pnit q d a b) (fun _ => rfl) rfl h
    refine ⟨t, ht, hw, fun p hp k hk => ?_⟩
    rw [hd, getLsbD_packBits (fun i => pnitBit (s.regA a 0) (s.reg b.toNat) q.toNat (i / 8) (i % 8)) (by omega),
      show (8 * p + k) / 8 = p by omega, show (8 * p + k) % 8 = k by omega, pnitBit]

end Sys2Proof.Machine
end
